-- ==== Sys2Proof/Word.lean ====
section
/-!
DEFINITION. The word types of the cw-companion CORE (00_scope.md rule R12) and the fixed sizes of its
data formats (rule R9). Bit-sequence helpers live in Machine/Bits.lean.
-/

namespace Sys2Proof

/-- A port word, a control register or a command word: 32 bits (R12). -/
abbrev Word := BitVec 32

/-- An audio sample: a signed two's-complement 16-bit integer; also the type of an unsigned 16-bit
spectrogram magnitude (R12). -/
abbrev Half := BitVec 16

/-- A tone index or a 3-bit symbol group (R9: 8 tones, 3 bits per symbol). -/
abbrev Tone := BitVec 3

end Sys2Proof
end

