-- ==== Sys2Proof/Machine/Bits.lean ====
section
/-!
DEFINITION. Bit sequences and the small arithmetic of 00_scope.md rules R13 to R16.

A bit buffer `B[0..n-1]` is a `BitVec n` whose MOST significant bit is `B[0]`: index 0 is the first
bit (R13) and the lowest index of an integer field is its most significant bit (R14), so `val(B)` is
`B.toNat`, `B[i]` is `B.getMsbD i`, and `X ++ Y` is the concatenation of the rules.
-/

namespace Sys2Proof.Machine

/-- The bit sequence of length `n` whose element `i` is `f i` (R13). -/
def bitsOfFn : (n : Nat) → (Nat → Bool) → BitVec n
  | 0, _ => 0#0
  | n + 1, f => (bitsOfFn n f).concat (f n)

/-- `B` with element `i` replaced by `b` (`B[i] <- b`, R17). -/
def putBit {n : Nat} (x : BitVec n) (i : Nat) (b : Bool) : BitVec n :=
  bitsOfFn n fun k => if k = i then b else x.getMsbD k

/-- `B[start .. start+len-1]` (R13). -/
def slice {n : Nat} (x : BitVec n) (start len : Nat) : BitVec len :=
  x.extractLsb' (n - start - len) len

/-- `XOR_{i in l} f(i)`, the GF(2) sum, 0 for an empty `l` (R16). -/
def xorSum (l : List Nat) (f : Nat → Bool) : Bool :=
  l.foldr (fun i acc => f i ^^ acc) false

/-- `sgn` of R16: −1 for negative numbers, +1 for zero and positive ones. -/
def sgn (x : Int) : Int := if x < 0 then -1 else 1

/-- The largest element of a list; every list it is used on has four elements
(46_demodulator.md rule R227; the empty list is log entry 22, DESIGN CHOICE). -/
def maxOf : List Int → Int
  | [] => 0
  | x :: xs => xs.foldl max x

/-- The least element of a list of magnitudes; every list it is used on is non-empty
(43_bp_decoder.md rule R172 constraint H3; the empty list is log entry 22, DESIGN CHOICE). -/
def minOf : List Nat → Nat
  | [] => 0
  | x :: xs => xs.foldl min x

/-- A radix field's value: the first digit is the most significant (41_packer.md rule R133). -/
def radixValue (q : Nat) (digits : List Nat) : Nat :=
  digits.foldl (fun v d => v * q + d) 0

/-- The `n` digits of a radix field's value, digit `i` being `(v div q^(n-1-i)) mod q`
(41_packer.md rule R133). -/
def radixDigits (q n v : Nat) : List Nat :=
  (List.range n).map fun i => v / q ^ (n - 1 - i) % q

end Sys2Proof.Machine
end

