-- ==== Sys2Proof/Machine/Layout.lean ====
section
/-!
DEFINITION. What a payload layout is made of: alphabets, radix fields, integer fields, tag bits and
spare bits (41_packer.md rules R131 to R135, 30_encoding.md rule R107). Which fields a layout has,
where they stand in the payload and in MSG, and what its alphabets are is open (30_encoding.md rules
R101 and R107, 91_not_in_source.md N9, N16).
-/

namespace Sys2Proof.Machine

/-- An alphabet: the code point of each code, code 0 first (R132). A character is one MSG word. -/
abbrev Alphabet := List Word

/-- The character with code `k`; a code the alphabet does not have is log entry 22 (DESIGN CHOICE). -/
def Alphabet.char (a : Alphabet) (k : Nat) : Word := a.getD k 0#32

/-- `idx_A(c)`: the code of the character `c`, none where it is undefined, for a character that is not
in the alphabet (R132). -/
def Alphabet.code (a : Alphabet) (c : Word) : Option Nat := if c ∈ a then some (a.idxOf c) else none

/-- What a field holds, as far as PF6 (R131) speaks of it; the layout says it (log entry 18, DEDUCED). -/
inductive FieldRole where
  | callSign | report | locator | other
  deriving DecidableEq, Repr

/-- How a field holds its value. -/
inductive FieldKind where
  /-- A string over an alphabet, as a radix number (R133). -/
  | text (a : Alphabet)
  /-- An integer, two's complement when `signed` (R134). `legal` is the layout's further restriction,
  and `words` the layout's MSG words of a value. -/
  | integer (signed : Bool) (legal : Int → Bool) (words : Int → List Word)

/-- A field of a layout: its payload bits, the most significant first, and its MSG words, a string's
first character first. Which bits and which words they are is the layout's, and they need not be runs
(R101, R107; log entry 18); the payload bits ascend (`Field.Lawful.ascending`, R14). -/
structure Field where
  role : FieldRole
  kind : FieldKind
  bits : List Nat
  places : List Nat

/-- The width of a field in the payload, the w of R133 and R134. -/
def Field.width (f : Field) : Nat := f.bits.length

/-- The number of MSG words of a field, the n of R133 for a string. -/
def Field.count (f : Field) : Nat := f.places.length

/-- The legal values of a field: below q^n for a radix field (R133); of the field's range, and of the
layout's, for an integer (R134). -/
def Field.legal (f : Field) (v : Int) : Bool :=
  match f.kind with
  | .text a => decide (0 ≤ v ∧ v < (a.length : Int) ^ f.count)
  | .integer true legal _ =>
    decide (-(2 : Int) ^ (f.width - 1) ≤ v ∧ v < (2 : Int) ^ (f.width - 1)) && legal v
  | .integer false legal _ => decide (0 ≤ v ∧ v < (2 : Int) ^ f.width) && legal v

/-- The MSG words of a field's value: for a string the characters of its digits, the most significant
first (R133). -/
def Field.words (f : Field) (v : Int) : List Word :=
  match f.kind with
  | .text a => (radixDigits a.length f.count v.toNat).map a.char
  | .integer _ _ words => words v

/-- The payload bits of a field's value: `bits_w(v mod 2^w)` (R133, R134). -/
def Field.pattern (f : Field) (v : Int) : BitVec f.width := BitVec.ofInt f.width v

/-- The field's bits of the payload `p` hold the value `v`, most significant bit first (R133, R134). -/
def Field.inPayload (f : Field) (v : Int) (p : BitVec 77) : Prop :=
  ∀ k < f.width, p.getMsbD (f.bits.getD k 0) = (f.pattern v).getMsbD k

/-- The field's words of the message `m` hold the value `v`. -/
def Field.inMessage (f : Field) (v : Int) (m : List Word) : Prop :=
  f.places.map (fun j => m.getD j 0#32) = f.words v

/-- One form a message can take: the variant, the tag bits, the selectors (fields whose value says that
a message has this form, with that value), and the fields that are free in it. -/
structure Form where
  variant : Fin 3
  tag : List (Nat × Bool)
  select : List (Field × Int)
  fields : List Field

/-- Every field of a form with its value, the selectors first. -/
def Form.entries (f : Form) (vals : List Int) : List (Field × Int) := f.select ++ f.fields.zip vals

/-- The fields of a form, the selectors first. -/
def Form.allFields (f : Form) : List Field := f.select.map Prod.fst ++ f.fields

/-- The values `vals` are one legal value for each free field. -/
def Form.legal (f : Form) (vals : List Int) : Prop :=
  vals.length = f.fields.length ∧ ∀ fv ∈ f.fields.zip vals, fv.1.legal fv.2 = true

/-- `m` is the message, of `n` words, that has these field values: word 0 is the variant, the fields'
words are as they say, wherever the layout puts them (`Field.places`), and every word that no field uses
is 0 (R107, PF5; log entry 18). -/
structure Form.message (f : Form) (n : Nat) (vals : List Int) (m : List Word) : Prop where
  length : m.length = n
  variant : m.getD 0 0#32 = BitVec.ofNat 32 f.variant.val
  fields : ∀ fv ∈ f.entries vals, fv.1.inMessage fv.2 m
  unused : ∀ j, 0 < j → (∀ g ∈ f.allFields, j ∉ g.places) → m.getD j 0#32 = 0#32

/-- `p` is the payload that has these field values: the tag and the fields' bits are as they say, and
every bit that is neither is spare and 0 (R133, R134, R135). -/
structure Form.payload (f : Form) (vals : List Int) (p : BitVec 77) : Prop where
  tag : ∀ ib ∈ f.tag, p.getMsbD ib.1 = ib.2
  fields : ∀ fv ∈ f.entries vals, fv.1.inPayload fv.2 p
  spare : ∀ i < 77, (∀ ib ∈ f.tag, ib.1 ≠ i) → (∀ g ∈ f.allFields, i ∉ g.bits) →
    p.getMsbD i = false

/-- A payload layout: its alphabets (R132), where the tag of each variant stands (PF3), and the forms of
its messages. -/
structure Layout where
  /-- The call-sign alphabet of size 37. -/
  call37 : Alphabet
  /-- The call-sign alphabet of size 38. -/
  call38 : Alphabet
  /-- The grid-locator alphabet, in as many parts as the layout gives it. -/
  grid : List Alphabet
  /-- The positions of the tag bits of each variant. -/
  tagAt : Fin 3 → List Nat
  forms : List Form

/-- What PF6 asks of a field by what it holds (log entry 18): a call sign is a string over one of the two call-sign
alphabets, a report and a locator are integers, and a locator's words are grid-locator characters. -/
def Field.roleLawful (l : Layout) (f : Field) : Prop :=
  match f.role, f.kind with
  | .callSign, .text a => a = l.call37 ∨ a = l.call38
  | .callSign, .integer _ _ _ => False
  | .report, .text _ => False
  | .report, .integer _ _ _ => True
  | .locator, .text _ => False
  | .locator, .integer _ _ words =>
    ∀ v, f.legal v = true → ∀ w ∈ words v, ∃ a ∈ l.grid, w ∈ a
  | .other, _ => True

/-- What R132 to R134 ask of a field by how it holds its value: a radix field is over an alphabet
without repeats and wide enough, q^n ≤ 2^w; an integer has as many words as the field. -/
def Field.kindLawful (f : Field) : Prop :=
  match f.kind with
  | .text a => a.Nodup ∧ a.length ^ f.count ≤ 2 ^ f.width
  | .integer _ _ words => ∀ v, f.legal v = true → (words v).length = f.count

/-- What the rules ask of a field: it has bits, all inside the payload, and words, not word 0, and every
word of it is in use: some two legal values differ there (log entry 18, DEDUCED). Its bits ascend, so the
lowest index of the payload holds its most significant bit, for every layout (R14, R133, R134). -/
structure Field.Lawful (l : Layout) (f : Field) : Prop where
  width : f.bits ≠ []
  inside : ∀ i ∈ f.bits, i < 77
  ascending : f.bits.Pairwise (· < ·)
  count : f.places ≠ []
  places : ∀ j ∈ f.places, 0 < j
  used : ∀ k < f.count, ∃ v w, f.legal v = true ∧ f.legal w = true ∧
    (f.words v).getD k 0#32 ≠ (f.words w).getD k 0#32
  kind : f.kindLawful
  role : f.roleLawful l

end Sys2Proof.Machine
end

