-- ==== Sys2Proof/Config.lean ====
section
/-!
DEFINITION. What is fixed for the life of the block: the open parameters of 00_scope.md rule R10 with
the constraints 93_implementation_defined.md section 1 puts on them, and the free values of the model
(the `any` of R17). None of it is state (10_state.md rule R59).
-/

namespace Sys2Proof

/-- ROM.PACKFMT, the payload layout: four functions (41_packer.md rule R131), and the alphabets, fields
and tags behind them (R132 to R135). A message is the list of the MSG_WORDS words of MSG; `none` is
`MALFORMED`, or "no variant" for `variantOf`. -/
structure PackFmt where
  /-- `valid_msg(M)`. -/
  validMsg : List Word → Bool
  /-- `pack(M)`, used on valid messages. -/
  pack : List Word → BitVec 77
  /-- `unpack(P)`. -/
  unpack : BitVec 77 → Option (List Word)
  /-- `variant_of(P)`. -/
  variantOf : BitVec 77 → Option (Fin 3)
  /-- The alphabets, and the forms a message can take. -/
  layout : Machine.Layout

/-- The open parameters, all of the list of rule R10. The NUM functions give one element at an index
(log entry 20, DESIGN CHOICE). -/
structure Config where
  /-- ROM.G, 83 rows by 91 columns (R152). -/
  genMatrix : Nat → Nat → Bool
  /-- ROM.H, 83 rows by 174 columns (R172). -/
  checkMatrix : Nat → Nat → Bool
  /-- ROM.POLY; bit k is the coefficient of x^k, the x^14 term is implicit (R121). -/
  poly : BitVec 14
  /-- ROM.CRC_PAD (R121). -/
  crcPad : Nat
  /-- ROM.SYNC\[b\]\[k\] (R191). -/
  sync : Nat → Nat → Tone
  /-- ROM.SYNCPOS\[b\] (R192). -/
  syncPos : Nat → Nat
  /-- ROM.GRAY\[v\] (R193). -/
  gray : Tone → Tone
  /-- ROM.PACKFMT (R131). -/
  packFmt : PackFmt
  /-- TONE_SPACING in Hz, numerator (R197). No state depends on it but through the NUM functions. -/
  toneSpacingNum : Nat
  /-- TONE_SPACING, denominator. -/
  toneSpacingDen : Nat
  /-- SYMBOL_PERIOD in seconds, numerator (R197). -/
  symbolPeriodNum : Nat
  /-- SYMBOL_PERIOD, denominator. -/
  symbolPeriodDen : Nat
  /-- NUM.stft: the samples and the sample rate to the magnitude at (t, f) (R207). -/
  stft : List Half → Word → Nat → Nat → Half
  /-- NUM.synth: the symbols, the sample rate and the base frequency to sample i (R199). -/
  synth : List Tone → Word → Word → Nat → Half
  /-- NUM.norm: the 58 rows of 8 magnitudes to the normalised value at (d, j) (R226). -/
  norm : List (List Half) → Nat → Nat → Int
  /-- MAX_SAMPLES, the capacity of SAMP and of WAVE. -/
  maxSamples : Nat
  /-- NF, the number of frequency bins. -/
  nf : Nat
  /-- MAX_CAND, the capacity of CAND in records. -/
  maxCand : Nat
  /-- MAX_RES, the capacity of RES in records. -/
  maxRes : Nat
  /-- MSG_WORDS, the number of words of MSG. -/
  msgWords : Nat
  /-- N_WORKERS, the number of internal workers; nothing depends on it (R83; log entry 19). -/
  nWorkers : Nat
  /-- BASE_ADDR, where the port sits in the platform's address space; no rule of the block reads it
  (R71; log entry 19). -/
  baseAddr : Nat
  /-- The folding function that goes with BASE_ADDR: (space, index) to an offset (R71). -/
  fold : BitVec 4 → BitVec 28 → Nat

namespace Config

/-- `N(m)`: the codeword bits in check `m`, ascending (R40, R172). -/
def checkBits (c : Config) (m : Nat) : List Nat :=
  (List.range 174).filter fun n => c.checkMatrix m n

/-- `M(n)`: the checks on codeword bit `n`, ascending (R40, R172). -/
def bitChecks (c : Config) (n : Nat) : List Nat :=
  (List.range 83).filter fun m => c.checkMatrix m n

/-- `GRAYINV[j]`: the group value that tone `j` carries (R193). -/
def grayInv (c : Config) (j : Tone) : Tone :=
  ((List.range 8).map (BitVec.ofNat 3)).find? (fun v => c.gray v == j) |>.getD 0#3

/-- The number of ones of a 3-bit value, for the Gray law of R193. -/
def ones3 (v : Tone) : Nat :=
  (v.getLsbD 0).toNat + (v.getLsbD 1).toNat + (v.getLsbD 2).toNat

/-- The laws of ROM.PACKFMT that speak of its four functions, PF1 to PF3 and PF5's first half (R131).
PF4 holds because the components are functions. `variants` is R130: each of the three variants is
supported, so each has a valid message (log entry 12, DEDUCED). -/
structure PackLaws (p : PackFmt) (msgWords : Nat) : Prop where
  /-- PF1, round trip. -/
  roundTrip : ∀ m, p.validMsg m = true → p.unpack (p.pack m) = some m
  /-- PF2, exact inverse. -/
  exactInverse : ∀ b m, p.unpack b = some m → p.validMsg m = true ∧ p.pack m = b
  /-- PF3: the tag names the message's variant. -/
  tagOfPack : ∀ m, p.validMsg m = true →
    (p.variantOf (p.pack m)).map Fin.val = some (m.getD 0 0#32).toNat
  /-- PF3: a payload with no variant does not unpack. -/
  noTag : ∀ b, p.variantOf b = none → p.unpack b = none
  /-- PF3: what unpacks is of the variant the tag names. -/
  tagOfUnpack : ∀ b m, p.unpack b = some m →
    (p.variantOf b).map Fin.val = some (m.getD 0 0#32).toNat
  /-- PF3: whether a payload is of variant `v` is read from the layout's one to three tag bits of `v`.
  Which values of them name `v`, and how many, is the layout's (91_not_in_source.md N16). -/
  tagBits : ∀ v, 1 ≤ (p.layout.tagAt v).length ∧ (p.layout.tagAt v).length ≤ 3 ∧
    (∀ i ∈ p.layout.tagAt v, i < 77) ∧
    ∀ b b' : BitVec 77, (∀ i ∈ p.layout.tagAt v, b.getMsbD i = b'.getMsbD i) →
      (p.variantOf b = some v ↔ p.variantOf b' = some v)
  /-- PF5: a valid message has MSG_WORDS words and a variant code 0, 1 or 2. -/
  validShape : ∀ m, p.validMsg m = true → m.length = msgWords ∧ (m.getD 0 0#32).toNat < 3
  /-- R130: each variant is supported. -/
  variants : ∀ v < 3, ∃ m, p.validMsg m = true ∧ (m.getD 0 0#32).toNat = v

/-- The laws of ROM.PACKFMT that speak of its alphabets and fields: PF5, PF6 and R132 to R135. That a
layout is a list of forms with fields, and what of it is assumed, is log entry 18 (DEDUCED). -/
structure LayoutLaws (p : PackFmt) (msgWords : Nat) : Prop where
  /-- R132: a table of 37 different characters. -/
  call37 : p.layout.call37.length = 37 ∧ p.layout.call37.Nodup
  /-- R132: a table of 38 different characters. -/
  call38 : p.layout.call38.length = 38 ∧ p.layout.call38.Nodup
  /-- R132: a grid-locator alphabet exists. -/
  grid : p.layout.grid ≠ [] ∧ ∀ a ∈ p.layout.grid, a ≠ [] ∧ a.Nodup
  /-- The tag bits of a form are those of its variant (PF3), so the only bits outside the fields that can
  be 1 are tag bits (R135). -/
  tags : ∀ form ∈ p.layout.forms, form.tag.map Prod.fst = p.layout.tagAt form.variant
  /-- PF6, R133 and R134, field by field. -/
  fields : ∀ form ∈ p.layout.forms, ∀ f ∈ form.allFields, f.Lawful p.layout
  /-- A selector's value is legal, and it selects: in every word of it some other form of the variant
  differs (log entry 18, DEDUCED). -/
  selects : ∀ form ∈ p.layout.forms, ∀ fv ∈ form.select, fv.1.legal fv.2 = true ∧
    ∀ k < fv.1.count, ∃ form' ∈ p.layout.forms, form'.variant = form.variant ∧
      ∃ v, (fv.1, v) ∈ form'.select ∧ (fv.1.words v).getD k 0#32 ≠ (fv.1.words fv.2).getD k 0#32
  /-- PF6: a standard call-sign exchange has a call sign, and every call sign is a base-37 or base-38
  number (`Field.roleLawful`). -/
  callSigns : ∀ form ∈ p.layout.forms, form.variant = 0 → ∃ f ∈ form.fields, f.role = .callSign
  /-- PF5, R107: the valid messages are those of legal field values, every unused word 0. -/
  valid : ∀ m, p.validMsg m = true ↔
    ∃ form ∈ p.layout.forms, ∃ vals, form.legal vals ∧ form.message msgWords vals m
  /-- R133 to R135: what `pack` writes, every spare bit 0. -/
  packs : ∀ form ∈ p.layout.forms, ∀ vals m, form.legal vals → form.message msgWords vals m →
    form.payload vals (p.pack m)
  /-- R133: a payload with legal field values and no spare bit set decodes, to those values. -/
  decodes : ∀ form ∈ p.layout.forms, ∀ vals b, form.legal vals → form.payload vals b →
    ∃ m, p.unpack b = some m ∧ form.message msgWords vals m

/-- What 93_implementation_defined.md section 1 lets a model assume of the open parameters. -/
structure Lawful (c : Config) : Prop where
  /-- ROM.POLY: bit 0 is 1 (R121). -/
  polyBit0 : c.poly.getLsbD 0 = true
  /-- GH1: with ROM.H = \[A | B\], A = B × ROM.G (R152). -/
  gh1 : ∀ j < 83, ∀ k < 91, c.checkMatrix j k =
    Machine.xorSum (List.range 83) fun r => c.checkMatrix j (91 + r) && c.genMatrix r k
  /-- H2: the 83 rows of ROM.H are independent (R172). -/
  fullRank : ∀ sel : Nat → Bool,
    (∀ n < 174, Machine.xorSum (List.range 83) (fun j => sel j && c.checkMatrix j n) = false) →
    ∀ j < 83, sel j = false
  /-- H3: every check has at least two bits (R172). -/
  rowWeight : ∀ m < 83, 2 ≤ (c.checkBits m).length
  /-- H4: every bit is in at least one check (R172). -/
  colWeight : ∀ n < 174, 1 ≤ (c.bitChecks n).length
  /-- ROM.SYNCPOS: ascending, not overlapping, inside the 79 symbols (R192). -/
  syncOrder : c.syncPos 0 + 7 ≤ c.syncPos 1 ∧ c.syncPos 1 + 7 ≤ c.syncPos 2 ∧
    c.syncPos 2 + 7 ≤ 79
  /-- ROM.GRAY is a permutation (R193). -/
  grayInjective : ∀ v w, c.gray v = c.gray w → v = w
  /-- ROM.GRAY: neighbouring tones carry groups that differ in one bit (R193). -/
  grayNeighbours : ∀ j : Nat, j < 7 →
    ones3 (c.grayInv (BitVec.ofNat 3 j) ^^^ c.grayInv (BitVec.ofNat 3 (j + 1))) = 1
  /-- ROM.PACKFMT (R131). -/
  pack : PackLaws c.packFmt c.msgWords
  /-- ROM.PACKFMT, its alphabets and fields (R131 to R135, R107). -/
  layout : LayoutLaws c.packFmt c.msgWords
  /-- TONE_SPACING is a positive rational (R197). -/
  toneSpacing : 0 < c.toneSpacingNum ∧ 0 < c.toneSpacingDen
  /-- SYMBOL_PERIOD is a positive rational (R197). -/
  symbolPeriod : 0 < c.symbolPeriodNum ∧ 0 < c.symbolPeriodDen
  /-- NUM.norm: every output magnitude is at most 2^30 − 1 (R226). -/
  normBound : ∀ e, ∀ d < 58, ∀ j < 8, (c.norm e d j).natAbs ≤ 2 ^ 30 - 1
  /-- MAX_SAMPLES ≥ 1, below 2^28. -/
  samplesCap : 1 ≤ c.maxSamples ∧ c.maxSamples < 2 ^ 28
  /-- NF ≥ 8. -/
  binsCap : 8 ≤ c.nf
  /-- MAX_CAND ≥ 1, 4 × MAX_CAND < 2^28, MAX_CAND ≤ 65536. -/
  candCap : 1 ≤ c.maxCand ∧ 4 * c.maxCand < 2 ^ 28 ∧ c.maxCand ≤ 65536
  /-- MAX_RES ≥ 1, (8 + MSG_WORDS) × MAX_RES < 2^28. -/
  resCap : 1 ≤ c.maxRes ∧ (8 + c.msgWords) * c.maxRes < 2 ^ 28
  /-- MSG_WORDS ≥ 1. -/
  wordsCap : 1 ≤ c.msgWords
  /-- N_WORKERS ≥ 1. -/
  workers : 1 ≤ c.nWorkers

/-- A free value (`any`, R17) of `w` bits: the draw's number and the element's index select it, and
nothing constrains it (log entry 1). -/
opaque freeBits (w draw index : Nat) : BitVec w

/-- A free value of a belief-propagation message (R32: unspecified, unobservable; log entry 1). -/
opaque freeInt (draw index : Nat) : Int

end Config

end Sys2Proof
end

