-- ==== Sys2Proof/Laws/Bits.lean ====
section
/-!
SUPPORT. The small lemmas of the bit sequences (00_scope.md rules R13 to R16): GF(2) sums, elements
and slices of a sequence, and the radix fields of 41_packer.md rule R133.
-/

namespace Sys2Proof.Machine

/-! ### GF(2) sums -/

@[simp] theorem xorSum_nil (f : Nat → Bool) : xorSum [] f = false := rfl

@[simp] theorem xorSum_cons (a : Nat) (l : List Nat) (f : Nat → Bool) :
    xorSum (a :: l) f = (f a ^^ xorSum l f) := rfl

theorem xorSum_append (l m : List Nat) (f : Nat → Bool) :
    xorSum (l ++ m) f = (xorSum l f ^^ xorSum m f) := by
  induction l with
  | nil => simp
  | cons a l ih => simp [ih]

theorem xorSum_congr {l : List Nat} {f g : Nat → Bool} (h : ∀ i ∈ l, f i = g i) :
    xorSum l f = xorSum l g := by
  induction l with
  | nil => rfl
  | cons a l ih =>
    simp only [xorSum_cons, h a (by simp), ih fun i hi => h i (by simp [hi])]

@[simp] theorem xorSum_false (l : List Nat) : (xorSum l fun _ => false) = false := by
  induction l with
  | nil => rfl
  | cons a l ih => simp [ih]

theorem xorSum_xor (l : List Nat) (f g : Nat → Bool) :
    (xorSum l fun i => f i ^^ g i) = (xorSum l f ^^ xorSum l g) := by
  induction l with
  | nil => rfl
  | cons a l ih =>
    simp only [xorSum_cons, ih]
    cases f a <;> cases g a <;> cases xorSum l f <;> cases xorSum l g <;> rfl

theorem xorSum_and_left (l : List Nat) (b : Bool) (f : Nat → Bool) :
    (xorSum l fun i => b && f i) = (b && xorSum l f) := by
  cases b <;> simp

theorem xorSum_and_right (l : List Nat) (b : Bool) (f : Nat → Bool) :
    (xorSum l fun i => f i && b) = (xorSum l f && b) := by
  cases b <;> simp

/-- Two nested sums can be taken in either order. -/
theorem xorSum_comm (l m : List Nat) (f : Nat → Nat → Bool) :
    (xorSum l fun i => xorSum m fun j => f i j) = xorSum m fun j => xorSum l fun i => f i j := by
  induction l with
  | nil => simp
  | cons a l ih => simp only [xorSum_cons, ih, xorSum_xor]

/-- A sum in which only index `j` counts. -/
theorem xorSum_single (n j : Nat) (f : Nat → Bool) :
    (xorSum (List.range n) fun r => (r == j) && f r) = (decide (j < n) && f j) := by
  induction n with
  | zero => simp
  | succ n ih =>
    rw [List.range_succ, xorSum_append, ih]
    simp only [xorSum_cons, xorSum_nil, Bool.xor_false]
    rcases Nat.lt_trichotomy n j with h | rfl | h
    · have : ¬ j < n := by omega
      have : ¬ j < n + 1 := by omega
      have : ¬ n = j := by omega
      simp [*]
    · simp
    · have : j < n + 1 := by omega
      have : (n == j) = false := by simp; omega
      simp [*]

/-- A sum over the indices that pass a test. -/
theorem xorSum_filter (l : List Nat) (p f : Nat → Bool) :
    xorSum (l.filter p) f = xorSum l fun i => p i && f i := by
  induction l with
  | nil => rfl
  | cons a l ih => by_cases h : p a <;> simp [h, ih]

theorem xorSum_map (l : List Nat) (g : Nat → Nat) (f : Nat → Bool) :
    xorSum (l.map g) f = xorSum l fun i => f (g i) := by
  induction l with
  | nil => rfl
  | cons a l ih => simp [ih]

/-- A sum over `a + b` indices is the sum over the first `a` and the sum over the other `b`. -/
theorem xorSum_range_add (a b : Nat) (f : Nat → Bool) :
    xorSum (List.range (a + b)) f =
      (xorSum (List.range a) f ^^ xorSum (List.range b) fun i => f (a + i)) := by
  rw [List.range_add, xorSum_append, xorSum_map]

/-! ### Elements of a bit sequence -/

theorem ext_msb {n : Nat} {x y : BitVec n} (h : ∀ i < n, x.getMsbD i = y.getMsbD i) : x = y := by
  apply BitVec.eq_of_getLsbD_eq
  intro i hi
  have := h (n - 1 - i) (by omega)
  rw [BitVec.getMsbD_eq_getLsbD, BitVec.getMsbD_eq_getLsbD] at this
  have e : n - 1 - (n - 1 - i) = i := by omega
  simpa [e, show n - 1 - i < n by omega] using this

theorem getMsbD_bitsOfFn (n : Nat) (f : Nat → Bool) (i : Nat) :
    (bitsOfFn n f).getMsbD i = (decide (i < n) && f i) := by
  induction n with
  | zero => simp [bitsOfFn]
  | succ n ih =>
    rw [bitsOfFn, BitVec.getMsbD_concat]
    by_cases h : i < n
    · simp [h, ih, show i < n + 1 by omega]
    · by_cases h' : i = n
      · subst h'; simp
      · simp [h, h', show ¬ i < n + 1 by omega]

theorem getMsbD_putBit {n : Nat} (x : BitVec n) (i : Nat) (b : Bool) (k : Nat) :
    (putBit x i b).getMsbD k = if k = i then decide (k < n) && b else x.getMsbD k := by
  rw [putBit, getMsbD_bitsOfFn]
  by_cases h : k = i
  · simp [h]
  · by_cases hk : k < n
    · simp [h, hk]
    · simp [h, hk, BitVec.getMsbD_eq_getLsbD]

theorem getMsbD_slice {n : Nat} (x : BitVec n) (start len i : Nat) (h : start + len ≤ n) :
    (slice x start len).getMsbD i = (decide (i < len) && x.getMsbD (start + i)) := by
  rw [slice, BitVec.getMsbD_eq_getLsbD, BitVec.getLsbD_extractLsb', BitVec.getMsbD_eq_getLsbD]
  by_cases hi : i < len
  · have e : n - start - len + (len - 1 - i) = n - 1 - (start + i) := by omega
    simp [hi, e, show len - 1 - i < len by omega, show start + i < n by omega]
  · simp [hi]

theorem getMsbD_append' {n m : Nat} (x : BitVec n) (y : BitVec m) (i : Nat) :
    (x ++ y).getMsbD i = if i < n then x.getMsbD i else y.getMsbD (i - n) := by
  rw [BitVec.getMsbD_append]
  by_cases h : i < n <;> simp [h, Nat.not_le.mpr, Nat.not_lt.mp]

/-- The first part of a concatenation. -/
theorem slice_append_left {n m : Nat} (x : BitVec n) (y : BitVec m) :
    slice (x ++ y) 0 n = x := by
  apply ext_msb
  intro i hi
  rw [getMsbD_slice _ _ _ _ (by omega), getMsbD_append']
  simp [hi]

/-- A slice beyond the first part of a concatenation is a slice of the second. -/
theorem slice_append_right {n m : Nat} (x : BitVec n) (y : BitVec m) (start len : Nat)
    (h : start + len ≤ m) : slice (x ++ y) (n + start) len = slice y start len := by
  apply ext_msb
  intro i hi
  rw [getMsbD_slice _ _ _ _ (by omega), getMsbD_slice _ _ _ _ h, getMsbD_append']
  simp [hi, show ¬ n + start + i < n by omega, show n + start + i - n = start + i by omega]

theorem slice_self {n : Nat} (x : BitVec n) : slice x 0 n = x := by
  apply ext_msb
  intro i hi
  rw [getMsbD_slice _ _ _ _ (by omega)]
  simp [hi]

/-- A sequence is its parts put together. -/
theorem append_slices {n m : Nat} (x : BitVec (n + m)) : slice x 0 n ++ slice x n m = x := by
  apply ext_msb
  intro i hi
  rw [getMsbD_append', getMsbD_slice _ _ _ _ (by omega), getMsbD_slice _ _ _ _ (by omega)]
  by_cases h : i < n
  · simp [h]
  · simp [h, show i - n < m by omega, show n + (i - n) = i by omega]

/-! ### Radix fields -/

theorem radixValue_append (q : Nat) (l : List Nat) (d : Nat) :
    radixValue q (l ++ [d]) = radixValue q l * q + d := by
  simp [radixValue, List.foldl_append]

@[simp] theorem length_radixDigits (q n v : Nat) : (radixDigits q n v).length = n := by
  simp [radixDigits]

theorem radixDigits_succ (q n v : Nat) :
    radixDigits q (n + 1) v = radixDigits q n (v / q) ++ [v % q] := by
  rw [radixDigits, radixDigits, List.range_succ, List.map_append]
  congr 1
  · apply List.map_congr_left
    intro i hi
    rw [List.mem_range] at hi
    rw [Nat.div_div_eq_div_mul, ← Nat.pow_succ',
      show n + 1 - 1 - i = (n - 1 - i).succ by omega]
  · simp

theorem radixDigit_lt {q n v d : Nat} (hq : 0 < q) (h : d ∈ radixDigits q n v) : d < q := by
  simp only [radixDigits, List.mem_map] at h
  obtain ⟨i, -, rfl⟩ := h
  exact Nat.mod_lt _ hq

/-- The value of a number's digits is the number, when it has that many (R133). -/
theorem radixValue_radixDigits (q n v : Nat) (h : v < q ^ n) :
    radixValue q (radixDigits q n v) = v := by
  induction n generalizing v with
  | zero => simp at h; simp [radixDigits, radixValue, h]
  | succ n ih =>
    rw [radixDigits_succ, radixValue_append, ih]
    · rw [Nat.mul_comm]; exact Nat.div_add_mod v q
    · apply Nat.div_lt_of_lt_mul; rw [Nat.mul_comm, ← Nat.pow_succ]; exact h

end Sys2Proof.Machine
end

