-- ==== Sys2Proof/Laws/Layout.lean ====
section
/-!
SUPPORT. What the laws of a payload layout say together: field values determine the message and the
payload, a string is its digits, and what `unpack` accepts (41_packer.md rules R131 to R139).
-/

namespace Sys2Proof.Machine

/-- Each field of a form has a value. -/
theorem Form.entry_of_field {f : Form} {vals : List Int} (hl : vals.length = f.fields.length)
    {g : Field} (hg : g ∈ f.allFields) : ∃ v, (g, v) ∈ f.entries vals := by
  rcases List.mem_append.1 hg with h | h
  · obtain ⟨fv, h', rfl⟩ := List.mem_map.1 h
    exact ⟨fv.2, List.mem_append.2 (.inl h')⟩
  · obtain ⟨k, hk, rfl⟩ := List.getElem_of_mem h
    exact ⟨vals[k]'(hl ▸ hk), List.mem_append.2
      (.inr (List.mem_iff_getElem.2 ⟨k, by simp [hl, hk], by simp⟩))⟩

/-- Field values determine the message: it has no word that they leave open (PF5). -/
theorem Form.message_unique {f : Form} {n : Nat} {vals : List Int} {m m' : List Word}
    (hl : vals.length = f.fields.length) (h : f.message n vals m) (h' : f.message n vals m') :
    m = m' := by
  apply List.ext_getElem?
  intro j
  have hd : m.getD j 0#32 = m'.getD j 0#32 := by
    rcases Nat.eq_zero_or_pos j with rfl | hj
    · rw [h.variant, h'.variant]
    by_cases hf : ∀ g ∈ f.allFields, j ∉ g.places
    · rw [h.unused j hj hf, h'.unused j hj hf]
    · push Not at hf
      obtain ⟨g, hg, hjg⟩ := hf
      obtain ⟨v, hv⟩ := Form.entry_of_field hl hg
      exact List.map_inj_left.1 ((h.fields _ hv).trans (h'.fields _ hv).symm) j hjg
  by_cases hj : j < n
  · simpa [List.getD_eq_getElem?_getD, List.getElem?_eq_getElem, h.length, h'.length, hj] using hd
  · rw [List.getElem?_eq_none (by rw [h.length]; omega),
      List.getElem?_eq_none (by rw [h'.length]; omega)]

/-- Field values determine the payload (R135). -/
theorem Form.payload_unique {f : Form} {vals : List Int} {p p' : BitVec 77}
    (hl : vals.length = f.fields.length) (h : f.payload vals p) (h' : f.payload vals p') :
    p = p' := by
  apply ext_msb
  intro i hi
  by_cases hc : ∀ ib ∈ f.tag, ib.1 ≠ i
  · by_cases hf : ∀ g ∈ f.allFields, i ∉ g.bits
    · rw [h.spare i hi hc hf, h'.spare i hi hc hf]
    · push Not at hf
      obtain ⟨g, hg, hig⟩ := hf
      obtain ⟨v, hv⟩ := Form.entry_of_field hl hg
      obtain ⟨k, hk, rfl⟩ := List.getElem_of_mem hig
      have e := (h.fields _ hv k hk).trans (h'.fields _ hv k hk).symm
      simpa [List.getD_eq_getElem?_getD, List.getElem?_eq_getElem hk] using e
  · push Not at hc
    obtain ⟨ib, hb, rfl⟩ := hc
    rw [h.tag _ hb, h'.tag _ hb]

theorem Alphabet.code_char {a : Alphabet} (h : a.Nodup) {k : Nat} (hk : k < a.length) :
    a.code (a.char k) = some k := by
  simp [Alphabet.code, Alphabet.char, List.getD_eq_getElem?_getD, List.getElem?_eq_getElem hk,
    h.idxOf_getElem]

/-- R133: the characters of a radix field have codes, and its value is the number with these digits, the
first one the most significant. -/
theorem Field.text_value {f : Field} {a : Alphabet} (hk : f.kind = .text a) (ha : a.Nodup) {v : Int}
    (hv : f.legal v = true) : ∃ digits, (f.words v).map a.code = digits.map some ∧
      (radixValue a.length digits : Int) = v := by
  simp only [Field.legal, hk, decide_eq_true_eq] at hv
  have hw : f.words v = (radixDigits a.length f.count v.toNat).map a.char := by
    simp [Field.words, hk]
  have hlt : v.toNat < a.length ^ f.count := by
    have : ((v.toNat : Nat) : Int) < ((a.length ^ f.count : Nat) : Int) := by
      rw [Int.toNat_of_nonneg hv.1]; push_cast; exact hv.2
    exact_mod_cast this
  refine ⟨radixDigits a.length f.count v.toNat, ?_, ?_⟩
  · rw [hw, List.map_map]
    apply List.map_congr_left
    intro d hd
    have h0 : 0 < a.length := by
      rcases Nat.eq_zero_or_pos a.length with h | h
      · rcases Nat.eq_zero_or_pos f.count with hc | hc
        · simp [radixDigits, hc] at hd
        · rw [h, zero_pow (by omega)] at hlt; omega
      · exact h
    exact Alphabet.code_char ha (radixDigit_lt h0 hd)
  · rw [radixValue_radixDigits _ _ _ hlt, Int.toNat_of_nonneg hv.1]

/-- R134: a signed integer field's bits, read as two's complement, are its value. -/
theorem Field.signed_value {f : Field} {g : Int → Bool} {ws : Int → List Word}
    (hk : f.kind = .integer true g ws) (hw : 1 ≤ f.width) {v : Int} (hv : f.legal v = true) :
    (f.pattern v).toInt = v := by
  simp only [Field.legal, hk, Bool.and_eq_true, decide_eq_true_eq] at hv
  obtain ⟨n, hn⟩ : ∃ n, f.width = n + 1 := ⟨f.width - 1, by omega⟩
  rw [Field.pattern, BitVec.toInt_ofInt, hn]
  rw [hn, Nat.add_sub_cancel] at hv
  apply Int.bmod_eq_of_le <;> (push_cast [pow_succ]; omega)

/-- R134: an unsigned integer field's bits, read as a number, are its value. -/
theorem Field.unsigned_value {f : Field} {g : Int → Bool} {ws : Int → List Word}
    (hk : f.kind = .integer false g ws) {v : Int} (hv : f.legal v = true) :
    ((f.pattern v).toNat : Int) = v := by
  simp only [Field.legal, hk, Bool.and_eq_true, decide_eq_true_eq] at hv
  rw [Field.pattern, BitVec.toNat_ofInt]
  have h := Int.emod_eq_of_lt hv.1.1 hv.1.2
  push_cast
  rw [h, Int.toNat_of_nonneg hv.1.1]

/-- R133: a radix field's bits, read as a number, are its value, since the field is wide enough. -/
theorem Field.text_bits {f : Field} {a : Alphabet} (hk : f.kind = .text a)
    (hw : a.length ^ f.count ≤ 2 ^ f.width) {v : Int} (hv : f.legal v = true) :
    ((f.pattern v).toNat : Int) = v := by
  simp only [Field.legal, hk, decide_eq_true_eq] at hv
  have hw' : (a.length : Int) ^ f.count ≤ (2 : Int) ^ f.width := by exact_mod_cast hw
  rw [Field.pattern, BitVec.toNat_ofInt]
  have h := Int.emod_eq_of_lt hv.1 (lt_of_lt_of_le hv.2 hw')
  push_cast
  rw [h, Int.toNat_of_nonneg hv.1]

/-- R139: exactly the payloads with the tag and the selectors of a form, legal field values and no
spare bit set unpack, and to the message of those values. -/
theorem unpack_iff {p : PackFmt} {n : Nat} (hp : Config.PackLaws p n)
    (hl : Config.LayoutLaws p n) (b : BitVec 77) (m : List Word) :
    p.unpack b = some m ↔ ∃ form ∈ p.layout.forms, ∃ vals,
      form.legal vals ∧ form.payload vals b ∧ form.message n vals m := by
  constructor
  · intro h
    obtain ⟨hv, rfl⟩ := hp.exactInverse b m h
    obtain ⟨form, hf, vals, h1, h2⟩ := (hl.valid m).1 hv
    exact ⟨form, hf, vals, h1, hl.packs form hf vals m h1 h2, h2⟩
  · rintro ⟨form, hf, vals, h1, h2, h3⟩
    obtain ⟨m', h4, h5⟩ := hl.decodes form hf vals b h1 h2
    rw [h4, Form.message_unique h1.1 h5 h3]

end Sys2Proof.Machine
end

