-- ==== Sys2Proof/Machine/ProfileT.lean ====
section
/-!
DEFINITION. Profile T, the test assignment of the open parameters (00_scope.md rule R11,
93_implementation_defined.md section 3). It is a fixture: the model's block is not profile T, and no
statement rests on a value of it.
-/

namespace Sys2Proof.Machine

/-! ### The matrices (93 section 3.1) -/

/-- G_T: three ones a row. -/
def genT (r k : Nat) : Bool :=
  (k + 91 - r) % 91 == 0 || (k + 91 - r) % 91 == 17 || (k + 91 - r) % 91 == 40

/-- H_T: G_T followed by the identity. -/
def checkT (m n : Nat) : Bool := if n < 91 then genT m n else n == 91 + m

/-! ### The payload layout PACKFMT_T (93 section 3.2) -/

/-- The code of a code point in the alphabet A38: space, 0 to 9, A to Z, `/`. Codes below 37 are those
of A37. A code point outside the alphabet gets code 0, whose character differs from it, so the message
is not valid (log entry 22, DESIGN CHOICE). -/
def codeOf (w : Word) : Nat :=
  let v := w.toNat
  if 48 ≤ v ∧ v ≤ 57 then v - 47
  else if 65 ≤ v ∧ v ≤ 90 then v - 54
  else if v = 47 then 37
  else 0

/-- The code point of a code of A38. -/
def charOf (k : Nat) : Word :=
  if k = 0 then 32#32
  else if k ≤ 10 then BitVec.ofNat 32 (47 + k)
  else if k ≤ 36 then BitVec.ofNat 32 (54 + k)
  else 47#32

/-- The fields of a message of each variant, as numbers. -/
inductive FieldsT where
  | std (call1 call2 : Nat) (kind : Bool) (value : BitVec 15)
  | tlm (bits : BitVec 75)
  | txt (text : Nat)
  deriving DecidableEq, Repr

/-- The legal field values. -/
def FieldsT.legal : FieldsT → Bool
  | .std call1 call2 kind value =>
    decide (call1 < 38 ^ 5) && decide (call2 < 37 ^ 5) && (kind || decide (value.toNat < 32400))
  | .tlm _ => true
  | .txt text => decide (text < 38 ^ 14)

/-- The word of a telemetry or kind bit. -/
def bitWord (b : Bool) : Word := if b then 1#32 else 0#32

/-- The four characters of a grid locator. -/
def gridWords (v : Nat) : List Word :=
  [BitVec.ofNat 32 (65 + v / 1800), BitVec.ofNat 32 (65 + v / 100 % 18),
   BitVec.ofNat 32 (48 + v / 10 % 10), BitVec.ofNat 32 (48 + v % 10)]

/-- The locator's or the report's five words. -/
def valueWords (kind : Bool) (value : BitVec 15) : List Word :=
  if kind then [0#32, 0#32, 0#32, 0#32, value.signExtend 32] else gridWords value.toNat ++ [0#32]

/-- The 80 message words of a message's fields. -/
def FieldsT.words : FieldsT → List Word
  | .std call1 call2 kind value =>
    0#32 :: ((radixDigits 38 5 call1).map charOf ++ ((radixDigits 37 5 call2).map charOf ++
      (bitWord kind :: (valueWords kind value ++ List.replicate 63 0#32))))
  | .tlm bits =>
    1#32 :: ((List.range 75).map (fun i => bitWord (bits.getMsbD i)) ++ List.replicate 4 0#32)
  | .txt text =>
    2#32 :: ((radixDigits 38 14 text).map charOf ++ List.replicate 65 0#32)

/-- The grid locator's number from four words. -/
def gridValue (l : List Word) : Nat :=
  (((l.getD 0 0#32).toNat - 65) * 18 + ((l.getD 1 0#32).toNat - 65)) * 100 +
    ((l.getD 2 0#32).toNat - 48) * 10 + ((l.getD 3 0#32).toNat - 48)

/-- The fields read from message words, whatever they hold. -/
def fieldsOfWords (m : List Word) : FieldsT :=
  if m.getD 0 0#32 = 0#32 then
    let kind := m.getD 11 0#32 == 1#32
    .std (radixValue 38 (((m.drop 1).take 5).map codeOf))
      (radixValue 37 (((m.drop 6).take 5).map codeOf)) kind
      (if kind then (m.getD 16 0#32).setWidth 15 else BitVec.ofNat 15 (gridValue (m.drop 12)))
  else if m.getD 0 0#32 = 1#32 then .tlm (bitsOfFn 75 fun i => (m.drop 1).getD i 0#32 == 1#32)
  else .txt (radixValue 38 (((m.drop 1).take 14).map codeOf))

/-- `valid_msg`: the words are exactly those of legal fields, so that each listed word is in its
stated set and every other word is 0. -/
def validMsgT (m : List Word) : Bool := (fieldsOfWords m).legal && (fieldsOfWords m).words == m

/-- The payload of a message's fields. -/
def FieldsT.payload : FieldsT → BitVec 77
  | .std call1 call2 kind value =>
    0#1 ++ (BitVec.ofNat 27 call1 ++ (BitVec.ofNat 27 call2 ++
      (BitVec.ofBool kind ++ (value ++ 0#6))))
  | .tlm bits => 0b10#2 ++ bits
  | .txt text => 0b110#3 ++ BitVec.ofNat 74 text

/-- `variant_of`: the prefix tags `0`, `10`, `110`. -/
def variantOfT (p : BitVec 77) : Option (Fin 3) :=
  if p.getMsbD 0 = false then some 0
  else if p.getMsbD 1 = false then some 1
  else if p.getMsbD 2 = false then some 2
  else none

/-- The fields of a payload whose spare bits are 0, legal or not. -/
def fieldsOfPayload (p : BitVec 77) : Option FieldsT :=
  match variantOfT p with
  | some 0 =>
    if slice p 71 6 = 0#6 then
      some (.std (slice p 1 27).toNat (slice p 28 27).toNat (p.getMsbD 55) (slice p 56 15))
    else none
  | some 1 => some (.tlm (slice p 2 75))
  | some 2 => some (.txt (slice p 3 74).toNat)
  | _ => none

/-- `unpack`: the message words of a payload with legal fields. -/
def unpackT (p : BitVec 77) : Option (List Word) :=
  match fieldsOfPayload p with
  | none => none
  | some f => if f.legal then some f.words else none

/-- The alphabet A38; its first 37 characters are A37. -/
def alphabetT : Alphabet := (List.range 38).map charOf

/-- The grid-locator alphabets AG1, `A` to `R`, and AG2, `0` to `9`. -/
def gridT : List Alphabet :=
  [(List.range 18).map fun k => BitVec.ofNat 32 (65 + k),
    (List.range 10).map fun k => BitVec.ofNat 32 (48 + k)]

/-- A character field of profile T: its bits and its words stand in a row. -/
def textT (role : FieldRole) (a : Alphabet) (start width word count : Nat) : Field :=
  ⟨role, .text a, List.range' start width, List.range' word count⟩

/-- A one-bit field of profile T. -/
def flagT (start word : Nat) : Field :=
  ⟨.other, .integer false (fun _ => true) fun v => [bitWord (v == 1)], [start], [word]⟩

/-- The value field of STD: the grid locator, or the report when `kind` is set. -/
def valueT (kind : Bool) : Field :=
  if kind then ⟨.report, .integer true (fun _ => true) fun v => [BitVec.ofInt 32 v],
    List.range' 56 15, [16]⟩
  else ⟨.locator, .integer false (fun v => decide (v < 32400)) fun v => gridWords v.toNat,
    List.range' 56 15, [12, 13, 14, 15]⟩

/-- The two forms of STD: with a grid locator, and with a report when `kind` is set. -/
def stdForm (kind : Bool) : Form where
  variant := 0
  tag := [(0, false)]
  select := [(flagT 55 11, if kind then 1 else 0)]
  fields := [textT .callSign alphabetT 1 27 1 5, textT .callSign (alphabetT.take 37) 28 27 6 5,
    valueT kind]

/-- The form of TLM: 75 fields of one bit. -/
def tlmForm : Form where
  variant := 1
  tag := [(0, true), (1, false)]
  select := []
  fields := (List.range 75).map fun i => flagT (2 + i) (1 + i)

/-- The form of TXT. -/
def txtForm : Form where
  variant := 2
  tag := [(0, true), (1, true), (2, false)]
  select := []
  fields := [textT .other alphabetT 3 74 1 14]

/-- PACKFMT_T. -/
def packFmtT : PackFmt where
  validMsg := validMsgT
  pack m := (fieldsOfWords m).payload
  unpack := unpackT
  variantOf := variantOfT
  layout :=
    { call37 := alphabetT.take 37, call38 := alphabetT, grid := gridT,
      tagAt := fun v => List.range (v.val + 1),
      forms := [stdForm false, stdForm true, tlmForm, txtForm] }

/-! ### The other tables and the stubs (93 sections 3 and 3.4) -/

/-- The seven synchronization tones of every block. -/
def syncT (k : Nat) : Tone := BitVec.ofNat 3 ([3, 1, 4, 0, 6, 5, 2].getD k 0)

/-- The Gray map. -/
def grayT (v : Tone) : Tone := BitVec.ofNat 3 ([0, 1, 3, 2, 5, 6, 4, 7].getD v.toNat 0)

/-- NUM.stft_T: the f-th sample of each symbol period is the magnitude of bin f. The stub needs NF ≤ SPS;
for a smaller SPS it is open, and this fixture reads on into the next period (log entry 25, DESIGN
CHOICE). -/
def stftT (x : List Half) (fs : Word) (t f : Nat) : Half :=
  BitVec.ofNat 16 (min 65535 (x.getD (t * (fs.toNat * 4 / 25) + f) 0#16).toInt.natAbs)

/-- NUM.synth_T: one sample of 1000 in each symbol period, at fb plus the symbol's tone. The stub is
undefined for a base that is no multiple of TONE_SPACING and for fb + 7 ≥ SPS: there this fixture
rounds fb down and goes on (log entry 25, DESIGN CHOICE). -/
def synthT (sym : List Tone) (fs base : Word) (i : Nat) : Half :=
  let n := fs.toNat * 4 / 25
  if i % n = base.toNat * 4 / 25 + (sym.getD (i / n) 0#3).toNat then 1000#16 else 0#16

/-- NUM.norm_T: the identity. -/
def normT (e : List (List Half)) (d j : Nat) : Int := (((e.getD d []).getD j 0#16).toNat : Int)

/-- Profile T with `nf` frequency bins. -/
def profileT (nf : Nat) : Config where
  genMatrix := genT
  checkMatrix := checkT
  poly := 0x2757#14
  crcPad := 5
  sync _ k := syncT k
  syncPos b := 36 * b
  gray := grayT
  packFmt := packFmtT
  toneSpacingNum := 25
  toneSpacingDen := 4
  symbolPeriodNum := 4
  symbolPeriodDen := 25
  stft := stftT
  synth := synthT
  norm := normT
  maxSamples := 180000
  nf := nf
  maxCand := 64
  maxRes := 16
  msgWords := 80
  nWorkers := 1
  baseAddr := 0
  fold space index := (space ++ index).toNat

end Sys2Proof.Machine
end

