-- ==== Sys2Proof/Laws/ProfileT.lean ====
section
/-!
SUPPORT. Profile T satisfies every constraint that 93_implementation_defined.md section 1 puts on the
open parameters, so the constraints the model assumes of its block can be met together.
-/

namespace Sys2Proof.Machine

/-! ### The matrices -/

theorem checkT_right (j r : Nat) : checkT j (91 + r) = (r == j) := by
  have h : ¬ 91 + r < 91 := by omega
  rw [checkT, if_neg h, Bool.eq_iff_iff]
  simp

theorem gh1T (j k : Nat) (hj : j < 83) (hk : k < 91) :
    checkT j k = xorSum (List.range 83) fun r => checkT j (91 + r) && genT r k := by
  simp only [checkT_right]
  rw [xorSum_single]
  simp [hj, checkT, hk]

theorem fullRankT (sel : Nat → Bool)
    (h : ∀ n < 174, (xorSum (List.range 83) fun j => sel j && checkT j n) = false) (j : Nat)
    (hj : j < 83) : sel j = false := by
  have h' := h (91 + j) (by omega)
  rw [xorSum_congr (g := fun r => (r == j) && sel r)] at h'
  · rw [xorSum_single, decide_eq_true hj, Bool.true_and] at h'; exact h'
  · intro i _; rw [checkT_right, Bool.and_comm]; rw [Bool.beq_comm]

theorem rowWeightT :
    ∀ m < 83, 2 ≤ ((List.range 174).filter fun n => checkT m n).length := by decide +kernel

theorem colWeightT :
    ∀ n < 174, 1 ≤ ((List.range 83).filter fun m => checkT m n).length := by decide +kernel

/-! ### The payload layout -/

theorem codeOf_charOf : ∀ k < 38, codeOf (charOf k) = k := by decide +kernel

theorem codes_chars {q : Nat} (hq : q ≤ 38) (h0 : 0 < q) (n v : Nat) :
    ((radixDigits q n v).map charOf).map codeOf = radixDigits q n v := by
  rw [List.map_map]
  conv_rhs => rw [← List.map_id (radixDigits q n v)]
  apply List.map_congr_left
  intro d hd
  exact codeOf_charOf d (lt_of_lt_of_le (radixDigit_lt h0 hd) hq)

theorem radixT {q n v : Nat} (hq : q ≤ 38) (h0 : 0 < q) (h : v < q ^ n) :
    radixValue q (((radixDigits q n v).map charOf).map codeOf) = v := by
  rw [codes_chars hq h0, radixValue_radixDigits q n v h]

theorem five (l : List Word) (h : l.length = 5) : ∃ a b c d e, l = [a, b, c, d, e] := by
  match l, h with
  | [a, b, c, d, e], _ => exact ⟨a, b, c, d, e, rfl⟩

theorem gridValue_words (v : Nat) (h : v < 32400) (l : List Word) :
    gridValue (gridWords v ++ l) = v := by
  simp only [gridValue, gridWords, List.cons_append, List.getD_cons_zero, List.getD_cons_succ,
    BitVec.toNat_ofNat]
  omega

theorem signExtend_setWidth (x : BitVec 15) : (x.signExtend 32).setWidth 15 = x := by
  apply BitVec.eq_of_getLsbD_eq
  intro i hi
  rw [BitVec.getLsbD_setWidth, BitVec.getLsbD_signExtend]
  simp only [hi, decide_true, Bool.true_and, if_true, show i < 32 by omega]

theorem bitWord_beq (b : Bool) : (bitWord b == 1#32) = b := by cases b <;> rfl

/-- A message's words say its fields. -/
theorem fieldsOfWords_words (f : FieldsT) (h : f.legal = true) : fieldsOfWords f.words = f := by
  cases f with
  | std a b kind value =>
    simp only [FieldsT.legal, Bool.and_eq_true, decide_eq_true_eq] at h
    obtain ⟨⟨ha, hb⟩, hv⟩ := h
    obtain ⟨a0, a1, a2, a3, a4, ea⟩ := five ((radixDigits 38 5 a).map charOf) (by simp)
    obtain ⟨b0, b1, b2, b3, b4, eb⟩ := five ((radixDigits 37 5 b).map charOf) (by simp)
    have ra := radixT (q := 38) (by decide) (by decide) ha
    have rb := radixT (q := 37) (by decide) (by decide) hb
    rw [ea] at ra
    rw [eb] at rb
    simp only [fieldsOfWords, FieldsT.words, ea, eb, List.getD_cons_zero, List.cons_append,
      List.nil_append, List.drop_succ_cons, List.drop_zero, List.take_succ_cons, List.take_zero,
      List.getD_cons_succ, bitWord_beq, ra, rb, if_true]
    congr 1
    cases kind with
    | true => simp [valueWords, signExtend_setWidth]
    | false =>
      simp only [Bool.false_or, decide_eq_true_eq] at hv
      simp only [valueWords, Bool.false_eq_true, if_false, List.append_assoc]
      rw [gridValue_words _ hv]
      simp
  | tlm bits =>
    simp only [fieldsOfWords, FieldsT.words, List.getD_cons_zero, List.drop_succ_cons,
      List.drop_zero, show ¬ (1#32 : Word) = 0#32 by decide, if_false, if_true]
    congr 1
    apply ext_msb
    intro i hi
    rw [getMsbD_bitsOfFn]
    rw [List.getD_append _ _ _ _ (by simpa using hi)]
    simp [hi, List.getD_eq_getElem?_getD, bitWord_beq]
  | txt text =>
    simp only [FieldsT.legal, decide_eq_true_eq] at h
    simp only [fieldsOfWords, FieldsT.words, List.getD_cons_zero, List.drop_succ_cons,
      List.drop_zero, show ¬ (2#32 : Word) = 0#32 by decide,
      show ¬ (2#32 : Word) = 1#32 by decide, if_false]
    rw [List.take_left' (by simp), radixT (by decide) (by decide) h]

theorem slice_ofNat {n v : Nat} (h : v < 2 ^ n) : (slice (BitVec.ofNat n v) 0 n).toNat = v := by
  rw [slice_self, BitVec.toNat_ofNat, Nat.mod_eq_of_lt h]

/-- A payload says the fields it was made from. -/
theorem fieldsOfPayload_payload (f : FieldsT) (h : f.legal = true) :
    fieldsOfPayload f.payload = some f := by
  cases f with
  | std a b kind value =>
    simp only [FieldsT.legal, Bool.and_eq_true, decide_eq_true_eq] at h
    obtain ⟨⟨ha, hb⟩, -⟩ := h
    have hv : variantOfT (FieldsT.std a b kind value).payload = some 0 := by
      simp only [variantOfT, FieldsT.payload, getMsbD_append']; rfl
    simp only [fieldsOfPayload, hv]
    have e1 : slice (FieldsT.std a b kind value).payload 71 6 = 0#6 := by
      rw [FieldsT.payload, slice_append_right _ _ 70 6 (by decide),
        slice_append_right _ _ 43 6 (by decide), slice_append_right _ _ 16 6 (by decide),
        slice_append_right _ _ 15 6 (by decide), slice_append_right _ _ 0 6 (by decide), slice_self]
    have e2 : slice (FieldsT.std a b kind value).payload 1 27 = BitVec.ofNat 27 a := by
      rw [FieldsT.payload, slice_append_right _ _ 0 27 (by decide), slice_append_left]
    have e3 : slice (FieldsT.std a b kind value).payload 28 27 = BitVec.ofNat 27 b := by
      rw [FieldsT.payload, slice_append_right _ _ 27 27 (by decide),
        slice_append_right _ _ 0 27 (by decide), slice_append_left]
    have e4 : slice (FieldsT.std a b kind value).payload 56 15 = value := by
      rw [FieldsT.payload, slice_append_right _ _ 55 15 (by decide),
        slice_append_right _ _ 28 15 (by decide), slice_append_right _ _ 1 15 (by decide),
        slice_append_right _ _ 0 15 (by decide), slice_append_left]
    have e5 : (FieldsT.std a b kind value).payload.getMsbD 55 = kind := by
      simp only [FieldsT.payload, getMsbD_append']
      cases kind <;> rfl
    rw [e1, e2, e3, e4, e5, BitVec.toNat_ofNat, BitVec.toNat_ofNat, Nat.mod_eq_of_lt (by omega),
      Nat.mod_eq_of_lt (by omega)]
    rfl
  | tlm bits =>
    have hv : variantOfT (FieldsT.tlm bits).payload = some 1 := by
      simp only [variantOfT, FieldsT.payload, getMsbD_append']; rfl
    simp only [fieldsOfPayload, hv]
    rw [FieldsT.payload, slice_append_right _ _ 0 75 (by decide), slice_self]
  | txt text =>
    simp only [FieldsT.legal, decide_eq_true_eq] at h
    have hv : variantOfT (FieldsT.txt text).payload = some 2 := by
      simp only [variantOfT, FieldsT.payload, getMsbD_append']; rfl
    simp only [fieldsOfPayload, hv]
    rw [FieldsT.payload, slice_append_right _ _ 0 74 (by decide), slice_self, BitVec.toNat_ofNat,
      Nat.mod_eq_of_lt (by omega)]

theorem variantOfT_zero {p : BitVec 77} (h : variantOfT p = some 0) : p.getMsbD 0 = false := by
  simp only [variantOfT] at h; split at h
  · assumption
  · split at h
    · simp at h
    · split at h <;> simp at h

theorem variantOfT_one {p : BitVec 77} (h : variantOfT p = some 1) :
    p.getMsbD 0 = true ∧ p.getMsbD 1 = false := by
  simp only [variantOfT] at h; split at h
  · simp at h
  · split at h
    · simp_all
    · split at h <;> simp at h

theorem variantOfT_two {p : BitVec 77} (h : variantOfT p = some 2) :
    p.getMsbD 0 = true ∧ p.getMsbD 1 = true ∧ p.getMsbD 2 = false := by
  simp only [variantOfT] at h; split at h
  · simp at h
  · split at h
    · simp at h
    · split at h
      · simp_all
      · simp at h

theorem split_at {n : Nat} (x : BitVec n) (a b : Nat) (s : Nat)
    (hs : s + (a + b) ≤ n) : slice x s a ++ slice x (s + a) b = slice x s (a + b) := by
  apply ext_msb
  intro i hi
  rw [getMsbD_append', getMsbD_slice _ _ _ _ (by omega), getMsbD_slice _ _ _ _ (by omega),
    getMsbD_slice _ _ _ _ (by omega)]
  by_cases h : i < a
  · simp [h, hi]
  · simp [h, hi, show i - a < b by omega, show s + a + (i - a) = s + i by omega]

theorem one_bit {n : Nat} (x : BitVec n) (s : Nat) (h : s + 1 ≤ n) :
    BitVec.ofBool (x.getMsbD s) = slice x s 1 := by
  apply ext_msb
  intro i hi
  have : i = 0 := by omega
  subst this
  rw [getMsbD_slice _ _ _ _ h]
  cases x.getMsbD s <;> rfl

/-- The fields of a payload make that payload. -/
theorem payload_fieldsOfPayload {p : BitVec 77} {f : FieldsT} (h : fieldsOfPayload p = some f) :
    f.payload = p ∧ (variantOfT p).map Fin.val = some (f.words.getD 0 0#32).toNat := by
  simp only [fieldsOfPayload] at h
  split at h
  · rename_i hv
    split at h
    · rename_i h0
      cases h
      refine ⟨?_, by rw [hv]; rfl⟩
      have t : (0#1 : BitVec 1) = slice p 0 1 := by
        rw [← one_bit p 0 (by decide), variantOfT_zero hv]; rfl
      rw [FieldsT.payload, BitVec.ofNat_toNat, BitVec.ofNat_toNat, BitVec.setWidth_eq,
        BitVec.setWidth_eq, ← h0, t, one_bit p 55 (by decide)]
      rw [split_at p 15 6 56 (by decide), split_at p 1 21 55 (by decide),
        split_at p 27 22 28 (by decide), split_at p 27 49 1 (by decide)]
      exact (split_at p 1 76 0 (by decide)).trans (slice_self p)
    · simp at h
  · rename_i hv
    cases h
    refine ⟨?_, by rw [hv]; rfl⟩
    obtain ⟨h0, h1⟩ := variantOfT_one hv
    have t : (0b10#2 : BitVec 2) = slice p 0 2 := by
      rw [← split_at p 1 1 0 (by decide), ← one_bit p 0 (by decide),
        ← one_bit p (0 + 1) (by decide), h0, h1]; rfl
    rw [FieldsT.payload, t]
    exact (split_at p 2 75 0 (by decide)).trans (slice_self p)
  · rename_i hv
    cases h
    refine ⟨?_, by rw [hv]; rfl⟩
    obtain ⟨h0, h1, h2⟩ := variantOfT_two hv
    have t : (0b110#3 : BitVec 3) = slice p 0 3 := by
      rw [← split_at p 1 2 0 (by decide), ← split_at p 1 1 (0 + 1) (by decide),
        ← one_bit p 0 (by decide), ← one_bit p (0 + 1) (by decide),
        ← one_bit p (0 + 1 + 1) (by decide), h0, h1, h2]; rfl
    rw [FieldsT.payload, t, BitVec.ofNat_toNat, BitVec.setWidth_eq]
    exact (split_at p 3 74 0 (by decide)).trans (slice_self p)
  · simp at h

theorem unpackT_some {p : BitVec 77} {m : List Word} (h : unpackT p = some m) :
    ∃ f, fieldsOfPayload p = some f ∧ f.legal = true ∧ f.words = m := by
  simp only [unpackT] at h
  split at h
  · simp at h
  · rename_i f hf
    split at h
    · rename_i hl
      exact ⟨f, hf, hl, by simpa using h⟩
    · simp at h

theorem validMsgT_iff {m : List Word} (h : validMsgT m = true) :
    (fieldsOfWords m).legal = true ∧ (fieldsOfWords m).words = m := by
  simpa [validMsgT] using h

theorem words_length (f : FieldsT) : f.words.length = 80 := by
  cases f with
  | std a b kind value => cases kind <;> simp [FieldsT.words, valueWords, gridWords]
  | tlm bits => simp [FieldsT.words]
  | txt text => simp [FieldsT.words]

theorem words_tag (f : FieldsT) : (f.words.getD 0 0#32).toNat < 3 := by
  cases f with
  | std => exact (by decide : 0 < 3)
  | tlm => exact (by decide : 1 < 3)
  | txt => exact (by decide : 2 < 3)

theorem validMsgT_words (f : FieldsT) (h : f.legal = true) : validMsgT f.words = true := by
  simp [validMsgT, fieldsOfWords_words f h, h]

theorem packLawsT : Config.PackLaws packFmtT 80 where
  roundTrip m h := by
    obtain ⟨hl, hw⟩ := validMsgT_iff h
    simp [packFmtT, unpackT, fieldsOfPayload_payload _ hl, hl, hw]
  exactInverse b m h := by
    obtain ⟨f, hf, hl, rfl⟩ := unpackT_some h
    refine ⟨validMsgT_words f hl, ?_⟩
    simp only [packFmtT, fieldsOfWords_words f hl]
    exact (payload_fieldsOfPayload hf).1
  tagOfPack m h := by
    obtain ⟨hl, hw⟩ := validMsgT_iff h
    have := (payload_fieldsOfPayload (fieldsOfPayload_payload _ hl)).2
    rw [hw] at this
    exact this
  noTag b h := by
    have h : variantOfT b = none := h
    simp [packFmtT, unpackT, fieldsOfPayload, h]
  tagOfUnpack b m h := by
    obtain ⟨f, hf, hl, rfl⟩ := unpackT_some h
    exact (payload_fieldsOfPayload hf).2
  tagBits v := by
    refine ⟨by simp [packFmtT], by simp [packFmtT], ?_, fun b b' h => ?_⟩
    · intro i hi
      simp only [packFmtT, List.mem_range] at hi
      omega
    · have h (i : Nat) (hi : i ≤ v.val) : b.getMsbD i = b'.getMsbD i :=
        h i (List.mem_range.2 (by omega))
      rcases (by omega : v = 0 ∨ v = 1 ∨ v = 2) with rfl | rfl | rfl
      · simp only [packFmtT, variantOfT, h 0 (by decide)]
        cases b'.getMsbD 0 <;> cases b.getMsbD 1 <;> cases b.getMsbD 2 <;>
          cases b'.getMsbD 1 <;> cases b'.getMsbD 2 <;> simp
      · simp only [packFmtT, variantOfT, h 0 (by decide), h 1 (by decide)]
        cases b'.getMsbD 0 <;> cases b'.getMsbD 1 <;> cases b.getMsbD 2 <;>
          cases b'.getMsbD 2 <;> simp
      · simp only [packFmtT, variantOfT, h 0 (by decide), h 1 (by decide), h 2 (by decide)]
  validShape m h := by
    obtain ⟨-, hw⟩ := validMsgT_iff h
    rw [← hw]
    exact ⟨words_length _, words_tag _⟩
  variants v hv := by
    rcases (by omega : v = 0 ∨ v = 1 ∨ v = 2) with rfl | rfl | rfl
    · exact ⟨FieldsT.words (.std 0 0 true 0#15), validMsgT_words (.std 0 0 true 0#15) rfl, rfl⟩
    · exact ⟨FieldsT.words (.tlm 0#75), validMsgT_words (.tlm 0#75) rfl, rfl⟩
    · exact ⟨FieldsT.words (.txt 0), validMsgT_words (.txt 0) rfl, rfl⟩

/-! ### The layout's alphabets and fields -/

/-- The form a message takes. -/
def FieldsT.form : FieldsT → Form
  | .std _ _ kind _ => stdForm kind
  | .tlm _ => tlmForm
  | .txt _ => txtForm

/-- The values of its fields. -/
def FieldsT.vals : FieldsT → List Int
  | .std call1 call2 true value => [call1, call2, value.toInt]
  | .std call1 call2 false value => [call1, call2, value.toNat]
  | .tlm bits => (List.range 75).map fun i => if bits.getMsbD i then 1 else 0
  | .txt text => [(text : Int)]

theorem alphabetT_char {k : Nat} (h : k < 38) : alphabetT.char k = charOf k := by
  simp [Alphabet.char, alphabetT, List.getD_eq_getElem?_getD, h]

theorem alphabetT_take_char {k : Nat} (h : k < 37) :
    Alphabet.char (alphabetT.take 37) k = charOf k := by
  simp [Alphabet.char, alphabetT, List.getD_eq_getElem?_getD, h]

/-- The characters of a base-38 or base-37 string. -/
theorem text38_words (role : FieldRole) (start width word n v : Nat) :
    (textT role alphabetT start width word n).words v = (radixDigits 38 n v).map charOf := by
  simp only [textT, Field.words, Field.count, List.length_range', Int.toNat_natCast]
  rw [show alphabetT.length = 38 by simp [alphabetT]]
  exact List.map_congr_left fun _ hd => alphabetT_char (radixDigit_lt (by decide) hd)

theorem text37_words (role : FieldRole) (start width word n v : Nat) :
    (textT role (alphabetT.take 37) start width word n).words v =
      (radixDigits 37 n v).map charOf := by
  simp only [textT, Field.words, Field.count, List.length_range', Int.toNat_natCast]
  rw [show (alphabetT.take 37).length = 37 by simp [alphabetT]]
  exact List.map_congr_left fun _ hd => alphabetT_take_char (radixDigit_lt (by decide) hd)

/-- Words in a row. -/
theorem map_getD_range' (m : List Word) {a n : Nat} (h : a + n ≤ m.length) :
    (List.range' a n).map (fun j => m.getD j 0#32) = (m.drop a).take n := by
  apply List.ext_getElem
  · simp; omega
  · intro i h1 h2
    have : a + i < m.length := by simp at h1; omega
    simp [List.getD_eq_getElem?_getD, List.getElem?_eq_getElem this]

/-- Bits in a row. -/
theorem inPayload_range' {f : Field} {a n : Nat} (hb : f.bits = List.range' a n) {v : Int}
    {p : BitVec 77} (h : a + n ≤ 77) (hs : slice p a n = BitVec.ofInt n v) : f.inPayload v p := by
  have hw : f.width = n := by simp [Field.width, hb]
  intro k hk
  have e := congrArg (fun x => x.getMsbD k) hs
  simp only [getMsbD_slice _ _ _ _ h] at e
  have hp : (f.pattern v).getMsbD k = (BitVec.ofInt n v).getMsbD k := by rw [Field.pattern, hw]
  rw [hp, ← e, hb, List.getD_eq_getElem?_getD, List.getElem?_range' (by omega)]
  simp [show k < n by omega]

/-- One bit. -/
theorem inPayload_flag {start word : Nat} {b : Bool} {p : BitVec 77} (h : p.getMsbD start = b) :
    (flagT start word).inPayload (if b then 1 else 0) p := by
  intro k hk
  have : k = 0 := by simpa [flagT, Field.width] using hk
  subst this
  show p.getMsbD start = _
  rw [h]
  cases b <;> simp [Field.pattern, flagT, Field.width]

theorem flag_words {start word : Nat} (b : Bool) :
    (flagT start word).words (if b then 1 else 0) = [bitWord b] := by cases b <;> rfl

theorem getD_replicate_zero (n k : Nat) : (List.replicate n (0#32 : Word)).getD k 0#32 = 0#32 := by
  rw [List.getD_eq_getElem?_getD, List.getElem?_replicate]
  split <;> rfl

/-- The fields of a form with the values of a message. -/
theorem std_entries {a b : Nat} {kind : Bool} {value : BitVec 15} {fv : Field × Int}
    (h : fv ∈ (FieldsT.std a b kind value).form.entries (FieldsT.std a b kind value).vals) :
    fv = (flagT 55 11, if kind then 1 else 0) ∨ fv = (textT .callSign alphabetT 1 27 1 5, ↑a) ∨
      fv = (textT .callSign (alphabetT.take 37) 28 27 6 5, ↑b) ∨
      fv = (valueT kind, if kind then value.toInt else ↑value.toNat) := by
  cases kind <;>
  · simp only [FieldsT.form, stdForm, Form.entries, FieldsT.vals, List.zip_cons_cons, List.mem_cons,
      List.zip_nil_right, List.not_mem_nil, or_false, List.singleton_append, Bool.false_eq_true,
      if_false, if_true] at h ⊢
    exact h

theorem tlm_entries {bits : BitVec 75} {fv : Field × Int}
    (h : fv ∈ (FieldsT.tlm bits).form.entries (FieldsT.tlm bits).vals) :
    ∃ i < 75, fv = (flagT (2 + i) (1 + i), if bits.getMsbD i then 1 else 0) := by
  obtain ⟨i, hi, e⟩ := List.getElem_of_mem h
  simp only [FieldsT.form, tlmForm, Form.entries, FieldsT.vals, List.nil_append, List.length_zip,
    List.length_map, List.length_range, Nat.min_self] at hi
  simp only [FieldsT.form, tlmForm, Form.entries, FieldsT.vals, List.nil_append, List.getElem_zip,
    List.getElem_map, List.getElem_range] at e
  exact ⟨i, hi, e.symm⟩

theorem txt_entries {text : Nat} {fv : Field × Int}
    (h : fv ∈ (FieldsT.txt text).form.entries (FieldsT.txt text).vals) :
    fv = (textT .other alphabetT 3 74 1 14, ↑text) := by
  simpa only [FieldsT.form, txtForm, Form.entries, FieldsT.vals, List.zip_cons_cons, List.nil_append,
    List.zip_nil_right, List.mem_singleton] using h

theorem std_fields {a b : Nat} {kind : Bool} {value : BitVec 15} :
    (FieldsT.std a b kind value).form.allFields = [flagT 55 11, textT .callSign alphabetT 1 27 1 5,
      textT .callSign (alphabetT.take 37) 28 27 6 5, valueT kind] := rfl

theorem tlm_field {bits : BitVec 75} {i : Nat} (h : i < 75) :
    flagT (2 + i) (1 + i) ∈ (FieldsT.tlm bits).form.allFields := by
  simp only [FieldsT.form, tlmForm, Form.allFields, List.map_nil, List.nil_append, List.mem_map,
    List.mem_range]
  exact ⟨i, h, rfl⟩

/-- A message's words are those of its form and its field values. -/
theorem FieldsT.message (f : FieldsT) : f.form.message 80 f.vals f.words := by
  have h80 := words_length f
  refine ⟨h80, ?_, ?_, ?_⟩
  · cases f <;> rfl
  · cases f with
    | std a b kind value =>
      obtain ⟨a0, a1, a2, a3, a4, ea⟩ := five ((radixDigits 38 5 a).map charOf) (by simp)
      obtain ⟨b0, b1, b2, b3, b4, eb⟩ := five ((radixDigits 37 5 b).map charOf) (by simp)
      intro fv hf
      rcases std_entries hf with rfl | rfl | rfl | rfl
      · rw [Field.inMessage, flag_words]
        simp [flagT, FieldsT.words, ea, eb]
      · rw [Field.inMessage, text38_words]
        exact (map_getD_range' _ (by rw [h80]; decide)).trans (by simp [FieldsT.words])
      · rw [Field.inMessage, text37_words]
        exact (map_getD_range' _ (by rw [h80]; decide)).trans (by simp [FieldsT.words, ea, eb])
      · cases kind
        · simp [Field.inMessage, valueT, Field.words, FieldsT.words, ea, eb, valueWords, gridWords]
        · simp [Field.inMessage, valueT, Field.words, FieldsT.words, ea, eb, valueWords,
            BitVec.signExtend]
    | tlm bits =>
      intro fv hf
      obtain ⟨i, hi, rfl⟩ := tlm_entries hf
      rw [Field.inMessage, flag_words]
      simp only [flagT, List.map_cons, List.map_nil, FieldsT.words]
      rw [Nat.add_comm 1 i, List.getD_cons_succ, List.getD_append _ _ _ _ (by simpa using hi)]
      simp [List.getD_eq_getElem?_getD, hi]
    | txt text =>
      intro fv hf
      obtain rfl := txt_entries hf
      rw [Field.inMessage, text38_words]
      refine (map_getD_range' _ (by rw [h80]; decide)).trans ?_
      simp only [FieldsT.words, List.drop_succ_cons, List.drop_zero]
      rw [List.take_left' (by simp)]
  · cases f with
    | std a b kind value =>
      obtain ⟨a0, a1, a2, a3, a4, ea⟩ := five ((radixDigits 38 5 a).map charOf) (by simp)
      obtain ⟨b0, b1, b2, b3, b4, eb⟩ := five ((radixDigits 37 5 b).map charOf) (by simp)
      intro j hj hf
      simp only [std_fields, List.mem_cons, List.not_mem_nil, or_false, forall_eq_or_imp,
        forall_eq, flagT, textT, List.mem_range'_1] at hf
      obtain ⟨h0, h1, h2, h3⟩ := hf
      cases kind
      · simp only [valueT, Bool.false_eq_true, if_false, List.mem_cons, List.not_mem_nil,
          or_false] at h3
        obtain ⟨k, rfl⟩ : ∃ k, j = k + 16 := ⟨j - 16, by omega⟩
        simp only [FieldsT.words, ea, eb, valueWords, gridWords, List.cons_append, List.nil_append,
          List.getD_cons_succ, Bool.false_eq_true, if_false]
        exact getD_replicate_zero 64 k
      · simp only [valueT, if_true, List.mem_singleton] at h3
        obtain rfl | rfl | rfl | rfl | ⟨k, rfl⟩ :
            j = 12 ∨ j = 13 ∨ j = 14 ∨ j = 15 ∨ ∃ k, j = k + 17 := by
          rcases (by omega : j = 12 ∨ j = 13 ∨ j = 14 ∨ j = 15 ∨ 17 ≤ j) with h | h | h | h | h
          · exact .inl h
          · exact .inr (.inl h)
          · exact .inr (.inr (.inl h))
          · exact .inr (.inr (.inr (.inl h)))
          · exact .inr (.inr (.inr (.inr ⟨j - 17, by omega⟩)))
        all_goals
          simp only [FieldsT.words, ea, eb, valueWords, List.cons_append, List.nil_append,
            List.getD_cons_succ, List.getD_cons_zero, if_true]
        exact getD_replicate_zero 63 k
    | tlm bits =>
      intro j hj hf
      have h75 : 75 < j := by
        by_contra h
        exact hf _ (tlm_field (i := j - 1) (by omega))
          (List.mem_singleton.2 (by omega : j = 1 + (j - 1)))
      obtain ⟨k, rfl⟩ : ∃ k, j = k + 76 := ⟨j - 76, by omega⟩
      simp only [FieldsT.words]
      rw [show k + 76 = (k + 75) + 1 by omega, List.getD_cons_succ,
        List.getD_append_right _ _ _ _ (by simp)]
      exact getD_replicate_zero 4 _
    | txt text =>
      intro j hj hf
      simp only [FieldsT.form, txtForm, Form.allFields, List.map_nil, List.nil_append,
        List.mem_singleton, forall_eq, textT, List.mem_range'_1] at hf
      obtain ⟨k, rfl⟩ : ∃ k, j = k + 15 := ⟨j - 15, by omega⟩
      simp only [FieldsT.words]
      rw [show k + 15 = (k + 14) + 1 by omega, List.getD_cons_succ,
        List.getD_append_right _ _ _ _ (by simp)]
      exact getD_replicate_zero 65 _

/-- A message's payload is that of its form and its field values. -/
theorem FieldsT.payload_form (f : FieldsT) : f.form.payload f.vals f.payload := by
  cases f with
  | std a b kind value =>
    have h0 : (FieldsT.std a b kind value).payload.getMsbD 0 = false := by
      simp only [FieldsT.payload, getMsbD_append']; rfl
    have h1 : slice (FieldsT.std a b kind value).payload 1 27 = BitVec.ofNat 27 a := by
      rw [FieldsT.payload, slice_append_right _ _ 0 27 (by decide), slice_append_left]
    have h2 : slice (FieldsT.std a b kind value).payload 28 27 = BitVec.ofNat 27 b := by
      rw [FieldsT.payload, slice_append_right _ _ 27 27 (by decide),
        slice_append_right _ _ 0 27 (by decide), slice_append_left]
    have h3 : slice (FieldsT.std a b kind value).payload 56 15 = value := by
      rw [FieldsT.payload, slice_append_right _ _ 55 15 (by decide),
        slice_append_right _ _ 28 15 (by decide), slice_append_right _ _ 1 15 (by decide),
        slice_append_right _ _ 0 15 (by decide), slice_append_left]
    have h4 : (FieldsT.std a b kind value).payload.getMsbD 55 = kind := by
      simp only [FieldsT.payload, getMsbD_append']
      cases kind <;> rfl
    have h5 : slice (FieldsT.std a b kind value).payload 71 6 = 0#6 := by
      rw [FieldsT.payload, slice_append_right _ _ 70 6 (by decide),
        slice_append_right _ _ 43 6 (by decide), slice_append_right _ _ 16 6 (by decide),
        slice_append_right _ _ 15 6 (by decide), slice_append_right _ _ 0 6 (by decide), slice_self]
    refine ⟨?_, ?_, ?_⟩
    · intro ib hi
      obtain rfl := List.mem_singleton.1 hi
      exact h0
    · intro fv hf
      rcases std_entries hf with rfl | rfl | rfl | rfl
      · exact inPayload_flag h4
      · exact inPayload_range' rfl (by decide) (by simpa using h1)
      · exact inPayload_range' rfl (by decide) (by simpa using h2)
      · cases kind
        · exact inPayload_range' rfl (by decide) (by simp [h3])
        · exact inPayload_range' rfl (by decide) (by simp [h3])
    · intro i hi hb hf
      have h6 := hb (0, false) (List.mem_singleton.2 rfl)
      simp only [std_fields, List.mem_cons, List.not_mem_nil, or_false, forall_eq_or_imp,
        forall_eq, flagT, textT, List.mem_range'_1] at hf
      have h8 : 71 ≤ i := by
        obtain ⟨g0, g1, g2, g3⟩ := hf
        cases kind <;>
        · simp only [valueT, Bool.false_eq_true, if_false, if_true, List.mem_range'_1] at g3
          simp only at h6
          omega
      have h9 := congrArg (fun x => x.getMsbD (i - 71)) h5
      simp only [getMsbD_slice _ _ _ _ (show 71 + 6 ≤ 77 by decide),
        show 71 + (i - 71) = i by omega] at h9
      simpa [show i - 71 < 6 by omega] using h9
  | tlm bits =>
    have h1 (i : Nat) : (FieldsT.tlm bits).payload.getMsbD (2 + i) = bits.getMsbD i := by
      rw [FieldsT.payload, getMsbD_append', if_neg (by omega), Nat.add_sub_cancel_left]
    refine ⟨?_, ?_, ?_⟩
    · intro ib hi
      simp only [FieldsT.form, tlmForm, List.mem_cons, List.not_mem_nil, or_false] at hi
      rcases hi with rfl | rfl <;>
      · simp only [FieldsT.payload, getMsbD_append']; rfl
    · intro fv hf
      obtain ⟨i, hi, rfl⟩ := tlm_entries hf
      exact inPayload_flag (h1 i)
    · intro i hi hb hf
      have h6 := hb (0, true) (by simp [FieldsT.form, tlmForm])
      have h7 := hb (1, false) (by simp [FieldsT.form, tlmForm])
      simp only at h6 h7
      exact absurd (List.mem_singleton.2 (by omega : i = 2 + (i - 2)))
        (hf _ (tlm_field (i := i - 2) (by omega)))
  | txt text =>
    refine ⟨?_, ?_, ?_⟩
    · intro ib hi
      simp only [FieldsT.form, txtForm, List.mem_cons, List.not_mem_nil, or_false] at hi
      rcases hi with rfl | rfl | rfl <;>
      · simp only [FieldsT.payload, getMsbD_append']; rfl
    · intro fv hf
      obtain rfl := txt_entries hf
      refine inPayload_range' rfl (by decide) ?_
      simp only [FieldsT.payload]
      rw [slice_append_right _ _ 0 74 (by decide), slice_self]
      simp
    · intro i hi hb hf
      have h6 := hb (0, true) (by simp [FieldsT.form, txtForm])
      have h7 := hb (1, true) (by simp [FieldsT.form, txtForm])
      have h8 := hb (2, false) (by simp [FieldsT.form, txtForm])
      simp only [FieldsT.form, txtForm, Form.allFields, List.map_nil, List.nil_append,
        List.mem_singleton, forall_eq, textT, List.mem_range'_1] at hf
      simp only at h6 h7 h8
      omega

/-- The legal values of profile T's fields. -/
theorem text_legal (role : FieldRole) (a : Alphabet) (start width word n : Nat) (v : Int) :
    (textT role a start width word n).legal v = decide (0 ≤ v ∧ v < (a.length : Int) ^ n) := by
  simp [textT, Field.legal, Field.count]

theorem flag_legal (start word : Nat) (v : Int) :
    (flagT start word).legal v = decide (0 ≤ v ∧ v < 2) := by
  simp [flagT, Field.legal, Field.width]

theorem value_legal_locator (v : Int) : (valueT false).legal v = decide (0 ≤ v ∧ v < 32400) := by
  simp only [valueT, Field.legal, Field.width, Bool.false_eq_true, if_false, List.length_range']
  rw [← Bool.decide_and]
  apply decide_eq_decide.2
  omega

theorem value_legal_report (v : Int) :
    (valueT true).legal v = decide (-16384 ≤ v ∧ v < 16384) := by
  simp [valueT, Field.legal, Field.width]

theorem alphabetT_length : alphabetT.length = 38 ∧ (alphabetT.take 37).length = 37 := by
  simp [alphabetT]

theorem vals_three {l : List Int} (h : l.length = 3) : ∃ a b c, l = [a, b, c] := by
  match l, h with
  | [a, b, c], _ => exact ⟨a, b, c, rfl⟩

/-- Every form with legal field values is that of some message's fields. -/
theorem fields_of_form {form : Form} {vals : List Int} (hf : form ∈ packFmtT.layout.forms)
    (hl : form.legal vals) : ∃ f : FieldsT, f.legal = true ∧ f.form = form ∧ f.vals = vals := by
  simp only [packFmtT, List.mem_cons, List.not_mem_nil, or_false] at hf
  obtain ⟨hn, hv⟩ := hl
  rcases hf with rfl | rfl | rfl | rfl
  · obtain ⟨a, b, v, rfl⟩ := vals_three (by simpa [stdForm] using hn)
    simp only [stdForm, List.zip_cons_cons, List.mem_cons, List.zip_nil_right, List.not_mem_nil,
      or_false, forall_eq_or_imp, forall_eq, text_legal, value_legal_locator, alphabetT_length,
      decide_eq_true_eq] at hv
    norm_num at hv
    obtain ⟨⟨a0, a1⟩, ⟨b0, b1⟩, v0, v1⟩ := hv
    refine ⟨.std a.toNat b.toNat false (BitVec.ofNat 15 v.toNat), ?_, rfl, ?_⟩
    · simp only [FieldsT.legal, Bool.false_or, Bool.and_eq_true, decide_eq_true_eq,
        BitVec.toNat_ofNat]
      norm_num
      omega
    · simp only [FieldsT.vals, BitVec.toNat_ofNat, List.cons.injEq, and_true]
      norm_num
      omega
  · obtain ⟨a, b, v, rfl⟩ := vals_three (by simpa [stdForm] using hn)
    simp only [stdForm, List.zip_cons_cons, List.mem_cons, List.zip_nil_right, List.not_mem_nil,
      or_false, forall_eq_or_imp, forall_eq, text_legal, value_legal_report, alphabetT_length,
      decide_eq_true_eq] at hv
    norm_num at hv
    obtain ⟨⟨a0, a1⟩, ⟨b0, b1⟩, v0, v1⟩ := hv
    refine ⟨.std a.toNat b.toNat true (BitVec.ofInt 15 v), ?_, rfl, ?_⟩
    · simp only [FieldsT.legal, Bool.true_or, Bool.and_eq_true, decide_eq_true_eq]
      norm_num
      omega
    · simp only [FieldsT.vals, BitVec.toInt_ofInt, List.cons.injEq, and_true]
      rw [Int.bmod_eq_of_le (by norm_num; omega) (by norm_num; omega)]
      refine ⟨by omega, by omega, rfl⟩
  · have hn : vals.length = 75 := by simpa [tlmForm] using hn
    refine ⟨.tlm (bitsOfFn 75 fun i => vals.getD i 0 == 1), rfl, rfl, ?_⟩
    apply List.ext_getElem
    · simp [FieldsT.vals, hn]
    · intro i h1 h2
      have hi : i < 75 := by omega
      have := hv (tlmForm.fields[i]'(by simpa [tlmForm] using hi), vals[i])
        (List.mem_iff_getElem.2 ⟨i, by simp [tlmForm, hn, hi], by simp⟩)
      simp only [tlmForm, List.getElem_map, List.getElem_range, flag_legal,
        decide_eq_true_eq] at this
      simp only [FieldsT.vals, List.getElem_map, List.getElem_range, getMsbD_bitsOfFn, hi,
        decide_true, Bool.true_and, List.getD_eq_getElem?_getD, List.getElem?_eq_getElem h2,
        Option.getD_some, beq_iff_eq]
      split <;> omega
  · obtain ⟨v, rfl⟩ : ∃ v, vals = [v] := by
      match vals, hn with
      | [v], _ => exact ⟨v, rfl⟩
    simp only [txtForm, List.zip_cons_cons, List.zip_nil_right, List.mem_singleton, forall_eq,
      text_legal, alphabetT_length, decide_eq_true_eq] at hv
    norm_num at hv
    refine ⟨.txt v.toNat, ?_, rfl, ?_⟩
    · simp only [FieldsT.legal, decide_eq_true_eq]
      norm_num
      omega
    · simp only [FieldsT.vals, List.cons.injEq, and_true]
      omega

theorem FieldsT.vals_legal (f : FieldsT) (h : f.legal = true) : f.form.legal f.vals := by
  cases f with
  | std a b kind value =>
    simp only [FieldsT.legal, Bool.and_eq_true, decide_eq_true_eq] at h
    obtain ⟨⟨ha, hb⟩, hv⟩ := h
    norm_num at ha hb
    cases kind
    · simp only [Bool.false_or, decide_eq_true_eq] at hv
      refine ⟨rfl, ?_⟩
      simp only [FieldsT.form, FieldsT.vals, stdForm, List.zip_cons_cons, List.mem_cons,
        List.zip_nil_right, List.not_mem_nil, or_false, forall_eq_or_imp, forall_eq, text_legal,
        value_legal_locator, alphabetT_length, decide_eq_true_eq]
      norm_num
      omega
    · have h1 := BitVec.toInt_lt (x := value)
      have h2 := BitVec.le_toInt (x := value)
      refine ⟨rfl, ?_⟩
      simp only [FieldsT.form, FieldsT.vals, stdForm, List.zip_cons_cons, List.mem_cons,
        List.zip_nil_right, List.not_mem_nil, or_false, forall_eq_or_imp, forall_eq, text_legal,
        value_legal_report, alphabetT_length, decide_eq_true_eq]
      norm_num at h1 h2 ⊢
      omega
  | tlm bits =>
    refine ⟨by simp [FieldsT.form, FieldsT.vals, tlmForm], ?_⟩
    intro fv hf
    obtain ⟨i, -, rfl⟩ := tlm_entries (List.mem_append.2 (.inr hf))
    rw [flag_legal]
    cases bits.getMsbD i <;> rfl
  | txt text =>
    simp only [FieldsT.legal, decide_eq_true_eq] at h
    norm_num at h
    refine ⟨rfl, ?_⟩
    simp only [FieldsT.form, FieldsT.vals, txtForm, List.zip_cons_cons, List.zip_nil_right,
      List.mem_singleton, forall_eq, text_legal, alphabetT_length, decide_eq_true_eq]
    norm_num
    omega

theorem FieldsT.form_mem (f : FieldsT) : f.form ∈ packFmtT.layout.forms := by
  cases f with
  | std a b kind value => cases kind <;> simp [FieldsT.form, packFmtT]
  | tlm bits => simp [FieldsT.form, packFmtT]
  | txt text => simp [FieldsT.form, packFmtT]

theorem gridWords_mem {v : Nat} (h : v < 32400) : ∀ w ∈ gridWords v, ∃ a ∈ gridT, w ∈ a := by
  intro w hw
  simp only [gridWords, List.mem_cons, List.not_mem_nil, or_false] at hw
  rcases hw with rfl | rfl | rfl | rfl
  · exact ⟨_, List.mem_cons_self, List.mem_map.2 ⟨v / 1800, List.mem_range.2 (by omega), rfl⟩⟩
  · exact ⟨_, List.mem_cons_self, List.mem_map.2 ⟨v / 100 % 18, List.mem_range.2 (by omega), rfl⟩⟩
  · exact ⟨_, List.mem_cons_of_mem _ List.mem_cons_self,
      List.mem_map.2 ⟨v / 10 % 10, List.mem_range.2 (by omega), rfl⟩⟩
  · exact ⟨_, List.mem_cons_of_mem _ List.mem_cons_self,
      List.mem_map.2 ⟨v % 10, List.mem_range.2 (by omega), rfl⟩⟩

theorem alphabetT_nodup : alphabetT.Nodup ∧ (alphabetT.take 37).Nodup := by decide +kernel

/-- A radix field of profile T is lawful when it is wide enough and inside the payload. -/
theorem textT_lawful {l : Layout} {role : FieldRole} {a : Alphabet} {q start width word n : Nat}
    (ha : a.Nodup) (hq : a.length = q) (h2 : 1 < q) (hw : q ^ n ≤ 2 ^ width) (h0 : 0 < width)
    (hn : 0 < n) (hi : start + width ≤ 77) (h1 : 0 < word)
    (hr : (textT role a start width word n).roleLawful l) :
    (textT role a start width word n).Lawful l where
  width := by simp [textT]; omega
  inside i h := by simp only [textT, List.mem_range'_1] at h; omega
  ascending := List.pairwise_lt_range'
  count := by simp [textT]; omega
  places j h := by simp only [textT, List.mem_range'_1] at h; omega
  used k hk := by
    have hk : k < n := by simpa [textT, Field.count] using hk
    have hp : 0 < q ^ n := Nat.pow_pos (by omega)
    have hp1 : q ^ (n - 1 - k) < q ^ n := Nat.pow_lt_pow_right h2 (by omega)
    have hp2 : 0 < q ^ (n - 1 - k) := Nat.pow_pos (by omega)
    refine ⟨0, ((q ^ (n - 1 - k) : Nat) : Int), ?_, ?_, ?_⟩
    · rw [text_legal, hq, decide_eq_true_eq]
      exact ⟨le_refl 0, by exact_mod_cast hp⟩
    · rw [text_legal, hq, decide_eq_true_eq]
      exact ⟨by omega, by exact_mod_cast hp1⟩
    · simp only [textT, Field.words, Field.count, List.length_range', hq, Int.toNat_natCast,
        Int.toNat_zero]
      simp only [List.getD_eq_getElem?_getD, radixDigits, List.map_map, List.getElem?_map,
        List.getElem?_range hk, Option.map_some, Option.getD_some, Function.comp_apply,
        Nat.zero_div, Nat.zero_mod, Nat.div_self hp2, Nat.mod_eq_of_lt h2, Alphabet.char]
      rw [List.getElem?_eq_getElem (by omega), List.getElem?_eq_getElem (by omega)]
      intro h
      have := (List.Nodup.getElem_inj_iff ha).1 (by simpa using h)
      omega
  kind := ⟨ha, by simpa [textT, hq, Field.count, Field.width] using hw⟩
  role := hr

theorem flagT_lawful (l : Layout) {start word : Nat} (hs : start < 77) (hw : 0 < word) :
    (flagT start word).Lawful l where
  width := by simp [flagT]
  inside i h := by simp only [flagT, List.mem_singleton] at h; omega
  ascending := List.pairwise_singleton _ _
  count := by simp [flagT]
  places j h := by simp only [flagT, List.mem_singleton] at h; omega
  used k hk := by
    have : k = 0 := by simpa [flagT, Field.count] using hk
    subst this
    exact ⟨0, 1, rfl, rfl, by simp [flagT, Field.words, bitWord]⟩
  kind _ _ := rfl
  role := trivial

theorem valueT_lawful (kind : Bool) : (valueT kind).Lawful packFmtT.layout := by
  cases kind
  · exact
      { width := by decide
        inside := by decide
        ascending := by decide
        count := by decide
        places := by decide
        used := by
          intro k hk
          have hk : k < 4 := hk
          refine ⟨0, 1911, by decide, by decide, ?_⟩
          rcases (by omega : k = 0 ∨ k = 1 ∨ k = 2 ∨ k = 3) with rfl | rfl | rfl | rfl <;> decide
        kind := fun v _ => rfl
        role := by
          intro v hv
          apply gridWords_mem
          have : 0 ≤ v ∧ v < 32400 := by simpa using (value_legal_locator v).symm.trans hv
          omega }
  · exact
      { width := by decide
        inside := by decide
        ascending := by decide
        count := by decide
        places := by decide
        used := by
          intro k hk
          have : k = 0 := by have : k < 1 := hk; omega
          subst this
          exact ⟨0, 1, by decide, by decide, by decide⟩
        kind := fun v _ => rfl
        role := trivial }

theorem fieldsT_lawful : ∀ form ∈ packFmtT.layout.forms, ∀ f ∈ form.allFields,
    f.Lawful packFmtT.layout := by
  have std (kind : Bool) : ∀ f ∈ (stdForm kind).allFields, f.Lawful packFmtT.layout := by
    intro f hf
    simp only [stdForm, Form.allFields, List.map_cons, List.map_nil, List.singleton_append,
      List.mem_cons, List.not_mem_nil, or_false] at hf
    rcases hf with rfl | rfl | rfl | rfl
    · exact flagT_lawful _ (by decide) (by decide)
    · exact textT_lawful alphabetT_nodup.1 alphabetT_length.1 (by decide) (by norm_num) (by decide)
        (by decide) (by decide) (by decide) (.inr rfl)
    · exact textT_lawful alphabetT_nodup.2 alphabetT_length.2 (by decide) (by norm_num) (by decide)
        (by decide) (by decide) (by decide) (.inl rfl)
    · exact valueT_lawful kind
  intro form hform f hf
  simp only [packFmtT, List.mem_cons, List.not_mem_nil, or_false] at hform
  rcases hform with rfl | rfl | rfl | rfl
  · exact std false f hf
  · exact std true f hf
  · simp only [tlmForm, Form.allFields, List.map_nil, List.nil_append, List.mem_map,
      List.mem_range] at hf
    obtain ⟨i, hi, rfl⟩ := hf
    exact flagT_lawful _ (by omega) (by omega)
  · simp only [txtForm, Form.allFields, List.map_nil, List.nil_append, List.mem_singleton] at hf
    subst hf
    exact textT_lawful alphabetT_nodup.1 alphabetT_length.1 (by decide) (by norm_num) (by decide)
      (by decide) (by decide) (by decide) trivial

theorem layoutLawsT : Config.LayoutLaws packFmtT 80 where
  call37 := ⟨alphabetT_length.2, alphabetT_nodup.2⟩
  call38 := ⟨alphabetT_length.1, alphabetT_nodup.1⟩
  grid := by decide +kernel
  tags form hform := by
    simp only [packFmtT, List.mem_cons, List.not_mem_nil, or_false] at hform
    rcases hform with rfl | rfl | rfl | rfl <;> rfl
  fields := fieldsT_lawful
  selects form hform fv hf := by
    simp only [packFmtT, List.mem_cons, List.not_mem_nil, or_false] at hform
    have one {k : Nat} (hk : k < (flagT 55 11).count) : k = 0 := by
      simpa [flagT, Field.count] using hk
    rcases hform with rfl | rfl | rfl | rfl
    · obtain rfl := List.mem_singleton.1 hf
      refine ⟨rfl, fun k hk => ⟨stdForm true, by simp [packFmtT], rfl, 1,
        List.mem_singleton.2 rfl, ?_⟩⟩
      rw [one hk]; decide
    · obtain rfl := List.mem_singleton.1 hf
      refine ⟨rfl, fun k hk => ⟨stdForm false, by simp [packFmtT], rfl, 0,
        List.mem_singleton.2 rfl, ?_⟩⟩
      rw [one hk]; decide
    · exact absurd hf List.not_mem_nil
    · exact absurd hf List.not_mem_nil
  callSigns form hform hv := by
    simp only [packFmtT, List.mem_cons, List.not_mem_nil, or_false] at hform
    rcases hform with rfl | rfl | rfl | rfl
    · exact ⟨_, List.mem_cons_self, rfl⟩
    · exact ⟨_, List.mem_cons_self, rfl⟩
    · exact absurd hv (by decide)
    · exact absurd hv (by decide)
  valid m := by
    constructor
    · intro h
      obtain ⟨hl, hw⟩ := validMsgT_iff h
      exact ⟨_, FieldsT.form_mem _, _, FieldsT.vals_legal _ hl, by
        have := FieldsT.message (fieldsOfWords m)
        rwa [hw] at this⟩
    · rintro ⟨form, hf, vals, hl, hm⟩
      obtain ⟨f, h1, rfl, rfl⟩ := fields_of_form hf hl
      rw [Form.message_unique hl.1 hm f.message]
      exact validMsgT_words f h1
  packs form hf vals m hl hm := by
    obtain ⟨f, h1, rfl, rfl⟩ := fields_of_form hf hl
    rw [Form.message_unique hl.1 hm f.message]
    simp only [packFmtT, fieldsOfWords_words f h1]
    exact f.payload_form
  decodes form hf vals b hl hb := by
    obtain ⟨f, h1, rfl, rfl⟩ := fields_of_form hf hl
    refine ⟨f.words, ?_, f.message⟩
    rw [Form.payload_unique hl.1 hb f.payload_form]
    simp [packFmtT, unpackT, fieldsOfPayload_payload f h1, h1]

/-! ### All of the constraints -/

theorem normBoundT (e : List (List Half)) (d j : Nat) : (normT e d j).natAbs ≤ 2 ^ 30 - 1 := by
  have h := ((e.getD d []).getD j 0#16).isLt
  simp only [normT, Int.natAbs_natCast]
  omega

theorem grayT_injective : ∀ v w, grayT v = grayT w → v = w := by decide +kernel

theorem grayT_neighbours : ∀ j : Nat, j < 7 →
    Config.ones3 ((profileT 8).grayInv (BitVec.ofNat 3 j) ^^^
      (profileT 8).grayInv (BitVec.ofNat 3 (j + 1))) = 1 := by decide +kernel

theorem polyT_bit0 : (0x2757#14).getLsbD 0 = true := by decide

theorem profileT_lawful (nf : Nat) (h : 8 ≤ nf) : (profileT nf).Lawful where
  polyBit0 := polyT_bit0
  gh1 j hj k hk := gh1T j k hj hk
  fullRank sel hs j hj := fullRankT sel hs j hj
  rowWeight := rowWeightT
  colWeight := colWeightT
  syncOrder := by simp [profileT]
  grayInjective := grayT_injective
  grayNeighbours := grayT_neighbours
  pack := packLawsT
  layout := layoutLawsT
  toneSpacing := by simp [profileT]
  symbolPeriod := by simp [profileT]
  normBound e d _ j _ := normBoundT e d j
  samplesCap := by simp [profileT]
  binsCap := h
  candCap := by simp [profileT]
  resCap := by simp [profileT]
  wordsCap := by simp [profileT]
  workers := by simp [profileT]

end Sys2Proof.Machine
end

