-- ==== Sys2Proof/Config/Block.lean ====
section
/-!
DEFINITION. The block the machine runs on: some lawful assignment of the open parameters of
00_scope.md rule R10, and nothing says which.
-/

namespace Sys2Proof

/-- Some assignment of the open parameters that meets the constraints of 93_implementation_defined.md
section 1. It is opaque: nothing in Lean can evaluate it, and all that can be proved of it is that it
is lawful. The body only shows that a lawful assignment exists (log entry 5). -/
opaque Config.chosen : { c : Config // c.Lawful } :=
  ⟨Machine.profileT 256, Machine.profileT_lawful 256 (by decide)⟩

/-- The open parameters of the block. -/
def Config.block : Config := Config.chosen.1

/-- The constraints on the open parameters hold of the block. -/
theorem Config.block_lawful : Config.block.Lawful := Config.chosen.2

end Sys2Proof
end

