-- ==== Sys2Proof/Syntax.lean ====
section
/-!
DEFINITION. The command set CS-1: one constructor for each of the sixteen rows of
spec/opcode_table.json (30_encoding.md rule R95).
-/

namespace Sys2Proof

/-- The sixteen commands a host can write to CMD. Fifteen are of format N (no operand, R93);
`demDemod` alone is of format I and carries the candidate index (R94, R96). -/
inductive Instr where
  /-- CKS.GEN, checksum generate (R122). -/
  | cksGen
  /-- CKS.VFY, checksum verify (R123). -/
  | cksVfy
  /-- PCK.PACK, message to payload (R136). -/
  | pckPack
  /-- PCK.UNPACK, payload to message (R137). -/
  | pckUnpack
  /-- ENC.ENCODE, append parity (R155). -/
  | encEncode
  /-- ENC.XTR, split a codeword into payload and checksum (R160). -/
  | encXtr
  /-- BPD.DECODE, belief-propagation decode (R175). -/
  | bpdDecode
  /-- MOD.MAP, codeword to symbol sequence (R195). -/
  | modMap
  /-- MOD.SYNTH, symbol sequence to waveform (R198). -/
  | modSynth
  /-- SYN.BUILD, build the spectrogram (R208). -/
  | synBuild
  /-- SYN.SEARCH, search for candidates (R212). -/
  | synSearch
  /-- DEM.DEMOD, candidate to LLR vector (R229), with the index of the candidate record. -/
  | demDemod (cidx : Nat)
  /-- SEQ.ENCMSG, the whole encode flow (R240). -/
  | seqEncmsg
  /-- SEQ.DECBUF, the whole decode flow (R245). -/
  | seqDecbuf
  /-- SYS.NOP, no operation (R256). -/
  | sysNop
  /-- SYS.SRST, soft reset (R257). -/
  | sysSrst
  deriving DecidableEq, Repr

end Sys2Proof
end

