-- ==== Sys2Proof/Machine/State.lean ====
section
/-!
DEFINITION. The state of the block (10_state.md), with its reset value (rule R51), the host port's
queue, and the ways a step can stop.
-/

namespace Sys2Proof.Machine

/-- The eleven buffers and memories, the address spaces 1 to 11 (20_memory.md rule R61). Space 0 is
the register space. -/
inductive Space where
  | msg | pay | crc | cw | sym | llr | samp | wave | spec | cand | res
  deriving DecidableEq, Repr

/-- The space id of a buffer or memory, which is also its bit in VALID (R61, R37). -/
def Space.id : Space → Nat
  | .msg => 1
  | .pay => 2
  | .crc => 3
  | .cw => 4
  | .sym => 5
  | .llr => 6
  | .samp => 7
  | .wave => 8
  | .spec => 9
  | .cand => 10
  | .res => 11

/-- An element-addressed memory. `cells` lists (index, element) pairs with strictly rising indices.
An unlisted element is 0 when `back` is `none` (a flip-flop buffer after reset, R51), and then no
listed element is 0; when `back` is `some d` nothing has been written there since the contents became
`any`, and the element reads as draw `d`'s free value at that index (R51, R36). -/
structure Mem (α : Type) where
  back : Option Nat
  cells : List (Nat × α)
  deriving DecidableEq, Repr

/-- The belief-propagation message memory (R32): for each check the messages to its bits, for each bit
the messages to its checks, and the posteriors. What is not listed is unspecified: draw `back`. -/
structure BpMem where
  back : Nat
  c2v : List (List (Nat × Int))
  v2c : List (List (Nat × Int))
  post : List Int
  deriving DecidableEq, Repr

/-- The sequencer's phases (R46). -/
inductive Phase where
  | idle | pack | cksgen | fecenc | map | synth | cfgchk | build | search | demod | fecdec | xtr
  | cksvfy | unpack | collect | faulted
  deriving DecidableEq, Repr

/-- The eleven configuration registers, numbers 0x10 to 0x1A (R38, R49). -/
structure CfgRegs where
  fs : BitVec 32
  base : BitVec 32
  tmin : BitVec 32
  tmax : BitVec 32
  fmin : BitVec 32
  fmax : BitVec 32
  thresh : BitVec 32
  maxIter : BitVec 32
  mergeDt : BitVec 32
  mergeDf : BitVec 32
  nsamp : BitVec 32
  deriving DecidableEq, Repr

/-- An accepted message of the running SEQ.DECBUF, an entry of the list A of 47_sequencer.md rules
R245 and R247. -/
structure Accepted where
  conf : BitVec 32
  score : BitVec 32
  t : BitVec 32
  f : BitVec 32
  msg : List (BitVec 32)
  deriving DecidableEq, Repr

/-- What the outside world can do to the block: the two host transactions of 20_memory.md rules R66
and R67, and the reset input of 70_reset_and_hazards.md rule R295. -/
inductive Txn where
  /-- HOST.RD(space, index). -/
  | rd (space : BitVec 4) (index : BitVec 28)
  /-- HOST.WR(space, index, wdata). -/
  | wr (space : BitVec 4) (index : BitVec 28) (data : BitVec 32)
  /-- The reset event. -/
  | reset
  deriving DecidableEq, Repr

/-- An outside event still to come. It lands at once when the block is not busy. While a command runs
it lands after `k` of that command's internal steps when `lands = some k`, and waits for
STATUS.BUSY = 0 when `lands = none` (the `wait` of 30_encoding.md rule R100). Log entry 3. -/
structure PortEvent where
  lands : Option Nat
  txn : Txn
  deriving DecidableEq, Repr

/-- The whole state of the machine. -/
structure State where
  /-- MSG, MSG_WORDS words (R21). -/
  msg : Mem (BitVec 32)
  /-- PAY, 77 bits (R22). -/
  pay : BitVec 77
  /-- CRC, 14 bits (R23). -/
  crc : BitVec 14
  /-- CW, 174 bits (R24). -/
  cw : BitVec 174
  /-- SYM, 79 tones (R25). -/
  sym : Mem (BitVec 3)
  /-- LLR, 174 signed words (R26). -/
  llr : Mem (BitVec 32)
  /-- SAMP, MAX_SAMPLES signed samples (R27). -/
  samp : Mem (BitVec 16)
  /-- WAVE, MAX_SAMPLES signed samples (R28). -/
  wave : Mem (BitVec 16)
  /-- SPEC, NT × NF unsigned magnitudes, index t × NF + f (R29). -/
  spec : Mem (BitVec 16)
  /-- CAND, 4 × MAX_CAND words (R30, R104). -/
  cand : Mem (BitVec 32)
  /-- RES, (8 + MSG_WORDS) × MAX_RES words (R31, R105). -/
  res : Mem (BitVec 32)
  /-- The belief-propagation message memory (R32). -/
  bp : BpMem
  /-- VALID, bit k for space k (R36, R37). -/
  valid : BitVec 12
  /-- STATUS.BUSY (R39). -/
  busy : Bool
  /-- STATUS.DONE (R39). -/
  done : Bool
  /-- STATUS.FAULT (R39). -/
  fault : Bool
  /-- STATUS.ABORTED (R39). -/
  aborted : Bool
  /-- FLAGS.CRC_OK (R41). -/
  crcOk : Bool
  /-- FLAGS.CONV (R41). -/
  conv : Bool
  /-- FLAGS.MALF (R41). -/
  malf : Bool
  /-- LASTERR\[7:0\] (R42). -/
  lastErr : BitVec 8
  /-- FAULTINFO (R43). -/
  faultInfo : BitVec 32
  /-- ITER (R44). -/
  iter : BitVec 32
  /-- CONF (R44). -/
  conf : BitVec 32
  /-- NCAND (R45). -/
  ncand : BitVec 32
  /-- NRES (R45). -/
  nres : BitVec 32
  /-- NT (R45). -/
  nt : BitVec 32
  /-- NWAVE (R45). -/
  nwave : BitVec 32
  /-- The configuration registers (R49). -/
  cfg : CfgRegs
  /-- PHASE (R46). -/
  phase : Phase
  /-- CIDX (R46; log entry 16, DESIGN CHOICE). -/
  cidx : Nat
  /-- T, the belief-propagation iteration counter (R46; log entry 16, DESIGN CHOICE). -/
  iterT : Nat
  /-- ABORT_REQ (R46, R48). -/
  abortReq : Bool
  /-- The command that runs, which R273 refers to; `none` when STATUS.BUSY = 0. -/
  run : Option Instr
  /-- The list A of the running SEQ.DECBUF (R245). -/
  acc : List Accepted
  /-- The value the last HOST.RD returned: the port's `rdata` (R62, R66). -/
  rdata : BitVec 32
  /-- The MODEL's own: how many internal steps the running command has made (log entry 3). -/
  ticks : Nat
  /-- The MODEL's own: the outside events still to come, the next first (log entry 3). -/
  port : List PortEvent
  /-- The MODEL's own: the number of the next free value (log entry 1). -/
  draws : Nat
  deriving DecidableEq, Repr

/-- A fault stops the model. The block's own fatal fault is none of these: it is a next state
(60_exceptions.md rule R270). -/
inductive Fault where
  /-- Raised by `step` alone: STATUS.BUSY = 1 and no running command is recorded, so nothing says what
  the sequencer would do. No run from reset reaches such a state. Safe: the model stops (log entry 21,
  DESIGN CHOICE). -/
  | sequencerLost
  deriving DecidableEq, Repr

/-- A refusal: an instruction without a meaning in the model. -/
inductive Refusal where
  /-- Raised by an arm of `exec` whose instruction has no meaning yet; no arm is such. Safe: the model
  stops. -/
  | notModelled (mnemonic : String)
  deriving DecidableEq, Repr

/-- The configuration registers after reset (the reset column of R49). -/
def CfgRegs.reset : CfgRegs where
  fs := 12000#32
  base := 1500#32
  tmin := 0#32
  tmax := 0xFFFFFFFF#32
  fmin := 0#32
  fmax := 0xFFFFFFFF#32
  thresh := 0#32
  maxIter := 20#32
  mergeDt := 1#32
  mergeDf := 1#32
  nsamp := 0#32

/-- The block's state after a reset event (R51, 70_reset_and_hazards.md rule R296), the unspecified
memories being draws `d` to `d + 6`. -/
def State.resetFrom (d : Nat) : State where
  msg := ⟨none, []⟩
  pay := 0#77
  crc := 0#14
  cw := 0#174
  sym := ⟨none, []⟩
  llr := ⟨some d, []⟩
  samp := ⟨some (d + 1), []⟩
  wave := ⟨some (d + 2), []⟩
  spec := ⟨some (d + 3), []⟩
  cand := ⟨some (d + 4), []⟩
  res := ⟨some (d + 5), []⟩
  bp := ⟨d + 6, [], [], []⟩
  valid := 0#12
  busy := false
  done := false
  fault := false
  aborted := false
  crcOk := false
  conv := false
  malf := false
  lastErr := 0#8
  faultInfo := 0#32
  iter := 0#32
  conf := 0#32
  ncand := 0#32
  nres := 0#32
  nt := 0#32
  nwave := 0#32
  cfg := CfgRegs.reset
  phase := .idle
  cidx := 0
  iterT := 0
  abortReq := false
  run := none
  acc := []
  rdata := 0#32
  ticks := 0
  port := []
  draws := d + 7

/-- The machine right after reset (R51): no outside event has been queued, and the first free values
are draws 0 to 6 (log entries 1, 2 and 4). -/
def State.reset : State := State.resetFrom 0

end Sys2Proof.Machine
end

