-- ==== Sys2Proof/Machine/Flags.lean ====
section
/-!
DEFINITION. The status registers as words (10_state.md rules R37 to R43, R58), the outcome codes
(60_exceptions.md rule R266), and how a command writes its flags.
-/

namespace Sys2Proof.Machine

/-- The outcome codes a completed command leaves in LASTERR (R266). Code 1, PRECOND, never appears
there (R42). -/
inductive Code where
  | ok | config | fecNotConverged | checksumMismatch | malformedPayload
  deriving DecidableEq, Repr

/-- The number of an outcome code (R266). -/
def Code.num : Code → BitVec 8
  | .ok => 0#8
  | .config => 2#8
  | .fecNotConverged => 3#8
  | .checksumMismatch => 4#8
  | .malformedPayload => 5#8

/-- The sub-codes of the fatal fault (R271). -/
inductive SubCode where
  | reservedOpcode | reservedField | indexRange | operandInvalid | busyAccess | readOnly | badLength
  | badMessage | badValue
  deriving DecidableEq, Repr

/-- The number of a sub-code (R271). -/
def SubCode.code : SubCode → BitVec 8
  | .reservedOpcode => 1#8
  | .reservedField => 2#8
  | .indexRange => 3#8
  | .operandInvalid => 4#8
  | .busyAccess => 5#8
  | .readOnly => 6#8
  | .badLength => 7#8
  | .badMessage => 8#8
  | .badValue => 9#8

/-- A precondition violation about to be raised: `PRECOND(sub, info)` (R270). -/
structure Precond where
  sub : SubCode
  info : BitVec 16
  deriving DecidableEq, Repr

/-- FAULTINFO as the fatal fault writes it: information, sub-code, cause 1 (R43, R270). -/
def Precond.word (p : Precond) : BitVec 32 := p.info ++ p.sub.code ++ 1#8

/-- STATUS (R39): bit 0 BUSY, bit 1 DONE, bit 2 FAULT, bit 3 ABORTED, bits 31:4 read 0. -/
def State.statusWord (s : State) : BitVec 32 :=
  0#28 ++ BitVec.ofBool s.aborted ++ BitVec.ofBool s.fault ++ BitVec.ofBool s.done ++
    BitVec.ofBool s.busy

/-- FLAGS (R41): bit 0 CRC_OK, bit 1 CONV, bit 2 MALF, bits 31:3 read 0. -/
def State.flagsWord (s : State) : BitVec 32 :=
  0#29 ++ BitVec.ofBool s.malf ++ BitVec.ofBool s.conv ++ BitVec.ofBool s.crcOk

/-- LASTERR (R42): the code in bits 7:0, bits 31:8 read 0. -/
def State.lastErrWord (s : State) : BitVec 32 := s.lastErr.setWidth 32

/-- VALID (R37): bits 1 to 11, bits 31:12 read 0. -/
def State.validWord (s : State) : BitVec 32 := s.valid.setWidth 32

/-- ID reads a constant: ASCII "CW", command-set version 1 (R58). -/
def idWord : BitVec 32 := 0x43570001#32

/-- CKS.VFY's flag (R41, R123). -/
def State.withCrcOk (b : Bool) (s : State) : State := { s with crcOk := b }

/-- BPD.DECODE's flag (R41, R175). -/
def State.withConv (b : Bool) (s : State) : State := { s with conv := b }

/-- PCK.UNPACK's flag (R41, R137). -/
def State.withMalf (b : Bool) (s : State) : State := { s with malf := b }

/-- `FLAGS <- 0; ITER <- 0; CONF <- 0`, part of both discards (47_sequencer.md rules R243, R254). -/
def State.clearFlags (s : State) : State :=
  { s with crcOk := false, conv := false, malf := false, iter := 0#32, conf := 0#32 }

/-- The level outputs of the port mirror three STATUS bits: `busy`, `done`, `fault` (R62, R278). -/
def State.outputs (s : State) : Bool × Bool × Bool := (s.busy, s.done, s.fault)

end Sys2Proof.Machine
end

