-- ==== Sys2Proof/Machine/Ops.lean ====
section
/-!
DEFINITION. The operations the commands share: reading and writing the memories, validity bits,
`any` contents, taking the fatal fault and leaving it by reset, and how a command is accepted, runs
and completes (10_state.md, 47_sequencer.md rule R236, 60_exceptions.md rules R270 to R276).
-/

namespace Sys2Proof.Machine

/-! ### Memories -/

/-- The element listed at index `i`. -/
def findCell {α : Type} (i : Nat) : List (Nat × α) → Option α
  | [] => none
  | (j, v) :: rest => if j = i then some v else findCell i rest

/-- `B[i]`: the element last written there, 0 in a flip-flop buffer after reset, and otherwise a free
value (R17, R51). -/
def Mem.rd {w : Nat} (m : Mem (BitVec w)) (i : Nat) : BitVec w :=
  match findCell i m.cells with
  | some v => v
  | none =>
    match m.back with
    | none => 0#w
    | some d => Config.freeBits w d i

/-- The list of cells with the entry for index `i` left out, or replaced by `v`. -/
def putCell {α : Type} (i : Nat) (v : Option α) : List (Nat × α) → List (Nat × α)
  | [] => v.toList.map fun x => (i, x)
  | (j, u) :: rest =>
    if j < i then (j, u) :: putCell i v rest
    else if j = i then v.toList.map (fun x => (i, x)) ++ rest
    else v.toList.map (fun x => (i, x)) ++ (j, u) :: rest

/-- `B[i] <- v` (R17). The canonical form is kept: in a buffer whose unlisted elements are 0, writing
0 removes the entry. -/
def Mem.wr {w : Nat} (m : Mem (BitVec w)) (i : Nat) (v : BitVec w) : Mem (BitVec w) :=
  { m with cells := putCell i (if m.back = none ∧ v = 0#w then none else some v) m.cells }

/-- Contents `any`: every element is a free value of draw `d` (R17). -/
def Mem.any (α : Type) (d : Nat) : Mem α := ⟨some d, []⟩

/-- `B <- X` for a buffer of `n` elements, all of them written. -/
def Mem.ofFn {w : Nat} (n : Nat) (f : Nat → BitVec w) : Mem (BitVec w) :=
  ⟨none, (List.range n).filterMap fun i => if f i = 0#w then none else some (i, f i)⟩

/-- The first `n` elements written from `f`, every other element `any` (R198, R212, R245). -/
def Mem.prefixOf {w : Nat} (d n : Nat) (f : Nat → BitVec w) : Mem (BitVec w) :=
  ⟨some d, (List.range n).map fun i => (i, f i)⟩

/-- The canonical form: indices strictly rise, and no listed element equals what an unlisted index of
a zero-backed buffer reads as. -/
def Mem.wf {w : Nat} (m : Mem (BitVec w)) : Bool :=
  decide (m.cells.Pairwise fun a b => a.1 < b.1) &&
    (m.back.isSome || m.cells.all fun c => !(c.2 == 0#w))

/-! ### Validity bits and `any` contents -/

/-- `VALID.B` (R36). -/
def State.isValid (s : State) (b : Space) : Bool := s.valid.getLsbD b.id

/-- `VALID.B <- v` (R36). -/
def State.setValid (b : Space) (v : Bool) (s : State) : State :=
  { s with valid :=
      if v then s.valid ||| BitVec.ofNat 12 (2 ^ b.id)
      else s.valid &&& ~~~(BitVec.ofNat 12 (2 ^ b.id)) }

/-- The contents of a buffer become `any`, and the counter that belongs to it 0
(R36 item 2, R45). -/
def State.scramble (b : Space) (s : State) : State :=
  match b with
  | .msg => { s with msg := Mem.any _ s.draws, draws := s.draws + 1 }
  | .pay => { s with pay := Config.freeBits 77 s.draws 0, draws := s.draws + 1 }
  | .crc => { s with crc := Config.freeBits 14 s.draws 0, draws := s.draws + 1 }
  | .cw => { s with cw := Config.freeBits 174 s.draws 0, draws := s.draws + 1 }
  | .sym => { s with sym := Mem.any _ s.draws, draws := s.draws + 1 }
  | .llr => { s with llr := Mem.any _ s.draws, draws := s.draws + 1 }
  | .samp => { s with samp := Mem.any _ s.draws, draws := s.draws + 1 }
  | .wave => { s with wave := Mem.any _ s.draws, nwave := 0#32, draws := s.draws + 1 }
  | .spec => { s with spec := Mem.any _ s.draws, nt := 0#32, draws := s.draws + 1 }
  | .cand => { s with cand := Mem.any _ s.draws, ncand := 0#32, draws := s.draws + 1 }
  | .res => { s with res := Mem.any _ s.draws, nres := 0#32, draws := s.draws + 1 }

/-- Discards a buffer: its validity bit is cleared and its contents become unspecified (R35). -/
def State.discard (b : Space) (s : State) : State := (s.setValid b false).scramble b

/-- Discards several buffers. -/
def State.discardAll (l : List Space) (s : State) : State := l.foldl (fun s b => s.discard b) s

/-- The belief-propagation message memory becomes unspecified, as it is between commands (R32; log
entry 13, DEDUCED). -/
def State.scrambleBp (s : State) : State :=
  { s with bp := ⟨s.draws, [], [], []⟩, draws := s.draws + 1 }

/-- The operand check of R36 item 3: the first of `l` whose validity bit is 0, in the order of `l`
(ascending space ids, R237). -/
def State.firstInvalid (l : List Space) (s : State) : Option Precond :=
  (l.find? fun b => !s.isValid b).map fun b => ⟨.operandInvalid, BitVec.ofNat 16 b.id⟩

/-! ### The fatal fault -/

/-- The buffers a command writes or discards: its W column in R33 and the additions below that
table. -/
def touched : Instr → List Space
  | .cksGen => [.crc]
  | .cksVfy => []
  | .pckPack => [.pay]
  | .pckUnpack => [.msg]
  | .encEncode => [.cw]
  | .encXtr => [.pay, .crc]
  | .bpdDecode => [.cw]
  | .modMap => [.sym]
  | .modSynth => [.wave]
  | .synBuild => [.spec, .cand, .llr]
  | .synSearch => [.cand]
  | .demDemod _ => [.llr]
  | .seqEncmsg => [.pay, .crc, .cw, .sym, .wave]
  | .seqDecbuf => [.spec, .cand, .llr, .cw, .pay, .crc, .msg, .res]
  | .sysNop => []
  | .sysSrst => []

/-- What a fault does to the command that runs (R273): its buffers become invalid and `any`, their
counters 0; STATUS.ABORTED, ABORT_REQ, CIDX and T become 0. That ABORT_REQ is cleared is R273's own
assignment, the one exception to R48, which names acceptance and reset alone (log entry 23, DEDUCED). -/
def State.abandon (i : Instr) (s : State) : State :=
  let s := (s.discardAll (touched i)).scrambleBp
  { s with aborted := false, abortReq := false, cidx := 0, iterT := 0, acc := [] }

/-- Fault entry, `raise PRECOND(sub, info)` (R270). A block already faulted takes no second fault
(R280); a command that was running is abandoned (R273). -/
def State.raise (p : Precond) (s : State) : State :=
  if s.fault then s
  else
    let s :=
      if s.busy then
        match s.run with
        | some i => s.abandon i
        | none => s
      else s
    { s with faultInfo := p.word, fault := true, busy := false, phase := .faulted, run := none,
             ticks := 0 }

/-- The reset event, and SYS.SRST, the only ways out of the fault (R276, R257, R296): every piece of
the block's state takes its reset value. What the outside world has queued and the value last
returned on the port are not the block's and stay (log entry 17, DESIGN CHOICE). -/
def State.resetBlock (s : State) : State :=
  { State.resetFrom s.draws with port := s.port, rdata := s.rdata }

/-! ### Acceptance, running, completion -/

/-- Acceptance of command `i` (R236), with the phase its first internal step is in (log entry 7,
DEDUCED). -/
def State.accept (i : Instr) (ph : Phase) (s : State) : State :=
  { s with busy := true, done := false, aborted := false, abortReq := false, phase := ph,
           run := some i, ticks := 0 }

/-- Completion with outcome `o` (R236, R42); `fail CONFIG` is completion with `.config` (R272). -/
def State.complete (o : Code) (s : State) : State :=
  { s with lastErr := o.num, phase := .idle, busy := false, done := true, run := none, ticks := 0 }

/-- The next outside event lands on the running command now (log entry 3). -/
def State.landing (s : State) : Bool :=
  match s.port with
  | [] => false
  | e :: _ =>
    match e.lands with
    | none => false
    | some k => decide (k ≤ s.ticks)

/-- The running command makes internal steps until it completes or an outside event lands; at most
`fuel` of them. What an internal step is: log entry 14 (DESIGN CHOICE). -/
def drain (tick : State → State) : Nat → State → State
  | 0, s => s
  | fuel + 1, s =>
    if s.busy && !s.landing then drain tick fuel (tick { s with ticks := s.ticks + 1 }) else s

/-- Issues command `i` (R236, R98): a faulted block drops it, a busy block faults, a failed
precondition check faults, and otherwise it is accepted, `start` prepares its first internal step and
it runs by `tick`. -/
def runCommand (i : Instr) (ph : Phase) (check : State → Option Precond) (start tick : State → State)
    (fuel : Nat) (s : State) : State :=
  if s.fault then s
  else if s.busy then s.raise ⟨.busyAccess, 0#16⟩
  else
    match check s with
    | some p => s.raise p
    | none => drain tick fuel (start (s.accept i ph))

/-- A unit command: one internal step, between acceptance and completion (20_memory.md rule R84). -/
def runUnit (i : Instr) (ph : Phase) (check : State → Option Precond) (body : State → State)
    (s : State) : State :=
  runCommand i ph check id body 1 s

end Sys2Proof.Machine
end

