-- ==== Sys2Proof/Machine/Operands.lean ====
section
/-!
DEFINITION. The operand forms: every command takes its operands from fixed buffers and registers
(30_encoding.md rules R93, R96; 10_state.md rule R33), and DEM.DEMOD names a candidate record.
-/

namespace Sys2Proof.Machine

/-- MSG as the list of its MSG_WORDS words (R21). -/
def State.message (c : Config) (s : State) : List Word := (List.range c.msgWords).map s.msg.rd

/-- `SAMP[0..n-1]` (R27). -/
def State.samples (s : State) (n : Nat) : List Half := (List.range n).map s.samp.rd

/-- SYM as the list of its 79 tones (R25). -/
def State.symbols (s : State) : List Tone := (List.range 79).map s.sym.rd

/-- `LLR[n]`, a signed integer (R26). -/
def State.llrAt (s : State) (n : Nat) : Int := (s.llr.rd n).toInt

/-- `SPEC[t][f]`, host element t × NF + f (R29). -/
def State.specAt (c : Config) (s : State) (t f : Nat) : Half := s.spec.rd (t * c.nf + f)

/-- The FEC input, `PAY ++ CRC` (R102). -/
def State.fecInput (s : State) : BitVec 91 := s.pay ++ s.crc

/-- A candidate: time offset, frequency offset, sync score (R30). -/
structure Candidate where
  t : Nat
  f : Nat
  score : Nat
  deriving DecidableEq, Repr

/-- The four words of a candidate record in space CAND; the fourth is reserved and 0 (R104). -/
def Candidate.word (k : Candidate) (j : Nat) : Word :=
  match j with
  | 0 => BitVec.ofNat 32 k.t
  | 1 => BitVec.ofNat 32 k.f
  | 2 => BitVec.ofNat 32 k.score
  | _ => 0#32

/-- `CAND[i]` read back from its record (R104). -/
def State.candidate (s : State) (i : Nat) : Candidate :=
  ⟨(s.cand.rd (4 * i)).toNat, (s.cand.rd (4 * i + 1)).toNat, (s.cand.rd (4 * i + 2)).toNat⟩

/-- The words of a result record in space RES (R105): conf, score, t, f, the crc_valid flag which is
always 1 (R57), three reserved words 0, then the message. -/
def Accepted.word (a : Accepted) (j : Nat) : Word :=
  match j with
  | 0 => a.conf
  | 1 => a.score
  | 2 => a.t
  | 3 => a.f
  | 4 => 1#32
  | 5 => 0#32
  | 6 => 0#32
  | 7 => 0#32
  | j + 8 => a.msg.getD j 0#32

/-- RES_STRIDE, the number of words of a result record (R105). -/
def resStride (c : Config) : Nat := 8 + c.msgWords

/-- Samples per symbol, `SPS = CFG_FS × SYMBOL_PERIOD`, when that is a positive integer: `sps_ok`
(44_modulator.md rule R197). -/
def sps (c : Config) (fs : Word) : Option Nat :=
  if fs.toNat * c.symbolPeriodNum % c.symbolPeriodDen = 0 ∧
      0 < fs.toNat * c.symbolPeriodNum / c.symbolPeriodDen then
    some (fs.toNat * c.symbolPeriodNum / c.symbolPeriodDen)
  else none

/-- The block at index `p` of the symbol sequence, if a synchronization block covers `p` (R192). -/
def syncBlockAt (c : Config) (p : Nat) : Option Nat :=
  (List.range 3).find? fun b => decide (c.syncPos b ≤ p ∧ p < c.syncPos b + 7)

/-- DATAPOS: the indices no synchronization block covers, ascending (R194). -/
def dataPositions (c : Config) : List Nat :=
  (List.range 79).filter fun p => (syncBlockAt c p).isNone

/-- `DATAPOS[d]` (R194). -/
def dataPos (c : Config) (d : Nat) : Nat := (dataPositions c).getD d 0

end Sys2Proof.Machine
end

