-- ==== Sys2Proof/Machine/Enc.lean ====
section
/-!
DEFINITION. ENC, the sparse FEC encoder (42_fec_encoder.md).
-/

namespace Sys2Proof.Machine

/-- Parity bit `r`: the GF(2) dot product of row `r` of ROM.G with the input (R153). -/
def parityBit (c : Config) (m : BitVec 91) (r : Nat) : Bool :=
  xorSum (List.range 91) fun k => c.genMatrix r k && m.getMsbD k

/-- `fec_encode`: the input, then its 83 parity bits (R153). -/
def fecEncode (c : Config) (m : BitVec 91) : BitVec 174 := m ++ bitsOfFn 83 (parityBit c m)

/-- `syndrome(x)[j]`: the sum of the bits in check `j` (R156). -/
def syndromeBit (c : Config) (x : BitVec 174) (j : Nat) : Bool :=
  xorSum (c.checkBits j) x.getMsbD

/-- Every check holds: the syndrome is zero (R156, R174). -/
def isCodeword (c : Config) (x : BitVec 174) : Bool :=
  (List.range 83).all fun j => !syndromeBit c x j

/-- ENC.ENCODE's precondition checks (R155). -/
def encEncodeCheck (s : State) : Option Precond := s.firstInvalid [.pay, .crc]

/-- ENC.ENCODE's body (R155). -/
def encEncodeBody (c : Config) (s : State) : State :=
  (({ s with cw := fecEncode c s.fecInput } : State).setValid .cw true).complete .ok

/-- ENC.ENCODE on the block with parameters `c` (R155). -/
def encEncode (c : Config) (s : State) : State :=
  runUnit .encEncode .fecenc encEncodeCheck (encEncodeBody c) s

/-- The meaning of ENC.ENCODE (R155). -/
def execEncEncode (s : State) : Host.Outcome State Fault Refusal :=
  .next (encEncode Config.block s)

/-- PAY and CRC take the codeword's first 91 bits (R160, R151). -/
def State.splitCodeword (s : State) : State :=
  { s with pay := slice s.cw 0 77, crc := slice s.cw 77 14 }

/-- ENC.XTR's precondition checks (R160). -/
def encXtrCheck (s : State) : Option Precond := s.firstInvalid [.cw]

/-- ENC.XTR's body (R160). -/
def encXtrBody (s : State) : State :=
  ((s.splitCodeword.setValid .pay true).setValid .crc true).complete .ok

/-- ENC.XTR (R160); it reads no parameter. -/
def encXtr (s : State) : State := runUnit .encXtr .xtr encXtrCheck encXtrBody s

/-- The meaning of ENC.XTR (R160). -/
def execEncXtr (s : State) : Host.Outcome State Fault Refusal := .next (encXtr s)

end Sys2Proof.Machine
end

