-- ==== Sys2Proof/Machine/Bpd.lean ====
section
/-!
DEFINITION. BPD, the iterative belief-propagation FEC decoder (43_bp_decoder.md).
-/

namespace Sys2Proof.Machine

/-- The message listed in row `i` for index `j`; a cell without one holds the value `unwritten`. -/
def bpMessage (unwritten : Int) (rows : List (List (Nat × Int))) (i j : Nat) : Int :=
  match findCell j (rows.getD i []) with
  | some v => v
  | none => unwritten

/-- `c2v[m][n]` (R32). A cell that nothing has written holds a free value of its own: the three arrays
take their values from three disjoint sequences (log entry 1), and no command reads one (R173). -/
def BpMem.c2vAt (b : BpMem) (m n : Nat) : Int :=
  bpMessage (Config.freeInt b.back (3 * (m * 174 + n))) b.c2v m n

/-- `v2c[n][m]` (R32), a free value of its own where nothing has written it, as for `c2vAt`. -/
def BpMem.v2cAt (b : BpMem) (n m : Nat) : Int :=
  bpMessage (Config.freeInt b.back (3 * (n * 83 + m) + 1)) b.v2c n m

/-- `post[n]` (R32), a free value of its own where nothing has written it, as for `c2vAt`. -/
def BpMem.postAt (b : BpMem) (n : Nat) : Int :=
  match b.post[n]? with
  | some v => v
  | none => Config.freeInt b.back (3 * n + 2)

/-- Initialisation: every check-to-variable message is set to 0; nothing else is written (R173). -/
def BpMem.init (c : Config) (b : BpMem) : BpMem :=
  { b with c2v := (List.range 83).map fun m => (c.checkBits m).map fun n => (n, 0) }

/-- Variable-to-check: what bit `n` believes, leaving out what check `m` said (R174). -/
def variableToCheck (c : Config) (llr : Nat → Int) (b : BpMem) (n m : Nat) : Int :=
  llr n + (((c.bitChecks n).filter fun m' => m' != m).map fun m' => b.c2vAt m' n).sum

/-- Check-to-variable, the min-sum rule over the check's other bits (R174). -/
def checkToVariable (c : Config) (b : BpMem) (m n : Nat) : Int :=
  let others := ((c.checkBits m).filter fun n' => n' != n).map fun n' => b.v2cAt n' m
  (others.map sgn).prod * (minOf (others.map Int.natAbs) : Int)

/-- The posterior of bit `n` (R174). -/
def posterior (c : Config) (llr : Nat → Int) (b : BpMem) (n : Nat) : Int :=
  llr n + ((c.bitChecks n).map fun m => b.c2vAt m n).sum

/-- The first half of an iteration: all v2c from the previous iteration's c2v (R174). -/
def BpMem.stepV2c (c : Config) (llr : Nat → Int) (b : BpMem) : BpMem :=
  { b with v2c := (List.range 174).map fun n =>
      (c.bitChecks n).map fun m => (m, variableToCheck c llr b n m) }

/-- The second half: all c2v from this iteration's v2c (R174). -/
def BpMem.stepC2v (c : Config) (b : BpMem) : BpMem :=
  { b with c2v := (List.range 83).map fun m =>
      (c.checkBits m).map fun n => (n, checkToVariable c b m n) }

/-- The soft estimate of every bit (R174). -/
def BpMem.stepPost (c : Config) (llr : Nat → Int) (b : BpMem) : BpMem :=
  { b with post := (List.range 174).map fun n => posterior c llr b n }

/-- One iteration of the flooding schedule (R174). -/
def bpIterate (c : Config) (llr : Nat → Int) (b : BpMem) : BpMem :=
  ((b.stepV2c c llr).stepC2v c).stepPost c llr

/-- The hard decision: bit 1 exactly where the posterior is negative (R171, R174). -/
def hardDecision (b : BpMem) : BitVec 174 := bitsOfFn 174 fun n => decide (b.postAt n < 0)

/-- The rest of `bp_decode` (R174): at most `fuel` more iterations after the first `t`. The answer on
convergence is the hard decision and the iteration's number. -/
def bpLoop (c : Config) (llr : Nat → Int) : Nat → Nat → BpMem → Option (BitVec 174 × Nat)
  | 0, _, _ => none
  | fuel + 1, t, b =>
    let b' := bpIterate c llr b
    if isCodeword c (hardDecision b') then some (hardDecision b', t + 1)
    else bpLoop c llr fuel (t + 1) b'

/-- `bp_decode(llr, max_iter)` (R174); `none` is NOT_CONVERGED. It starts on an unwritten memory; what
the memory holds before the initialisation makes no difference (`bpLoop_init`, R173). -/
def bpDecode (c : Config) (llr : Nat → Int) (maxIter : Nat) : Option (BitVec 174 × Nat) :=
  bpLoop c llr maxIter 0 (BpMem.init c ⟨0, [], [], []⟩)

/-- Entering `bp_decode`: the check-to-variable messages are initialised (R173), and T, which counts
the iterations made, is before its first value (log entry 16). -/
def State.startBp (c : Config) (s : State) : State :=
  { s with bp := BpMem.init c s.bp, iterT := 0 }

/-- One iteration on the machine's message memory and counter T (R46, R174). -/
def State.iterateBp (c : Config) (s : State) : State :=
  { s with bp := bpIterate c s.llrAt s.bp, iterT := s.iterT + 1 }

/-- CONF after convergence at iteration `t` (R177). -/
def confidence (maxIter : Word) (t : Nat) : Word := BitVec.ofNat 32 (maxIter.toNat - t + 1)

/-- BPD.DECODE's precondition checks (R175). -/
def bpdDecodeCheck (s : State) : Option Precond := s.firstInvalid [.llr]

/-- BPD.DECODE's end with CFG_MAXITER = 0 (R175). -/
def bpdConfig (s : State) : State :=
  ({ (s.withConv false).discard .cw with iter := 0#32, conf := 0#32 } : State).complete .config

/-- BPD.DECODE's end on convergence to `hard` (R175). -/
def bpdConverged (hard : BitVec 174) (s : State) : State :=
  (({ (s.withConv true).scrambleBp with
      cw := hard, iter := BitVec.ofNat 32 s.iterT, conf := confidence s.cfg.maxIter s.iterT } :
    State).setValid .cw true).complete .ok

/-- BPD.DECODE's end when the budget is exhausted (R175, R267). -/
def bpdExhausted (s : State) : State :=
  ({ ((s.withConv false).scrambleBp).discard .cw with
      iter := s.cfg.maxIter, conf := 0#32 } : State).complete .fecNotConverged

/-- BPD.DECODE between its acceptance and its first internal step: with CFG_MAXITER = 0 `bp_decode` is
not entered, and neither the message memory nor T is written (R175; log entry 13). -/
def bpdStart (c : Config) (s : State) : State := if s.cfg.maxIter = 0#32 then s else s.startBp c

/-- One internal step of BPD.DECODE: the configuration test, then one iteration (R175). -/
def bpdTick (c : Config) (s : State) : State :=
  if s.cfg.maxIter = 0#32 then bpdConfig s
  else
    let s := s.iterateBp c
    if isCodeword c (hardDecision s.bp) then bpdConverged (hardDecision s.bp) s
    else if s.cfg.maxIter.toNat ≤ s.iterT then bpdExhausted s
    else s

/-- How many internal steps BPD.DECODE can make (R262). -/
def bpdFuel (s : State) : Nat := s.cfg.maxIter.toNat + 1

/-- BPD.DECODE on the block with parameters `c` (R175). -/
def bpdDecode (c : Config) (s : State) : State :=
  runCommand .bpdDecode .fecdec bpdDecodeCheck (bpdStart c) (bpdTick c) (bpdFuel s) s

/-- The meaning of BPD.DECODE (R175). -/
def execBpdDecode (s : State) : Host.Outcome State Fault Refusal :=
  .next (bpdDecode Config.block s)

end Sys2Proof.Machine
end

