-- ==== Sys2Proof/Machine/Cks.lean ====
section
/-!
DEFINITION. CKS, the checksum generator and verifier (40_checksum.md).
-/

namespace Sys2Proof.Machine

/-- One shift of the checksum register: shift left, bit `d` enters at bit 0, and the polynomial is
added when a 1 falls out at the top (R121). -/
def crcShift (poly : BitVec 14) (r : BitVec 14) (d : Bool) : BitVec 14 :=
  let shifted := (r <<< 1) ||| (BitVec.ofBool d).setWidth 14
  if r.getMsbD 0 then shifted ^^^ poly else shifted

/-- The bits the register consumes: the payload from index 0, CRC_PAD zeros, 14 zeros (R121). -/
def crcInput (c : Config) (p : BitVec 77) : List Bool :=
  (List.range 77).map p.getMsbD ++ List.replicate (c.crcPad + 14) false

/-- `crc14` (R121). -/
def crc14 (c : Config) (p : BitVec 77) : BitVec 14 :=
  (crcInput c p).foldl (crcShift c.poly) 0#14

/-- CKS.GEN's precondition checks (R122). -/
def cksGenCheck (s : State) : Option Precond := s.firstInvalid [.pay]

/-- CKS.GEN's body (R122). -/
def cksGenBody (c : Config) (s : State) : State :=
  (({ s with crc := crc14 c s.pay } : State).setValid .crc true).complete .ok

/-- CKS.GEN on the block with parameters `c` (R122). -/
def cksGen (c : Config) (s : State) : State :=
  runUnit .cksGen .cksgen cksGenCheck (cksGenBody c) s

/-- The meaning of CKS.GEN (R122). -/
def execCksGen (s : State) : Host.Outcome State Fault Refusal := .next (cksGen Config.block s)

/-- CKS.VFY's precondition checks (R123). -/
def cksVfyCheck (s : State) : Option Precond := s.firstInvalid [.pay, .crc]

/-- CKS.VFY's body (R123). -/
def cksVfyBody (c : Config) (s : State) : State :=
  if crc14 c s.pay = s.crc then (s.withCrcOk true).complete .ok
  else (s.withCrcOk false).complete .checksumMismatch

/-- CKS.VFY on the block with parameters `c` (R123). -/
def cksVfy (c : Config) (s : State) : State :=
  runUnit .cksVfy .cksvfy cksVfyCheck (cksVfyBody c) s

/-- The meaning of CKS.VFY (R123). -/
def execCksVfy (s : State) : Host.Outcome State Fault Refusal := .next (cksVfy Config.block s)

end Sys2Proof.Machine
end

