-- ==== Sys2Proof/Machine/Dem.lean ====
section
/-!
DEFINITION. DEM, the per-tone LLR demodulator (46_demodulator.md).
-/

namespace Sys2Proof.Machine

/-- `gbit(j, k)`: bit `k` of the group that tone `j` carries, `k = 0` its most significant bit
(R227). -/
def gbit (c : Config) (j k : Nat) : Bool := (c.grayInv (BitVec.ofNat 3 j)).getMsbD k

/-- The 58 rows of 8 magnitudes of a candidate (R229). -/
def toneMagnitudes (c : Config) (s : State) (k : Candidate) : List (List Half) :=
  (List.range 58).map fun d => (List.range 8).map fun j =>
    s.specAt c (k.t + dataPos c d) (k.f + j)

/-- The strongest normalised tone of data symbol `d` among those with `gbit(j, k) = b` (R228). -/
def strongest (c : Config) (e : List (List Half)) (d k : Nat) (b : Bool) : Int :=
  maxOf (((List.range 8).filter fun j => gbit c j k == b).map fun j => c.norm e d j)

/-- The LLR of bit `k` of data symbol `d`: bit-0 tones minus bit-1 tones (R228). -/
def llrValue (c : Config) (e : List (List Half)) (d k : Nat) : Int :=
  strongest c e d k false - strongest c e d k true

/-- LLR takes the vector of a candidate, all 174 elements (R229). -/
def State.putLlr (c : Config) (k : Candidate) (s : State) : State :=
  let e := toneMagnitudes c s k
  { s with llr := Mem.ofFn 174 fun n => BitVec.ofInt 32 (llrValue c e (n / 3) (n % 3)) }

/-- DEM.DEMOD's precondition checks (R229). -/
def demDemodCheck (cidx : Nat) (s : State) : Option Precond :=
  match s.firstInvalid [.spec, .cand] with
  | some p => some p
  | none =>
    if s.ncand.toNat ≤ cidx then some ⟨.indexRange, BitVec.ofNat 16 cidx⟩ else none

/-- DEM.DEMOD's body (R229). -/
def demDemodBody (c : Config) (cidx : Nat) (s : State) : State :=
  ((s.putLlr c (s.candidate cidx)).setValid .llr true).complete .ok

/-- DEM.DEMOD on the block with parameters `c` (R229). -/
def demDemod (c : Config) (cidx : Nat) (s : State) : State :=
  runUnit (.demDemod cidx) .demod (demDemodCheck cidx) (demDemodBody c cidx) s

/-- The meaning of DEM.DEMOD (R229). -/
def execDemDemod (cidx : Nat) (s : State) : Host.Outcome State Fault Refusal :=
  .next (demDemod Config.block cidx s)

end Sys2Proof.Machine
end

