-- ==== Sys2Proof/Machine/Mod.lean ====
section
/-!
DEFINITION. MOD, the continuous-phase tone modulator (44_modulator.md).
-/

namespace Sys2Proof.Machine

/-- The 3-bit group of data symbol `d`, first bit most significant (R195). -/
def symbolGroup (cw : BitVec 174) (d : Nat) : Tone := slice cw (3 * d) 3

/-- Element `p` of the symbol sequence: a synchronization tone inside a block (R191, R192), and
otherwise the Gray tone of the group of the data symbol that sits at `p` (R193, R194, R195). -/
def symbolAt (c : Config) (cw : BitVec 174) (p : Nat) : Tone :=
  match syncBlockAt c p with
  | some b => c.sync b (p - c.syncPos b)
  | none => c.gray (symbolGroup cw ((dataPositions c).idxOf p))

/-- SYM takes the symbols of CW, all 79 of them (R195). -/
def State.mapSymbols (c : Config) (s : State) : State :=
  { s with sym := Mem.ofFn 79 (symbolAt c s.cw) }

/-- MOD.MAP's precondition checks (R195). -/
def modMapCheck (s : State) : Option Precond := s.firstInvalid [.cw]

/-- MOD.MAP's body (R195). -/
def modMapBody (c : Config) (s : State) : State :=
  ((s.mapSymbols c).setValid .sym true).complete .ok

/-- MOD.MAP on the block with parameters `c` (R195). -/
def modMap (c : Config) (s : State) : State := runUnit .modMap .map modMapCheck (modMapBody c) s

/-- The meaning of MOD.MAP (R195). -/
def execModMap (s : State) : Host.Outcome State Fault Refusal := .next (modMap Config.block s)

/-- The frequency in Hz of tone `j`, CFG_BASE + j × TONE_SPACING (R197). NUM.synth keeps to it during
symbol p with j = SYM\[p\], apart from the smoothing at the edges (R199); no state holds it. -/
def toneFrequency (c : Config) (base : Word) (j : Tone) : Rat :=
  (base.toNat : Rat) + (j.toNat : Rat) * ((c.toneSpacingNum : Rat) / (c.toneSpacingDen : Rat))

/-- The number of samples of the waveform, 79 × SPS, when the sample rate is usable and the waveform
fits in WAVE; otherwise the command ends in CONFIG (R198). -/
def waveLength (c : Config) (fs : Word) : Option Nat :=
  match sps c fs with
  | none => none
  | some n => if 79 * n ≤ c.maxSamples then some (79 * n) else none

/-- WAVE takes the synthesized samples, the rest of it `any`; NWAVE is their number (R198). -/
def State.putWave (c : Config) (n : Nat) (s : State) : State :=
  (({ s with
      wave := Mem.prefixOf s.draws n (c.synth s.symbols s.cfg.fs s.cfg.base)
      nwave := BitVec.ofNat 32 n
      draws := s.draws + 1 } : State)).setValid .wave true

/-- MOD.SYNTH's precondition checks (R198). -/
def modSynthCheck (s : State) : Option Precond := s.firstInvalid [.sym]

/-- MOD.SYNTH's body (R198). -/
def modSynthBody (c : Config) (s : State) : State :=
  match waveLength c s.cfg.fs with
  | none => (s.discard .wave).complete .config
  | some n => (s.putWave c n).complete .ok

/-- MOD.SYNTH on the block with parameters `c` (R198). -/
def modSynth (c : Config) (s : State) : State :=
  runUnit .modSynth .synth modSynthCheck (modSynthBody c) s

/-- The meaning of MOD.SYNTH (R198). -/
def execModSynth (s : State) : Host.Outcome State Fault Refusal := .next (modSynth Config.block s)

end Sys2Proof.Machine
end

