-- ==== Sys2Proof/Machine/Pck.lean ====
section
/-!
DEFINITION. PCK, the message packer and unpacker (41_packer.md).
-/

namespace Sys2Proof.Machine

/-- The precondition checks of PCK.PACK, which SEQ.ENCMSG shares (R136, R240): MSG is valid, and it
holds a well-formed message. -/
def messageCheck (c : Config) (s : State) : Option Precond :=
  match s.firstInvalid [.msg] with
  | some p => some p
  | none =>
    if c.packFmt.validMsg (s.message c) then none
    else some ⟨.badMessage, (s.msg.rd 0).setWidth 16⟩

/-- PCK.PACK's body (R136). -/
def pckPackBody (c : Config) (s : State) : State :=
  (({ s with pay := c.packFmt.pack (s.message c) } : State).setValid .pay true).complete .ok

/-- PCK.PACK on the block with parameters `c` (R136). -/
def pckPack (c : Config) (s : State) : State :=
  runUnit .pckPack .pack (messageCheck c) (pckPackBody c) s

/-- The meaning of PCK.PACK (R136). -/
def execPckPack (s : State) : Host.Outcome State Fault Refusal := .next (pckPack Config.block s)

/-- MSG takes a message's words, all MSG_WORDS of them (R137). -/
def State.putMessage (c : Config) (m : List Word) (s : State) : State :=
  { s with msg := Mem.ofFn c.msgWords fun i => m.getD i 0#32 }

/-- PCK.UNPACK's precondition checks (R137). -/
def pckUnpackCheck (s : State) : Option Precond := s.firstInvalid [.pay]

/-- PCK.UNPACK's body (R137). -/
def pckUnpackBody (c : Config) (s : State) : State :=
  match c.packFmt.unpack s.pay with
  | none => ((s.withMalf true).discard .msg).complete .malformedPayload
  | some m => (((s.putMessage c m).setValid .msg true).withMalf false).complete .ok

/-- PCK.UNPACK on the block with parameters `c` (R137). -/
def pckUnpack (c : Config) (s : State) : State :=
  runUnit .pckUnpack .unpack pckUnpackCheck (pckUnpackBody c) s

/-- The meaning of PCK.UNPACK (R137). -/
def execPckUnpack (s : State) : Host.Outcome State Fault Refusal :=
  .next (pckUnpack Config.block s)

end Sys2Proof.Machine
end

