-- ==== Sys2Proof/Machine/Syn.lean ====
section
/-!
DEFINITION. SYN, the time-frequency synchronizer (45_synchronizer.md).
-/

namespace Sys2Proof.Machine

/-- The precondition checks of SYN.BUILD, which SEQ.DECBUF shares (R208, R245): SAMP is valid and
CFG_NSAMP is between 1 and MAX_SAMPLES. -/
def samplesCheck (c : Config) (s : State) : Option Precond :=
  match s.firstInvalid [.samp] with
  | some p => some p
  | none =>
    if s.cfg.nsamp.toNat = 0 ∨ c.maxSamples < s.cfg.nsamp.toNat then
      some ⟨.badLength, s.cfg.nsamp.setWidth 16⟩
    else none

/-- A new session begins: everything derived from the old spectrogram is dropped (R208, R304;
that the contents become `any` is log entry 9, DEDUCED). -/
def State.dropSession (s : State) : State := s.discardAll [.spec, .cand, .llr]

/-- SPEC and NT from the samples at `n` samples per symbol; publication is the last write
(R206, R208, R81). -/
def State.buildSpec (c : Config) (n : Nat) (s : State) : State :=
  let nt := s.cfg.nsamp.toNat / n
  let grid := c.stft (s.samples s.cfg.nsamp.toNat) s.cfg.fs
  ({ s with
      nt := BitVec.ofNat 32 nt
      spec := Mem.ofFn (nt * c.nf) fun i => grid (i / c.nf) (i % c.nf) } : State).setValid .spec true

/-- SYN.BUILD's body (R208). -/
def synBuildBody (c : Config) (s : State) : State :=
  match sps c s.cfg.fs with
  | none => s.dropSession.complete .config
  | some n => (s.dropSession.buildSpec c n).complete .ok

/-- SYN.BUILD on the block with parameters `c` (R208). -/
def synBuild (c : Config) (s : State) : State :=
  runUnit .synBuild .build (samplesCheck c) (synBuildBody c) s

/-- The meaning of SYN.BUILD (R208). -/
def execSynBuild (s : State) : Host.Outcome State Fault Refusal := .next (synBuild Config.block s)

/-- The sync score of position (t, f): the 21 magnitudes where the synchronization symbols would put
their tones (R210). -/
def syncScore (c : Config) (s : State) (t f : Nat) : Nat :=
  ((List.range 3).map fun b => ((List.range 7).map fun k =>
    (s.specAt c (t + c.syncPos b + k) (f + (c.sync b k).toNat)).toNat).sum).sum

/-- The highest time offset searched, with `nt` time-steps (R211). -/
def searchTHi (r : CfgRegs) (nt : Nat) : Nat := min r.tmax.toNat (nt - 79)

/-- The highest frequency offset searched (R211). -/
def searchFHi (c : Config) (r : CfgRegs) : Nat := min r.fmax.toNat (c.nf - 8)

/-- `search_cfg_bad`: no position to evaluate, or a threshold no score can exceed (R211). -/
def searchCfgBad (c : Config) (r : CfgRegs) (nt : Nat) : Bool :=
  decide (nt < 79 ∨ searchTHi r nt < r.tmin.toNat ∨ searchFHi c r < r.fmin.toNat ∨
    21 * 65535 ≤ r.thresh.toNat)

/-- The positions searched, time by time (R211, R212). -/
def searchPositions (c : Config) (r : CfgRegs) (nt : Nat) : List (Nat × Nat) :=
  (List.range' r.tmin.toNat (searchTHi r nt + 1 - r.tmin.toNat)).flatMap fun t =>
    (List.range' r.fmin.toNat (searchFHi c r + 1 - r.fmin.toNat)).map fun f => (t, f)

/-- The list L: the positions whose score is strictly greater than CFG_THRESH (R212). -/
def aboveThreshold (c : Config) (s : State) : List Candidate :=
  ((searchPositions c s.cfg s.nt.toNat).map fun tf => ⟨tf.1, tf.2, syncScore c s tf.1 tf.2⟩).filter
    fun k => decide (s.cfg.thresh.toNat < k.score)

/-- Rank order: a higher score first, then an earlier time, then a lower frequency (R214). -/
def rankBefore (x y : Candidate) : Bool :=
  decide (y.score < x.score ∨
    (x.score = y.score ∧ (x.t < y.t ∨ (x.t = y.t ∧ x.f ≤ y.f))))

/-- The distance of two indices. -/
def distance (a b : Nat) : Nat := (a - b) + (b - a)

/-- Near-duplicates: within both merge tolerances, inclusive (R215). -/
def nearDuplicate (r : CfgRegs) (x y : Candidate) : Bool :=
  decide (distance x.t y.t ≤ r.mergeDt.toNat ∧ distance x.f y.f ≤ r.mergeDf.toNat)

/-- The greedy merge of a ranked list: a candidate is kept unless a kept one is near it (R215). -/
def mergeRanked (r : CfgRegs) (l : List Candidate) : List Candidate :=
  l.foldl (fun kept k => if kept.any (nearDuplicate r k) then kept else kept ++ [k]) []

/-- The candidates of a search: ranked, merged, the first MAX_CAND (R212, R216). -/
def searchResult (c : Config) (s : State) : List Candidate :=
  (mergeRanked s.cfg
    ((aboveThreshold c s).insertionSort fun x y => rankBefore x y = true)).take c.maxCand

/-- CAND and NCAND take a list of candidates, the records beyond it `any` (R212). -/
def State.putCandidates (l : List Candidate) (s : State) : State :=
  ({ s with
      cand := Mem.prefixOf s.draws (4 * l.length) fun i => (l.getD (i / 4) ⟨0, 0, 0⟩).word (i % 4)
      ncand := BitVec.ofNat 32 l.length
      draws := s.draws + 1 } : State).setValid .cand true

/-- SYN.SEARCH's precondition checks (R212). -/
def synSearchCheck (s : State) : Option Precond := s.firstInvalid [.spec]

/-- SYN.SEARCH's body (R212). -/
def synSearchBody (c : Config) (s : State) : State :=
  if searchCfgBad c s.cfg s.nt.toNat then (s.discard .cand).complete .config
  else (s.putCandidates (searchResult c s)).complete .ok

/-- SYN.SEARCH on the block with parameters `c` (R212). -/
def synSearch (c : Config) (s : State) : State :=
  runUnit .synSearch .search synSearchCheck (synSearchBody c) s

/-- The meaning of SYN.SEARCH (R212). -/
def execSynSearch (s : State) : Host.Outcome State Fault Refusal :=
  .next (synSearch Config.block s)

end Sys2Proof.Machine
end

