-- ==== Sys2Proof/Machine/Seq.lean ====
section
/-!
DEFINITION. SEQ, the sequencer's two flows SEQ.ENCMSG and SEQ.DECBUF (47_sequencer.md). Each
internal step is one phase of the flow; FECDEC makes one step per iteration.
-/

namespace Sys2Proof.Machine

/-! ### SEQ.ENCMSG -/

/-- The discard at the end of an encode (R243). -/
def State.discardEncode (s : State) : State :=
  (s.discardAll [.pay, .crc, .cw, .sym]).clearFlags

/-- SEQ.ENCMSG's end with an unusable sample rate (R240). -/
def encmsgConfig (s : State) : State := ((s.discard .wave).discardEncode).complete .config

/-- One internal step of SEQ.ENCMSG: the phase that PHASE names (R240). The working buffers are the
architectural ones (log entry 15, DESIGN CHOICE). -/
def encmsgTick (c : Config) (s : State) : State :=
  match s.phase with
  | .cfgchk =>
    match waveLength c s.cfg.fs with
    | none => encmsgConfig s
    | some _ => { s with phase := .pack }
  | .pack => { s with pay := c.packFmt.pack (s.message c), phase := .cksgen }
  | .cksgen => { s with crc := crc14 c s.pay, phase := .fecenc }
  | .fecenc => { s with cw := fecEncode c s.fecInput, phase := .map }
  | .map => { s.mapSymbols c with phase := .synth }
  | .synth =>
    match waveLength c s.cfg.fs with
    | none => encmsgConfig s
    | some n => ((s.putWave c n).discardEncode).complete .ok
  | _ => s

/-- How many internal steps SEQ.ENCMSG can make (R262). -/
def encmsgFuel : Nat := 6

/-- SEQ.ENCMSG on the block with parameters `c` (R240). -/
def seqEncmsg (c : Config) (s : State) : State :=
  runCommand .seqEncmsg .cfgchk (messageCheck c) id (encmsgTick c) encmsgFuel s

/-- The meaning of SEQ.ENCMSG (R240). -/
def execSeqEncmsg (s : State) : Host.Outcome State Fault Refusal :=
  .next (seqEncmsg Config.block s)

/-! ### SEQ.DECBUF -/

/-- The discard at the end of a decode (R254). -/
def State.discardDecode (s : State) : State :=
  { ((s.discardAll [.spec, .cand, .llr, .cw, .pay, .crc, .msg]).clearFlags).scrambleBp with
    cidx := 0, iterT := 0, acc := [] }

/-- The configuration check of SEQ.DECBUF (R246). -/
def decbufCfgBad (c : Config) (r : CfgRegs) : Bool :=
  match sps c r.fs with
  | none => true
  | some n => r.maxIter == 0#32 || searchCfgBad c r (r.nsamp.toNat / n)

/-- Result order: confidence, then score, both descending, then time, then frequency, both
ascending (R252). -/
def resultBefore (x y : Accepted) : Bool :=
  decide (y.conf < x.conf ∨ (x.conf = y.conf ∧
    (y.score < x.score ∨ (x.score = y.score ∧
      (x.t < y.t ∨ (x.t = y.t ∧ x.f ≤ y.f))))))

/-- Of each set of entries with equal messages the first is kept (R251). -/
def keepFirst (l : List Accepted) : List Accepted :=
  l.foldl (fun kept a => if kept.any (fun k => k.msg == a.msg) then kept else kept ++ [a]) []

/-- COLLECT: the accepted messages in result order, duplicates dropped, at most MAX_RES
(R245, R251, R252). -/
def collect (c : Config) (l : List Accepted) : List Accepted :=
  (keepFirst (l.insertionSort fun x y => resultBefore x y = true)).take c.maxRes

/-- RES and NRES take a list of results, the records beyond it `any` (R245, R105). -/
def State.putResults (c : Config) (l : List Accepted) (s : State) : State :=
  ({ s with
      res := Mem.prefixOf s.draws (resStride c * l.length) fun i =>
        (l.getD (i / resStride c) ⟨0#32, 0#32, 0#32, 0#32, []⟩).word (i % resStride c)
      nres := BitVec.ofNat 32 l.length
      draws := s.draws + 1 } : State).setValid .res true

/-- The candidate boundary before candidate CIDX, or COLLECT when there is none (R245). That PHASE is
DEMOD at the boundary, already when the abort request is tested, is log entry 24 (DESIGN CHOICE). -/
def State.toBoundary (s : State) : State :=
  if s.cidx < s.ncand.toNat then { s with phase := .demod } else { s with phase := .collect }

/-- The candidate is finished, accepted or rejected; the next one's boundary follows (R247). -/
def State.nextCandidate (s : State) : State := ({ s with cidx := s.cidx + 1 } : State).toBoundary

/-- The entry an accepted candidate adds to the list A (R247). -/
def State.acceptedEntry (m : List Word) (s : State) : Accepted :=
  ⟨confidence s.cfg.maxIter s.iterT, s.cand.rd (4 * s.cidx + 2), s.cand.rd (4 * s.cidx),
   s.cand.rd (4 * s.cidx + 1), m⟩

/-- SEQ.DECBUF's end with a malformed configuration (R245). -/
def decbufConfig (s : State) : State := ((s.discard .res).discardDecode).complete .config

/-- SEQ.DECBUF's COLLECT phase: STATUS.ABORTED says whether candidates were abandoned, the results are
stored, the session is discarded (R245, R248, R282). That the bit is written here, and not at the
boundary, is log entry 11 (DEDUCED). -/
def decbufCollect (c : Config) (s : State) : State :=
  (({ s with aborted := decide (s.cidx < s.ncand.toNat) } : State).putResults c
    (collect c s.acc)).discardDecode.complete .ok

/-- One internal step of SEQ.DECBUF: the phase that PHASE names (R245, R247). At a candidate boundary
the abort request is tested first, and there only (R248). The working buffers are the architectural ones
(log entry 15, DESIGN CHOICE). -/
def decbufTick (c : Config) (s : State) : State :=
  match s.phase with
  | .cfgchk => if decbufCfgBad c s.cfg then decbufConfig s else { s with phase := .build }
  | .build =>
    match sps c s.cfg.fs with
    | none => decbufConfig s
    | some n => { s.dropSession.buildSpec c n with phase := .search }
  | .search =>
    ({ s.putCandidates (searchResult c s) with cidx := 0, acc := [] } : State).toBoundary
  | .demod =>
    if s.abortReq then { s with phase := .collect }
    else { (s.putLlr c (s.candidate s.cidx)).startBp c with phase := .fecdec }
  | .fecdec =>
    let s := s.iterateBp c
    if isCodeword c (hardDecision s.bp) then
      { s with cw := hardDecision s.bp, phase := .xtr }
    else if s.cfg.maxIter.toNat ≤ s.iterT then s.nextCandidate
    else s
  | .xtr => { s.splitCodeword with phase := .cksvfy }
  | .cksvfy => if crc14 c s.pay = s.crc then { s with phase := .unpack } else s.nextCandidate
  | .unpack =>
    match c.packFmt.unpack s.pay with
    | none => s.nextCandidate
    | some m =>
      ({ s.putMessage c m with acc := s.acc ++ [s.acceptedEntry m] } : State).nextCandidate
  | .collect => decbufCollect c s
  | _ => s

/-- How many internal steps SEQ.DECBUF can make (R262): the phases before the candidates, at most
CFG_MAXITER iterations and four more steps for each candidate, and COLLECT. -/
def decbufFuel (c : Config) (s : State) : Nat :=
  (max c.maxCand s.ncand.toNat + 1) * (s.cfg.maxIter.toNat + 6) + 8

/-- SEQ.DECBUF on the block with parameters `c` (R245). -/
def seqDecbuf (c : Config) (s : State) : State :=
  runCommand .seqDecbuf .cfgchk (samplesCheck c) id (decbufTick c) (decbufFuel c s) s

/-- The meaning of SEQ.DECBUF (R245). -/
def execSeqDecbuf (s : State) : Host.Outcome State Fault Refusal :=
  .next (seqDecbuf Config.block s)

end Sys2Proof.Machine
end

