-- ==== Sys2Proof/Machine/Sys.lean ====
section
/-!
DEFINITION. The system commands (47_sequencer.md rules R256, R257).
-/

namespace Sys2Proof.Machine

/-- SYS.NOP: accepted and completed at once; it has no phase of its own and no instant at which the
host could find it running (R256, R84; log entry 10, DEDUCED). -/
def sysNop (s : State) : State :=
  if s.fault then s
  else if s.busy then s.raise ⟨.busyAccess, 0#16⟩
  else (s.accept .sysNop .idle).complete .ok

/-- The meaning of SYS.NOP (R256). -/
def execSysNop (s : State) : Host.Outcome State Fault Refusal := .next (sysNop s)

/-- SYS.SRST: exactly the effect of the reset input, also while STATUS.FAULT = 1 (R257, R98). -/
def sysSrst (s : State) : State :=
  if s.busy && !s.fault then s.raise ⟨.busyAccess, 0#16⟩ else s.resetBlock

/-- The meaning of SYS.SRST (R257). -/
def execSysSrst (s : State) : Host.Outcome State Fault Refusal := .next (sysSrst s)

end Sys2Proof.Machine
end

