-- ==== Sys2Proof/Machine/Sequencer.lean ====
section
/-!
DEFINITION. The sixteen commands on a block with given parameters, and the sequencer between outside
events: a running command goes on (47_sequencer.md rules R235, R236; 20_memory.md rule R84).
-/

namespace Sys2Proof.Machine

/-- The meaning of command `i` on the block with parameters `c`, whatever they are (00_scope.md rules
R10, R11); `exec` is this on `Config.block`. -/
def meaning (c : Config) (i : Instr) (s : State) : Host.Outcome State Fault Refusal :=
  match i with
  | .cksGen => .next (cksGen c s)
  | .cksVfy => .next (cksVfy c s)
  | .pckPack => .next (pckPack c s)
  | .pckUnpack => .next (pckUnpack c s)
  | .encEncode => .next (encEncode c s)
  | .encXtr => .next (encXtr s)
  | .bpdDecode => .next (bpdDecode c s)
  | .modMap => .next (modMap c s)
  | .modSynth => .next (modSynth c s)
  | .synBuild => .next (synBuild c s)
  | .synSearch => .next (synSearch c s)
  | .demDemod cidx => .next (demDemod c cidx s)
  | .seqEncmsg => .next (seqEncmsg c s)
  | .seqDecbuf => .next (seqDecbuf c s)
  | .sysNop => .next (sysNop s)
  | .sysSrst => .next (sysSrst s)

/-- One internal step of the running command `i`. SYS.NOP and SYS.SRST never run: they complete at
their acceptance. -/
def tickOf (c : Config) (i : Instr) (s : State) : State :=
  match i with
  | .cksGen => cksGenBody c s
  | .cksVfy => cksVfyBody c s
  | .pckPack => pckPackBody c s
  | .pckUnpack => pckUnpackBody c s
  | .encEncode => encEncodeBody c s
  | .encXtr => encXtrBody s
  | .bpdDecode => bpdTick c s
  | .modMap => modMapBody c s
  | .modSynth => modSynthBody c s
  | .synBuild => synBuildBody c s
  | .synSearch => synSearchBody c s
  | .demDemod cidx => demDemodBody c cidx s
  | .seqEncmsg => encmsgTick c s
  | .seqDecbuf => decbufTick c s
  | .sysNop => s.complete .ok
  | .sysSrst => s.resetBlock

/-- A bound on the internal steps left to the running command `i` (R262). -/
def fuelOf (c : Config) (i : Instr) (s : State) : Nat :=
  match i with
  | .cksGen => 1
  | .cksVfy => 1
  | .pckPack => 1
  | .pckUnpack => 1
  | .encEncode => 1
  | .encXtr => 1
  | .bpdDecode => bpdFuel s
  | .modMap => 1
  | .modSynth => 1
  | .synBuild => 1
  | .synSearch => 1
  | .demDemod _ => 1
  | .seqEncmsg => encmsgFuel
  | .seqDecbuf => decbufFuel c s
  | .sysNop => 1
  | .sysSrst => 1

/-- A running command goes on until it completes or the next outside event lands. -/
def resume (c : Config) (s : State) : Host.Outcome State Fault Refusal :=
  match s.run with
  | none => .fault .sequencerLost
  | some i => .next (drain (tickOf c i) (fuelOf c i s) s)

end Sys2Proof.Machine
end

