-- ==== Sys2Proof/Machine/Dispatch.lean ====
section
/-!
DEFINITION. The meaning of each command, one arm per constructor.
-/

namespace Sys2Proof.Machine

def exec (i : Instr) (s : State) : Host.Outcome State Fault Refusal :=
  match i with
  | .cksGen => Sys2Proof.Machine.execCksGen s
  | .cksVfy => Sys2Proof.Machine.execCksVfy s
  | .pckPack => Sys2Proof.Machine.execPckPack s
  | .pckUnpack => Sys2Proof.Machine.execPckUnpack s
  | .encEncode => Sys2Proof.Machine.execEncEncode s
  | .encXtr => Sys2Proof.Machine.execEncXtr s
  | .bpdDecode => Sys2Proof.Machine.execBpdDecode s
  | .modMap => Sys2Proof.Machine.execModMap s
  | .modSynth => Sys2Proof.Machine.execModSynth s
  | .synBuild => Sys2Proof.Machine.execSynBuild s
  | .synSearch => Sys2Proof.Machine.execSynSearch s
  | .demDemod cidx => Sys2Proof.Machine.execDemDemod cidx s
  | .seqEncmsg => Sys2Proof.Machine.execSeqEncmsg s
  | .seqDecbuf => Sys2Proof.Machine.execSeqDecbuf s
  | .sysNop => Sys2Proof.Machine.execSysNop s
  | .sysSrst => Sys2Proof.Machine.execSysSrst s

end Sys2Proof.Machine
end

