-- ==== Sys2Proof/WellFormed.lean ====
section
/-!
DEFINITION. Which instruction terms stand for command words (30_encoding.md rules R93, R94, R96).
-/

namespace Sys2Proof

/-- The operand check of each command. Only DEM.DEMOD has an operand: an unsigned 16-bit index,
0..65535 (R94, R96, R99); every other command is well formed as it stands (R93). -/
def Instr.wf : Instr → Bool
  | .cksGen => true
  | .cksVfy => true
  | .pckPack => true
  | .pckUnpack => true
  | .encEncode => true
  | .encXtr => true
  | .bpdDecode => true
  | .modMap => true
  | .modSynth => true
  | .synBuild => true
  | .synSearch => true
  | .demDemod cidx => decide (cidx < 65536)
  | .seqEncmsg => true
  | .seqDecbuf => true
  | .sysNop => true
  | .sysSrst => true

end Sys2Proof
end

