-- ==== Sys2Proof/Decode.lean ====
section
/-!
DEFINITION. The command word's decoder and encoder (30_encoding.md rules R90 to R98).
-/

namespace Sys2Proof

/-- Why a command word is illegal (R97). Both raise the fatal fault PRECOND when the word is issued
(47_sequencer.md rule R236); neither is a refusal of the model. -/
inductive DecodeError where
  /-- `op` is not one of the sixteen opcodes of R95. -/
  | reservedOpcode
  /-- `op` is legal but `rsv` is not 0, or the format is N and `arg` is not 0. -/
  | reservedField
  deriving DecidableEq, Repr

/-- Field `op`, bits 31:24 of a command word (R92). -/
def opField (w : Word) : BitVec 8 := w.extractLsb' 24 8

/-- Field `rsv`, bits 23:16 of a command word (R92). -/
def rsvField (w : Word) : BitVec 8 := w.extractLsb' 16 8

/-- Field `arg`, bits 15:0 of a command word (R92). -/
def argField (w : Word) : BitVec 16 := w.extractLsb' 0 16

/-- The format-N rows of the opcode map (R93, R95). -/
def formatN (op : BitVec 8) : Option Instr :=
  match op.toNat with
  | 0x01 => some .cksGen
  | 0x02 => some .cksVfy
  | 0x03 => some .pckPack
  | 0x04 => some .pckUnpack
  | 0x05 => some .encEncode
  | 0x06 => some .encXtr
  | 0x07 => some .bpdDecode
  | 0x08 => some .modMap
  | 0x09 => some .modSynth
  | 0x0A => some .synBuild
  | 0x0B => some .synSearch
  | 0x10 => some .seqEncmsg
  | 0x11 => some .seqDecbuf
  | 0x20 => some .sysNop
  | 0x21 => some .sysSrst
  | _ => none

/-- Reads a command word: the opcode first, then the reserved fields (R97, and steps 3 and 4 of
R98). The one format-I opcode is 0x0C (R94). -/
def decode (w : Word) : Except DecodeError Instr :=
  if opField w = 0x0C#8 then
    if rsvField w ≠ 0#8 then .error .reservedField
    else .ok (.demDemod (argField w).toNat)
  else
    match formatN (opField w) with
    | none => .error .reservedOpcode
    | some i =>
      if rsvField w ≠ 0#8 ∨ argField w ≠ 0#16 then .error .reservedField else .ok i

/-- The command word of an instruction (column "word" of R95; `0C00iiii` for DEM.DEMOD). -/
def encode : Instr → Word
  | .cksGen => 0x01000000#32
  | .cksVfy => 0x02000000#32
  | .pckPack => 0x03000000#32
  | .pckUnpack => 0x04000000#32
  | .encEncode => 0x05000000#32
  | .encXtr => 0x06000000#32
  | .bpdDecode => 0x07000000#32
  | .modMap => 0x08000000#32
  | .modSynth => 0x09000000#32
  | .synBuild => 0x0A000000#32
  | .synSearch => 0x0B000000#32
  | .demDemod cidx => 0x0C00#16 ++ BitVec.ofNat 16 cidx
  | .seqEncmsg => 0x10000000#32
  | .seqDecbuf => 0x11000000#32
  | .sysNop => 0x20000000#32
  | .sysSrst => 0x21000000#32

/-- The word written to CMD for an opcode-table row of `nbits` bits whose bits are `w`: every command
is one 32-bit word (R90), and every bit at or above `nbits` is 0. -/
def tableWord (nbits w : Nat) : Word := BitVec.ofNat 32 (w % 2 ^ nbits)

/-- The instruction the decoder reads from the bits of an opcode-table row. -/
def decodeTableWord (nbits w : Nat) : Option Instr :=
  match decode (tableWord nbits w) with
  | .ok i => some i
  | .error _ => none

end Sys2Proof
end

