-- ==== Sys2Proof/Machine/Port.lean ====
section
/-!
DEFINITION. The host port: the two transactions, the register space and the issue of commands
(20_memory.md rules R60 to R70, 10_state.md rules R37, R38, R48, 47_sequencer.md rule R236). `run` is
the meaning of the commands, which a write to CMD calls on.
-/

namespace Sys2Proof.Machine

/-! ### The register space -/

/-- The register numbers the block lists (R38); 0x0F and 0x1B and above are reserved (R69). -/
def isRegister (i : Nat) : Bool := decide (i ≤ 0x1A ∧ i ≠ 0x0F)

/-- The host write-only registers CMD, VSET and ABORT (R38). -/
def isWriteOnly (i : Nat) : Bool := decide (i = 0x00 ∨ i = 0x0A ∨ i = 0x0C)

/-- The host read-only registers (R38). -/
def isReadOnly (i : Nat) : Bool := isRegister i && !isWriteOnly i && decide (i < 0x10)

/-- `MemRead(0, i)`: a register's word (R38); a write-only register reads 0 (R66). -/
def State.readReg (s : State) (i : Nat) : Word :=
  match i with
  | 0x01 => s.statusWord
  | 0x02 => s.flagsWord
  | 0x03 => s.lastErrWord
  | 0x04 => s.faultInfo
  | 0x05 => s.iter
  | 0x06 => s.conf
  | 0x07 => s.ncand
  | 0x08 => s.nres
  | 0x09 => s.validWord
  | 0x0B => s.nt
  | 0x0D => s.nwave
  | 0x0E => idWord
  | 0x10 => s.cfg.fs
  | 0x11 => s.cfg.base
  | 0x12 => s.cfg.tmin
  | 0x13 => s.cfg.tmax
  | 0x14 => s.cfg.fmin
  | 0x15 => s.cfg.fmax
  | 0x16 => s.cfg.thresh
  | 0x17 => s.cfg.maxIter
  | 0x18 => s.cfg.mergeDt
  | 0x19 => s.cfg.mergeDf
  | 0x1A => s.cfg.nsamp
  | _ => 0#32

/-- `MemWrite(0, i, v)` on a configuration register (R49): it takes any value. -/
def CfgRegs.write (r : CfgRegs) (i : Nat) (v : Word) : CfgRegs :=
  match i with
  | 0x10 => { r with fs := v }
  | 0x11 => { r with base := v }
  | 0x12 => { r with tmin := v }
  | 0x13 => { r with tmax := v }
  | 0x14 => { r with fmin := v }
  | 0x15 => { r with fmax := v }
  | 0x16 => { r with thresh := v }
  | 0x17 => { r with maxIter := v }
  | 0x18 => { r with mergeDt := v }
  | 0x19 => { r with mergeDf := v }
  | 0x1A => { r with nsamp := v }
  | _ => r

/-! ### The data spaces -/

/-- The space of a space id; 12 to 15 are reserved (R61, R69). Id 0, the register space, has none. -/
def spaceOf (id : Nat) : Option Space :=
  match id with
  | 1 => some .msg
  | 2 => some .pay
  | 3 => some .crc
  | 4 => some .cw
  | 5 => some .sym
  | 6 => some .llr
  | 7 => some .samp
  | 8 => some .wave
  | 9 => some .spec
  | 10 => some .cand
  | 11 => some .res
  | _ => none

/-- The number of elements of a space (R61); SPEC's is NT × NF with the current NT (R65). -/
def State.elements (c : Config) (s : State) : Space → Nat
  | .msg => c.msgWords
  | .pay => 77
  | .crc => 14
  | .cw => 174
  | .sym => 79
  | .llr => 174
  | .samp => c.maxSamples
  | .wave => c.maxSamples
  | .spec => s.nt.toNat * c.nf
  | .cand => 4 * c.maxCand
  | .res => resStride c * c.maxRes

/-- `MemRead` on a data space: element `i`, extended to 32 bits (R61, R64). -/
def State.readElem (s : State) (b : Space) (i : Nat) : Word :=
  match b with
  | .msg => s.msg.rd i
  | .pay => (BitVec.ofBool (s.pay.getMsbD i)).setWidth 32
  | .crc => (BitVec.ofBool (s.crc.getMsbD i)).setWidth 32
  | .cw => (BitVec.ofBool (s.cw.getMsbD i)).setWidth 32
  | .sym => (s.sym.rd i).setWidth 32
  | .llr => s.llr.rd i
  | .samp => (s.samp.rd i).signExtend 32
  | .wave => (s.wave.rd i).signExtend 32
  | .spec => (s.spec.rd i).setWidth 32
  | .cand => s.cand.rd i
  | .res => s.res.rd i

/-- The value is representable in the element type (R64). -/
def representable (b : Space) (v : Word) : Bool :=
  match b with
  | .msg => true
  | .pay => decide (v.toNat < 2)
  | .crc => decide (v.toNat < 2)
  | .cw => decide (v.toNat < 2)
  | .sym => decide (v.toNat < 8)
  | .llr => true
  | .samp => v == (v.setWidth 16).signExtend 32
  | .wave => false
  | .spec => false
  | .cand => false
  | .res => false

/-- `MemWrite` on a data space: element `i` takes the value, nothing else changes (R67). The four
output spaces are never written by the host (R72, R73). -/
def State.writeElem (b : Space) (i : Nat) (v : Word) (s : State) : State :=
  match b with
  | .msg => { s with msg := s.msg.wr i v }
  | .pay => { s with pay := putBit s.pay i (v.getLsbD 0) }
  | .crc => { s with crc := putBit s.crc i (v.getLsbD 0) }
  | .cw => { s with cw := putBit s.cw i (v.getLsbD 0) }
  | .sym => { s with sym := s.sym.wr i (v.setWidth 3) }
  | .llr => { s with llr := s.llr.wr i v }
  | .samp => { s with samp := s.samp.wr i (v.setWidth 16) }
  | .wave => s
  | .spec => s
  | .cand => s
  | .res => s

/-- The spaces that are outputs of the block, read-only to the host (R72, R73). -/
def isOutput (b : Space) : Bool :=
  match b with
  | .wave => true
  | .spec => true
  | .cand => true
  | .res => true
  | .msg => false
  | .pay => false
  | .crc => false
  | .cw => false
  | .sym => false
  | .llr => false
  | .samp => false

/-- The access has no element: a reserved space, a reserved register or an index at or beyond the
space's count (R65, R69). -/
def State.outOfRange (c : Config) (s : State) (space : BitVec 4) (index : BitVec 28) : Bool :=
  if space = 0#4 then !isRegister index.toNat
  else
    match spaceOf space.toNat with
    | none => true
    | some b => decide (s.elements c b ≤ index.toNat)

/-! ### HOST.RD -/

/-- The value of an access that passed the range test (R66). -/
def State.readPort (s : State) (space : BitVec 4) (index : BitVec 28) : Word :=
  match spaceOf space.toNat with
  | none => s.readReg index.toNat
  | some b => s.readElem b index.toNat

/-- HOST.RD (R66). A faulting read returns 0 (R270), also where the raise is ignored because the block
is already faulted (log entry 8, DEDUCED). -/
def hostRd (c : Config) (space : BitVec 4) (index : BitVec 28) (s : State) : State :=
  if s.busy && !(space == 0#4 && index == 1#28) then
    { s.raise ⟨.busyAccess, space.setWidth 16⟩ with rdata := 0#32 }
  else if s.outOfRange c space index then
    { s.raise ⟨.indexRange, space.setWidth 16⟩ with rdata := 0#32 }
  else { s with rdata := s.readPort space index }

/-! ### HOST.WR -/

/-- What the commands mean, which a write to CMD calls on: `exec`, or `meaning c`. -/
abbrev Commands := Instr → State → Host.Outcome State Fault Refusal

/-- The VSET write: bits 1 to 7 declare buffers loaded, any other bit is a fault (R37). While the
block is faulted it has no effect (R70, R276; log entry 6, DEDUCED). -/
def vsetWrite (v : Word) (s : State) : State :=
  if s.fault then s
  else if v &&& 0xFFFFFF01#32 ≠ 0#32 then s.raise ⟨.readOnly, v.setWidth 16⟩
  else { s with valid := s.valid ||| v.setWidth 12 }

/-- The ABORT write: bit 0 requests an abort (R48). While the block is faulted it has no effect
(R70, R276; log entry 6, DEDUCED). -/
def abortWrite (v : Word) (s : State) : State :=
  if s.fault then s else if v.getLsbD 0 then { s with abortReq := true } else s

/-- A write to a configuration register or a host-loadable element: no effect while faulted (R70), a
fault when the value does not fit the element (R64), otherwise the element takes the value (R67). -/
def dataWrite (space : BitVec 4) (index : BitVec 28) (v : Word) (s : State) : State :=
  if s.fault then s
  else
    match spaceOf space.toNat with
    | none => { s with cfg := s.cfg.write index.toNat v }
    | some b =>
      if representable b v then s.writeElem b index.toNat v
      else s.raise ⟨.badValue, space.setWidth 16⟩

/-- Issue of the word `w` (R236): a faulted block drops every word but SYS.SRST; an illegal word
faults (R97); a legal one is executed. -/
def issue (run : Commands) (w : Word) (s : State) : Host.Outcome State Fault Refusal :=
  if s.fault then
    if w = 0x21000000#32 then run .sysSrst s else .next s
  else
    match decode w with
    | .error .reservedOpcode => .next (s.raise ⟨.reservedOpcode, w.extractLsb' 16 16⟩)
    | .error .reservedField => .next (s.raise ⟨.reservedField, w.extractLsb' 16 16⟩)
    | .ok i => run i s

/-- A write to a read-only space, or to a read-only register, and the information it faults with
(R67, R271). -/
def readOnlyTarget (space : BitVec 4) (index : BitVec 28) : Option (BitVec 16) :=
  match spaceOf space.toNat with
  | none => if isReadOnly index.toNat then some (index.setWidth 16) else none
  | some b => if isOutput b then some (space.setWidth 16) else none

/-- HOST.WR (R67), its tests in the order of the rule. -/
def hostWr (c : Config) (run : Commands) (space : BitVec 4) (index : BitVec 28) (v : Word)
    (s : State) : Host.Outcome State Fault Refusal :=
  if s.busy && !(space == 0#4 && index == 0x0C#28) then
    .next (s.raise ⟨.busyAccess, space.setWidth 16⟩)
  else if s.outOfRange c space index then .next (s.raise ⟨.indexRange, space.setWidth 16⟩)
  else
    match readOnlyTarget space index with
    | some info => .next (s.raise ⟨.readOnly, info⟩)
    | none =>
      if space = 0#4 ∧ index = 0x00#28 then issue run v s
      else if space = 0#4 ∧ index = 0x0A#28 then .next (vsetWrite v s)
      else if space = 0#4 ∧ index = 0x0C#28 then .next (abortWrite v s)
      else .next (dataWrite space index v s)

/-- An outside event lands (R258): a transaction of the host, or the reset event (R295). -/
def transact (c : Config) (run : Commands) (t : Txn) (s : State) :
    Host.Outcome State Fault Refusal :=
  match t with
  | .rd space index => .next (hostRd c space index s)
  | .wr space index v => hostWr c run space index v s
  | .reset => .next s.resetBlock

/-- One step of the machine on the block with parameters `c`, a command's meaning being `run`. An idle or faulted block takes the next
outside event, and does nothing when there is none (R289). While a command runs, the next event
lands if it is due, and otherwise the command goes on. -/
def stepWith (c : Config) (run : Commands) (s : State) : Host.Outcome State Fault Refusal :=
  if s.busy && !s.landing then resume c s
  else
    match s.port with
    | [] => .next s
    | e :: rest => transact c run e.txn { s with port := rest }

/-- One step of the machine on the block with parameters `c`, whatever they are (00_scope.md rules R10,
R11). -/
def stepOn (c : Config) (s : State) : Host.Outcome State Fault Refusal := stepWith c (meaning c) s

/-- The outside event by which the host writes the command word `w` to CMD. -/
def cmdEvent (w : Word) : PortEvent := ⟨none, .wr 0#4 0x00#28 w⟩

end Sys2Proof.Machine
end

