-- ==== Sys2Proof/Machine/Step.lean ====
section
/-!
DEFINITION. The machine's step, and where it takes its next command word from.
-/

namespace Sys2Proof.Machine

/-- One step of the block: `stepOn Config.block` (`step_eq_stepOn`), the commands by `exec`. -/
def step (s : State) : Host.Outcome State Fault Refusal := stepWith Config.block exec s

/-- The block fetches nothing: the next command word is whatever the host writes to CMD next (R47,
R298). The word is placed there, as the next outside event; log entry 3. -/
def State.withFetchWord (s : State) (nbits w : Nat) : State :=
  { s with port := cmdEvent (tableWord nbits w) :: s.port }

end Sys2Proof.Machine
end

