-- ==== Sys2Proof/Safety.lean ====
section
/-!
DEFINITION. What claims about runs speak of: when the block is ready for a command, what a completed
command leaves in the status registers, and the invariants of the state.
-/

namespace Sys2Proof.Machine

/-- The next outside event, if there is one, waits until the block is not busy (the `wait` of
30_encoding.md rule R100), so nothing lands on a command that runs (20_memory.md rule R84). -/
def State.quiet (s : State) : Bool :=
  match s.port with
  | [] => true
  | e :: _ => e.lands.isNone

/-- The block is idle, not faulted, and the host leaves the next command alone until it is done
(47_sequencer.md rule R258). -/
def State.ready (s : State) : Bool := !s.busy && !s.fault && s.quiet

/-- What acceptance and completion with outcome `o` do to the state and nothing else: the rows of
47_sequencer.md rule R236 that are not the command's body, and LASTERR (10_state.md rule R42). -/
def State.completed (o : Code) (s : State) : State :=
  { s with busy := false, done := true, aborted := false, abortReq := false, lastErr := o.num,
           phase := .idle, run := none, ticks := 0 }

/-- A unit command accepted and in its one internal step (47_sequencer.md rule R236, 20_memory.md rule
R84). -/
def State.started (i : Instr) (ph : Phase) (s : State) : State := { s.accept i ph with ticks := 1 }

/-- What fault entry does to a state in which no command runs (60_exceptions.md rule R270). -/
def State.faulted (p : Precond) (s : State) : State :=
  { s with faultInfo := p.word, fault := true, busy := false, phase := .faulted, run := none,
           ticks := 0 }

/-- The phases command `i` passes through (47_sequencer.md rules R240, R245, R247 and the unit command
rules). SYS.NOP and SYS.SRST have none: they complete when they are accepted. -/
def phasesOf : Instr → List Phase
  | .cksGen => [.cksgen]
  | .cksVfy => [.cksvfy]
  | .pckPack => [.pack]
  | .pckUnpack => [.unpack]
  | .encEncode => [.fecenc]
  | .encXtr => [.xtr]
  | .bpdDecode => [.fecdec]
  | .modMap => [.map]
  | .modSynth => [.synth]
  | .synBuild => [.build]
  | .synSearch => [.search]
  | .demDemod _ => [.demod]
  | .seqEncmsg => [.cfgchk, .pack, .cksgen, .fecenc, .map, .synth]
  | .seqDecbuf => [.cfgchk, .build, .search, .demod, .fecdec, .xtr, .cksvfy, .unpack, .collect]
  | .sysNop => []
  | .sysSrst => []

/-- The phases of SEQ.DECBUF in which it processes candidate CIDX (47_sequencer.md rule R247). -/
def Phase.ofCandidate (p : Phase) : Prop :=
  p = .demod ∨ p = .fecdec ∨ p = .xtr ∨ p = .cksvfy ∨ p = .unpack

/-- Every memory is in its canonical form, so equal contents are equal data (log entry 2). -/
structure State.memoriesOk (s : State) : Prop where
  msg : s.msg.wf = true
  sym : s.sym.wf = true
  llr : s.llr.wf = true
  samp : s.samp.wf = true
  wave : s.wave.wf = true
  spec : s.spec.wf = true
  cand : s.cand.wf = true
  res : s.res.wf = true

/-- The status registers agree with one another (10_state.md rules R36, R37, R39, R42, R43, R46). -/
structure State.statusOk (s : State) : Prop where
  /-- PHASE = IDLE exactly when STATUS.BUSY = 0 and STATUS.FAULT = 0 (R46). -/
  idle : s.phase = .idle ↔ s.busy = false ∧ s.fault = false
  /-- PHASE = FAULTED exactly when STATUS.FAULT = 1 (R46). -/
  faulted : s.phase = .faulted ↔ s.fault = true
  /-- A faulted block is not busy (R270). -/
  exclusive : s.fault = true → s.busy = false
  /-- STATUS.BUSY = 1 exactly while a command runs (R39), and PHASE is one of its phases (R46). -/
  running : s.busy = true ↔ ∃ i, s.run = some i ∧ s.phase ∈ phasesOf i
  /-- No command is recorded when none runs. -/
  notRunning : s.busy = false → s.run = none
  /-- STATUS.DONE and STATUS.ABORTED were cleared at acceptance (R39). -/
  pending : s.busy = true → s.done = false ∧ s.aborted = false
  /-- FAULTINFO is 0 while STATUS.FAULT = 0 (R43). -/
  noInfo : s.fault = false → s.faultInfo = 0#32
  /-- FAULTINFO\[7:0\] is 1, and FAULTINFO\[15:8\] one of the nine sub-codes (R43, R271). -/
  info : s.fault = true → ∃ p : Precond, s.faultInfo = p.word
  /-- LASTERR is one of the five outcome codes that can appear there (R42). -/
  outcome : ∃ o : Code, s.lastErr = o.num
  /-- VALID\[0\] reads 0 (R37). -/
  validBit0 : s.valid.getLsbD 0 = false

/-- The counters are within their ranges on the block with parameters `c`, and 0 when their memory is
invalid (10_state.md rules R45, R46). -/
structure State.countersOk (c : Config) (s : State) : Prop where
  /-- NCAND ≤ MAX_CAND (R45). -/
  ncandMax : s.ncand.toNat ≤ c.maxCand
  /-- NRES ≤ MAX_RES (R45). -/
  nresMax : s.nres.toNat ≤ c.maxRes
  /-- NWAVE samples fit in WAVE (R198). -/
  nwaveMax : s.nwave.toNat ≤ c.maxSamples
  /-- NWAVE is 0 when VALID.WAVE = 0 (R45). -/
  nwave : s.isValid .wave = false → s.nwave = 0#32
  /-- NT is 0 when VALID.SPEC = 0 (R45). -/
  nt : s.isValid .spec = false → s.nt = 0#32
  /-- NCAND is 0 when VALID.CAND = 0 (R45). -/
  ncand : s.isValid .cand = false → s.ncand = 0#32
  /-- NRES is 0 when VALID.RES = 0 (R45). -/
  nres : s.isValid .res = false → s.nres = 0#32
  /-- CIDX is 0 unless SEQ.DECBUF is past its search, and then at most NCAND (R46). -/
  cidx : s.cidx ≤ s.ncand.toNat
  /-- A candidate in progress is one of the NCAND candidates (R245). -/
  candidate : s.run = some .seqDecbuf → s.phase.ofCandidate → s.cidx < s.ncand.toNat
  /-- Before the candidates, and outside SEQ.DECBUF, CIDX is 0 (R46, R254). -/
  start : s.run ≠ some .seqDecbuf ∨ s.phase = .cfgchk ∨ s.phase = .build ∨ s.phase = .search →
    s.cidx = 0 ∧ s.acc = []
  /-- T is below CFG_MAXITER while iterations are still to come (R46, R174). -/
  iterating : s.phase = .fecdec → s.iterT < s.cfg.maxIter.toNat ∨ s.cfg.maxIter = 0#32

/-! ### What the rules about all commands speak of -/

/-- The source buffers of a command that its validity checks name, in ascending space-id order: its R
column in 10_state.md rule R33, and for the two SEQ commands the checks of 47_sequencer.md rules R240
and R245. -/
def sources : Instr → List Space
  | .cksGen => [.pay]
  | .cksVfy => [.pay, .crc]
  | .pckPack => [.msg]
  | .pckUnpack => [.pay]
  | .encEncode => [.pay, .crc]
  | .encXtr => [.cw]
  | .bpdDecode => [.llr]
  | .modMap => [.cw]
  | .modSynth => [.sym]
  | .synBuild => [.samp]
  | .synSearch => [.spec]
  | .demDemod _ => [.spec, .cand]
  | .seqEncmsg => [.msg]
  | .seqDecbuf => [.samp]
  | .sysNop => []
  | .sysSrst => []

/-- Buffer `b` holds the same contents in both states. -/
def sameBuffer (b : Space) (s t : State) : Prop :=
  match b with
  | .msg => t.msg = s.msg
  | .pay => t.pay = s.pay
  | .crc => t.crc = s.crc
  | .cw => t.cw = s.cw
  | .sym => t.sym = s.sym
  | .llr => t.llr = s.llr
  | .samp => t.samp = s.samp
  | .wave => t.wave = s.wave
  | .spec => t.spec = s.spec
  | .cand => t.cand = s.cand
  | .res => t.res = s.res

/-- Buffer `b` is `any` (00_scope.md rule R17): every element of it is a free value of draw `d`. -/
def State.unspecified (b : Space) (d : Nat) (s : State) : Prop :=
  match b with
  | .msg => s.msg = Mem.any _ d
  | .pay => s.pay = Config.freeBits 77 d 0
  | .crc => s.crc = Config.freeBits 14 d 0
  | .cw => s.cw = Config.freeBits 174 d 0
  | .sym => s.sym = Mem.any _ d
  | .llr => s.llr = Mem.any _ d
  | .samp => s.samp = Mem.any _ d
  | .wave => s.wave = Mem.any _ d
  | .spec => s.spec = Mem.any _ d
  | .cand => s.cand = Mem.any _ d
  | .res => s.res = Mem.any _ d

/-- The counter that belongs to a memory (10_state.md rule R45). -/
def State.counterOf (s : State) (b : Space) : Option Word :=
  match b with
  | .wave => some s.nwave
  | .spec => some s.nt
  | .cand => some s.ncand
  | .res => some s.nres
  | .msg => none
  | .pay => none
  | .crc => none
  | .cw => none
  | .sym => none
  | .llr => none
  | .samp => none

/-! ### The two flows as functions -/

/-- The symbol sequence of a message: pack, checksum, encode, map (47_sequencer.md rule R240). -/
def messageSymbols (c : Config) (m : List Word) : List Tone :=
  let p := c.packFmt.pack m
  (List.range 79).map (symbolAt c (fecEncode c (p ++ crc14 c p)))

/-- What becomes of one candidate, given the spectrogram and the budget in `s`
(47_sequencer.md rule R247): `none` is Rejected. -/
def candidateOutcome (c : Config) (s : State) (k : Candidate) : Option Accepted :=
  match bpDecode c (s.putLlr c k).llrAt s.cfg.maxIter.toNat with
  | none => none
  | some (hard, t) =>
    if crc14 c (slice hard 0 77) = slice hard 77 14 then
      (c.packFmt.unpack (slice hard 0 77)).map fun m =>
        ⟨confidence s.cfg.maxIter t, BitVec.ofNat 32 k.score, BitVec.ofNat 32 k.t,
          BitVec.ofNat 32 k.f, m⟩
    else none

/-- The entries that candidates 0 to k−1 add to the list A, in the spectrogram, the records and the
budget of `s` (47_sequencer.md rules R245, R247). -/
def State.outcomes (c : Config) (s : State) (k : Nat) : List Accepted :=
  ((List.range k).map s.candidate).filterMap (candidateOutcome c s)

/-- The same state with ABORT_REQ = `b` (10_state.md rule R48). -/
def State.withAbortReq (b : Bool) (s : State) : State := { s with abortReq := b }

/-- RES holds the list `l`: NRES is its length and record i its entry i (47_sequencer.md rule R245,
30_encoding.md rule R105). -/
def State.holdsResults (c : Config) (l : List Accepted) (s : State) : Prop :=
  s.isValid .res = true ∧ s.nres.toNat = l.length ∧
    ∀ i (h : i < l.length), ∀ j < 8 + c.msgWords, s.res.rd (i * (8 + c.msgWords) + j) = l[i].word j

/-- How far the running SEQ.DECBUF has come (47_sequencer.md rules R245 to R247). -/
structure State.progressOk (c : Config) (s : State) : Prop where
  /-- The list A holds the outcomes of candidates 0 to CIDX−1. -/
  accepted : s.run = some .seqDecbuf → s.acc = s.outcomes c s.cidx
  /-- Past the configuration check the budget is not 0. -/
  budget : s.run = some .seqDecbuf → s.phase ≠ .cfgchk → s.cfg.maxIter ≠ 0#32
  /-- While candidate CIDX is decoded LLR holds its reliabilities, and what is left of `bp_decode` has
  the outcome of all of it. -/
  decoding : s.run = some .seqDecbuf → s.phase = .fecdec →
    s.llr = (s.putLlr c (s.candidate s.cidx)).llr ∧
      bpLoop c s.llrAt (s.cfg.maxIter.toNat - s.iterT) s.iterT s.bp =
        bpDecode c s.llrAt s.cfg.maxIter.toNat
  /-- Afterwards CW and T are what `bp_decode` gave. -/
  decoded : s.run = some .seqDecbuf → s.phase = .xtr ∨ s.phase = .cksvfy ∨ s.phase = .unpack →
    bpDecode c (s.putLlr c (s.candidate s.cidx)).llrAt s.cfg.maxIter.toNat = some (s.cw, s.iterT)
  /-- Then PAY and CRC are its first two parts. -/
  extracted : s.run = some .seqDecbuf → s.phase = .cksvfy ∨ s.phase = .unpack →
    s.pay = slice s.cw 0 77 ∧ s.crc = slice s.cw 77 14
  /-- And at last the checksum has verified. -/
  verified : s.run = some .seqDecbuf → s.phase = .unpack → crc14 c s.pay = s.crc

/-- The state SEQ.DECBUF's search reads: the session begun, with the spectrogram of `n` samples a
symbol built (47_sequencer.md rule R245). -/
def sessionState (c : Config) (n : Nat) (s : State) : State := s.dropSession.buildSpec c n

/-- The results of a decode in which no candidate is abandoned (47_sequencer.md rules R245, R247,
R251, R252). -/
def decodeResults (c : Config) (n : Nat) (s : State) : List Accepted :=
  collect c ((searchResult c (sessionState c n s)).filterMap
    (candidateOutcome c (sessionState c n s)))

end Sys2Proof.Machine
end

