-- ==== Sys2Proof/Certificates/Slice0/Obligations.lean ====
section
/-!
DEFINITION. The statements for the provers. `Config.block` is the block's lawful but otherwise unknown
assignment of the open parameters; `State.ready`, `State.completed`, `State.faulted` and the other
terms the statements use are in Sys2Proof/Safety.lean.

Three fields of the state are the model's own and not the spec's: `port`, the outside events to come,
with `ticks` (log entry 3), and `draws` (log entry 1). `rdata` is the port's signal, of which the spec
says what a read leaves there and nothing else (log entry 4). Where a statement gives a whole next state
it speaks of these too, and that part of it rests on the log entries named here.
-/

section Statements

open Sys2Proof Sys2Proof.Machine

/-! ### Encoding -/

/-- The words of 30_encoding.md rule R95 decode to their commands, DEM.DEMOD's with its index, and a
reserved opcode, a non-zero `rsv` and a non-zero `arg` do not. -/
def Obligations.DecodesWrittenWords : Prop :=
  decode 0x01000000#32 = .ok .cksGen ∧ decode 0x02000000#32 = .ok .cksVfy ∧
  decode 0x03000000#32 = .ok .pckPack ∧ decode 0x04000000#32 = .ok .pckUnpack ∧
  decode 0x05000000#32 = .ok .encEncode ∧ decode 0x06000000#32 = .ok .encXtr ∧
  decode 0x07000000#32 = .ok .bpdDecode ∧ decode 0x08000000#32 = .ok .modMap ∧
  decode 0x09000000#32 = .ok .modSynth ∧ decode 0x0A000000#32 = .ok .synBuild ∧
  decode 0x0B000000#32 = .ok .synSearch ∧ decode 0x0C00ABCD#32 = .ok (.demDemod 0xABCD) ∧
  decode 0x10000000#32 = .ok .seqEncmsg ∧ decode 0x11000000#32 = .ok .seqDecbuf ∧
  decode 0x20000000#32 = .ok .sysNop ∧ decode 0x21000000#32 = .ok .sysSrst ∧
  decode 0x0D000000#32 = .error .reservedOpcode ∧ decode 0x0C010000#32 = .error .reservedField ∧
  decode 0x20000001#32 = .error .reservedField

/-- A word decodes to an instruction exactly when the instruction is well formed and the word is its
encoding, so no bit of a word is dropped and no two words are one command (30_encoding.md rules R92 to
R97). -/
def Obligations.DecodeInvertsEncode : Prop :=
  ∀ (w : Word) (i : Instr), decode w = .ok i ↔ i.wf = true ∧ w = encode i

/-- When the block is not busy and the next outside event is a write of the word `w` to CMD, and `w`
decodes to `i`, the step is `exec` of `i`, the event being consumed (47_sequencer.md rule R236). -/
def Obligations.StepRunsDecodedCommand : Prop :=
  ∀ (s : State) (w : Word) (i : Instr) (l : Option Nat) (rest : List PortEvent),
    s.busy = false → s.port = ⟨l, .wr 0#4 0x00#28 w⟩ :: rest → decode w = .ok i →
      step s = exec i { s with port := rest }

/-- A word with a reserved opcode, and a word with a legal opcode but a reserved field that is not 0,
written to CMD of an idle block, raise their fatal faults with `w[31:16]`, and nothing else of the
block's state changes; a word that executes as a command is that command's own word, so no reserved bit
is ignored (30_encoding.md rule R97). -/
def Obligations.IllegalWordsFault : Prop :=
  ∀ (s : State) (w : Word) (l : Option Nat) (rest : List PortEvent),
    s.busy = false → s.fault = false → s.port = ⟨l, .wr 0#4 0x00#28 w⟩ :: rest →
    let op := w.toNat / 2 ^ 24
    let opcodes := [1, 2, 3, 4, 5, 6, 7, 8, 9, 10, 11, 12, 16, 17, 32, 33]
    let faultsWith := fun sub : BitVec 8 => ∃ t, step s = .next t ∧
      { t with port := s.port, ticks := s.ticks, run := s.run, rdata := s.rdata } =
        { s with fault := true, phase := .faulted, faultInfo := w.extractLsb' 16 16 ++ sub ++ 1#8 }
    (op ∉ opcodes → faultsWith 1#8) ∧
    (op ∈ opcodes → (w.toNat / 2 ^ 16 % 2 ^ 8 ≠ 0 ∨ (op ≠ 12 ∧ w.toNat % 2 ^ 16 ≠ 0)) →
      faultsWith 2#8) ∧
    (∀ i, decode w = .ok i → w = encode i ∧ op ∈ opcodes)

/-! ### Reset -/

/-- The reset event, when it lands, and SYS.SRST, whenever no command runs, put every piece of the
block's state at its reset value (70_reset_and_hazards.md rule R296, 47_sequencer.md rule R257). The
events still queued outside, the value last returned on the port and the numbering of the free values
are the model's (log entries 1, 3, 4 and 17). -/
def Obligations.ResetAndSoftResetAgree : Prop :=
  (∀ (s : State) (e : PortEvent) (rest : List PortEvent), s.port = e :: rest → e.txn = .reset →
    s.busy = false ∨ s.landing = true →
      step s = .next { State.resetFrom s.draws with port := rest, rdata := s.rdata }) ∧
  (∀ s : State, s.busy = false ∨ s.fault = true →
    exec .sysSrst s = .next { State.resetFrom s.draws with port := s.port, rdata := s.rdata })

/-- What the reset values are (10_state.md rules R49 and R51): the five bit buffers read 0, every
element of the six memories is a free value, and every register is as listed. Which draws the free
values are is the model's choice (log entry 1). -/
def Obligations.ResetValues : Prop :=
  ∀ d : Nat, let t := State.resetFrom d
    (∀ i, t.msg.rd i = 0#32) ∧ t.pay = 0#77 ∧ t.crc = 0#14 ∧ t.cw = 0#174 ∧
    (∀ i, t.sym.rd i = 0#3) ∧ t.unspecified .llr d ∧ t.unspecified .samp (d + 1) ∧
    t.unspecified .wave (d + 2) ∧ t.unspecified .spec (d + 3) ∧ t.unspecified .cand (d + 4) ∧
    t.unspecified .res (d + 5) ∧ (∀ b, t.isValid b = false) ∧ t.validWord = 0#32 ∧
    t.statusWord = 0#32 ∧ t.flagsWord = 0#32 ∧ t.lastErrWord = 0#32 ∧ t.faultInfo = 0#32 ∧
    t.iter = 0#32 ∧ t.conf = 0#32 ∧ t.ncand = 0#32 ∧ t.nres = 0#32 ∧ t.nt = 0#32 ∧
    t.nwave = 0#32 ∧
    t.cfg = ⟨12000#32, 1500#32, 0#32, 0xFFFFFFFF#32, 0#32, 0xFFFFFFFF#32, 0#32, 20#32, 1#32, 1#32,
      0#32⟩ ∧
    t.phase = .idle ∧ t.cidx = 0 ∧ t.iterT = 0 ∧ t.abortReq = false

/-! ### The fatal fault -/

/-- A command one of whose source buffers is invalid takes the fatal fault OPERAND_INVALID with the
lowest such space id, and changes nothing else (10_state.md rules R33 and R36, 47_sequencer.md rule
R237, 60_exceptions.md rules R270 and R271). -/
def Obligations.InvalidOperandsFault : Prop :=
  ∀ (i : Instr) (s : State) (b : Space), s.busy = false → s.fault = false →
    b ∈ sources i → s.isValid b = false →
    (∀ b' ∈ sources i, b'.id < b.id → s.isValid b' = true) →
      exec i s = .next (s.faulted ⟨.operandInvalid, BitVec.ofNat 16 b.id⟩)

/-- The other precondition faults: BAD_MESSAGE, BAD_LENGTH and DEM.DEMOD's INDEX_RANGE
(60_exceptions.md rule R271, 41_packer.md rule R136, 45_synchronizer.md rule R208, 46_demodulator.md
rule R229, 47_sequencer.md rules R240 and R245). -/
def Obligations.OtherPreconditionsFault : Prop :=
  (∀ (i : Instr) (s : State), s.busy = false → s.fault = false → i = .pckPack ∨ i = .seqEncmsg →
    s.isValid .msg = true → Config.block.packFmt.validMsg (s.message Config.block) = false →
      exec i s = .next (s.faulted ⟨.badMessage, (s.msg.rd 0).setWidth 16⟩)) ∧
  (∀ (i : Instr) (s : State), s.busy = false → s.fault = false → i = .synBuild ∨ i = .seqDecbuf →
    s.isValid .samp = true →
    s.cfg.nsamp.toNat = 0 ∨ Config.block.maxSamples < s.cfg.nsamp.toNat →
      exec i s = .next (s.faulted ⟨.badLength, s.cfg.nsamp.setWidth 16⟩)) ∧
  (∀ (cidx : Nat) (s : State), s.busy = false → s.fault = false → s.isValid .spec = true →
    s.isValid .cand = true → s.ncand.toNat ≤ cidx →
      exec (.demDemod cidx) s = .next (s.faulted ⟨.indexRange, BitVec.ofNat 16 cidx⟩))

/-- While STATUS.FAULT = 1 a read returns its element, as on any block that is not busy; every write but
that of the word 0x21000000 to CMD has no effect; and no transaction raises a second fault, so FAULTINFO
keeps the first (20_memory.md rule R70). What a read returns that has no element is the model's choice
(log entry 8) and is not said here. -/
def Obligations.FaultedBlockIsInert : Prop :=
  ∀ (s : State) (e : PortEvent) (rest : List PortEvent), s.fault = true → s.busy = false →
    s.port = e :: rest →
    (∀ space index, e.txn = .rd space index → ∃ t, step s = .next t ∧
      { t with port := s.port, rdata := s.rdata } = s ∧
      (s.outOfRange Config.block space index = false → t.rdata = s.readPort space index)) ∧
    (∀ space index v, e.txn = .wr space index v →
      ¬(space = 0#4 ∧ index = 0x00#28 ∧ v = 0x21000000#32) →
      ∃ t, step s = .next t ∧ { t with port := s.port, rdata := s.rdata } = s)

/-- A host transaction that lands on a running command, other than a STATUS read or an ABORT write,
faults with BUSY_ACCESS and abandons the command: the buffers it writes or discards become invalid and
unspecified and their counters 0, and everything else keeps its value (60_exceptions.md rules R270,
R271 and R273). A faulting read returns 0. That the unspecified values are fresh draws, and that a write
leaves `rdata`, is the model's choice (log entries 1 and 4). -/
def Obligations.BusyAccessAbandonsCommand : Prop :=
  ∀ (s : State) (i : Instr) (e : PortEvent) (rest : List PortEvent) (space : BitVec 4),
    s.busy = true → s.fault = false → s.run = some i → s.port = e :: rest → s.landing = true →
    ((∃ index, e.txn = .rd space index ∧ ¬(space = 0#4 ∧ index = 0x01#28)) ∨
      ∃ index v, e.txn = .wr space index v ∧ ¬(space = 0#4 ∧ index = 0x0C#28)) →
    ∃ t, step s = .next t ∧ t.fault = true ∧ t.busy = false ∧ t.phase = .faulted ∧
      t.faultInfo = space.setWidth 16 ++ 5#8 ++ 1#8 ∧
      (∀ b ∈ touched i, t.isValid b = false ∧ ∃ d, s.draws ≤ d ∧ t.unspecified b d) ∧
      (∀ b ∈ touched i, ∀ n, t.counterOf b = some n → n = 0#32) ∧
      (∀ b, b ∉ touched i → t.isValid b = s.isValid b ∧ sameBuffer b s t ∧
        t.counterOf b = s.counterOf b) ∧
      t.flagsWord = s.flagsWord ∧ t.iter = s.iter ∧ t.conf = s.conf ∧ t.lastErr = s.lastErr ∧
      t.done = s.done ∧ t.aborted = false ∧ t.abortReq = false ∧ t.cidx = 0 ∧ t.iterT = 0 ∧
      t.cfg = s.cfg ∧ t.port = rest ∧
      ((∃ index, e.txn = .rd space index) → t.rdata = 0#32) ∧
      ((∃ index v, e.txn = .wr space index v) → t.rdata = s.rdata)

/-! ### Invariants and rules about every step -/

/-- The invariants hold after reset: the status registers agree with one another and the counters are in
range (10_state.md rules R46 and R51), and every memory is in the canonical form, which is the model's
own (log entry 2). -/
def Obligations.ResetHoldsInvariants : Prop :=
  State.reset.memoriesOk ∧ State.reset.statusOk ∧ State.reset.countersOk Config.block

/-- Every step keeps every memory in its canonical form, which is the model's own (log entry 2). -/
def Obligations.MemoriesStayCanonical : Prop :=
  ∀ s t : State, s.memoriesOk → step s = .next t → t.memoriesOk

/-- Every step keeps the status registers consistent with one another and with the sequencer, and the
counters within their ranges (10_state.md rules R36, R37, R39, R42, R43, R45 and R46). That
STATUS.ABORTED is 0 as long as STATUS.BUSY = 1, also in COLLECT after an abort was seen
(`statusOk.pending`), is the model's choice: log entry 11, after the spec's own inference R84
(20_memory.md section 7), where R248 and R282 set the bit at the boundary. -/
def Obligations.StatusStaysConsistent : Prop :=
  ∀ s t : State, s.statusOk → s.countersOk Config.block → step s = .next t →
    t.statusOk ∧ t.countersOk Config.block

/-- From a consistent state no step stops the model: the block's faults are next states
(60_exceptions.md rule R270). -/
def Obligations.NoStepStopsTheModel : Prop :=
  ∀ s : State, s.statusOk → ∃ t, step s = .next t

/-- A command issued to a block on which nothing lands comes to its end. The spec's own inference, R262:
"Every command terminates". -/
def Obligations.IssuedCommandsTerminate : Prop :=
  ∀ (i : Instr) (s : State), s.ready = true → ∃ t, exec i s = .next t ∧ t.busy = false

/-- A command that runs, on which nothing lands any more, comes to its end in the next step, and
completes without a fault (47_sequencer.md rule R236; the spec's own inference R262, "No command waits
for the host or for any event"). That all of it is one step of the machine is the model's choice (log
entry 3). -/
def Obligations.RunningCommandsComplete : Prop :=
  ∀ s : State, s.statusOk → s.countersOk Config.block → s.busy = true → s.quiet = true →
    ∃ t, step s = .next t ∧ t.busy = false ∧ t.done = true ∧ t.fault = false

/-- A command changes no buffer and no validity bit outside its W column and the additions below that
table, no configuration register, and nothing on the port, whether or not it is cut short
(10_state.md rules R33, R34 and R50). SYS.SRST resets everything and is not meant. -/
def Obligations.CommandsTouchOnlyTheirBuffers : Prop :=
  ∀ (i : Instr) (s t : State), s.busy = false → i ≠ .sysSrst → exec i s = .next t →
    (∀ b, b ∉ touched i → sameBuffer b s t ∧ t.isValid b = s.isValid b) ∧ t.cfg = s.cfg ∧
      t.port = s.port ∧ t.rdata = s.rdata

/-- Each flag, ITER, CONF and each counter is written only by the commands that own it
(10_state.md rules R41, R44 and R45): CKS.VFY, BPD.DECODE, PCK.UNPACK, MOD.SYNTH, SYN.BUILD and
SYN.SEARCH, and the two SEQ commands. -/
def Obligations.FlagsAndCountersHaveOwners : Prop :=
  ∀ (i : Instr) (s t : State), s.busy = false → i ≠ .sysSrst → exec i s = .next t →
    (i ∉ [.cksVfy, .seqEncmsg, .seqDecbuf] → t.crcOk = s.crcOk) ∧
    (i ∉ [.bpdDecode, .seqEncmsg, .seqDecbuf] →
      t.conv = s.conv ∧ t.iter = s.iter ∧ t.conf = s.conf) ∧
    (i ∉ [.pckUnpack, .seqEncmsg, .seqDecbuf] → t.malf = s.malf) ∧
    (i ∉ [.modSynth, .seqEncmsg] → t.nwave = s.nwave) ∧
    (i ∉ [.synBuild, .seqDecbuf] → t.nt = s.nt) ∧
    (i ∉ [.synBuild, .synSearch, .seqDecbuf] → t.ncand = s.ncand) ∧
    (i ∉ [.seqDecbuf] → t.nres = s.nres)

/-- No command changes a configuration register, and no step does but one in which the host writes it,
or a reset, by the input or by SYS.SRST (10_state.md rule R50). -/
def Obligations.ConfigChangesOnlyByWriteOrReset : Prop :=
  (∀ (i : Instr) (s t : State), i ≠ .sysSrst → exec i s = .next t → t.cfg = s.cfg) ∧
  (∀ s t : State, s.statusOk → step s = .next t → t.cfg ≠ s.cfg →
    ∃ e rest, s.port = e :: rest ∧
      (e.txn = .reset ∨ (∃ w, e.txn = .wr 0#4 0x00#28 w ∧ decode w = .ok .sysSrst) ∨
        ∃ index v, e.txn = .wr 0#4 index v ∧ 0x10 ≤ index.toNat ∧ index.toNat ≤ 0x1A ∧
          t.cfg = s.cfg.write index.toNat v))

/-! ### The host port -/

/-- HOST.RD on a block that is not busy: the element's value and no change of state, and INDEX_RANGE
with the value 0 when there is no such element (20_memory.md rules R65 and R66). Which elements there
are (R61, R65, R69): registers 0 to 0x1A but 0x0F; MSG_WORDS, 77, 14, 174, 79, 174, MAX_SAMPLES,
MAX_SAMPLES, NT × NF, 4 × MAX_CAND and (8 + MSG_WORDS) × MAX_RES elements of spaces 1 to 11; none of
spaces 12 to 15. -/
def Obligations.HostReadReturnsElement : Prop :=
  (∀ (s : State) (space : BitVec 4) (index : BitVec 28),
    s.outOfRange Config.block space index = false ↔
      (space = 0#4 ∧ index.toNat ≤ 0x1A ∧ index.toNat ≠ 0x0F) ∨
      (space = 1#4 ∧ index.toNat < Config.block.msgWords) ∨ (space = 2#4 ∧ index.toNat < 77) ∨
      (space = 3#4 ∧ index.toNat < 14) ∨ (space = 4#4 ∧ index.toNat < 174) ∨
      (space = 5#4 ∧ index.toNat < 79) ∨ (space = 6#4 ∧ index.toNat < 174) ∨
      (space = 7#4 ∧ index.toNat < Config.block.maxSamples) ∨
      (space = 8#4 ∧ index.toNat < Config.block.maxSamples) ∨
      (space = 9#4 ∧ index.toNat < s.nt.toNat * Config.block.nf) ∨
      (space = 10#4 ∧ index.toNat < 4 * Config.block.maxCand) ∨
      (space = 11#4 ∧ index.toNat < (8 + Config.block.msgWords) * Config.block.maxRes)) ∧
  ∀ (s : State) (l : Option Nat) (space : BitVec 4) (index : BitVec 28) (rest : List PortEvent),
    s.busy = false → s.fault = false → s.port = ⟨l, .rd space index⟩ :: rest →
    step s = .next
      (if s.outOfRange Config.block space index then
        { ({ s with port := rest } : State).faulted ⟨.indexRange, space.setWidth 16⟩ with
          rdata := 0#32 }
      else { s with port := rest, rdata := s.readPort space index })

/-- What a read returns: every register of 10_state.md rule R38, with its reserved bits 0 and the
write-only ones 0, and the elements of the eleven data spaces, the bits and the narrow elements extended
(10_state.md rules R37 to R39, R41 to R45, R47 to R49 and R58; 20_memory.md rules R61 and R64). -/
def Obligations.PortReadValues : Prop :=
  ∀ (s : State) (i : BitVec 28) (k : Nat),
    (s.readPort 0#4 0x01#28).getLsbD k =
      ((k == 0 && s.busy) || (k == 1 && s.done) || (k == 2 && s.fault) || (k == 3 && s.aborted)) ∧
    (s.readPort 0#4 0x02#28).getLsbD k =
      ((k == 0 && s.crcOk) || (k == 1 && s.conv) || (k == 2 && s.malf)) ∧
    (s.readPort 0#4 0x03#28).toNat = s.lastErr.toNat ∧
    s.readPort 0#4 0x04#28 = s.faultInfo ∧ s.readPort 0#4 0x05#28 = s.iter ∧
    s.readPort 0#4 0x06#28 = s.conf ∧ s.readPort 0#4 0x07#28 = s.ncand ∧
    s.readPort 0#4 0x08#28 = s.nres ∧
    (s.readPort 0#4 0x09#28).toNat = s.valid.toNat ∧
    s.readPort 0#4 0x0B#28 = s.nt ∧ s.readPort 0#4 0x0D#28 = s.nwave ∧
    s.readPort 0#4 0x0E#28 = 0x43570001#32 ∧ s.readPort 0#4 0x00#28 = 0#32 ∧
    s.readPort 0#4 0x0A#28 = 0#32 ∧ s.readPort 0#4 0x0C#28 = 0#32 ∧
    s.readPort 0#4 0x10#28 = s.cfg.fs ∧ s.readPort 0#4 0x11#28 = s.cfg.base ∧
    s.readPort 0#4 0x12#28 = s.cfg.tmin ∧ s.readPort 0#4 0x13#28 = s.cfg.tmax ∧
    s.readPort 0#4 0x14#28 = s.cfg.fmin ∧ s.readPort 0#4 0x15#28 = s.cfg.fmax ∧
    s.readPort 0#4 0x16#28 = s.cfg.thresh ∧ s.readPort 0#4 0x17#28 = s.cfg.maxIter ∧
    s.readPort 0#4 0x18#28 = s.cfg.mergeDt ∧ s.readPort 0#4 0x19#28 = s.cfg.mergeDf ∧
    s.readPort 0#4 0x1A#28 = s.cfg.nsamp ∧
    s.readPort 1#4 i = s.msg.rd i.toNat ∧
    (s.readPort 2#4 i).toNat = (s.pay.getMsbD i.toNat).toNat ∧
    (s.readPort 3#4 i).toNat = (s.crc.getMsbD i.toNat).toNat ∧
    (s.readPort 4#4 i).toNat = (s.cw.getMsbD i.toNat).toNat ∧
    (s.readPort 5#4 i).toNat = (s.sym.rd i.toNat).toNat ∧
    s.readPort 6#4 i = s.llr.rd i.toNat ∧
    (s.readPort 7#4 i).toInt = (s.samp.rd i.toNat).toInt ∧
    (s.readPort 8#4 i).toInt = (s.wave.rd i.toNat).toInt ∧
    (s.readPort 9#4 i).toNat = (s.spec.rd i.toNat).toNat ∧
    s.readPort 10#4 i = s.cand.rd i.toNat ∧ s.readPort 11#4 i = s.res.rd i.toNat

/-- The host writes an element of a loadable buffer and reads it back: the value returns, no other
element of any buffer changes, and nothing else of the whole state, no validity bit and no register
(20_memory.md rules R64 and R67, 10_state.md rules R34 and R36). That the port's queue advances and
`rdata` keeps its value across the write is the model's (log entries 3 and 4). -/
def Obligations.WrittenElementReadsBack : Prop :=
  ∀ (s : State) (b : Space) (i : BitVec 28) (v : Word) (l l' : Option Nat)
    (rest : List PortEvent),
    s.busy = false → s.fault = false → s.memoriesOk → 1 ≤ b.id → b.id ≤ 7 →
    i.toNat < s.elements Config.block b → representable b v = true →
    s.port = ⟨l, .wr (BitVec.ofNat 4 b.id) i v⟩ :: ⟨l', .rd (BitVec.ofNat 4 b.id) i⟩ :: rest →
    ∃ t, step s = .next t ∧ step t = .next { t with port := rest, rdata := v } ∧
      (∀ b' j, ¬(b' = b ∧ j = i.toNat) → t.readElem b' j = s.readElem b' j) ∧
      (∀ b', b' ≠ b → sameBuffer b' s t) ∧
      { t with msg := s.msg, pay := s.pay, crc := s.crc, cw := s.cw, sym := s.sym, llr := s.llr,
               samp := s.samp, port := s.port } = s

/-- A configuration register takes any value the host writes and reads back as written; every other
register keeps its value (10_state.md rule R49, 20_memory.md rule R67). -/
def Obligations.ConfigRegisterReadsBack : Prop :=
  ∀ (s : State) (i : BitVec 28) (v : Word) (l : Option Nat) (rest : List PortEvent),
    s.busy = false → s.fault = false → 0x10 ≤ i.toNat → i.toNat ≤ 0x1A →
    s.port = ⟨l, .wr 0#4 i v⟩ :: rest →
    ∃ r, step s = .next { s with port := rest, cfg := r } ∧
      ∀ j, ({ s with port := rest, cfg := r } : State).readReg j =
        if j = i.toNat then v else s.readReg j

/-- The host writes that fault: no such element, an output space or a read-only register, a value the
element type cannot hold. Nothing is stored (20_memory.md rules R64, R65, R67, R69, R72 and R73,
60_exceptions.md rule R271). -/
def Obligations.ForbiddenWritesFault : Prop :=
  ∀ (s : State) (l : Option Nat) (space : BitVec 4) (i : BitVec 28) (v : Word)
    (rest : List PortEvent),
    s.busy = false → s.fault = false → s.port = ⟨l, .wr space i v⟩ :: rest →
    let ends := fun p : Precond => step s = .next (({ s with port := rest } : State).faulted p)
    (s.outOfRange Config.block space i = true → ends ⟨.indexRange, space.setWidth 16⟩) ∧
    (s.outOfRange Config.block space i = false → 8 ≤ space.toNat →
      ends ⟨.readOnly, space.setWidth 16⟩) ∧
    (space = 0#4 → i.toNat ∈ [1, 2, 3, 4, 5, 6, 7, 8, 9, 11, 13, 14] →
      ends ⟨.readOnly, i.setWidth 16⟩) ∧
    (s.outOfRange Config.block space i = false →
      (space ∈ [2#4, 3#4, 4#4] ∧ v >>> 1 ≠ 0#32) ∨ (space = 5#4 ∧ v >>> 3 ≠ 0#32) ∨
        (space = 7#4 ∧ v ≠ (v.setWidth 16).signExtend 32) →
      ends ⟨.badValue, space.setWidth 16⟩)

/-- A VSET write sets the validity bits it names, all of them of host-loadable buffers, and faults
otherwise; an ABORT write with bit 0 set sets ABORT_REQ (10_state.md rules R37 and R48). -/
def Obligations.VsetAndAbortWrites : Prop :=
  ∀ (s : State) (l : Option Nat) (v : Word) (rest : List PortEvent),
    s.busy = false → s.fault = false →
    (s.port = ⟨l, .wr 0#4 0x0A#28 v⟩ :: rest →
      (v.toNat % 2 = 1 ∨ 2 ^ 8 ≤ v.toNat → step s = .next
        (({ s with port := rest } : State).faulted ⟨.readOnly, v.setWidth 16⟩)) ∧
      (v.toNat % 2 = 0 → v.toNat < 2 ^ 8 → ∃ r, step s = .next { s with port := rest, valid := r } ∧
        ∀ k, r.getLsbD k = (s.valid.getLsbD k || v.getLsbD k))) ∧
    (s.port = ⟨l, .wr 0#4 0x0C#28 v⟩ :: rest →
      step s = .next { s with port := rest, abortReq := s.abortReq || v.getLsbD 0 })

/-- The two things the host can do while a command runs: a STATUS read returns BUSY = 1 and every other
bit 0, and an ABORT write sets ABORT_REQ; the command goes on (10_state.md rule R48; the spec's own
inference R84, "A STATUS read during a command returns BUSY = 1, DONE = 0, FAULT = 0,
ABORTED = 0"). -/
def Obligations.StatusReadAndAbortWhileBusy : Prop :=
  ∀ (s : State) (e : PortEvent) (rest : List PortEvent), s.statusOk → s.busy = true →
    s.port = e :: rest → s.landing = true →
    (e.txn = .rd 0#4 0x01#28 → step s = .next { s with port := rest, rdata := 1#32 }) ∧
    (∀ v, e.txn = .wr 0#4 0x0C#28 v →
      step s = .next { s with port := rest, abortReq := s.abortReq || v.getLsbD 0 })

/-! ### Every command completes, and what it leaves -/

/-- CKS.GEN and CKS.VFY (40_checksum.md rules R122 and R123). -/
def Obligations.ChecksumCommandsComplete : Prop :=
  ∀ s : State, s.ready = true → s.isValid .pay = true →
    exec .cksGen s = .next
      ((({ s with crc := crc14 Config.block s.pay } : State).setValid .crc true).completed .ok) ∧
    (s.isValid .crc = true → exec .cksVfy s = .next
      (if crc14 Config.block s.pay = s.crc then
        ({ s with crcOk := true } : State).completed .ok
      else ({ s with crcOk := false } : State).completed .checksumMismatch))

/-- PCK.PACK and PCK.UNPACK: the payload of the message; the message of the payload, or FLAGS.MALF and
an invalid MSG when the payload has none (41_packer.md rules R136 and R137). -/
def Obligations.PackerCommandsComplete : Prop :=
  ∀ s : State, s.ready = true →
    (s.isValid .msg = true → Config.block.packFmt.validMsg (s.message Config.block) = true →
      exec .pckPack s = .next
        ((({ s with pay := Config.block.packFmt.pack (s.message Config.block) } :
          State).setValid .pay true).completed .ok)) ∧
    (s.isValid .pay = true → ∃ t, exec .pckUnpack s = .next t ∧
      match Config.block.packFmt.unpack s.pay with
      | none => t = (({ s with malf := true } : State).discard .msg).completed .malformedPayload
      | some m => t.message Config.block = m ∧
          t = (({ s with msg := t.msg, malf := false } : State).setValid .msg true).completed .ok)

/-- ENC.ENCODE and ENC.XTR (42_fec_encoder.md rules R155 and R160). -/
def Obligations.EncoderCommandsComplete : Prop :=
  ∀ s : State, s.ready = true →
    (s.isValid .pay = true → s.isValid .crc = true → exec .encEncode s = .next
      ((({ s with cw := fecEncode Config.block (s.pay ++ s.crc) } : State).setValid .cw
        true).completed .ok)) ∧
    (s.isValid .cw = true → ∃ t, exec .encXtr s = .next t ∧
      (∀ k < 77, t.pay.getMsbD k = s.cw.getMsbD k) ∧
      (∀ k < 14, t.crc.getMsbD k = s.cw.getMsbD (77 + k)) ∧
      t = ((({ s with pay := t.pay, crc := t.crc } : State).setValid .pay true).setValid .crc
        true).completed .ok)

/-- BPD.DECODE: the configuration error with a budget of zero, and otherwise the outcome of
`bp_decode`: on convergence at iteration `t` the hard decision, CONV, ITER = t and
CONF = CFG_MAXITER − t + 1 between 1 and CFG_MAXITER; else an invalid CW and outcome
FEC_NOT_CONVERGED (43_bp_decoder.md rules R175 and R177). -/
def Obligations.BpDecodeCompletes : Prop :=
  ∀ s : State, s.ready = true → s.isValid .llr = true →
    ∃ t, exec .bpdDecode s = .next t ∧ t.busy = false ∧ t.done = true ∧ t.fault = false ∧
      (∀ b, b ≠ .cw → sameBuffer b s t ∧ t.isValid b = s.isValid b) ∧ t.cfg = s.cfg ∧
      t.crcOk = s.crcOk ∧ t.malf = s.malf ∧ t.aborted = false ∧ t.abortReq = false ∧
      t.phase = .idle ∧ t.cidx = s.cidx ∧ t.faultInfo = s.faultInfo ∧ t.nwave = s.nwave ∧
      t.nt = s.nt ∧ t.ncand = s.ncand ∧ t.nres = s.nres ∧
      (s.cfg.maxIter = 0#32 → t.lastErr = 2#8 ∧ t.isValid .cw = false ∧ t.conv = false ∧
        t.iter = 0#32 ∧ t.conf = 0#32) ∧
      (s.cfg.maxIter ≠ 0#32 →
        match bpDecode Config.block s.llrAt s.cfg.maxIter.toNat with
        | some (hard, n) =>
          t.lastErr = 0#8 ∧ t.isValid .cw = true ∧ t.cw = hard ∧ t.conv = true ∧ 1 ≤ n ∧
            n ≤ s.cfg.maxIter.toNat ∧ t.iter.toNat = n ∧
            t.conf.toNat + n = s.cfg.maxIter.toNat + 1
        | none =>
          t.lastErr = 3#8 ∧ t.isValid .cw = false ∧ t.conv = false ∧ t.iter = s.cfg.maxIter ∧
            t.conf = 0#32)

/-- MOD.MAP and MOD.SYNTH: the symbols of the codeword; the waveform of 79 × SPS samples, or the
configuration error when the sample rate gives none that fits (44_modulator.md rules R195 and
R198). -/
def Obligations.ModulatorCommandsComplete : Prop :=
  ∀ s : State, s.ready = true →
    (s.isValid .cw = true → ∃ t, exec .modMap s = .next t ∧
      (∀ p < 79, t.sym.rd p = symbolAt Config.block s.cw p) ∧
      t = (({ s with sym := t.sym } : State).setValid .sym true).completed .ok) ∧
    (s.isValid .sym = true → ∃ t, exec .modSynth s = .next t ∧
      match waveLength Config.block s.cfg.fs with
      | none => t = (s.discard .wave).completed .config
      | some n => t.nwave.toNat = n ∧
          (∀ i < n, t.wave.rd i = Config.block.synth s.symbols s.cfg.fs s.cfg.base i) ∧
          t = (({ s with wave := t.wave, nwave := t.nwave, draws := t.draws } :
            State).setValid .wave true).completed .ok)

/-- SYN.BUILD and SYN.SEARCH: a new session with the spectrogram of the samples, the candidates of
the search, or the configuration error (45_synchronizer.md rules R208, R211 and R212). What the
candidates are is the statement SearchFindsRankedCandidates. That SYN.BUILD makes the old candidates
and reliabilities unspecified, not only invalid, is log entry 9. -/
def Obligations.SynchronizerCommandsComplete : Prop :=
  ∀ s : State, s.ready = true →
    (s.isValid .samp = true → 1 ≤ s.cfg.nsamp.toNat →
      s.cfg.nsamp.toNat ≤ Config.block.maxSamples → ∃ t, exec .synBuild s = .next t ∧
      match sps Config.block s.cfg.fs with
      | none => t = (s.discardAll [.spec, .cand, .llr]).completed .config
      | some n => t.nt.toNat = s.cfg.nsamp.toNat / n ∧
          (∀ x f, x < t.nt.toNat → f < Config.block.nf →
            t.spec.rd (x * Config.block.nf + f) =
              Config.block.stft (s.samples s.cfg.nsamp.toNat) s.cfg.fs x f) ∧
          t.isValid .spec = true ∧ t.isValid .cand = false ∧ t.isValid .llr = false ∧
          t.ncand = 0#32 ∧
          t = ({ s.discardAll [.spec, .cand, .llr] with
            spec := t.spec, nt := t.nt, valid := t.valid } : State).completed .ok) ∧
    (s.isValid .spec = true → searchCfgBad Config.block s.cfg s.nt.toNat = true →
      exec .synSearch s = .next ((s.discard .cand).completed .config)) ∧
    (s.isValid .spec = true → searchCfgBad Config.block s.cfg s.nt.toNat = false →
      ∃ t, exec .synSearch s = .next t ∧
        t = (({ s with cand := t.cand, ncand := t.ncand, draws := t.draws } : State).setValid .cand
          true).completed .ok)

/-- DEM.DEMOD: the LLR vector of the candidate record named, and nothing else
(46_demodulator.md rules R228 and R229). What the values are is the statement
LlrIsDifferenceOfStrongest. -/
def Obligations.DemodCompletes : Prop :=
  ∀ (s : State) (cidx : Nat), s.ready = true → s.isValid .spec = true → s.isValid .cand = true →
    cidx < s.ncand.toNat →
    ∃ t, exec (.demDemod cidx) s = .next t ∧
      (∀ d < 58, ∀ k < 3, t.llr.rd (3 * d + k) = BitVec.ofInt 32
        (llrValue Config.block (toneMagnitudes Config.block s (s.candidate cidx)) d k)) ∧
      t = (({ s with llr := t.llr } : State).setValid .llr true).completed .ok

/-- SEQ.ENCMSG: the waveform of the message's symbols, or the configuration error; the intermediate
buffers are discarded and FLAGS, ITER and CONF cleared (47_sequencer.md rules R240 and R243). -/
def Obligations.EncmsgCompletes : Prop :=
  ∀ s : State, s.ready = true → s.isValid .msg = true →
    Config.block.packFmt.validMsg (s.message Config.block) = true →
    ∃ t, exec .seqEncmsg s = .next t ∧ t.busy = false ∧ t.done = true ∧ t.fault = false ∧
      t.aborted = false ∧ t.phase = .idle ∧
      (∀ b ∈ [Space.pay, .crc, .cw, .sym], t.isValid b = false) ∧
      t.flagsWord = 0#32 ∧ t.iter = 0#32 ∧ t.conf = 0#32 ∧
      (∀ b ∈ [Space.msg, .llr, .samp, .spec, .cand, .res],
        sameBuffer b s t ∧ t.isValid b = s.isValid b) ∧
      t.ncand = s.ncand ∧ t.nres = s.nres ∧ t.nt = s.nt ∧ t.cfg = s.cfg ∧ t.port = s.port ∧
      t.abortReq = false ∧ t.faultInfo = s.faultInfo ∧ t.bp = s.bp ∧ t.cidx = s.cidx ∧
      t.iterT = s.iterT ∧
      (match waveLength Config.block s.cfg.fs with
      | none => t.lastErr = 2#8 ∧ t.isValid .wave = false ∧ t.nwave = 0#32
      | some n => t.lastErr = 0#8 ∧ t.isValid .wave = true ∧ t.nwave.toNat = n ∧
          ∀ i < n, t.wave.rd i = Config.block.synth
            (messageSymbols Config.block (s.message Config.block)) s.cfg.fs s.cfg.base i)

/-- SEQ.DECBUF on which no abort request lands: the configuration error before any search, or the
results of all candidates in result order without duplicates, each record with crc_valid = 1 and its
reserved words 0; the session's buffers are discarded, FLAGS, ITER, CONF, CIDX and T cleared
(47_sequencer.md rules R245 to R247 and R251 to R254, 30_encoding.md rule R105; the spec's own
inference R57, that crc_valid is 1 in every record). -/
def Obligations.DecbufCompletes : Prop :=
  ∀ s : State, s.ready = true → s.isValid .samp = true → 1 ≤ s.cfg.nsamp.toNat →
    s.cfg.nsamp.toNat ≤ Config.block.maxSamples →
    ∃ t, exec .seqDecbuf s = .next t ∧ t.busy = false ∧ t.done = true ∧ t.fault = false ∧
      t.aborted = false ∧ t.phase = .idle ∧ t.cidx = 0 ∧ t.iterT = 0 ∧
      (∀ b ∈ [Space.spec, .cand, .llr, .cw, .pay, .crc, .msg], t.isValid b = false) ∧
      t.nt = 0#32 ∧ t.ncand = 0#32 ∧ t.flagsWord = 0#32 ∧ t.iter = 0#32 ∧ t.conf = 0#32 ∧
      (∀ b ∈ [Space.sym, .samp, .wave], sameBuffer b s t ∧ t.isValid b = s.isValid b) ∧
      t.nwave = s.nwave ∧ t.cfg = s.cfg ∧ t.port = s.port ∧ t.abortReq = false ∧
      t.faultInfo = s.faultInfo ∧
      (match sps Config.block s.cfg.fs with
      | none => t.lastErr = 2#8 ∧ t.isValid .res = false ∧ t.nres = 0#32
      | some n =>
        if s.cfg.maxIter = 0#32 ∨
            searchCfgBad Config.block s.cfg (s.cfg.nsamp.toNat / n) = true then
          t.lastErr = 2#8 ∧ t.isValid .res = false ∧ t.nres = 0#32
        else
          t.lastErr = 0#8 ∧ t.isValid .res = true ∧
            t.nres.toNat = (decodeResults Config.block n s).length ∧
            ∀ i (h : i < (decodeResults Config.block n s).length),
              ∀ j < 8 + Config.block.msgWords,
                t.res.rd (i * (8 + Config.block.msgWords) + j) =
                  ((decodeResults Config.block n s)[i]).word j)

/-- SYS.NOP changes the status registers alone, and SYS.SRST gives the reset state; while the block is
faulted SYS.NOP, as every other command but SYS.SRST, is dropped (47_sequencer.md rules R236, R256 and
R257). That no outside event can land on SYS.NOP, whatever is queued, is the model's choice (log entry
10), and so is that `resetBlock` keeps the port's queue and `rdata` (log entry 17). -/
def Obligations.SystemCommandsComplete : Prop :=
  (∀ s : State, s.busy = false → s.fault = false → exec .sysNop s = .next (s.completed .ok)) ∧
  (∀ s : State, s.busy = false → exec .sysSrst s = .next s.resetBlock) ∧
  (∀ (i : Instr) (s : State), s.fault = true → i ≠ .sysSrst → exec i s = .next s)

/-! ### The checksum -/

/-- `crc14` is the remainder of P(x)·x^(CRC_PAD+14) divided by the generator polynomial over GF(2),
the first bit of a sequence being the coefficient of the highest power; the polynomial's constant term
is 1 (40_checksum.md rule R121). -/
def Obligations.CrcIsPolynomialRemainder : Prop :=
  Config.block.poly.getLsbD 0 = true ∧ ∀ (c : Config) (p : BitVec 77),
    (∑ i ∈ Finset.range 14,
      if (crc14 c p).getMsbD i then (Polynomial.X : Polynomial (ZMod 2)) ^ (13 - i) else 0) =
    ((∑ i ∈ Finset.range 77,
        if p.getMsbD i then (Polynomial.X : Polynomial (ZMod 2)) ^ (76 - i) else 0) *
      Polynomial.X ^ (c.crcPad + 14)) %ₘ
    (Polynomial.X ^ 14 + ∑ k ∈ Finset.range 14,
      if c.poly.getLsbD k then (Polynomial.X : Polynomial (ZMod 2)) ^ k else 0)

/-- `crc14` is linear over GF(2). The spec's own inference, R125: "crc14 is linear over GF(2):
crc14(P xor Q) = crc14(P) xor crc14(Q) bit by bit". -/
def Obligations.CrcIsLinear : Prop :=
  ∀ c : Config, (∀ p q : BitVec 77, crc14 c (p ^^^ q) = crc14 c p ^^^ crc14 c q) ∧
    crc14 c 0#77 = 0#14

/-- Every change of one payload bit changes the checksum, and CKS.VFY reports it; so it does a change of
one bit of the checksum. The spec's own inference, R126: "flipping one payload bit and keeping the
checksum always makes CKS.VFY report a mismatch". -/
def Obligations.SingleBitErrorsAreDetected : Prop :=
  (∀ (p : BitVec 77) (i : Nat), i < 77 →
    crc14 Config.block (putBit p i !p.getMsbD i) ≠ crc14 Config.block p) ∧
  (∀ (s : State) (i : Nat), s.ready = true → s.isValid .pay = true → s.isValid .crc = true →
    s.crc = crc14 Config.block s.pay →
    (i < 77 → ∃ t, exec .cksVfy { s with pay := putBit s.pay i !s.pay.getMsbD i } = .next t ∧
      t.crcOk = false ∧ t.lastErr = 4#8) ∧
    (i < 14 → ∃ t, exec .cksVfy { s with crc := putBit s.crc i !s.crc.getMsbD i } = .next t ∧
      t.crcOk = false ∧ t.lastErr = 4#8))

/-- Generate then verify succeeds. The spec's own inference, R124: "after PAY ← P, CKS.GEN, CKS.VFY the
flag CRC_OK is 1". -/
def Obligations.GenerateThenVerifySucceeds : Prop :=
  ∀ (s : State) (p : BitVec 77), s.ready = true → s.isValid .pay = true →
    ∃ t u, exec .cksGen { s with pay := p } = .next t ∧ exec .cksVfy t = .next u ∧
      u.crcOk = true

/-! ### The packer -/

/-- A valid message comes back from PCK.PACK and PCK.UNPACK word for word. The spec's own inference,
R138: "the register MSG equals M word for word and FLAGS.MALF = 0". -/
def Obligations.PackThenUnpackRestoresMessage : Prop :=
  ∀ s : State, s.ready = true → s.isValid .msg = true →
    Config.block.packFmt.validMsg (s.message Config.block) = true →
    ∃ t u, exec .pckPack s = .next t ∧ exec .pckUnpack t = .next u ∧ u.malf = false ∧
      u.message Config.block = s.message Config.block

/-- A payload that unpacks comes back from PCK.UNPACK and PCK.PACK (41_packer.md rule R131 law PF2 and
rule R137). -/
def Obligations.UnpackThenPackRestoresPayload : Prop :=
  ∀ s : State, s.ready = true → s.isValid .pay = true →
    Config.block.packFmt.unpack s.pay ≠ none →
    ∃ t u, exec .pckUnpack s = .next t ∧ exec .pckPack t = .next u ∧ u.pay = s.pay ∧
      u.fault = false

/-! ### The encoder -/

/-- Every output of the encoder satisfies every check. The spec's own inference, R156: "For every 91-bit
m, cw = fec_encode(m) satisfies every check of ROM.H". -/
def Obligations.EncoderOutputIsCodeword : Prop :=
  ∀ (m : BitVec 91) (j : Nat), j < 83 →
    xorSum (Config.block.checkBits j) (fecEncode Config.block m).getMsbD = false

/-- The encoder is linear and one-to-one, so its outputs are a linear code of dimension 91. The spec's
own inference, R157: "The set of outputs is a linear code of length 174 and dimension 91". -/
def Obligations.EncoderIsLinear : Prop :=
  ∀ m m' : BitVec 91,
    fecEncode Config.block (m ^^^ m') = fecEncode Config.block m ^^^ fecEncode Config.block m' ∧
    fecEncode Config.block 0#91 = 0#174 ∧
    (fecEncode Config.block m = fecEncode Config.block m' → m = m')

/-- The encoder is systematic: the input is the first 91 bits of its output, and ENC.XTR after
ENC.ENCODE restores PAY and CRC. The spec's own inference, R158: "two different inputs give two different
codewords and ENC.XTR after ENC.ENCODE restores PAY and CRC exactly". -/
def Obligations.ExtractUndoesEncode : Prop :=
  (∀ (m : BitVec 91) (k : Nat), k < 91 →
    (fecEncode Config.block m).getMsbD k = m.getMsbD k) ∧
  (∀ m m' : BitVec 91, m ≠ m' → fecEncode Config.block m ≠ fecEncode Config.block m') ∧
  (∀ s : State, s.ready = true → s.isValid .pay = true → s.isValid .crc = true →
    ∃ t u, exec .encEncode s = .next t ∧ exec .encXtr t = .next u ∧ u.pay = s.pay ∧
      u.crc = s.crc)

/-- The sequences that satisfy every check are the encoder's outputs, and ENC.XTR and ENC.ENCODE
reproduce such a CW. The spec's own inference, R159: "if x has zero syndrome then
fec_encode(x[0..90]) = x". -/
def Obligations.CodewordsAreEncoderOutputs : Prop :=
  (∀ x : BitVec 174, isCodeword Config.block x = true ↔
    fecEncode Config.block (slice x 0 91) = x) ∧
  (∀ s : State, s.ready = true → s.isValid .cw = true → isCodeword Config.block s.cw = true →
    ∃ t u, exec .encXtr s = .next t ∧ exec .encEncode t = .next u ∧ u.cw = s.cw)

/-! ### The decoder -/

/-- A converged result is a codeword, hence an output of the encoder. The spec's own inference, R178:
"When BPD.DECODE ends with FLAGS.CONV = 1, CW has zero syndrome under ROM.H". -/
def Obligations.ConvergedResultIsCodeword : Prop :=
  (∀ c : Config, c.Lawful → ∀ (llr : Nat → Int) (maxIter t : Nat) (x : BitVec 174),
    bpDecode c llr maxIter = some (x, t) →
      isCodeword c x = true ∧ fecEncode c (slice x 0 91) = x) ∧
  (∀ s : State, s.ready = true → s.isValid .llr = true → ∃ t, exec .bpdDecode s = .next t ∧
    (t.conv = true → t.isValid .cw = true ∧ isCodeword Config.block t.cw = true ∧
      fecEncode Config.block (slice t.cw 0 91) = t.cw))

/-- The reliabilities of a codeword without noise decode to it in iteration 1. The spec's own inference,
R179, "Noiseless decoding converges at once". -/
def Obligations.NoiselessDecodeConvergesAtOnce : Prop :=
  ∀ (x : BitVec 174) (amp : Int), isCodeword Config.block x = true → 1 ≤ amp →
    (∀ (llr : Nat → Int) (maxIter : Nat), 1 ≤ maxIter →
      (∀ n < 174, llr n = if x.getMsbD n then -amp else amp) →
      bpDecode Config.block llr maxIter = some (x, 1)) ∧
    (∀ s : State, s.ready = true → s.isValid .llr = true → s.cfg.maxIter ≠ 0#32 →
      (∀ n < 174, s.llrAt n = if x.getMsbD n then -amp else amp) →
      ∃ t, exec .bpdDecode s = .next t ∧ t.conv = true ∧ t.cw = x ∧ t.iter = 1#32 ∧
        t.conf = s.cfg.maxIter)

/-- No information decodes to the zero codeword, whose checksum verifies. The spec's own inference, R180:
"If llr[n] = 0 for all n then bp_decode returns (CONVERGED, zeros(174), 1)". -/
def Obligations.ZeroLlrDecodesToZero : Prop :=
  (∀ (llr : Nat → Int) (maxIter : Nat), 1 ≤ maxIter → (∀ n < 174, llr n = 0) →
    bpDecode Config.block llr maxIter = some (0#174, 1)) ∧
  crc14 Config.block 0#77 = 0#14

/-- A uniform positive scaling of the reliabilities changes neither the outcome nor the hard decision
nor the iteration. The spec's own inference, R181: "For any integer k ≥ 1, bp_decode(k × llr, max_iter)
returns the same outcome, the same hard decision and the same T". -/
def Obligations.DecodingIsScaleInvariant : Prop :=
  ∀ (c : Config) (llr : Nat → Int) (k : Int) (maxIter : Nat), 1 ≤ k →
    bpDecode c (fun n => k * llr n) maxIter = bpDecode c llr maxIter

/-! ### The modulator and the demodulator -/

/-- The codeword can be read back from the symbols, different codewords differ in a data position, and
all symbol sequences agree on the synchronization positions. The spec's own inference, R196: "MOD.MAP is
injective and invertible on its data part". -/
def Obligations.SymbolsRecoverCodeword : Prop :=
  (∀ (x : BitVec 174) (d : Nat), d < 58 →
    (slice x (3 * d) 3 : Tone) =
      Config.block.grayInv (symbolAt Config.block x (dataPos Config.block d))) ∧
  (∀ x y : BitVec 174, x ≠ y → ∃ d, d < 58 ∧
    symbolAt Config.block x (dataPos Config.block d) ≠
      symbolAt Config.block y (dataPos Config.block d)) ∧
  (∀ (x y : BitVec 174) (b k : Nat), b < 3 → k < 7 →
    symbolAt Config.block x (Config.block.syncPos b + k) = Config.block.sync b k ∧
    symbolAt Config.block x (Config.block.syncPos b + k) =
      symbolAt Config.block y (Config.block.syncPos b + k))

/-- Each LLR that DEM.DEMOD stores is the strongest normalised tone that would mean 0 minus the
strongest that would mean 1, exactly: it is positive when the evidence favours 0, and its magnitude is
at most 2^31 − 2, so the signed 32-bit element does not wrap (46_demodulator.md rule R228). -/
def Obligations.LlrIsDifferenceOfStrongest : Prop :=
  ∀ (s t : State) (cidx d k : Nat), s.ready = true → s.isValid .spec = true →
    s.isValid .cand = true → cidx < s.ncand.toNat → exec (.demDemod cidx) s = .next t →
    d < 58 → k < 3 →
    let tone := fun j =>
      Config.block.norm (toneMagnitudes Config.block s (s.candidate cidx)) d j
    ∃ j0 j1, j0 < 8 ∧ j1 < 8 ∧ gbit Config.block j0 k = false ∧ gbit Config.block j1 k = true ∧
      (∀ j < 8, gbit Config.block j k = false → tone j ≤ tone j0) ∧
      (∀ j < 8, gbit Config.block j k = true → tone j ≤ tone j1) ∧
      (t.llr.rd (3 * d + k)).toInt = tone j0 - tone j1 ∧ (tone j0 - tone j1).natAbs ≤ 2 ^ 31 - 2

/-- Where one tone is strictly the strongest after normalisation, the signs of the three LLRs are the
group that tone carries. The spec's own inference, R230, "Clean symbol, right sign". -/
def Obligations.CleanSymbolDecidesRight : Prop :=
  ∀ c : Config, c.Lawful → ∀ (e : List (List Half)) (d j : Nat), j < 8 →
    (∀ j' < 8, j' ≠ j → c.norm e d j' < c.norm e d j) → ∀ k < 3,
      if gbit c j k then llrValue c e d k < 0 else 0 < llrValue c e d k

/-! ### The search -/

/-- What SYN.SEARCH stores. At most MAX_CAND records; each a searched position with its sync score,
above the threshold, its reserved word 0; in strict rank order: a higher score first, then an earlier
time, then a lower frequency; no two within both merge tolerances of one another. A position above the
threshold is near a record that is itself or ranks before it, or else the list is full and every record
ranks before it: so nothing is dropped but near-duplicates of better kept ones and what comes after the
first MAX_CAND (45_synchronizer.md rules R214, R215 and R216; the scores and the range are R210 and
R211, the record R104). -/
def Obligations.SearchFindsRankedCandidates : Prop :=
  ∀ s : State, s.ready = true → s.isValid .spec = true → 79 ≤ s.nt.toNat →
    s.cfg.tmin.toNat ≤ min s.cfg.tmax.toNat (s.nt.toNat - 79) →
    s.cfg.fmin.toNat ≤ min s.cfg.fmax.toNat (Config.block.nf - 8) →
    s.cfg.thresh.toNat < 21 * 65535 →
    let before := fun x y : Candidate =>
      y.score < x.score ∨ (x.score = y.score ∧ (x.t < y.t ∨ (x.t = y.t ∧ x.f < y.f)))
    let near := fun x y : Candidate =>
      distance x.t y.t ≤ s.cfg.mergeDt.toNat ∧ distance x.f y.f ≤ s.cfg.mergeDf.toNat
    ∃ t, exec .synSearch s = .next t ∧ t.isValid .cand = true ∧ t.lastErr = 0#8 ∧
      t.ncand.toNat ≤ Config.block.maxCand ∧
      (∀ i < t.ncand.toNat,
        s.cfg.tmin.toNat ≤ (t.candidate i).t ∧ (t.candidate i).t ≤ s.cfg.tmax.toNat ∧
        (t.candidate i).t + 79 ≤ s.nt.toNat ∧ s.cfg.fmin.toNat ≤ (t.candidate i).f ∧
        (t.candidate i).f ≤ s.cfg.fmax.toNat ∧ (t.candidate i).f + 8 ≤ Config.block.nf ∧
        (t.candidate i).score = syncScore Config.block s (t.candidate i).t (t.candidate i).f ∧
        s.cfg.thresh.toNat < (t.candidate i).score ∧ t.cand.rd (4 * i + 3) = 0#32) ∧
      (∀ i j, i < j → j < t.ncand.toNat →
        before (t.candidate i) (t.candidate j) ∧ ¬near (t.candidate i) (t.candidate j)) ∧
      (∀ x f, s.cfg.tmin.toNat ≤ x → x ≤ s.cfg.tmax.toNat → x + 79 ≤ s.nt.toNat →
        s.cfg.fmin.toNat ≤ f → f ≤ s.cfg.fmax.toNat → f + 8 ≤ Config.block.nf →
        s.cfg.thresh.toNat < syncScore Config.block s x f →
        let k : Candidate := ⟨x, f, syncScore Config.block s x f⟩
        (∃ i < t.ncand.toNat, t.candidate i = k ∨
          (before (t.candidate i) k ∧ near k (t.candidate i))) ∨
        (t.ncand.toNat = Config.block.maxCand ∧ ∀ i < t.ncand.toNat, before (t.candidate i) k))

/-- The candidates are a function of the spectrogram, NT and the seven configuration registers that
the search reads. The spec's own inference, R217: "Repeating SYN.SEARCH without changing those gives the
same list in the same order". -/
def Obligations.SearchDependsOnItsInputsOnly : Prop :=
  ∀ s s' t t' : State, s.ready = true → s'.ready = true → s.isValid .spec = true →
    s'.isValid .spec = true → s'.nt = s.nt →
    (∀ i < s.nt.toNat * Config.block.nf, s'.spec.rd i = s.spec.rd i) →
    s'.cfg.tmin = s.cfg.tmin → s'.cfg.tmax = s.cfg.tmax → s'.cfg.fmin = s.cfg.fmin →
    s'.cfg.fmax = s.cfg.fmax → s'.cfg.thresh = s.cfg.thresh → s'.cfg.mergeDt = s.cfg.mergeDt →
    s'.cfg.mergeDf = s.cfg.mergeDf →
    exec .synSearch s = .next t → exec .synSearch s' = .next t' →
      t'.ncand = t.ncand ∧ ∀ i < 4 * t.ncand.toNat, t'.cand.rd i = t.cand.rd i

/-! ### The flows -/

/-- SEQ.ENCMSG leaves the waveform that the five unit commands leave, issued one after the other from
the same state, and with a sample rate that is not usable both leave none. The spec's own inference, R241, "SEQ.ENCMSG equals the unit sequence". -/
def Obligations.EncmsgEqualsUnitSequence : Prop :=
  ∀ s : State, s.ready = true → s.isValid .msg = true →
    Config.block.packFmt.validMsg (s.message Config.block) = true →
    ∃ t t1 t2 t3 t4 t5, exec .seqEncmsg s = .next t ∧ exec .pckPack s = .next t1 ∧
      exec .cksGen t1 = .next t2 ∧ exec .encEncode t2 = .next t3 ∧ exec .modMap t3 = .next t4 ∧
      exec .modSynth t4 = .next t5 ∧ t.nwave = t5.nwave ∧
      t.isValid .wave = t5.isValid .wave ∧
      ∀ i < t.nwave.toNat, t.wave.rd i = t5.wave.rd i

/-- COLLECT: of the accepted entries with equal messages exactly one is kept, the one that comes first in
result order; the kept entries are in result order: confidence, then score, both descending, then time,
then frequency, both ascending; at most MAX_RES are stored, the first ones (47_sequencer.md rule R251;
the order is R252, the limit R245). -/
def Obligations.ResultsAreRankedAndDistinct : Prop :=
  ∀ (c : Config) (l : List Accepted),
    let before := fun x y : Accepted =>
      y.conf < x.conf ∨ (x.conf = y.conf ∧ (y.score < x.score ∨ (x.score = y.score ∧
        (x.t < y.t ∨ (x.t = y.t ∧ x.f ≤ y.f)))))
    (collect c l).Pairwise (fun x y => before x y ∧ x.msg ≠ y.msg) ∧
    (collect c l).length ≤ c.maxRes ∧ (∀ a ∈ collect c l, a ∈ l) ∧
    (∀ a ∈ collect c l, ∀ b ∈ l, b.msg = a.msg → before a b) ∧
    (∀ b ∈ l, (∃ a ∈ collect c l, a.msg = b.msg) ∨
      ((collect c l).length = c.maxRes ∧ ∀ a ∈ collect c l, before a b))

/-- What one candidate comes to in SEQ.DECBUF is what the unit commands DEM.DEMOD, BPD.DECODE,
ENC.XTR, CKS.VFY and PCK.UNPACK come to for it: the same message and confidence when it is accepted,
and otherwise one of the three flags says that it is rejected (47_sequencer.md rule R247; the spec's own
inference R255, "SEQ.DECBUF equals the unit sequence", for one candidate). -/
def Obligations.CandidateOutcomeByUnitCommands : Prop :=
  ∀ (s : State) (i : Nat), s.ready = true → s.isValid .spec = true → s.isValid .cand = true →
    i < s.ncand.toNat → s.cfg.maxIter ≠ 0#32 →
    ∃ t1 t2, exec (.demDemod i) s = .next t1 ∧ exec .bpdDecode t1 = .next t2 ∧
      (t2.conv = false → candidateOutcome Config.block s (s.candidate i) = none) ∧
      (t2.conv = true → ∃ t3 t4, exec .encXtr t2 = .next t3 ∧ exec .cksVfy t3 = .next t4 ∧
        (t4.crcOk = false → candidateOutcome Config.block s (s.candidate i) = none) ∧
        (t4.crcOk = true → ∃ t5, exec .pckUnpack t4 = .next t5 ∧
          (t5.malf = true → candidateOutcome Config.block s (s.candidate i) = none) ∧
          (t5.malf = false → candidateOutcome Config.block s (s.candidate i) =
            some ⟨t5.conf, s.cand.rd (4 * i + 2), s.cand.rd (4 * i), s.cand.rd (4 * i + 1),
              t5.message Config.block⟩)))

/-- SEQ.DECBUF changes neither the samples, nor their validity bit, nor a configuration register, and
issued a second time, with nothing in between and no abort, it leaves the same results. The spec's own
inference, R87: "issuing SEQ.DECBUF twice with no intervening host write and no abort leaves the same
NRES". -/
def Obligations.DecbufIsRestartable : Prop :=
  ∀ s : State, s.ready = true → s.isValid .samp = true → 1 ≤ s.cfg.nsamp.toNat →
    s.cfg.nsamp.toNat ≤ Config.block.maxSamples →
    ∃ t u, exec .seqDecbuf s = .next t ∧ exec .seqDecbuf t = .next u ∧ t.samp = s.samp ∧
      t.isValid .samp = true ∧ t.cfg = s.cfg ∧ t.fault = false ∧ u.fault = false ∧
      u.isValid .res = t.isValid .res ∧ u.nres = t.nres ∧
      ∀ i < t.nres.toNat * (8 + Config.block.msgWords), u.res.rd i = t.res.rd i

/-- The abort request (47_sequencer.md rule R248, 60_exceptions.md rule R282). First, the list A of the
running SEQ.DECBUF holds the outcomes of candidates 0 to CIDX−1: `progressOk` holds after reset and
every step keeps it. The request is tested at candidate boundaries only: every internal step of every
command but the one at a boundary does the same whether or not a request is pending. At a boundary it
ends the run: STATUS.ABORTED is set, the results are those of the candidates before CIDX, and the
command completes with outcome OK. A request that comes when the last candidate has begun, or in
COLLECT, or when the search finds no candidate, leaves STATUS.ABORTED = 0 and the results of all
candidates. That the end is reached within one step is log entry 3, what an internal step is log entry
14, and that PHASE is DEMOD at the boundary log entry 24. -/
def Obligations.AbortEndsAtCandidateBoundary : Prop :=
  State.reset.progressOk Config.block ∧
  (∀ s t : State, s.statusOk → s.countersOk Config.block → s.progressOk Config.block →
    step s = .next t → t.progressOk Config.block) ∧
  (∀ (c : Config) (i : Instr) (s : State) (b : Bool), i ≠ .sysSrst →
    ¬(i = .seqDecbuf ∧ s.phase = .demod) →
      tickOf c i (s.withAbortReq b) = (tickOf c i s).withAbortReq b) ∧
  (∀ s : State, s.statusOk → s.countersOk Config.block → s.progressOk Config.block →
    s.busy = true → s.run = some .seqDecbuf → s.quiet = true →
    (s.phase = .demod → s.abortReq = true →
      ∃ t, step s = .next t ∧ t.busy = false ∧ t.done = true ∧ t.aborted = true ∧
        t.lastErr = 0#8 ∧
        t.holdsResults Config.block (collect Config.block (s.outcomes Config.block s.cidx))) ∧
    ((s.phase.ofCandidate ∧ s.phase ≠ .demod ∧ s.cidx + 1 = s.ncand.toNat) ∨
        (s.phase = .collect ∧ s.cidx = s.ncand.toNat) →
      ∃ t, step s = .next t ∧ t.busy = false ∧ t.done = true ∧ t.aborted = false ∧
        t.lastErr = 0#8 ∧
        t.holdsResults Config.block
          (collect Config.block (s.outcomes Config.block s.ncand.toNat))) ∧
    (s.phase = .search → searchResult Config.block s = [] →
      ∃ t, step s = .next t ∧ t.busy = false ∧ t.done = true ∧ t.aborted = false ∧
        t.lastErr = 0#8 ∧ t.isValid .res = true ∧ t.nres = 0#32))

end Statements
end

