-- ==== Sys2Proof/Laws/Bpd.lean ====
section
/-!
SUPPORT. Belief propagation reads nothing of the message memory that it has not written: the outcome
does not depend on what the memory held before the initialisation (43_bp_decoder.md rules R173, R174).
-/

namespace Sys2Proof.Machine

/-- The check-to-variable messages cover the edges of the graph. -/
def BpMem.covered (c : Config) (b : BpMem) : Prop :=
  ∀ m < 83, ∀ n ∈ c.checkBits m, findCell n (b.c2v.getD m []) ≠ none

theorem findCell_map {l : List Nat} {f : Nat → Int} {j : Nat} (h : j ∈ l) :
    findCell j (l.map fun i => (i, f i)) = some (f j) := by
  induction l with
  | nil => simp at h
  | cons a l ih =>
    rw [List.map_cons, findCell]
    by_cases e : a = j
    · rw [if_pos e, e]
    · rw [if_neg e]
      exact ih (by simpa [Ne.symm e] using h)

/-- Row `i` of a table with a message for every index of `l i`. -/
theorem findCell_rows {N : Nat} {l : Nat → List Nat} {f : Nat → Nat → Int} {i j : Nat} (hi : i < N)
    (h : j ∈ l i) :
    findCell j (((List.range N).map fun i => (l i).map fun j => (j, f i j)).getD i []) =
      some (f i j) := by
  rw [List.getD_eq_getElem?_getD, List.getElem?_map, List.getElem?_range hi]
  exact findCell_map h

theorem mem_checkBits {c : Config} {m n : Nat} :
    n ∈ c.checkBits m ↔ n < 174 ∧ c.checkMatrix m n = true := by
  simp [Config.checkBits]

theorem mem_bitChecks {c : Config} {m n : Nat} :
    m ∈ c.bitChecks n ↔ m < 83 ∧ c.checkMatrix m n = true := by
  simp [Config.bitChecks]

theorem init_covered (c : Config) (b : BpMem) : (BpMem.init c b).covered c := by
  intro m hm n hn
  rw [BpMem.init, findCell_rows (f := fun _ _ => 0) hm hn]
  exact Option.some_ne_none _

theorem bpIterate_covered (c : Config) (llr : Nat → Int) (b : BpMem) :
    (bpIterate c llr b).covered c := by
  intro m hm n hn
  have := findCell_rows (f := fun m n => checkToVariable c (b.stepV2c c llr) m n) hm hn
  exact fun h => Option.some_ne_none _ (this.symm.trans h)

/-- Two covered memories with the same check-to-variable messages read the same on every edge. -/
theorem c2vAt_congr {c : Config} {b b' : BpMem} (hc : b.covered c) (h : b.c2v = b'.c2v) {m n : Nat}
    (hm : m ∈ c.bitChecks n) (hn : n < 174) : b.c2vAt m n = b'.c2vAt m n := by
  obtain ⟨h1, h2⟩ := mem_bitChecks.1 hm
  have := hc m h1 n (mem_checkBits.2 ⟨hn, h2⟩)
  rw [BpMem.c2vAt, BpMem.c2vAt, bpMessage, bpMessage, ← h]
  split
  · rfl
  · rename_i e; exact absurd e this

/-- One iteration of two such memories leaves the same messages and posteriors. -/
theorem bpIterate_congr {c : Config} {llr : Nat → Int} {b b' : BpMem} (hc : b.covered c)
    (h : b.c2v = b'.c2v) : bpIterate c llr b = { bpIterate c llr b' with back := b.back } := by
  have hv : (b.stepV2c c llr).v2c = (b'.stepV2c c llr).v2c := by
    simp only [BpMem.stepV2c]
    apply List.map_congr_left
    intro n hn
    rw [List.mem_range] at hn
    apply List.map_congr_left
    intro m _
    rw [variableToCheck, variableToCheck]
    congr 3
    apply List.map_congr_left
    intro m' hm'
    exact c2vAt_congr hc h (List.mem_of_mem_filter hm') hn
  have hva : ∀ m < 83, ∀ n ∈ c.checkBits m,
      (b.stepV2c c llr).v2cAt n m = (b'.stepV2c c llr).v2cAt n m := by
    intro m hm n hn
    obtain ⟨h1, h2⟩ := mem_checkBits.1 hn
    have e := findCell_rows (f := fun n m => variableToCheck c llr b n m) h1
      (mem_bitChecks.2 ⟨hm, h2⟩)
    have e' : findCell m ((b.stepV2c c llr).v2c.getD n []) = some (variableToCheck c llr b n m) := e
    rw [BpMem.v2cAt, BpMem.v2cAt, bpMessage, bpMessage, ← hv, e']
  have hcc : ((b.stepV2c c llr).stepC2v c).c2v = ((b'.stepV2c c llr).stepC2v c).c2v := by
    simp only [BpMem.stepC2v]
    apply List.map_congr_left
    intro m hm
    rw [List.mem_range] at hm
    apply List.map_congr_left
    intro n _
    have : (((c.checkBits m).filter fun n' => n' != n).map fun n' => (b.stepV2c c llr).v2cAt n' m) =
        ((c.checkBits m).filter fun n' => n' != n).map fun n' => (b'.stepV2c c llr).v2cAt n' m :=
      List.map_congr_left fun n' hn' => hva m hm n' (List.mem_of_mem_filter hn')
    simp only [checkToVariable, this]
  have hpp : (bpIterate c llr b).post = (bpIterate c llr b').post := by
    simp only [bpIterate, BpMem.stepPost]
    apply List.map_congr_left
    intro n hn
    rw [List.mem_range] at hn
    rw [posterior, posterior]
    congr 2
    apply List.map_congr_left
    intro m hm
    exact c2vAt_congr (bpIterate_covered c llr b) hcc hm hn
  exact BpMem.mk.injEq .. |>.mpr ⟨rfl, hcc, hv, hpp⟩

/-- The hard decision reads the posteriors alone. -/
theorem hardDecision_congr {c : Config} {llr : Nat → Int} {b : BpMem} {d : Nat} :
    hardDecision { bpIterate c llr b with back := d } = hardDecision (bpIterate c llr b) := by
  apply ext_msb
  intro n hn
  simp only [hardDecision, getMsbD_bitsOfFn]
  congr 2
  have : n < (bpIterate c llr b).post.length := by
    simpa [bpIterate, BpMem.stepPost] using hn
  simp [BpMem.postAt, List.getElem?_eq_getElem this]

/-- `bp_decode` from two such memories has the same outcome. -/
theorem bpLoop_congr {c : Config} {llr : Nat → Int} (fuel t : Nat) {b b' : BpMem}
    (hc : b.covered c) (h : b.c2v = b'.c2v) : bpLoop c llr fuel t b = bpLoop c llr fuel t b' := by
  induction fuel generalizing t b b' with
  | zero => rfl
  | succ fuel ih =>
    have e := bpIterate_congr (llr := llr) hc h
    have hh : hardDecision (bpIterate c llr b) = hardDecision (bpIterate c llr b') := by
      rw [e, hardDecision_congr]
    have hl := ih (t + 1) (bpIterate_covered c llr b) (b' := bpIterate c llr b') (by rw [e])
    simp only [bpLoop, hh, hl]

/-- R173: no value of the memory from before the initialisation is used. -/
theorem bpLoop_init (c : Config) (llr : Nat → Int) (maxIter : Nat) (b : BpMem) :
    bpLoop c llr maxIter 0 (BpMem.init c b) = bpDecode c llr maxIter :=
  bpLoop_congr maxIter 0 (init_covered c b) rfl

end Sys2Proof.Machine
end

