-- ==== Sys2Proof/Laws/Memory.lean ====
section
/-!
SUPPORT. The memories: a read after a write, the contents a command stores, and the canonical form,
which every memory operation keeps.
-/

namespace Sys2Proof.Machine

/-! ### Lists of cells -/

theorem findCell_putCell_ne {α : Type} {i j : Nat} (h : j ≠ i) (v : Option α)
    (l : List (Nat × α)) : findCell j (putCell i v l) = findCell j l := by
  induction l with
  | nil => cases v <;> simp [putCell, findCell, h.symm]
  | cons c rest ih =>
    obtain ⟨k, u⟩ := c
    simp only [putCell]
    split
    · simp only [findCell, ih]
    · split
      · rename_i hk
        subst hk
        cases v <;> simp [findCell, h.symm]
      · cases v <;> simp [findCell, h.symm]

theorem findCell_putCell_some {α : Type} (i : Nat) (v : α) (l : List (Nat × α)) :
    findCell i (putCell i (some v) l) = some v := by
  induction l with
  | nil => simp [putCell, findCell]
  | cons c rest ih =>
    obtain ⟨k, u⟩ := c
    simp only [putCell]
    split
    · rename_i hk
      simp [findCell, ih, Nat.ne_of_lt hk]
    · split <;> simp [findCell]

theorem findCell_eq_none {α : Type} {i : Nat} {l : List (Nat × α)} (h : ∀ c ∈ l, i < c.1) :
    findCell i l = none := by
  induction l with
  | nil => rfl
  | cons c rest ih =>
    obtain ⟨k, u⟩ := c
    have hk : i < k := h (k, u) (by simp)
    simp only [findCell, if_neg (Nat.ne_of_gt hk)]
    exact ih fun c hc => h c (by simp [hc])

theorem findCell_putCell_none {α : Type} (i : Nat) (l : List (Nat × α))
    (h : l.Pairwise fun a b => a.1 < b.1) : findCell i (putCell i none l) = none := by
  induction l with
  | nil => rfl
  | cons c rest ih =>
    obtain ⟨k, u⟩ := c
    rw [List.pairwise_cons] at h
    simp only [putCell]
    split
    · rename_i hk
      simp [findCell, ih h.2, Nat.ne_of_lt hk]
    · split
      · rename_i hk
        subst hk
        exact findCell_eq_none h.1
      · rename_i h1 h2
        have : i < k := by omega
        simp only [Option.toList_none, List.map_nil, List.nil_append]
        apply findCell_eq_none
        intro c hc
        rcases List.mem_cons.1 hc with rfl | hc
        · exact this
        · exact lt_trans this (h.1 c hc)

theorem mem_putCell {α : Type} {i : Nat} {v : Option α} {l : List (Nat × α)} {c : Nat × α}
    (h : c ∈ putCell i v l) : c ∈ l ∨ (c.1 = i ∧ v = some c.2) := by
  induction l with
  | nil =>
    simp only [putCell, List.mem_map, Option.mem_toList] at h
    obtain ⟨x, hx, rfl⟩ := h
    exact .inr ⟨rfl, hx⟩
  | cons d rest ih =>
    obtain ⟨k, u⟩ := d
    simp only [putCell] at h
    split at h
    · rcases List.mem_cons.1 h with rfl | h
      · exact .inl (by simp)
      · rcases ih h with h | h
        · exact .inl (by simp [h])
        · exact .inr h
    · split at h
      · simp only [List.mem_append, List.mem_map, Option.mem_toList] at h
        rcases h with ⟨x, hx, rfl⟩ | h
        · exact .inr ⟨rfl, hx⟩
        · exact .inl (by simp [h])
      · simp only [List.mem_append, List.mem_map, Option.mem_toList] at h
        rcases h with ⟨x, hx, rfl⟩ | h
        · exact .inr ⟨rfl, hx⟩
        · exact .inl h

theorem putCell_sorted {α : Type} (i : Nat) (v : Option α) {l : List (Nat × α)}
    (h : l.Pairwise fun a b => a.1 < b.1) : (putCell i v l).Pairwise fun a b => a.1 < b.1 := by
  induction l with
  | nil => cases v <;> simp [putCell]
  | cons c rest ih =>
    obtain ⟨k, u⟩ := c
    rw [List.pairwise_cons] at h
    simp only [putCell]
    split
    · rename_i hk
      rw [List.pairwise_cons]
      refine ⟨fun d hd => ?_, ih h.2⟩
      rcases mem_putCell hd with hd | ⟨hd, -⟩
      · exact h.1 d hd
      · rw [hd]; exact hk
    · split
      · rename_i hk
        subst hk
        cases v with
        | none => simpa using h.2
        | some x => simpa using h
      · rename_i h1 h2
        have hi : i < k := by omega
        cases v with
        | none => simpa using h
        | some x =>
          simp only [Option.toList_some, List.map_cons, List.map_nil, List.cons_append,
            List.nil_append]
          rw [List.pairwise_cons]
          refine ⟨fun d hd => ?_, by rw [List.pairwise_cons]; exact h⟩
          rcases List.mem_cons.1 hd with rfl | hd
          · exact hi
          · exact lt_trans hi (h.1 d hd)

/-! ### The canonical form -/

theorem Mem.wf_iff {w : Nat} (m : Mem (BitVec w)) :
    m.wf = true ↔ (m.cells.Pairwise fun a b => a.1 < b.1) ∧
      (m.back = none → ∀ c ∈ m.cells, c.2 ≠ 0#w) := by
  unfold Mem.wf
  cases h : m.back <;> simp

@[simp] theorem Mem.wf_any (w d : Nat) : (Mem.any (BitVec w) d).wf = true := by
  simp [Mem.wf_iff, Mem.any]

theorem Mem.wf_wr {w : Nat} {m : Mem (BitVec w)} (i : Nat) (v : BitVec w) (h : m.wf = true) :
    (m.wr i v).wf = true := by
  rw [Mem.wf_iff] at h ⊢
  refine ⟨putCell_sorted _ _ h.1, fun hb c hc => ?_⟩
  have hb : m.back = none := hb
  rcases mem_putCell hc with hc | ⟨-, hc⟩
  · exact h.2 hb c hc
  · split at hc
    · simp at hc
    · rename_i hv
      simp only [Option.some.injEq] at hc
      rw [← hc]
      exact fun h0 => hv ⟨hb, h0⟩

theorem range_sorted (n : Nat) : (List.range n).Pairwise fun a b => a < b :=
  List.pairwise_lt_range

@[simp] theorem Mem.wf_ofFn {w : Nat} (n : Nat) (f : Nat → BitVec w) :
    (Mem.ofFn n f).wf = true := by
  rw [Mem.wf_iff]
  constructor
  · refine List.Pairwise.filterMap _ ?_ (range_sorted n)
    intro a b hab c hc d hd
    split at hc
    · simp at hc
    · split at hd
      · simp at hd
      · cases hc; cases hd; exact hab
  · intro _ c hc
    simp only [Mem.ofFn, List.mem_filterMap] at hc
    obtain ⟨i, -, hi⟩ := hc
    split at hi
    · simp at hi
    · cases hi; assumption

@[simp] theorem Mem.wf_prefixOf {w : Nat} (d n : Nat) (f : Nat → BitVec w) :
    (Mem.prefixOf d n f).wf = true := by
  rw [Mem.wf_iff]
  refine ⟨?_, fun h => by simp [Mem.prefixOf] at h⟩
  exact List.Pairwise.map _ (fun _ _ h => h) (range_sorted n)

/-! ### Reading -/

/-- A write to another index leaves an element alone. -/
theorem Mem.rd_wr_ne {w : Nat} (m : Mem (BitVec w)) {i j : Nat} (v : BitVec w) (h : j ≠ i) :
    (m.wr i v).rd j = m.rd j := by
  simp only [Mem.rd, Mem.wr, findCell_putCell_ne h]

/-- An element reads as the value last written to it. -/
theorem Mem.rd_wr_self {w : Nat} {m : Mem (BitVec w)} (i : Nat) (v : BitVec w)
    (h : m.wf = true) : (m.wr i v).rd i = v := by
  rw [Mem.wf_iff] at h
  simp only [Mem.rd, Mem.wr]
  by_cases hv : m.back = none ∧ v = 0#w
  · rw [if_pos hv, findCell_putCell_none i _ h.1]
    simp [hv.1, hv.2]
  · rw [if_neg hv, findCell_putCell_some]

@[simp] theorem Mem.rd_any (w d i : Nat) : (Mem.any (BitVec w) d).rd i = Config.freeBits w d i :=
  rfl

theorem findCell_filterMap {α : Type} (f : Nat → Option α) (l : List Nat) (i : Nat)
    (h : l.Nodup) :
    findCell i (l.filterMap fun k => (f k).map fun v => (k, v)) = if i ∈ l then f i else none := by
  induction l with
  | nil => rfl
  | cons k rest ih =>
    rw [List.nodup_cons] at h
    rw [List.filterMap_cons]
    cases hf : f k with
    | none =>
      simp only [Option.map_none, ih h.2, List.mem_cons]
      by_cases hk : i = k
      · subst hk; simp [h.1, hf]
      · simp [hk]
    | some v =>
      simp only [Option.map_some, findCell, ih h.2, List.mem_cons]
      by_cases hk : k = i
      · subst hk; simp [hf]
      · simp [hk, Ne.symm hk]

/-- What a buffer of `n` written elements reads as. -/
theorem Mem.rd_ofFn {w : Nat} (n : Nat) (f : Nat → BitVec w) (i : Nat) :
    (Mem.ofFn n f).rd i = if i < n then f i else 0#w := by
  have e : (Mem.ofFn n f).cells = (List.range n).filterMap fun k =>
      (if f k = 0#w then none else some (f k)).map fun v => (k, v) := by
    simp only [Mem.ofFn]
    congr 1
    funext k
    by_cases h : f k = 0#w <;> simp [h]
  simp only [Mem.rd, e, findCell_filterMap (fun k => if f k = 0#w then none else some (f k)) _ i List.nodup_range, List.mem_range]
  by_cases hi : i < n
  · by_cases h0 : f i = 0#w <;> simp [hi, h0, Mem.ofFn]
  · simp [hi, Mem.ofFn]

/-- What a memory reads as whose first `n` elements were written. -/
theorem Mem.rd_prefixOf {w : Nat} (d n : Nat) (f : Nat → BitVec w) (i : Nat) :
    (Mem.prefixOf d n f).rd i = if i < n then f i else Config.freeBits w d i := by
  have e : (Mem.prefixOf d n f).cells = (List.range n).filterMap fun k =>
      (some (f k)).map fun v => (k, v) := by
    simp [Mem.prefixOf]
  simp only [Mem.rd, e, findCell_filterMap (fun k => some (f k)) _ i List.nodup_range, List.mem_range]
  by_cases hi : i < n <;> simp [hi, Mem.prefixOf]

end Sys2Proof.Machine
end

