-- ==== Sys2Proof/Laws/State.lean ====
section
/-!
SUPPORT. What each update of the state leaves in each field: one lemma a field, so that no proof has
to unfold a record update.
-/

namespace Sys2Proof.Machine

variable (s : State)

/-! `withCrcOk` writes FLAGS.CRC_OK. -/

@[simp] theorem State.withCrcOk_msg (b : Bool) : (s.withCrcOk b).msg = s.msg := rfl
@[simp] theorem State.withCrcOk_pay (b : Bool) : (s.withCrcOk b).pay = s.pay := rfl
@[simp] theorem State.withCrcOk_crc (b : Bool) : (s.withCrcOk b).crc = s.crc := rfl
@[simp] theorem State.withCrcOk_cw (b : Bool) : (s.withCrcOk b).cw = s.cw := rfl
@[simp] theorem State.withCrcOk_sym (b : Bool) : (s.withCrcOk b).sym = s.sym := rfl
@[simp] theorem State.withCrcOk_llr (b : Bool) : (s.withCrcOk b).llr = s.llr := rfl
@[simp] theorem State.withCrcOk_samp (b : Bool) : (s.withCrcOk b).samp = s.samp := rfl
@[simp] theorem State.withCrcOk_wave (b : Bool) : (s.withCrcOk b).wave = s.wave := rfl
@[simp] theorem State.withCrcOk_spec (b : Bool) : (s.withCrcOk b).spec = s.spec := rfl
@[simp] theorem State.withCrcOk_cand (b : Bool) : (s.withCrcOk b).cand = s.cand := rfl
@[simp] theorem State.withCrcOk_res (b : Bool) : (s.withCrcOk b).res = s.res := rfl
@[simp] theorem State.withCrcOk_bp (b : Bool) : (s.withCrcOk b).bp = s.bp := rfl
@[simp] theorem State.withCrcOk_valid (b : Bool) : (s.withCrcOk b).valid = s.valid := rfl
@[simp] theorem State.withCrcOk_busy (b : Bool) : (s.withCrcOk b).busy = s.busy := rfl
@[simp] theorem State.withCrcOk_done (b : Bool) : (s.withCrcOk b).done = s.done := rfl
@[simp] theorem State.withCrcOk_fault (b : Bool) : (s.withCrcOk b).fault = s.fault := rfl
@[simp] theorem State.withCrcOk_aborted (b : Bool) : (s.withCrcOk b).aborted = s.aborted := rfl
@[simp] theorem State.withCrcOk_crcOk (b : Bool) : (s.withCrcOk b).crcOk = b := rfl
@[simp] theorem State.withCrcOk_conv (b : Bool) : (s.withCrcOk b).conv = s.conv := rfl
@[simp] theorem State.withCrcOk_malf (b : Bool) : (s.withCrcOk b).malf = s.malf := rfl
@[simp] theorem State.withCrcOk_lastErr (b : Bool) : (s.withCrcOk b).lastErr = s.lastErr := rfl
@[simp] theorem State.withCrcOk_faultInfo (b : Bool) :
    (s.withCrcOk b).faultInfo = s.faultInfo := rfl
@[simp] theorem State.withCrcOk_iter (b : Bool) : (s.withCrcOk b).iter = s.iter := rfl
@[simp] theorem State.withCrcOk_conf (b : Bool) : (s.withCrcOk b).conf = s.conf := rfl
@[simp] theorem State.withCrcOk_ncand (b : Bool) : (s.withCrcOk b).ncand = s.ncand := rfl
@[simp] theorem State.withCrcOk_nres (b : Bool) : (s.withCrcOk b).nres = s.nres := rfl
@[simp] theorem State.withCrcOk_nt (b : Bool) : (s.withCrcOk b).nt = s.nt := rfl
@[simp] theorem State.withCrcOk_nwave (b : Bool) : (s.withCrcOk b).nwave = s.nwave := rfl
@[simp] theorem State.withCrcOk_cfg (b : Bool) : (s.withCrcOk b).cfg = s.cfg := rfl
@[simp] theorem State.withCrcOk_phase (b : Bool) : (s.withCrcOk b).phase = s.phase := rfl
@[simp] theorem State.withCrcOk_cidx (b : Bool) : (s.withCrcOk b).cidx = s.cidx := rfl
@[simp] theorem State.withCrcOk_iterT (b : Bool) : (s.withCrcOk b).iterT = s.iterT := rfl
@[simp] theorem State.withCrcOk_abortReq (b : Bool) : (s.withCrcOk b).abortReq = s.abortReq := rfl
@[simp] theorem State.withCrcOk_run (b : Bool) : (s.withCrcOk b).run = s.run := rfl
@[simp] theorem State.withCrcOk_acc (b : Bool) : (s.withCrcOk b).acc = s.acc := rfl
@[simp] theorem State.withCrcOk_rdata (b : Bool) : (s.withCrcOk b).rdata = s.rdata := rfl
@[simp] theorem State.withCrcOk_ticks (b : Bool) : (s.withCrcOk b).ticks = s.ticks := rfl
@[simp] theorem State.withCrcOk_port (b : Bool) : (s.withCrcOk b).port = s.port := rfl
@[simp] theorem State.withCrcOk_draws (b : Bool) : (s.withCrcOk b).draws = s.draws := rfl

/-! `withConv` writes FLAGS.CONV. -/

@[simp] theorem State.withConv_msg (b : Bool) : (s.withConv b).msg = s.msg := rfl
@[simp] theorem State.withConv_pay (b : Bool) : (s.withConv b).pay = s.pay := rfl
@[simp] theorem State.withConv_crc (b : Bool) : (s.withConv b).crc = s.crc := rfl
@[simp] theorem State.withConv_cw (b : Bool) : (s.withConv b).cw = s.cw := rfl
@[simp] theorem State.withConv_sym (b : Bool) : (s.withConv b).sym = s.sym := rfl
@[simp] theorem State.withConv_llr (b : Bool) : (s.withConv b).llr = s.llr := rfl
@[simp] theorem State.withConv_samp (b : Bool) : (s.withConv b).samp = s.samp := rfl
@[simp] theorem State.withConv_wave (b : Bool) : (s.withConv b).wave = s.wave := rfl
@[simp] theorem State.withConv_spec (b : Bool) : (s.withConv b).spec = s.spec := rfl
@[simp] theorem State.withConv_cand (b : Bool) : (s.withConv b).cand = s.cand := rfl
@[simp] theorem State.withConv_res (b : Bool) : (s.withConv b).res = s.res := rfl
@[simp] theorem State.withConv_bp (b : Bool) : (s.withConv b).bp = s.bp := rfl
@[simp] theorem State.withConv_valid (b : Bool) : (s.withConv b).valid = s.valid := rfl
@[simp] theorem State.withConv_busy (b : Bool) : (s.withConv b).busy = s.busy := rfl
@[simp] theorem State.withConv_done (b : Bool) : (s.withConv b).done = s.done := rfl
@[simp] theorem State.withConv_fault (b : Bool) : (s.withConv b).fault = s.fault := rfl
@[simp] theorem State.withConv_aborted (b : Bool) : (s.withConv b).aborted = s.aborted := rfl
@[simp] theorem State.withConv_crcOk (b : Bool) : (s.withConv b).crcOk = s.crcOk := rfl
@[simp] theorem State.withConv_conv (b : Bool) : (s.withConv b).conv = b := rfl
@[simp] theorem State.withConv_malf (b : Bool) : (s.withConv b).malf = s.malf := rfl
@[simp] theorem State.withConv_lastErr (b : Bool) : (s.withConv b).lastErr = s.lastErr := rfl
@[simp] theorem State.withConv_faultInfo (b : Bool) : (s.withConv b).faultInfo = s.faultInfo := rfl
@[simp] theorem State.withConv_iter (b : Bool) : (s.withConv b).iter = s.iter := rfl
@[simp] theorem State.withConv_conf (b : Bool) : (s.withConv b).conf = s.conf := rfl
@[simp] theorem State.withConv_ncand (b : Bool) : (s.withConv b).ncand = s.ncand := rfl
@[simp] theorem State.withConv_nres (b : Bool) : (s.withConv b).nres = s.nres := rfl
@[simp] theorem State.withConv_nt (b : Bool) : (s.withConv b).nt = s.nt := rfl
@[simp] theorem State.withConv_nwave (b : Bool) : (s.withConv b).nwave = s.nwave := rfl
@[simp] theorem State.withConv_cfg (b : Bool) : (s.withConv b).cfg = s.cfg := rfl
@[simp] theorem State.withConv_phase (b : Bool) : (s.withConv b).phase = s.phase := rfl
@[simp] theorem State.withConv_cidx (b : Bool) : (s.withConv b).cidx = s.cidx := rfl
@[simp] theorem State.withConv_iterT (b : Bool) : (s.withConv b).iterT = s.iterT := rfl
@[simp] theorem State.withConv_abortReq (b : Bool) : (s.withConv b).abortReq = s.abortReq := rfl
@[simp] theorem State.withConv_run (b : Bool) : (s.withConv b).run = s.run := rfl
@[simp] theorem State.withConv_acc (b : Bool) : (s.withConv b).acc = s.acc := rfl
@[simp] theorem State.withConv_rdata (b : Bool) : (s.withConv b).rdata = s.rdata := rfl
@[simp] theorem State.withConv_ticks (b : Bool) : (s.withConv b).ticks = s.ticks := rfl
@[simp] theorem State.withConv_port (b : Bool) : (s.withConv b).port = s.port := rfl
@[simp] theorem State.withConv_draws (b : Bool) : (s.withConv b).draws = s.draws := rfl

/-! `withMalf` writes FLAGS.MALF. -/

@[simp] theorem State.withMalf_msg (b : Bool) : (s.withMalf b).msg = s.msg := rfl
@[simp] theorem State.withMalf_pay (b : Bool) : (s.withMalf b).pay = s.pay := rfl
@[simp] theorem State.withMalf_crc (b : Bool) : (s.withMalf b).crc = s.crc := rfl
@[simp] theorem State.withMalf_cw (b : Bool) : (s.withMalf b).cw = s.cw := rfl
@[simp] theorem State.withMalf_sym (b : Bool) : (s.withMalf b).sym = s.sym := rfl
@[simp] theorem State.withMalf_llr (b : Bool) : (s.withMalf b).llr = s.llr := rfl
@[simp] theorem State.withMalf_samp (b : Bool) : (s.withMalf b).samp = s.samp := rfl
@[simp] theorem State.withMalf_wave (b : Bool) : (s.withMalf b).wave = s.wave := rfl
@[simp] theorem State.withMalf_spec (b : Bool) : (s.withMalf b).spec = s.spec := rfl
@[simp] theorem State.withMalf_cand (b : Bool) : (s.withMalf b).cand = s.cand := rfl
@[simp] theorem State.withMalf_res (b : Bool) : (s.withMalf b).res = s.res := rfl
@[simp] theorem State.withMalf_bp (b : Bool) : (s.withMalf b).bp = s.bp := rfl
@[simp] theorem State.withMalf_valid (b : Bool) : (s.withMalf b).valid = s.valid := rfl
@[simp] theorem State.withMalf_busy (b : Bool) : (s.withMalf b).busy = s.busy := rfl
@[simp] theorem State.withMalf_done (b : Bool) : (s.withMalf b).done = s.done := rfl
@[simp] theorem State.withMalf_fault (b : Bool) : (s.withMalf b).fault = s.fault := rfl
@[simp] theorem State.withMalf_aborted (b : Bool) : (s.withMalf b).aborted = s.aborted := rfl
@[simp] theorem State.withMalf_crcOk (b : Bool) : (s.withMalf b).crcOk = s.crcOk := rfl
@[simp] theorem State.withMalf_conv (b : Bool) : (s.withMalf b).conv = s.conv := rfl
@[simp] theorem State.withMalf_malf (b : Bool) : (s.withMalf b).malf = b := rfl
@[simp] theorem State.withMalf_lastErr (b : Bool) : (s.withMalf b).lastErr = s.lastErr := rfl
@[simp] theorem State.withMalf_faultInfo (b : Bool) : (s.withMalf b).faultInfo = s.faultInfo := rfl
@[simp] theorem State.withMalf_iter (b : Bool) : (s.withMalf b).iter = s.iter := rfl
@[simp] theorem State.withMalf_conf (b : Bool) : (s.withMalf b).conf = s.conf := rfl
@[simp] theorem State.withMalf_ncand (b : Bool) : (s.withMalf b).ncand = s.ncand := rfl
@[simp] theorem State.withMalf_nres (b : Bool) : (s.withMalf b).nres = s.nres := rfl
@[simp] theorem State.withMalf_nt (b : Bool) : (s.withMalf b).nt = s.nt := rfl
@[simp] theorem State.withMalf_nwave (b : Bool) : (s.withMalf b).nwave = s.nwave := rfl
@[simp] theorem State.withMalf_cfg (b : Bool) : (s.withMalf b).cfg = s.cfg := rfl
@[simp] theorem State.withMalf_phase (b : Bool) : (s.withMalf b).phase = s.phase := rfl
@[simp] theorem State.withMalf_cidx (b : Bool) : (s.withMalf b).cidx = s.cidx := rfl
@[simp] theorem State.withMalf_iterT (b : Bool) : (s.withMalf b).iterT = s.iterT := rfl
@[simp] theorem State.withMalf_abortReq (b : Bool) : (s.withMalf b).abortReq = s.abortReq := rfl
@[simp] theorem State.withMalf_run (b : Bool) : (s.withMalf b).run = s.run := rfl
@[simp] theorem State.withMalf_acc (b : Bool) : (s.withMalf b).acc = s.acc := rfl
@[simp] theorem State.withMalf_rdata (b : Bool) : (s.withMalf b).rdata = s.rdata := rfl
@[simp] theorem State.withMalf_ticks (b : Bool) : (s.withMalf b).ticks = s.ticks := rfl
@[simp] theorem State.withMalf_port (b : Bool) : (s.withMalf b).port = s.port := rfl
@[simp] theorem State.withMalf_draws (b : Bool) : (s.withMalf b).draws = s.draws := rfl

/-! `withAbortReq` writes ABORT_REQ. -/

@[simp] theorem State.withAbortReq_msg (b : Bool) : (s.withAbortReq b).msg = s.msg := rfl
@[simp] theorem State.withAbortReq_pay (b : Bool) : (s.withAbortReq b).pay = s.pay := rfl
@[simp] theorem State.withAbortReq_crc (b : Bool) : (s.withAbortReq b).crc = s.crc := rfl
@[simp] theorem State.withAbortReq_cw (b : Bool) : (s.withAbortReq b).cw = s.cw := rfl
@[simp] theorem State.withAbortReq_sym (b : Bool) : (s.withAbortReq b).sym = s.sym := rfl
@[simp] theorem State.withAbortReq_llr (b : Bool) : (s.withAbortReq b).llr = s.llr := rfl
@[simp] theorem State.withAbortReq_samp (b : Bool) : (s.withAbortReq b).samp = s.samp := rfl
@[simp] theorem State.withAbortReq_wave (b : Bool) : (s.withAbortReq b).wave = s.wave := rfl
@[simp] theorem State.withAbortReq_spec (b : Bool) : (s.withAbortReq b).spec = s.spec := rfl
@[simp] theorem State.withAbortReq_cand (b : Bool) : (s.withAbortReq b).cand = s.cand := rfl
@[simp] theorem State.withAbortReq_res (b : Bool) : (s.withAbortReq b).res = s.res := rfl
@[simp] theorem State.withAbortReq_bp (b : Bool) : (s.withAbortReq b).bp = s.bp := rfl
@[simp] theorem State.withAbortReq_valid (b : Bool) : (s.withAbortReq b).valid = s.valid := rfl
@[simp] theorem State.withAbortReq_busy (b : Bool) : (s.withAbortReq b).busy = s.busy := rfl
@[simp] theorem State.withAbortReq_done (b : Bool) : (s.withAbortReq b).done = s.done := rfl
@[simp] theorem State.withAbortReq_fault (b : Bool) : (s.withAbortReq b).fault = s.fault := rfl
@[simp] theorem State.withAbortReq_aborted (b : Bool) :
    (s.withAbortReq b).aborted = s.aborted := rfl
@[simp] theorem State.withAbortReq_crcOk (b : Bool) : (s.withAbortReq b).crcOk = s.crcOk := rfl
@[simp] theorem State.withAbortReq_conv (b : Bool) : (s.withAbortReq b).conv = s.conv := rfl
@[simp] theorem State.withAbortReq_malf (b : Bool) : (s.withAbortReq b).malf = s.malf := rfl
@[simp] theorem State.withAbortReq_lastErr (b : Bool) :
    (s.withAbortReq b).lastErr = s.lastErr := rfl
@[simp] theorem State.withAbortReq_faultInfo (b : Bool) :
    (s.withAbortReq b).faultInfo = s.faultInfo := rfl
@[simp] theorem State.withAbortReq_iter (b : Bool) : (s.withAbortReq b).iter = s.iter := rfl
@[simp] theorem State.withAbortReq_conf (b : Bool) : (s.withAbortReq b).conf = s.conf := rfl
@[simp] theorem State.withAbortReq_ncand (b : Bool) : (s.withAbortReq b).ncand = s.ncand := rfl
@[simp] theorem State.withAbortReq_nres (b : Bool) : (s.withAbortReq b).nres = s.nres := rfl
@[simp] theorem State.withAbortReq_nt (b : Bool) : (s.withAbortReq b).nt = s.nt := rfl
@[simp] theorem State.withAbortReq_nwave (b : Bool) : (s.withAbortReq b).nwave = s.nwave := rfl
@[simp] theorem State.withAbortReq_cfg (b : Bool) : (s.withAbortReq b).cfg = s.cfg := rfl
@[simp] theorem State.withAbortReq_phase (b : Bool) : (s.withAbortReq b).phase = s.phase := rfl
@[simp] theorem State.withAbortReq_cidx (b : Bool) : (s.withAbortReq b).cidx = s.cidx := rfl
@[simp] theorem State.withAbortReq_iterT (b : Bool) : (s.withAbortReq b).iterT = s.iterT := rfl
@[simp] theorem State.withAbortReq_abortReq (b : Bool) : (s.withAbortReq b).abortReq = b := rfl
@[simp] theorem State.withAbortReq_run (b : Bool) : (s.withAbortReq b).run = s.run := rfl
@[simp] theorem State.withAbortReq_acc (b : Bool) : (s.withAbortReq b).acc = s.acc := rfl
@[simp] theorem State.withAbortReq_rdata (b : Bool) : (s.withAbortReq b).rdata = s.rdata := rfl
@[simp] theorem State.withAbortReq_ticks (b : Bool) : (s.withAbortReq b).ticks = s.ticks := rfl
@[simp] theorem State.withAbortReq_port (b : Bool) : (s.withAbortReq b).port = s.port := rfl
@[simp] theorem State.withAbortReq_draws (b : Bool) : (s.withAbortReq b).draws = s.draws := rfl

/-! `clearFlags` writes FLAGS, ITER and CONF. -/

@[simp] theorem State.clearFlags_msg : s.clearFlags.msg = s.msg := rfl
@[simp] theorem State.clearFlags_pay : s.clearFlags.pay = s.pay := rfl
@[simp] theorem State.clearFlags_crc : s.clearFlags.crc = s.crc := rfl
@[simp] theorem State.clearFlags_cw : s.clearFlags.cw = s.cw := rfl
@[simp] theorem State.clearFlags_sym : s.clearFlags.sym = s.sym := rfl
@[simp] theorem State.clearFlags_llr : s.clearFlags.llr = s.llr := rfl
@[simp] theorem State.clearFlags_samp : s.clearFlags.samp = s.samp := rfl
@[simp] theorem State.clearFlags_wave : s.clearFlags.wave = s.wave := rfl
@[simp] theorem State.clearFlags_spec : s.clearFlags.spec = s.spec := rfl
@[simp] theorem State.clearFlags_cand : s.clearFlags.cand = s.cand := rfl
@[simp] theorem State.clearFlags_res : s.clearFlags.res = s.res := rfl
@[simp] theorem State.clearFlags_bp : s.clearFlags.bp = s.bp := rfl
@[simp] theorem State.clearFlags_valid : s.clearFlags.valid = s.valid := rfl
@[simp] theorem State.clearFlags_busy : s.clearFlags.busy = s.busy := rfl
@[simp] theorem State.clearFlags_done : s.clearFlags.done = s.done := rfl
@[simp] theorem State.clearFlags_fault : s.clearFlags.fault = s.fault := rfl
@[simp] theorem State.clearFlags_aborted : s.clearFlags.aborted = s.aborted := rfl
@[simp] theorem State.clearFlags_crcOk : s.clearFlags.crcOk = false := rfl
@[simp] theorem State.clearFlags_conv : s.clearFlags.conv = false := rfl
@[simp] theorem State.clearFlags_malf : s.clearFlags.malf = false := rfl
@[simp] theorem State.clearFlags_lastErr : s.clearFlags.lastErr = s.lastErr := rfl
@[simp] theorem State.clearFlags_faultInfo : s.clearFlags.faultInfo = s.faultInfo := rfl
@[simp] theorem State.clearFlags_iter : s.clearFlags.iter = 0#32 := rfl
@[simp] theorem State.clearFlags_conf : s.clearFlags.conf = 0#32 := rfl
@[simp] theorem State.clearFlags_ncand : s.clearFlags.ncand = s.ncand := rfl
@[simp] theorem State.clearFlags_nres : s.clearFlags.nres = s.nres := rfl
@[simp] theorem State.clearFlags_nt : s.clearFlags.nt = s.nt := rfl
@[simp] theorem State.clearFlags_nwave : s.clearFlags.nwave = s.nwave := rfl
@[simp] theorem State.clearFlags_cfg : s.clearFlags.cfg = s.cfg := rfl
@[simp] theorem State.clearFlags_phase : s.clearFlags.phase = s.phase := rfl
@[simp] theorem State.clearFlags_cidx : s.clearFlags.cidx = s.cidx := rfl
@[simp] theorem State.clearFlags_iterT : s.clearFlags.iterT = s.iterT := rfl
@[simp] theorem State.clearFlags_abortReq : s.clearFlags.abortReq = s.abortReq := rfl
@[simp] theorem State.clearFlags_run : s.clearFlags.run = s.run := rfl
@[simp] theorem State.clearFlags_acc : s.clearFlags.acc = s.acc := rfl
@[simp] theorem State.clearFlags_rdata : s.clearFlags.rdata = s.rdata := rfl
@[simp] theorem State.clearFlags_ticks : s.clearFlags.ticks = s.ticks := rfl
@[simp] theorem State.clearFlags_port : s.clearFlags.port = s.port := rfl
@[simp] theorem State.clearFlags_draws : s.clearFlags.draws = s.draws := rfl

/-! `setValid` writes one bit of VALID. -/

@[simp] theorem State.setValid_msg (b : Space) (v : Bool) : (s.setValid b v).msg = s.msg := rfl
@[simp] theorem State.setValid_pay (b : Space) (v : Bool) : (s.setValid b v).pay = s.pay := rfl
@[simp] theorem State.setValid_crc (b : Space) (v : Bool) : (s.setValid b v).crc = s.crc := rfl
@[simp] theorem State.setValid_cw (b : Space) (v : Bool) : (s.setValid b v).cw = s.cw := rfl
@[simp] theorem State.setValid_sym (b : Space) (v : Bool) : (s.setValid b v).sym = s.sym := rfl
@[simp] theorem State.setValid_llr (b : Space) (v : Bool) : (s.setValid b v).llr = s.llr := rfl
@[simp] theorem State.setValid_samp (b : Space) (v : Bool) : (s.setValid b v).samp = s.samp := rfl
@[simp] theorem State.setValid_wave (b : Space) (v : Bool) : (s.setValid b v).wave = s.wave := rfl
@[simp] theorem State.setValid_spec (b : Space) (v : Bool) : (s.setValid b v).spec = s.spec := rfl
@[simp] theorem State.setValid_cand (b : Space) (v : Bool) : (s.setValid b v).cand = s.cand := rfl
@[simp] theorem State.setValid_res (b : Space) (v : Bool) : (s.setValid b v).res = s.res := rfl
@[simp] theorem State.setValid_bp (b : Space) (v : Bool) : (s.setValid b v).bp = s.bp := rfl
@[simp] theorem State.setValid_busy (b : Space) (v : Bool) : (s.setValid b v).busy = s.busy := rfl
@[simp] theorem State.setValid_done (b : Space) (v : Bool) : (s.setValid b v).done = s.done := rfl
@[simp] theorem State.setValid_fault (b : Space) (v : Bool) :
    (s.setValid b v).fault = s.fault := rfl
@[simp] theorem State.setValid_aborted (b : Space) (v : Bool) :
    (s.setValid b v).aborted = s.aborted := rfl
@[simp] theorem State.setValid_crcOk (b : Space) (v : Bool) :
    (s.setValid b v).crcOk = s.crcOk := rfl
@[simp] theorem State.setValid_conv (b : Space) (v : Bool) : (s.setValid b v).conv = s.conv := rfl
@[simp] theorem State.setValid_malf (b : Space) (v : Bool) : (s.setValid b v).malf = s.malf := rfl
@[simp] theorem State.setValid_lastErr (b : Space) (v : Bool) :
    (s.setValid b v).lastErr = s.lastErr := rfl
@[simp] theorem State.setValid_faultInfo (b : Space) (v : Bool) :
    (s.setValid b v).faultInfo = s.faultInfo := rfl
@[simp] theorem State.setValid_iter (b : Space) (v : Bool) : (s.setValid b v).iter = s.iter := rfl
@[simp] theorem State.setValid_conf (b : Space) (v : Bool) : (s.setValid b v).conf = s.conf := rfl
@[simp] theorem State.setValid_ncand (b : Space) (v : Bool) :
    (s.setValid b v).ncand = s.ncand := rfl
@[simp] theorem State.setValid_nres (b : Space) (v : Bool) : (s.setValid b v).nres = s.nres := rfl
@[simp] theorem State.setValid_nt (b : Space) (v : Bool) : (s.setValid b v).nt = s.nt := rfl
@[simp] theorem State.setValid_nwave (b : Space) (v : Bool) :
    (s.setValid b v).nwave = s.nwave := rfl
@[simp] theorem State.setValid_cfg (b : Space) (v : Bool) : (s.setValid b v).cfg = s.cfg := rfl
@[simp] theorem State.setValid_phase (b : Space) (v : Bool) :
    (s.setValid b v).phase = s.phase := rfl
@[simp] theorem State.setValid_cidx (b : Space) (v : Bool) : (s.setValid b v).cidx = s.cidx := rfl
@[simp] theorem State.setValid_iterT (b : Space) (v : Bool) :
    (s.setValid b v).iterT = s.iterT := rfl
@[simp] theorem State.setValid_abortReq (b : Space) (v : Bool) :
    (s.setValid b v).abortReq = s.abortReq := rfl
@[simp] theorem State.setValid_run (b : Space) (v : Bool) : (s.setValid b v).run = s.run := rfl
@[simp] theorem State.setValid_acc (b : Space) (v : Bool) : (s.setValid b v).acc = s.acc := rfl
@[simp] theorem State.setValid_rdata (b : Space) (v : Bool) :
    (s.setValid b v).rdata = s.rdata := rfl
@[simp] theorem State.setValid_ticks (b : Space) (v : Bool) :
    (s.setValid b v).ticks = s.ticks := rfl
@[simp] theorem State.setValid_port (b : Space) (v : Bool) : (s.setValid b v).port = s.port := rfl
@[simp] theorem State.setValid_draws (b : Space) (v : Bool) :
    (s.setValid b v).draws = s.draws := rfl

/-! `scrambleBp` draws a new belief-propagation memory. -/

@[simp] theorem State.scrambleBp_msg : s.scrambleBp.msg = s.msg := rfl
@[simp] theorem State.scrambleBp_pay : s.scrambleBp.pay = s.pay := rfl
@[simp] theorem State.scrambleBp_crc : s.scrambleBp.crc = s.crc := rfl
@[simp] theorem State.scrambleBp_cw : s.scrambleBp.cw = s.cw := rfl
@[simp] theorem State.scrambleBp_sym : s.scrambleBp.sym = s.sym := rfl
@[simp] theorem State.scrambleBp_llr : s.scrambleBp.llr = s.llr := rfl
@[simp] theorem State.scrambleBp_samp : s.scrambleBp.samp = s.samp := rfl
@[simp] theorem State.scrambleBp_wave : s.scrambleBp.wave = s.wave := rfl
@[simp] theorem State.scrambleBp_spec : s.scrambleBp.spec = s.spec := rfl
@[simp] theorem State.scrambleBp_cand : s.scrambleBp.cand = s.cand := rfl
@[simp] theorem State.scrambleBp_res : s.scrambleBp.res = s.res := rfl
@[simp] theorem State.scrambleBp_bp : s.scrambleBp.bp = ⟨s.draws, [], [], []⟩ := rfl
@[simp] theorem State.scrambleBp_valid : s.scrambleBp.valid = s.valid := rfl
@[simp] theorem State.scrambleBp_busy : s.scrambleBp.busy = s.busy := rfl
@[simp] theorem State.scrambleBp_done : s.scrambleBp.done = s.done := rfl
@[simp] theorem State.scrambleBp_fault : s.scrambleBp.fault = s.fault := rfl
@[simp] theorem State.scrambleBp_aborted : s.scrambleBp.aborted = s.aborted := rfl
@[simp] theorem State.scrambleBp_crcOk : s.scrambleBp.crcOk = s.crcOk := rfl
@[simp] theorem State.scrambleBp_conv : s.scrambleBp.conv = s.conv := rfl
@[simp] theorem State.scrambleBp_malf : s.scrambleBp.malf = s.malf := rfl
@[simp] theorem State.scrambleBp_lastErr : s.scrambleBp.lastErr = s.lastErr := rfl
@[simp] theorem State.scrambleBp_faultInfo : s.scrambleBp.faultInfo = s.faultInfo := rfl
@[simp] theorem State.scrambleBp_iter : s.scrambleBp.iter = s.iter := rfl
@[simp] theorem State.scrambleBp_conf : s.scrambleBp.conf = s.conf := rfl
@[simp] theorem State.scrambleBp_ncand : s.scrambleBp.ncand = s.ncand := rfl
@[simp] theorem State.scrambleBp_nres : s.scrambleBp.nres = s.nres := rfl
@[simp] theorem State.scrambleBp_nt : s.scrambleBp.nt = s.nt := rfl
@[simp] theorem State.scrambleBp_nwave : s.scrambleBp.nwave = s.nwave := rfl
@[simp] theorem State.scrambleBp_cfg : s.scrambleBp.cfg = s.cfg := rfl
@[simp] theorem State.scrambleBp_phase : s.scrambleBp.phase = s.phase := rfl
@[simp] theorem State.scrambleBp_cidx : s.scrambleBp.cidx = s.cidx := rfl
@[simp] theorem State.scrambleBp_iterT : s.scrambleBp.iterT = s.iterT := rfl
@[simp] theorem State.scrambleBp_abortReq : s.scrambleBp.abortReq = s.abortReq := rfl
@[simp] theorem State.scrambleBp_run : s.scrambleBp.run = s.run := rfl
@[simp] theorem State.scrambleBp_acc : s.scrambleBp.acc = s.acc := rfl
@[simp] theorem State.scrambleBp_rdata : s.scrambleBp.rdata = s.rdata := rfl
@[simp] theorem State.scrambleBp_ticks : s.scrambleBp.ticks = s.ticks := rfl
@[simp] theorem State.scrambleBp_port : s.scrambleBp.port = s.port := rfl
@[simp] theorem State.scrambleBp_draws : s.scrambleBp.draws = s.draws + 1 := rfl

/-! `accept` writes the status registers and the sequencer state. -/

@[simp] theorem State.accept_msg (i : Instr) (ph : Phase) : (s.accept i ph).msg = s.msg := rfl
@[simp] theorem State.accept_pay (i : Instr) (ph : Phase) : (s.accept i ph).pay = s.pay := rfl
@[simp] theorem State.accept_crc (i : Instr) (ph : Phase) : (s.accept i ph).crc = s.crc := rfl
@[simp] theorem State.accept_cw (i : Instr) (ph : Phase) : (s.accept i ph).cw = s.cw := rfl
@[simp] theorem State.accept_sym (i : Instr) (ph : Phase) : (s.accept i ph).sym = s.sym := rfl
@[simp] theorem State.accept_llr (i : Instr) (ph : Phase) : (s.accept i ph).llr = s.llr := rfl
@[simp] theorem State.accept_samp (i : Instr) (ph : Phase) : (s.accept i ph).samp = s.samp := rfl
@[simp] theorem State.accept_wave (i : Instr) (ph : Phase) : (s.accept i ph).wave = s.wave := rfl
@[simp] theorem State.accept_spec (i : Instr) (ph : Phase) : (s.accept i ph).spec = s.spec := rfl
@[simp] theorem State.accept_cand (i : Instr) (ph : Phase) : (s.accept i ph).cand = s.cand := rfl
@[simp] theorem State.accept_res (i : Instr) (ph : Phase) : (s.accept i ph).res = s.res := rfl
@[simp] theorem State.accept_bp (i : Instr) (ph : Phase) : (s.accept i ph).bp = s.bp := rfl
@[simp] theorem State.accept_valid (i : Instr) (ph : Phase) : (s.accept i ph).valid = s.valid := rfl
@[simp] theorem State.accept_busy (i : Instr) (ph : Phase) : (s.accept i ph).busy = true := rfl
@[simp] theorem State.accept_done (i : Instr) (ph : Phase) : (s.accept i ph).done = false := rfl
@[simp] theorem State.accept_fault (i : Instr) (ph : Phase) : (s.accept i ph).fault = s.fault := rfl
@[simp] theorem State.accept_aborted (i : Instr) (ph : Phase) :
    (s.accept i ph).aborted = false := rfl
@[simp] theorem State.accept_crcOk (i : Instr) (ph : Phase) : (s.accept i ph).crcOk = s.crcOk := rfl
@[simp] theorem State.accept_conv (i : Instr) (ph : Phase) : (s.accept i ph).conv = s.conv := rfl
@[simp] theorem State.accept_malf (i : Instr) (ph : Phase) : (s.accept i ph).malf = s.malf := rfl
@[simp] theorem State.accept_lastErr (i : Instr) (ph : Phase) :
    (s.accept i ph).lastErr = s.lastErr := rfl
@[simp] theorem State.accept_faultInfo (i : Instr) (ph : Phase) :
    (s.accept i ph).faultInfo = s.faultInfo := rfl
@[simp] theorem State.accept_iter (i : Instr) (ph : Phase) : (s.accept i ph).iter = s.iter := rfl
@[simp] theorem State.accept_conf (i : Instr) (ph : Phase) : (s.accept i ph).conf = s.conf := rfl
@[simp] theorem State.accept_ncand (i : Instr) (ph : Phase) : (s.accept i ph).ncand = s.ncand := rfl
@[simp] theorem State.accept_nres (i : Instr) (ph : Phase) : (s.accept i ph).nres = s.nres := rfl
@[simp] theorem State.accept_nt (i : Instr) (ph : Phase) : (s.accept i ph).nt = s.nt := rfl
@[simp] theorem State.accept_nwave (i : Instr) (ph : Phase) : (s.accept i ph).nwave = s.nwave := rfl
@[simp] theorem State.accept_cfg (i : Instr) (ph : Phase) : (s.accept i ph).cfg = s.cfg := rfl
@[simp] theorem State.accept_phase (i : Instr) (ph : Phase) : (s.accept i ph).phase = ph := rfl
@[simp] theorem State.accept_cidx (i : Instr) (ph : Phase) : (s.accept i ph).cidx = s.cidx := rfl
@[simp] theorem State.accept_iterT (i : Instr) (ph : Phase) : (s.accept i ph).iterT = s.iterT := rfl
@[simp] theorem State.accept_abortReq (i : Instr) (ph : Phase) :
    (s.accept i ph).abortReq = false := rfl
@[simp] theorem State.accept_run (i : Instr) (ph : Phase) : (s.accept i ph).run = some i := rfl
@[simp] theorem State.accept_acc (i : Instr) (ph : Phase) : (s.accept i ph).acc = s.acc := rfl
@[simp] theorem State.accept_rdata (i : Instr) (ph : Phase) : (s.accept i ph).rdata = s.rdata := rfl
@[simp] theorem State.accept_ticks (i : Instr) (ph : Phase) : (s.accept i ph).ticks = 0 := rfl
@[simp] theorem State.accept_port (i : Instr) (ph : Phase) : (s.accept i ph).port = s.port := rfl
@[simp] theorem State.accept_draws (i : Instr) (ph : Phase) : (s.accept i ph).draws = s.draws := rfl

/-! `started` is `accept` in the first internal step. -/

@[simp] theorem State.started_msg (i : Instr) (ph : Phase) : (s.started i ph).msg = s.msg := rfl
@[simp] theorem State.started_pay (i : Instr) (ph : Phase) : (s.started i ph).pay = s.pay := rfl
@[simp] theorem State.started_crc (i : Instr) (ph : Phase) : (s.started i ph).crc = s.crc := rfl
@[simp] theorem State.started_cw (i : Instr) (ph : Phase) : (s.started i ph).cw = s.cw := rfl
@[simp] theorem State.started_sym (i : Instr) (ph : Phase) : (s.started i ph).sym = s.sym := rfl
@[simp] theorem State.started_llr (i : Instr) (ph : Phase) : (s.started i ph).llr = s.llr := rfl
@[simp] theorem State.started_samp (i : Instr) (ph : Phase) : (s.started i ph).samp = s.samp := rfl
@[simp] theorem State.started_wave (i : Instr) (ph : Phase) : (s.started i ph).wave = s.wave := rfl
@[simp] theorem State.started_spec (i : Instr) (ph : Phase) : (s.started i ph).spec = s.spec := rfl
@[simp] theorem State.started_cand (i : Instr) (ph : Phase) : (s.started i ph).cand = s.cand := rfl
@[simp] theorem State.started_res (i : Instr) (ph : Phase) : (s.started i ph).res = s.res := rfl
@[simp] theorem State.started_bp (i : Instr) (ph : Phase) : (s.started i ph).bp = s.bp := rfl
@[simp] theorem State.started_valid (i : Instr) (ph : Phase) :
    (s.started i ph).valid = s.valid := rfl
@[simp] theorem State.started_busy (i : Instr) (ph : Phase) : (s.started i ph).busy = true := rfl
@[simp] theorem State.started_done (i : Instr) (ph : Phase) : (s.started i ph).done = false := rfl
@[simp] theorem State.started_fault (i : Instr) (ph : Phase) :
    (s.started i ph).fault = s.fault := rfl
@[simp] theorem State.started_aborted (i : Instr) (ph : Phase) :
    (s.started i ph).aborted = false := rfl
@[simp] theorem State.started_crcOk (i : Instr) (ph : Phase) :
    (s.started i ph).crcOk = s.crcOk := rfl
@[simp] theorem State.started_conv (i : Instr) (ph : Phase) : (s.started i ph).conv = s.conv := rfl
@[simp] theorem State.started_malf (i : Instr) (ph : Phase) : (s.started i ph).malf = s.malf := rfl
@[simp] theorem State.started_lastErr (i : Instr) (ph : Phase) :
    (s.started i ph).lastErr = s.lastErr := rfl
@[simp] theorem State.started_faultInfo (i : Instr) (ph : Phase) :
    (s.started i ph).faultInfo = s.faultInfo := rfl
@[simp] theorem State.started_iter (i : Instr) (ph : Phase) : (s.started i ph).iter = s.iter := rfl
@[simp] theorem State.started_conf (i : Instr) (ph : Phase) : (s.started i ph).conf = s.conf := rfl
@[simp] theorem State.started_ncand (i : Instr) (ph : Phase) :
    (s.started i ph).ncand = s.ncand := rfl
@[simp] theorem State.started_nres (i : Instr) (ph : Phase) : (s.started i ph).nres = s.nres := rfl
@[simp] theorem State.started_nt (i : Instr) (ph : Phase) : (s.started i ph).nt = s.nt := rfl
@[simp] theorem State.started_nwave (i : Instr) (ph : Phase) :
    (s.started i ph).nwave = s.nwave := rfl
@[simp] theorem State.started_cfg (i : Instr) (ph : Phase) : (s.started i ph).cfg = s.cfg := rfl
@[simp] theorem State.started_phase (i : Instr) (ph : Phase) : (s.started i ph).phase = ph := rfl
@[simp] theorem State.started_cidx (i : Instr) (ph : Phase) : (s.started i ph).cidx = s.cidx := rfl
@[simp] theorem State.started_iterT (i : Instr) (ph : Phase) :
    (s.started i ph).iterT = s.iterT := rfl
@[simp] theorem State.started_abortReq (i : Instr) (ph : Phase) :
    (s.started i ph).abortReq = false := rfl
@[simp] theorem State.started_run (i : Instr) (ph : Phase) : (s.started i ph).run = some i := rfl
@[simp] theorem State.started_acc (i : Instr) (ph : Phase) : (s.started i ph).acc = s.acc := rfl
@[simp] theorem State.started_rdata (i : Instr) (ph : Phase) :
    (s.started i ph).rdata = s.rdata := rfl
@[simp] theorem State.started_ticks (i : Instr) (ph : Phase) : (s.started i ph).ticks = 1 := rfl
@[simp] theorem State.started_port (i : Instr) (ph : Phase) : (s.started i ph).port = s.port := rfl
@[simp] theorem State.started_draws (i : Instr) (ph : Phase) :
    (s.started i ph).draws = s.draws := rfl

/-! `completed` is acceptance and completion. -/

@[simp] theorem State.completed_msg (o : Code) : (s.completed o).msg = s.msg := rfl
@[simp] theorem State.completed_pay (o : Code) : (s.completed o).pay = s.pay := rfl
@[simp] theorem State.completed_crc (o : Code) : (s.completed o).crc = s.crc := rfl
@[simp] theorem State.completed_cw (o : Code) : (s.completed o).cw = s.cw := rfl
@[simp] theorem State.completed_sym (o : Code) : (s.completed o).sym = s.sym := rfl
@[simp] theorem State.completed_llr (o : Code) : (s.completed o).llr = s.llr := rfl
@[simp] theorem State.completed_samp (o : Code) : (s.completed o).samp = s.samp := rfl
@[simp] theorem State.completed_wave (o : Code) : (s.completed o).wave = s.wave := rfl
@[simp] theorem State.completed_spec (o : Code) : (s.completed o).spec = s.spec := rfl
@[simp] theorem State.completed_cand (o : Code) : (s.completed o).cand = s.cand := rfl
@[simp] theorem State.completed_res (o : Code) : (s.completed o).res = s.res := rfl
@[simp] theorem State.completed_bp (o : Code) : (s.completed o).bp = s.bp := rfl
@[simp] theorem State.completed_valid (o : Code) : (s.completed o).valid = s.valid := rfl
@[simp] theorem State.completed_busy (o : Code) : (s.completed o).busy = false := rfl
@[simp] theorem State.completed_done (o : Code) : (s.completed o).done = true := rfl
@[simp] theorem State.completed_fault (o : Code) : (s.completed o).fault = s.fault := rfl
@[simp] theorem State.completed_aborted (o : Code) : (s.completed o).aborted = false := rfl
@[simp] theorem State.completed_crcOk (o : Code) : (s.completed o).crcOk = s.crcOk := rfl
@[simp] theorem State.completed_conv (o : Code) : (s.completed o).conv = s.conv := rfl
@[simp] theorem State.completed_malf (o : Code) : (s.completed o).malf = s.malf := rfl
@[simp] theorem State.completed_lastErr (o : Code) : (s.completed o).lastErr = o.num := rfl
@[simp] theorem State.completed_faultInfo (o : Code) :
    (s.completed o).faultInfo = s.faultInfo := rfl
@[simp] theorem State.completed_iter (o : Code) : (s.completed o).iter = s.iter := rfl
@[simp] theorem State.completed_conf (o : Code) : (s.completed o).conf = s.conf := rfl
@[simp] theorem State.completed_ncand (o : Code) : (s.completed o).ncand = s.ncand := rfl
@[simp] theorem State.completed_nres (o : Code) : (s.completed o).nres = s.nres := rfl
@[simp] theorem State.completed_nt (o : Code) : (s.completed o).nt = s.nt := rfl
@[simp] theorem State.completed_nwave (o : Code) : (s.completed o).nwave = s.nwave := rfl
@[simp] theorem State.completed_cfg (o : Code) : (s.completed o).cfg = s.cfg := rfl
@[simp] theorem State.completed_phase (o : Code) : (s.completed o).phase = .idle := rfl
@[simp] theorem State.completed_cidx (o : Code) : (s.completed o).cidx = s.cidx := rfl
@[simp] theorem State.completed_iterT (o : Code) : (s.completed o).iterT = s.iterT := rfl
@[simp] theorem State.completed_abortReq (o : Code) : (s.completed o).abortReq = false := rfl
@[simp] theorem State.completed_run (o : Code) : (s.completed o).run = none := rfl
@[simp] theorem State.completed_acc (o : Code) : (s.completed o).acc = s.acc := rfl
@[simp] theorem State.completed_rdata (o : Code) : (s.completed o).rdata = s.rdata := rfl
@[simp] theorem State.completed_ticks (o : Code) : (s.completed o).ticks = 0 := rfl
@[simp] theorem State.completed_port (o : Code) : (s.completed o).port = s.port := rfl
@[simp] theorem State.completed_draws (o : Code) : (s.completed o).draws = s.draws := rfl

/-! `faulted` is fault entry where no command runs. -/

@[simp] theorem State.faulted_msg (p : Precond) : (s.faulted p).msg = s.msg := rfl
@[simp] theorem State.faulted_pay (p : Precond) : (s.faulted p).pay = s.pay := rfl
@[simp] theorem State.faulted_crc (p : Precond) : (s.faulted p).crc = s.crc := rfl
@[simp] theorem State.faulted_cw (p : Precond) : (s.faulted p).cw = s.cw := rfl
@[simp] theorem State.faulted_sym (p : Precond) : (s.faulted p).sym = s.sym := rfl
@[simp] theorem State.faulted_llr (p : Precond) : (s.faulted p).llr = s.llr := rfl
@[simp] theorem State.faulted_samp (p : Precond) : (s.faulted p).samp = s.samp := rfl
@[simp] theorem State.faulted_wave (p : Precond) : (s.faulted p).wave = s.wave := rfl
@[simp] theorem State.faulted_spec (p : Precond) : (s.faulted p).spec = s.spec := rfl
@[simp] theorem State.faulted_cand (p : Precond) : (s.faulted p).cand = s.cand := rfl
@[simp] theorem State.faulted_res (p : Precond) : (s.faulted p).res = s.res := rfl
@[simp] theorem State.faulted_bp (p : Precond) : (s.faulted p).bp = s.bp := rfl
@[simp] theorem State.faulted_valid (p : Precond) : (s.faulted p).valid = s.valid := rfl
@[simp] theorem State.faulted_busy (p : Precond) : (s.faulted p).busy = false := rfl
@[simp] theorem State.faulted_done (p : Precond) : (s.faulted p).done = s.done := rfl
@[simp] theorem State.faulted_fault (p : Precond) : (s.faulted p).fault = true := rfl
@[simp] theorem State.faulted_aborted (p : Precond) : (s.faulted p).aborted = s.aborted := rfl
@[simp] theorem State.faulted_crcOk (p : Precond) : (s.faulted p).crcOk = s.crcOk := rfl
@[simp] theorem State.faulted_conv (p : Precond) : (s.faulted p).conv = s.conv := rfl
@[simp] theorem State.faulted_malf (p : Precond) : (s.faulted p).malf = s.malf := rfl
@[simp] theorem State.faulted_lastErr (p : Precond) : (s.faulted p).lastErr = s.lastErr := rfl
@[simp] theorem State.faulted_faultInfo (p : Precond) : (s.faulted p).faultInfo = p.word := rfl
@[simp] theorem State.faulted_iter (p : Precond) : (s.faulted p).iter = s.iter := rfl
@[simp] theorem State.faulted_conf (p : Precond) : (s.faulted p).conf = s.conf := rfl
@[simp] theorem State.faulted_ncand (p : Precond) : (s.faulted p).ncand = s.ncand := rfl
@[simp] theorem State.faulted_nres (p : Precond) : (s.faulted p).nres = s.nres := rfl
@[simp] theorem State.faulted_nt (p : Precond) : (s.faulted p).nt = s.nt := rfl
@[simp] theorem State.faulted_nwave (p : Precond) : (s.faulted p).nwave = s.nwave := rfl
@[simp] theorem State.faulted_cfg (p : Precond) : (s.faulted p).cfg = s.cfg := rfl
@[simp] theorem State.faulted_phase (p : Precond) : (s.faulted p).phase = .faulted := rfl
@[simp] theorem State.faulted_cidx (p : Precond) : (s.faulted p).cidx = s.cidx := rfl
@[simp] theorem State.faulted_iterT (p : Precond) : (s.faulted p).iterT = s.iterT := rfl
@[simp] theorem State.faulted_abortReq (p : Precond) : (s.faulted p).abortReq = s.abortReq := rfl
@[simp] theorem State.faulted_run (p : Precond) : (s.faulted p).run = none := rfl
@[simp] theorem State.faulted_acc (p : Precond) : (s.faulted p).acc = s.acc := rfl
@[simp] theorem State.faulted_rdata (p : Precond) : (s.faulted p).rdata = s.rdata := rfl
@[simp] theorem State.faulted_ticks (p : Precond) : (s.faulted p).ticks = 0 := rfl
@[simp] theorem State.faulted_port (p : Precond) : (s.faulted p).port = s.port := rfl
@[simp] theorem State.faulted_draws (p : Precond) : (s.faulted p).draws = s.draws := rfl

/-! `complete` writes LASTERR, the status registers and the sequencer state. -/

@[simp] theorem State.complete_msg (o : Code) : (s.complete o).msg = s.msg := rfl
@[simp] theorem State.complete_pay (o : Code) : (s.complete o).pay = s.pay := rfl
@[simp] theorem State.complete_crc (o : Code) : (s.complete o).crc = s.crc := rfl
@[simp] theorem State.complete_cw (o : Code) : (s.complete o).cw = s.cw := rfl
@[simp] theorem State.complete_sym (o : Code) : (s.complete o).sym = s.sym := rfl
@[simp] theorem State.complete_llr (o : Code) : (s.complete o).llr = s.llr := rfl
@[simp] theorem State.complete_samp (o : Code) : (s.complete o).samp = s.samp := rfl
@[simp] theorem State.complete_wave (o : Code) : (s.complete o).wave = s.wave := rfl
@[simp] theorem State.complete_spec (o : Code) : (s.complete o).spec = s.spec := rfl
@[simp] theorem State.complete_cand (o : Code) : (s.complete o).cand = s.cand := rfl
@[simp] theorem State.complete_res (o : Code) : (s.complete o).res = s.res := rfl
@[simp] theorem State.complete_bp (o : Code) : (s.complete o).bp = s.bp := rfl
@[simp] theorem State.complete_valid (o : Code) : (s.complete o).valid = s.valid := rfl
@[simp] theorem State.complete_busy (o : Code) : (s.complete o).busy = false := rfl
@[simp] theorem State.complete_done (o : Code) : (s.complete o).done = true := rfl
@[simp] theorem State.complete_fault (o : Code) : (s.complete o).fault = s.fault := rfl
@[simp] theorem State.complete_aborted (o : Code) : (s.complete o).aborted = s.aborted := rfl
@[simp] theorem State.complete_crcOk (o : Code) : (s.complete o).crcOk = s.crcOk := rfl
@[simp] theorem State.complete_conv (o : Code) : (s.complete o).conv = s.conv := rfl
@[simp] theorem State.complete_malf (o : Code) : (s.complete o).malf = s.malf := rfl
@[simp] theorem State.complete_lastErr (o : Code) : (s.complete o).lastErr = o.num := rfl
@[simp] theorem State.complete_faultInfo (o : Code) : (s.complete o).faultInfo = s.faultInfo := rfl
@[simp] theorem State.complete_iter (o : Code) : (s.complete o).iter = s.iter := rfl
@[simp] theorem State.complete_conf (o : Code) : (s.complete o).conf = s.conf := rfl
@[simp] theorem State.complete_ncand (o : Code) : (s.complete o).ncand = s.ncand := rfl
@[simp] theorem State.complete_nres (o : Code) : (s.complete o).nres = s.nres := rfl
@[simp] theorem State.complete_nt (o : Code) : (s.complete o).nt = s.nt := rfl
@[simp] theorem State.complete_nwave (o : Code) : (s.complete o).nwave = s.nwave := rfl
@[simp] theorem State.complete_cfg (o : Code) : (s.complete o).cfg = s.cfg := rfl
@[simp] theorem State.complete_phase (o : Code) : (s.complete o).phase = .idle := rfl
@[simp] theorem State.complete_cidx (o : Code) : (s.complete o).cidx = s.cidx := rfl
@[simp] theorem State.complete_iterT (o : Code) : (s.complete o).iterT = s.iterT := rfl
@[simp] theorem State.complete_abortReq (o : Code) : (s.complete o).abortReq = s.abortReq := rfl
@[simp] theorem State.complete_run (o : Code) : (s.complete o).run = none := rfl
@[simp] theorem State.complete_acc (o : Code) : (s.complete o).acc = s.acc := rfl
@[simp] theorem State.complete_rdata (o : Code) : (s.complete o).rdata = s.rdata := rfl
@[simp] theorem State.complete_ticks (o : Code) : (s.complete o).ticks = 0 := rfl
@[simp] theorem State.complete_port (o : Code) : (s.complete o).port = s.port := rfl
@[simp] theorem State.complete_draws (o : Code) : (s.complete o).draws = s.draws := rfl

/-! `mapSymbols` writes SYM. -/

@[simp] theorem State.mapSymbols_msg (c : Config) : (s.mapSymbols c).msg = s.msg := rfl
@[simp] theorem State.mapSymbols_pay (c : Config) : (s.mapSymbols c).pay = s.pay := rfl
@[simp] theorem State.mapSymbols_crc (c : Config) : (s.mapSymbols c).crc = s.crc := rfl
@[simp] theorem State.mapSymbols_cw (c : Config) : (s.mapSymbols c).cw = s.cw := rfl
@[simp] theorem State.mapSymbols_llr (c : Config) : (s.mapSymbols c).llr = s.llr := rfl
@[simp] theorem State.mapSymbols_samp (c : Config) : (s.mapSymbols c).samp = s.samp := rfl
@[simp] theorem State.mapSymbols_wave (c : Config) : (s.mapSymbols c).wave = s.wave := rfl
@[simp] theorem State.mapSymbols_spec (c : Config) : (s.mapSymbols c).spec = s.spec := rfl
@[simp] theorem State.mapSymbols_cand (c : Config) : (s.mapSymbols c).cand = s.cand := rfl
@[simp] theorem State.mapSymbols_res (c : Config) : (s.mapSymbols c).res = s.res := rfl
@[simp] theorem State.mapSymbols_bp (c : Config) : (s.mapSymbols c).bp = s.bp := rfl
@[simp] theorem State.mapSymbols_valid (c : Config) : (s.mapSymbols c).valid = s.valid := rfl
@[simp] theorem State.mapSymbols_busy (c : Config) : (s.mapSymbols c).busy = s.busy := rfl
@[simp] theorem State.mapSymbols_done (c : Config) : (s.mapSymbols c).done = s.done := rfl
@[simp] theorem State.mapSymbols_fault (c : Config) : (s.mapSymbols c).fault = s.fault := rfl
@[simp] theorem State.mapSymbols_aborted (c : Config) : (s.mapSymbols c).aborted = s.aborted := rfl
@[simp] theorem State.mapSymbols_crcOk (c : Config) : (s.mapSymbols c).crcOk = s.crcOk := rfl
@[simp] theorem State.mapSymbols_conv (c : Config) : (s.mapSymbols c).conv = s.conv := rfl
@[simp] theorem State.mapSymbols_malf (c : Config) : (s.mapSymbols c).malf = s.malf := rfl
@[simp] theorem State.mapSymbols_lastErr (c : Config) : (s.mapSymbols c).lastErr = s.lastErr := rfl
@[simp] theorem State.mapSymbols_faultInfo (c : Config) :
    (s.mapSymbols c).faultInfo = s.faultInfo := rfl
@[simp] theorem State.mapSymbols_iter (c : Config) : (s.mapSymbols c).iter = s.iter := rfl
@[simp] theorem State.mapSymbols_conf (c : Config) : (s.mapSymbols c).conf = s.conf := rfl
@[simp] theorem State.mapSymbols_ncand (c : Config) : (s.mapSymbols c).ncand = s.ncand := rfl
@[simp] theorem State.mapSymbols_nres (c : Config) : (s.mapSymbols c).nres = s.nres := rfl
@[simp] theorem State.mapSymbols_nt (c : Config) : (s.mapSymbols c).nt = s.nt := rfl
@[simp] theorem State.mapSymbols_nwave (c : Config) : (s.mapSymbols c).nwave = s.nwave := rfl
@[simp] theorem State.mapSymbols_cfg (c : Config) : (s.mapSymbols c).cfg = s.cfg := rfl
@[simp] theorem State.mapSymbols_phase (c : Config) : (s.mapSymbols c).phase = s.phase := rfl
@[simp] theorem State.mapSymbols_cidx (c : Config) : (s.mapSymbols c).cidx = s.cidx := rfl
@[simp] theorem State.mapSymbols_iterT (c : Config) : (s.mapSymbols c).iterT = s.iterT := rfl
@[simp] theorem State.mapSymbols_abortReq (c : Config) :
    (s.mapSymbols c).abortReq = s.abortReq := rfl
@[simp] theorem State.mapSymbols_run (c : Config) : (s.mapSymbols c).run = s.run := rfl
@[simp] theorem State.mapSymbols_acc (c : Config) : (s.mapSymbols c).acc = s.acc := rfl
@[simp] theorem State.mapSymbols_rdata (c : Config) : (s.mapSymbols c).rdata = s.rdata := rfl
@[simp] theorem State.mapSymbols_ticks (c : Config) : (s.mapSymbols c).ticks = s.ticks := rfl
@[simp] theorem State.mapSymbols_port (c : Config) : (s.mapSymbols c).port = s.port := rfl
@[simp] theorem State.mapSymbols_draws (c : Config) : (s.mapSymbols c).draws = s.draws := rfl

/-! `putMessage` writes MSG. -/

@[simp] theorem State.putMessage_pay (c : Config) (m : List Word) :
    (s.putMessage c m).pay = s.pay := rfl
@[simp] theorem State.putMessage_crc (c : Config) (m : List Word) :
    (s.putMessage c m).crc = s.crc := rfl
@[simp] theorem State.putMessage_cw (c : Config) (m : List Word) :
    (s.putMessage c m).cw = s.cw := rfl
@[simp] theorem State.putMessage_sym (c : Config) (m : List Word) :
    (s.putMessage c m).sym = s.sym := rfl
@[simp] theorem State.putMessage_llr (c : Config) (m : List Word) :
    (s.putMessage c m).llr = s.llr := rfl
@[simp] theorem State.putMessage_samp (c : Config) (m : List Word) :
    (s.putMessage c m).samp = s.samp := rfl
@[simp] theorem State.putMessage_wave (c : Config) (m : List Word) :
    (s.putMessage c m).wave = s.wave := rfl
@[simp] theorem State.putMessage_spec (c : Config) (m : List Word) :
    (s.putMessage c m).spec = s.spec := rfl
@[simp] theorem State.putMessage_cand (c : Config) (m : List Word) :
    (s.putMessage c m).cand = s.cand := rfl
@[simp] theorem State.putMessage_res (c : Config) (m : List Word) :
    (s.putMessage c m).res = s.res := rfl
@[simp] theorem State.putMessage_bp (c : Config) (m : List Word) :
    (s.putMessage c m).bp = s.bp := rfl
@[simp] theorem State.putMessage_valid (c : Config) (m : List Word) :
    (s.putMessage c m).valid = s.valid := rfl
@[simp] theorem State.putMessage_busy (c : Config) (m : List Word) :
    (s.putMessage c m).busy = s.busy := rfl
@[simp] theorem State.putMessage_done (c : Config) (m : List Word) :
    (s.putMessage c m).done = s.done := rfl
@[simp] theorem State.putMessage_fault (c : Config) (m : List Word) :
    (s.putMessage c m).fault = s.fault := rfl
@[simp] theorem State.putMessage_aborted (c : Config) (m : List Word) :
    (s.putMessage c m).aborted = s.aborted := rfl
@[simp] theorem State.putMessage_crcOk (c : Config) (m : List Word) :
    (s.putMessage c m).crcOk = s.crcOk := rfl
@[simp] theorem State.putMessage_conv (c : Config) (m : List Word) :
    (s.putMessage c m).conv = s.conv := rfl
@[simp] theorem State.putMessage_malf (c : Config) (m : List Word) :
    (s.putMessage c m).malf = s.malf := rfl
@[simp] theorem State.putMessage_lastErr (c : Config) (m : List Word) :
    (s.putMessage c m).lastErr = s.lastErr := rfl
@[simp] theorem State.putMessage_faultInfo (c : Config) (m : List Word) :
    (s.putMessage c m).faultInfo = s.faultInfo := rfl
@[simp] theorem State.putMessage_iter (c : Config) (m : List Word) :
    (s.putMessage c m).iter = s.iter := rfl
@[simp] theorem State.putMessage_conf (c : Config) (m : List Word) :
    (s.putMessage c m).conf = s.conf := rfl
@[simp] theorem State.putMessage_ncand (c : Config) (m : List Word) :
    (s.putMessage c m).ncand = s.ncand := rfl
@[simp] theorem State.putMessage_nres (c : Config) (m : List Word) :
    (s.putMessage c m).nres = s.nres := rfl
@[simp] theorem State.putMessage_nt (c : Config) (m : List Word) :
    (s.putMessage c m).nt = s.nt := rfl
@[simp] theorem State.putMessage_nwave (c : Config) (m : List Word) :
    (s.putMessage c m).nwave = s.nwave := rfl
@[simp] theorem State.putMessage_cfg (c : Config) (m : List Word) :
    (s.putMessage c m).cfg = s.cfg := rfl
@[simp] theorem State.putMessage_phase (c : Config) (m : List Word) :
    (s.putMessage c m).phase = s.phase := rfl
@[simp] theorem State.putMessage_cidx (c : Config) (m : List Word) :
    (s.putMessage c m).cidx = s.cidx := rfl
@[simp] theorem State.putMessage_iterT (c : Config) (m : List Word) :
    (s.putMessage c m).iterT = s.iterT := rfl
@[simp] theorem State.putMessage_abortReq (c : Config) (m : List Word) :
    (s.putMessage c m).abortReq = s.abortReq := rfl
@[simp] theorem State.putMessage_run (c : Config) (m : List Word) :
    (s.putMessage c m).run = s.run := rfl
@[simp] theorem State.putMessage_acc (c : Config) (m : List Word) :
    (s.putMessage c m).acc = s.acc := rfl
@[simp] theorem State.putMessage_rdata (c : Config) (m : List Word) :
    (s.putMessage c m).rdata = s.rdata := rfl
@[simp] theorem State.putMessage_ticks (c : Config) (m : List Word) :
    (s.putMessage c m).ticks = s.ticks := rfl
@[simp] theorem State.putMessage_port (c : Config) (m : List Word) :
    (s.putMessage c m).port = s.port := rfl
@[simp] theorem State.putMessage_draws (c : Config) (m : List Word) :
    (s.putMessage c m).draws = s.draws := rfl

/-! `putLlr` writes LLR. -/

@[simp] theorem State.putLlr_msg (c : Config) (k : Candidate) : (s.putLlr c k).msg = s.msg := rfl
@[simp] theorem State.putLlr_pay (c : Config) (k : Candidate) : (s.putLlr c k).pay = s.pay := rfl
@[simp] theorem State.putLlr_crc (c : Config) (k : Candidate) : (s.putLlr c k).crc = s.crc := rfl
@[simp] theorem State.putLlr_cw (c : Config) (k : Candidate) : (s.putLlr c k).cw = s.cw := rfl
@[simp] theorem State.putLlr_sym (c : Config) (k : Candidate) : (s.putLlr c k).sym = s.sym := rfl
@[simp] theorem State.putLlr_samp (c : Config) (k : Candidate) : (s.putLlr c k).samp = s.samp := rfl
@[simp] theorem State.putLlr_wave (c : Config) (k : Candidate) : (s.putLlr c k).wave = s.wave := rfl
@[simp] theorem State.putLlr_spec (c : Config) (k : Candidate) : (s.putLlr c k).spec = s.spec := rfl
@[simp] theorem State.putLlr_cand (c : Config) (k : Candidate) : (s.putLlr c k).cand = s.cand := rfl
@[simp] theorem State.putLlr_res (c : Config) (k : Candidate) : (s.putLlr c k).res = s.res := rfl
@[simp] theorem State.putLlr_bp (c : Config) (k : Candidate) : (s.putLlr c k).bp = s.bp := rfl
@[simp] theorem State.putLlr_valid (c : Config) (k : Candidate) :
    (s.putLlr c k).valid = s.valid := rfl
@[simp] theorem State.putLlr_busy (c : Config) (k : Candidate) : (s.putLlr c k).busy = s.busy := rfl
@[simp] theorem State.putLlr_done (c : Config) (k : Candidate) : (s.putLlr c k).done = s.done := rfl
@[simp] theorem State.putLlr_fault (c : Config) (k : Candidate) :
    (s.putLlr c k).fault = s.fault := rfl
@[simp] theorem State.putLlr_aborted (c : Config) (k : Candidate) :
    (s.putLlr c k).aborted = s.aborted := rfl
@[simp] theorem State.putLlr_crcOk (c : Config) (k : Candidate) :
    (s.putLlr c k).crcOk = s.crcOk := rfl
@[simp] theorem State.putLlr_conv (c : Config) (k : Candidate) : (s.putLlr c k).conv = s.conv := rfl
@[simp] theorem State.putLlr_malf (c : Config) (k : Candidate) : (s.putLlr c k).malf = s.malf := rfl
@[simp] theorem State.putLlr_lastErr (c : Config) (k : Candidate) :
    (s.putLlr c k).lastErr = s.lastErr := rfl
@[simp] theorem State.putLlr_faultInfo (c : Config) (k : Candidate) :
    (s.putLlr c k).faultInfo = s.faultInfo := rfl
@[simp] theorem State.putLlr_iter (c : Config) (k : Candidate) : (s.putLlr c k).iter = s.iter := rfl
@[simp] theorem State.putLlr_conf (c : Config) (k : Candidate) : (s.putLlr c k).conf = s.conf := rfl
@[simp] theorem State.putLlr_ncand (c : Config) (k : Candidate) :
    (s.putLlr c k).ncand = s.ncand := rfl
@[simp] theorem State.putLlr_nres (c : Config) (k : Candidate) : (s.putLlr c k).nres = s.nres := rfl
@[simp] theorem State.putLlr_nt (c : Config) (k : Candidate) : (s.putLlr c k).nt = s.nt := rfl
@[simp] theorem State.putLlr_nwave (c : Config) (k : Candidate) :
    (s.putLlr c k).nwave = s.nwave := rfl
@[simp] theorem State.putLlr_cfg (c : Config) (k : Candidate) : (s.putLlr c k).cfg = s.cfg := rfl
@[simp] theorem State.putLlr_phase (c : Config) (k : Candidate) :
    (s.putLlr c k).phase = s.phase := rfl
@[simp] theorem State.putLlr_cidx (c : Config) (k : Candidate) : (s.putLlr c k).cidx = s.cidx := rfl
@[simp] theorem State.putLlr_iterT (c : Config) (k : Candidate) :
    (s.putLlr c k).iterT = s.iterT := rfl
@[simp] theorem State.putLlr_abortReq (c : Config) (k : Candidate) :
    (s.putLlr c k).abortReq = s.abortReq := rfl
@[simp] theorem State.putLlr_run (c : Config) (k : Candidate) : (s.putLlr c k).run = s.run := rfl
@[simp] theorem State.putLlr_acc (c : Config) (k : Candidate) : (s.putLlr c k).acc = s.acc := rfl
@[simp] theorem State.putLlr_rdata (c : Config) (k : Candidate) :
    (s.putLlr c k).rdata = s.rdata := rfl
@[simp] theorem State.putLlr_ticks (c : Config) (k : Candidate) :
    (s.putLlr c k).ticks = s.ticks := rfl
@[simp] theorem State.putLlr_port (c : Config) (k : Candidate) : (s.putLlr c k).port = s.port := rfl
@[simp] theorem State.putLlr_draws (c : Config) (k : Candidate) :
    (s.putLlr c k).draws = s.draws := rfl

/-! `buildSpec` writes SPEC, NT and VALID.SPEC. -/

@[simp] theorem State.buildSpec_msg (c : Config) (n : Nat) : (s.buildSpec c n).msg = s.msg := rfl
@[simp] theorem State.buildSpec_pay (c : Config) (n : Nat) : (s.buildSpec c n).pay = s.pay := rfl
@[simp] theorem State.buildSpec_crc (c : Config) (n : Nat) : (s.buildSpec c n).crc = s.crc := rfl
@[simp] theorem State.buildSpec_cw (c : Config) (n : Nat) : (s.buildSpec c n).cw = s.cw := rfl
@[simp] theorem State.buildSpec_sym (c : Config) (n : Nat) : (s.buildSpec c n).sym = s.sym := rfl
@[simp] theorem State.buildSpec_llr (c : Config) (n : Nat) : (s.buildSpec c n).llr = s.llr := rfl
@[simp] theorem State.buildSpec_samp (c : Config) (n : Nat) : (s.buildSpec c n).samp = s.samp := rfl
@[simp] theorem State.buildSpec_wave (c : Config) (n : Nat) : (s.buildSpec c n).wave = s.wave := rfl
@[simp] theorem State.buildSpec_cand (c : Config) (n : Nat) : (s.buildSpec c n).cand = s.cand := rfl
@[simp] theorem State.buildSpec_res (c : Config) (n : Nat) : (s.buildSpec c n).res = s.res := rfl
@[simp] theorem State.buildSpec_bp (c : Config) (n : Nat) : (s.buildSpec c n).bp = s.bp := rfl
@[simp] theorem State.buildSpec_busy (c : Config) (n : Nat) : (s.buildSpec c n).busy = s.busy := rfl
@[simp] theorem State.buildSpec_done (c : Config) (n : Nat) : (s.buildSpec c n).done = s.done := rfl
@[simp] theorem State.buildSpec_fault (c : Config) (n : Nat) :
    (s.buildSpec c n).fault = s.fault := rfl
@[simp] theorem State.buildSpec_aborted (c : Config) (n : Nat) :
    (s.buildSpec c n).aborted = s.aborted := rfl
@[simp] theorem State.buildSpec_crcOk (c : Config) (n : Nat) :
    (s.buildSpec c n).crcOk = s.crcOk := rfl
@[simp] theorem State.buildSpec_conv (c : Config) (n : Nat) : (s.buildSpec c n).conv = s.conv := rfl
@[simp] theorem State.buildSpec_malf (c : Config) (n : Nat) : (s.buildSpec c n).malf = s.malf := rfl
@[simp] theorem State.buildSpec_lastErr (c : Config) (n : Nat) :
    (s.buildSpec c n).lastErr = s.lastErr := rfl
@[simp] theorem State.buildSpec_faultInfo (c : Config) (n : Nat) :
    (s.buildSpec c n).faultInfo = s.faultInfo := rfl
@[simp] theorem State.buildSpec_iter (c : Config) (n : Nat) : (s.buildSpec c n).iter = s.iter := rfl
@[simp] theorem State.buildSpec_conf (c : Config) (n : Nat) : (s.buildSpec c n).conf = s.conf := rfl
@[simp] theorem State.buildSpec_ncand (c : Config) (n : Nat) :
    (s.buildSpec c n).ncand = s.ncand := rfl
@[simp] theorem State.buildSpec_nres (c : Config) (n : Nat) : (s.buildSpec c n).nres = s.nres := rfl
@[simp] theorem State.buildSpec_nwave (c : Config) (n : Nat) :
    (s.buildSpec c n).nwave = s.nwave := rfl
@[simp] theorem State.buildSpec_cfg (c : Config) (n : Nat) : (s.buildSpec c n).cfg = s.cfg := rfl
@[simp] theorem State.buildSpec_phase (c : Config) (n : Nat) :
    (s.buildSpec c n).phase = s.phase := rfl
@[simp] theorem State.buildSpec_cidx (c : Config) (n : Nat) : (s.buildSpec c n).cidx = s.cidx := rfl
@[simp] theorem State.buildSpec_iterT (c : Config) (n : Nat) :
    (s.buildSpec c n).iterT = s.iterT := rfl
@[simp] theorem State.buildSpec_abortReq (c : Config) (n : Nat) :
    (s.buildSpec c n).abortReq = s.abortReq := rfl
@[simp] theorem State.buildSpec_run (c : Config) (n : Nat) : (s.buildSpec c n).run = s.run := rfl
@[simp] theorem State.buildSpec_acc (c : Config) (n : Nat) : (s.buildSpec c n).acc = s.acc := rfl
@[simp] theorem State.buildSpec_rdata (c : Config) (n : Nat) :
    (s.buildSpec c n).rdata = s.rdata := rfl
@[simp] theorem State.buildSpec_ticks (c : Config) (n : Nat) :
    (s.buildSpec c n).ticks = s.ticks := rfl
@[simp] theorem State.buildSpec_port (c : Config) (n : Nat) : (s.buildSpec c n).port = s.port := rfl
@[simp] theorem State.buildSpec_draws (c : Config) (n : Nat) :
    (s.buildSpec c n).draws = s.draws := rfl

/-! `putCandidates` writes CAND, NCAND, VALID.CAND and the number of the next draw. -/

@[simp] theorem State.putCandidates_msg (l : List Candidate) :
    (s.putCandidates l).msg = s.msg := rfl
@[simp] theorem State.putCandidates_pay (l : List Candidate) :
    (s.putCandidates l).pay = s.pay := rfl
@[simp] theorem State.putCandidates_crc (l : List Candidate) :
    (s.putCandidates l).crc = s.crc := rfl
@[simp] theorem State.putCandidates_cw (l : List Candidate) : (s.putCandidates l).cw = s.cw := rfl
@[simp] theorem State.putCandidates_sym (l : List Candidate) :
    (s.putCandidates l).sym = s.sym := rfl
@[simp] theorem State.putCandidates_llr (l : List Candidate) :
    (s.putCandidates l).llr = s.llr := rfl
@[simp] theorem State.putCandidates_samp (l : List Candidate) :
    (s.putCandidates l).samp = s.samp := rfl
@[simp] theorem State.putCandidates_wave (l : List Candidate) :
    (s.putCandidates l).wave = s.wave := rfl
@[simp] theorem State.putCandidates_spec (l : List Candidate) :
    (s.putCandidates l).spec = s.spec := rfl
@[simp] theorem State.putCandidates_res (l : List Candidate) :
    (s.putCandidates l).res = s.res := rfl
@[simp] theorem State.putCandidates_bp (l : List Candidate) : (s.putCandidates l).bp = s.bp := rfl
@[simp] theorem State.putCandidates_busy (l : List Candidate) :
    (s.putCandidates l).busy = s.busy := rfl
@[simp] theorem State.putCandidates_done (l : List Candidate) :
    (s.putCandidates l).done = s.done := rfl
@[simp] theorem State.putCandidates_fault (l : List Candidate) :
    (s.putCandidates l).fault = s.fault := rfl
@[simp] theorem State.putCandidates_aborted (l : List Candidate) :
    (s.putCandidates l).aborted = s.aborted := rfl
@[simp] theorem State.putCandidates_crcOk (l : List Candidate) :
    (s.putCandidates l).crcOk = s.crcOk := rfl
@[simp] theorem State.putCandidates_conv (l : List Candidate) :
    (s.putCandidates l).conv = s.conv := rfl
@[simp] theorem State.putCandidates_malf (l : List Candidate) :
    (s.putCandidates l).malf = s.malf := rfl
@[simp] theorem State.putCandidates_lastErr (l : List Candidate) :
    (s.putCandidates l).lastErr = s.lastErr := rfl
@[simp] theorem State.putCandidates_faultInfo (l : List Candidate) :
    (s.putCandidates l).faultInfo = s.faultInfo := rfl
@[simp] theorem State.putCandidates_iter (l : List Candidate) :
    (s.putCandidates l).iter = s.iter := rfl
@[simp] theorem State.putCandidates_conf (l : List Candidate) :
    (s.putCandidates l).conf = s.conf := rfl
@[simp] theorem State.putCandidates_ncand (l : List Candidate) :
    (s.putCandidates l).ncand = BitVec.ofNat 32 l.length := rfl
@[simp] theorem State.putCandidates_nres (l : List Candidate) :
    (s.putCandidates l).nres = s.nres := rfl
@[simp] theorem State.putCandidates_nt (l : List Candidate) : (s.putCandidates l).nt = s.nt := rfl
@[simp] theorem State.putCandidates_nwave (l : List Candidate) :
    (s.putCandidates l).nwave = s.nwave := rfl
@[simp] theorem State.putCandidates_cfg (l : List Candidate) :
    (s.putCandidates l).cfg = s.cfg := rfl
@[simp] theorem State.putCandidates_phase (l : List Candidate) :
    (s.putCandidates l).phase = s.phase := rfl
@[simp] theorem State.putCandidates_cidx (l : List Candidate) :
    (s.putCandidates l).cidx = s.cidx := rfl
@[simp] theorem State.putCandidates_iterT (l : List Candidate) :
    (s.putCandidates l).iterT = s.iterT := rfl
@[simp] theorem State.putCandidates_abortReq (l : List Candidate) :
    (s.putCandidates l).abortReq = s.abortReq := rfl
@[simp] theorem State.putCandidates_run (l : List Candidate) :
    (s.putCandidates l).run = s.run := rfl
@[simp] theorem State.putCandidates_acc (l : List Candidate) :
    (s.putCandidates l).acc = s.acc := rfl
@[simp] theorem State.putCandidates_rdata (l : List Candidate) :
    (s.putCandidates l).rdata = s.rdata := rfl
@[simp] theorem State.putCandidates_ticks (l : List Candidate) :
    (s.putCandidates l).ticks = s.ticks := rfl
@[simp] theorem State.putCandidates_port (l : List Candidate) :
    (s.putCandidates l).port = s.port := rfl
@[simp] theorem State.putCandidates_draws (l : List Candidate) :
    (s.putCandidates l).draws = s.draws + 1 := rfl

/-! `putWave` writes WAVE, NWAVE, VALID.WAVE and the number of the next draw. -/

@[simp] theorem State.putWave_msg (c : Config) (n : Nat) : (s.putWave c n).msg = s.msg := rfl
@[simp] theorem State.putWave_pay (c : Config) (n : Nat) : (s.putWave c n).pay = s.pay := rfl
@[simp] theorem State.putWave_crc (c : Config) (n : Nat) : (s.putWave c n).crc = s.crc := rfl
@[simp] theorem State.putWave_cw (c : Config) (n : Nat) : (s.putWave c n).cw = s.cw := rfl
@[simp] theorem State.putWave_sym (c : Config) (n : Nat) : (s.putWave c n).sym = s.sym := rfl
@[simp] theorem State.putWave_llr (c : Config) (n : Nat) : (s.putWave c n).llr = s.llr := rfl
@[simp] theorem State.putWave_samp (c : Config) (n : Nat) : (s.putWave c n).samp = s.samp := rfl
@[simp] theorem State.putWave_spec (c : Config) (n : Nat) : (s.putWave c n).spec = s.spec := rfl
@[simp] theorem State.putWave_cand (c : Config) (n : Nat) : (s.putWave c n).cand = s.cand := rfl
@[simp] theorem State.putWave_res (c : Config) (n : Nat) : (s.putWave c n).res = s.res := rfl
@[simp] theorem State.putWave_bp (c : Config) (n : Nat) : (s.putWave c n).bp = s.bp := rfl
@[simp] theorem State.putWave_busy (c : Config) (n : Nat) : (s.putWave c n).busy = s.busy := rfl
@[simp] theorem State.putWave_done (c : Config) (n : Nat) : (s.putWave c n).done = s.done := rfl
@[simp] theorem State.putWave_fault (c : Config) (n : Nat) : (s.putWave c n).fault = s.fault := rfl
@[simp] theorem State.putWave_aborted (c : Config) (n : Nat) :
    (s.putWave c n).aborted = s.aborted := rfl
@[simp] theorem State.putWave_crcOk (c : Config) (n : Nat) : (s.putWave c n).crcOk = s.crcOk := rfl
@[simp] theorem State.putWave_conv (c : Config) (n : Nat) : (s.putWave c n).conv = s.conv := rfl
@[simp] theorem State.putWave_malf (c : Config) (n : Nat) : (s.putWave c n).malf = s.malf := rfl
@[simp] theorem State.putWave_lastErr (c : Config) (n : Nat) :
    (s.putWave c n).lastErr = s.lastErr := rfl
@[simp] theorem State.putWave_faultInfo (c : Config) (n : Nat) :
    (s.putWave c n).faultInfo = s.faultInfo := rfl
@[simp] theorem State.putWave_iter (c : Config) (n : Nat) : (s.putWave c n).iter = s.iter := rfl
@[simp] theorem State.putWave_conf (c : Config) (n : Nat) : (s.putWave c n).conf = s.conf := rfl
@[simp] theorem State.putWave_ncand (c : Config) (n : Nat) : (s.putWave c n).ncand = s.ncand := rfl
@[simp] theorem State.putWave_nres (c : Config) (n : Nat) : (s.putWave c n).nres = s.nres := rfl
@[simp] theorem State.putWave_nt (c : Config) (n : Nat) : (s.putWave c n).nt = s.nt := rfl
@[simp] theorem State.putWave_nwave (c : Config) (n : Nat) :
    (s.putWave c n).nwave = BitVec.ofNat 32 n := rfl
@[simp] theorem State.putWave_cfg (c : Config) (n : Nat) : (s.putWave c n).cfg = s.cfg := rfl
@[simp] theorem State.putWave_phase (c : Config) (n : Nat) : (s.putWave c n).phase = s.phase := rfl
@[simp] theorem State.putWave_cidx (c : Config) (n : Nat) : (s.putWave c n).cidx = s.cidx := rfl
@[simp] theorem State.putWave_iterT (c : Config) (n : Nat) : (s.putWave c n).iterT = s.iterT := rfl
@[simp] theorem State.putWave_abortReq (c : Config) (n : Nat) :
    (s.putWave c n).abortReq = s.abortReq := rfl
@[simp] theorem State.putWave_run (c : Config) (n : Nat) : (s.putWave c n).run = s.run := rfl
@[simp] theorem State.putWave_acc (c : Config) (n : Nat) : (s.putWave c n).acc = s.acc := rfl
@[simp] theorem State.putWave_rdata (c : Config) (n : Nat) : (s.putWave c n).rdata = s.rdata := rfl
@[simp] theorem State.putWave_ticks (c : Config) (n : Nat) : (s.putWave c n).ticks = s.ticks := rfl
@[simp] theorem State.putWave_port (c : Config) (n : Nat) : (s.putWave c n).port = s.port := rfl
@[simp] theorem State.putWave_draws (c : Config) (n : Nat) :
    (s.putWave c n).draws = s.draws + 1 := rfl

/-! `putResults` writes RES, NRES, VALID.RES and the number of the next draw. -/

@[simp] theorem State.putResults_msg (c : Config) (l : List Accepted) :
    (s.putResults c l).msg = s.msg := rfl
@[simp] theorem State.putResults_pay (c : Config) (l : List Accepted) :
    (s.putResults c l).pay = s.pay := rfl
@[simp] theorem State.putResults_crc (c : Config) (l : List Accepted) :
    (s.putResults c l).crc = s.crc := rfl
@[simp] theorem State.putResults_cw (c : Config) (l : List Accepted) :
    (s.putResults c l).cw = s.cw := rfl
@[simp] theorem State.putResults_sym (c : Config) (l : List Accepted) :
    (s.putResults c l).sym = s.sym := rfl
@[simp] theorem State.putResults_llr (c : Config) (l : List Accepted) :
    (s.putResults c l).llr = s.llr := rfl
@[simp] theorem State.putResults_samp (c : Config) (l : List Accepted) :
    (s.putResults c l).samp = s.samp := rfl
@[simp] theorem State.putResults_wave (c : Config) (l : List Accepted) :
    (s.putResults c l).wave = s.wave := rfl
@[simp] theorem State.putResults_spec (c : Config) (l : List Accepted) :
    (s.putResults c l).spec = s.spec := rfl
@[simp] theorem State.putResults_cand (c : Config) (l : List Accepted) :
    (s.putResults c l).cand = s.cand := rfl
@[simp] theorem State.putResults_bp (c : Config) (l : List Accepted) :
    (s.putResults c l).bp = s.bp := rfl
@[simp] theorem State.putResults_busy (c : Config) (l : List Accepted) :
    (s.putResults c l).busy = s.busy := rfl
@[simp] theorem State.putResults_done (c : Config) (l : List Accepted) :
    (s.putResults c l).done = s.done := rfl
@[simp] theorem State.putResults_fault (c : Config) (l : List Accepted) :
    (s.putResults c l).fault = s.fault := rfl
@[simp] theorem State.putResults_aborted (c : Config) (l : List Accepted) :
    (s.putResults c l).aborted = s.aborted := rfl
@[simp] theorem State.putResults_crcOk (c : Config) (l : List Accepted) :
    (s.putResults c l).crcOk = s.crcOk := rfl
@[simp] theorem State.putResults_conv (c : Config) (l : List Accepted) :
    (s.putResults c l).conv = s.conv := rfl
@[simp] theorem State.putResults_malf (c : Config) (l : List Accepted) :
    (s.putResults c l).malf = s.malf := rfl
@[simp] theorem State.putResults_lastErr (c : Config) (l : List Accepted) :
    (s.putResults c l).lastErr = s.lastErr := rfl
@[simp] theorem State.putResults_faultInfo (c : Config) (l : List Accepted) :
    (s.putResults c l).faultInfo = s.faultInfo := rfl
@[simp] theorem State.putResults_iter (c : Config) (l : List Accepted) :
    (s.putResults c l).iter = s.iter := rfl
@[simp] theorem State.putResults_conf (c : Config) (l : List Accepted) :
    (s.putResults c l).conf = s.conf := rfl
@[simp] theorem State.putResults_ncand (c : Config) (l : List Accepted) :
    (s.putResults c l).ncand = s.ncand := rfl
@[simp] theorem State.putResults_nres (c : Config) (l : List Accepted) :
    (s.putResults c l).nres = BitVec.ofNat 32 l.length := rfl
@[simp] theorem State.putResults_nt (c : Config) (l : List Accepted) :
    (s.putResults c l).nt = s.nt := rfl
@[simp] theorem State.putResults_nwave (c : Config) (l : List Accepted) :
    (s.putResults c l).nwave = s.nwave := rfl
@[simp] theorem State.putResults_cfg (c : Config) (l : List Accepted) :
    (s.putResults c l).cfg = s.cfg := rfl
@[simp] theorem State.putResults_phase (c : Config) (l : List Accepted) :
    (s.putResults c l).phase = s.phase := rfl
@[simp] theorem State.putResults_cidx (c : Config) (l : List Accepted) :
    (s.putResults c l).cidx = s.cidx := rfl
@[simp] theorem State.putResults_iterT (c : Config) (l : List Accepted) :
    (s.putResults c l).iterT = s.iterT := rfl
@[simp] theorem State.putResults_abortReq (c : Config) (l : List Accepted) :
    (s.putResults c l).abortReq = s.abortReq := rfl
@[simp] theorem State.putResults_run (c : Config) (l : List Accepted) :
    (s.putResults c l).run = s.run := rfl
@[simp] theorem State.putResults_acc (c : Config) (l : List Accepted) :
    (s.putResults c l).acc = s.acc := rfl
@[simp] theorem State.putResults_rdata (c : Config) (l : List Accepted) :
    (s.putResults c l).rdata = s.rdata := rfl
@[simp] theorem State.putResults_ticks (c : Config) (l : List Accepted) :
    (s.putResults c l).ticks = s.ticks := rfl
@[simp] theorem State.putResults_port (c : Config) (l : List Accepted) :
    (s.putResults c l).port = s.port := rfl
@[simp] theorem State.putResults_draws (c : Config) (l : List Accepted) :
    (s.putResults c l).draws = s.draws + 1 := rfl

/-! `startBp` initialises the message memory and T. -/

@[simp] theorem State.startBp_msg (c : Config) : (s.startBp c).msg = s.msg := rfl
@[simp] theorem State.startBp_pay (c : Config) : (s.startBp c).pay = s.pay := rfl
@[simp] theorem State.startBp_crc (c : Config) : (s.startBp c).crc = s.crc := rfl
@[simp] theorem State.startBp_cw (c : Config) : (s.startBp c).cw = s.cw := rfl
@[simp] theorem State.startBp_sym (c : Config) : (s.startBp c).sym = s.sym := rfl
@[simp] theorem State.startBp_llr (c : Config) : (s.startBp c).llr = s.llr := rfl
@[simp] theorem State.startBp_samp (c : Config) : (s.startBp c).samp = s.samp := rfl
@[simp] theorem State.startBp_wave (c : Config) : (s.startBp c).wave = s.wave := rfl
@[simp] theorem State.startBp_spec (c : Config) : (s.startBp c).spec = s.spec := rfl
@[simp] theorem State.startBp_cand (c : Config) : (s.startBp c).cand = s.cand := rfl
@[simp] theorem State.startBp_res (c : Config) : (s.startBp c).res = s.res := rfl
@[simp] theorem State.startBp_bp (c : Config) : (s.startBp c).bp = BpMem.init c s.bp := rfl
@[simp] theorem State.startBp_valid (c : Config) : (s.startBp c).valid = s.valid := rfl
@[simp] theorem State.startBp_busy (c : Config) : (s.startBp c).busy = s.busy := rfl
@[simp] theorem State.startBp_done (c : Config) : (s.startBp c).done = s.done := rfl
@[simp] theorem State.startBp_fault (c : Config) : (s.startBp c).fault = s.fault := rfl
@[simp] theorem State.startBp_aborted (c : Config) : (s.startBp c).aborted = s.aborted := rfl
@[simp] theorem State.startBp_crcOk (c : Config) : (s.startBp c).crcOk = s.crcOk := rfl
@[simp] theorem State.startBp_conv (c : Config) : (s.startBp c).conv = s.conv := rfl
@[simp] theorem State.startBp_malf (c : Config) : (s.startBp c).malf = s.malf := rfl
@[simp] theorem State.startBp_lastErr (c : Config) : (s.startBp c).lastErr = s.lastErr := rfl
@[simp] theorem State.startBp_faultInfo (c : Config) : (s.startBp c).faultInfo = s.faultInfo := rfl
@[simp] theorem State.startBp_iter (c : Config) : (s.startBp c).iter = s.iter := rfl
@[simp] theorem State.startBp_conf (c : Config) : (s.startBp c).conf = s.conf := rfl
@[simp] theorem State.startBp_ncand (c : Config) : (s.startBp c).ncand = s.ncand := rfl
@[simp] theorem State.startBp_nres (c : Config) : (s.startBp c).nres = s.nres := rfl
@[simp] theorem State.startBp_nt (c : Config) : (s.startBp c).nt = s.nt := rfl
@[simp] theorem State.startBp_nwave (c : Config) : (s.startBp c).nwave = s.nwave := rfl
@[simp] theorem State.startBp_cfg (c : Config) : (s.startBp c).cfg = s.cfg := rfl
@[simp] theorem State.startBp_phase (c : Config) : (s.startBp c).phase = s.phase := rfl
@[simp] theorem State.startBp_cidx (c : Config) : (s.startBp c).cidx = s.cidx := rfl
@[simp] theorem State.startBp_iterT (c : Config) : (s.startBp c).iterT = 0 := rfl
@[simp] theorem State.startBp_abortReq (c : Config) : (s.startBp c).abortReq = s.abortReq := rfl
@[simp] theorem State.startBp_run (c : Config) : (s.startBp c).run = s.run := rfl
@[simp] theorem State.startBp_acc (c : Config) : (s.startBp c).acc = s.acc := rfl
@[simp] theorem State.startBp_rdata (c : Config) : (s.startBp c).rdata = s.rdata := rfl
@[simp] theorem State.startBp_ticks (c : Config) : (s.startBp c).ticks = s.ticks := rfl
@[simp] theorem State.startBp_port (c : Config) : (s.startBp c).port = s.port := rfl
@[simp] theorem State.startBp_draws (c : Config) : (s.startBp c).draws = s.draws := rfl

/-! `iterateBp` writes the message memory and T. -/

@[simp] theorem State.iterateBp_msg (c : Config) : (s.iterateBp c).msg = s.msg := rfl
@[simp] theorem State.iterateBp_pay (c : Config) : (s.iterateBp c).pay = s.pay := rfl
@[simp] theorem State.iterateBp_crc (c : Config) : (s.iterateBp c).crc = s.crc := rfl
@[simp] theorem State.iterateBp_cw (c : Config) : (s.iterateBp c).cw = s.cw := rfl
@[simp] theorem State.iterateBp_sym (c : Config) : (s.iterateBp c).sym = s.sym := rfl
@[simp] theorem State.iterateBp_llr (c : Config) : (s.iterateBp c).llr = s.llr := rfl
@[simp] theorem State.iterateBp_samp (c : Config) : (s.iterateBp c).samp = s.samp := rfl
@[simp] theorem State.iterateBp_wave (c : Config) : (s.iterateBp c).wave = s.wave := rfl
@[simp] theorem State.iterateBp_spec (c : Config) : (s.iterateBp c).spec = s.spec := rfl
@[simp] theorem State.iterateBp_cand (c : Config) : (s.iterateBp c).cand = s.cand := rfl
@[simp] theorem State.iterateBp_res (c : Config) : (s.iterateBp c).res = s.res := rfl
@[simp] theorem State.iterateBp_bp (c : Config) :
    (s.iterateBp c).bp = bpIterate c s.llrAt s.bp := rfl
@[simp] theorem State.iterateBp_valid (c : Config) : (s.iterateBp c).valid = s.valid := rfl
@[simp] theorem State.iterateBp_busy (c : Config) : (s.iterateBp c).busy = s.busy := rfl
@[simp] theorem State.iterateBp_done (c : Config) : (s.iterateBp c).done = s.done := rfl
@[simp] theorem State.iterateBp_fault (c : Config) : (s.iterateBp c).fault = s.fault := rfl
@[simp] theorem State.iterateBp_aborted (c : Config) : (s.iterateBp c).aborted = s.aborted := rfl
@[simp] theorem State.iterateBp_crcOk (c : Config) : (s.iterateBp c).crcOk = s.crcOk := rfl
@[simp] theorem State.iterateBp_conv (c : Config) : (s.iterateBp c).conv = s.conv := rfl
@[simp] theorem State.iterateBp_malf (c : Config) : (s.iterateBp c).malf = s.malf := rfl
@[simp] theorem State.iterateBp_lastErr (c : Config) : (s.iterateBp c).lastErr = s.lastErr := rfl
@[simp] theorem State.iterateBp_faultInfo (c : Config) :
    (s.iterateBp c).faultInfo = s.faultInfo := rfl
@[simp] theorem State.iterateBp_iter (c : Config) : (s.iterateBp c).iter = s.iter := rfl
@[simp] theorem State.iterateBp_conf (c : Config) : (s.iterateBp c).conf = s.conf := rfl
@[simp] theorem State.iterateBp_ncand (c : Config) : (s.iterateBp c).ncand = s.ncand := rfl
@[simp] theorem State.iterateBp_nres (c : Config) : (s.iterateBp c).nres = s.nres := rfl
@[simp] theorem State.iterateBp_nt (c : Config) : (s.iterateBp c).nt = s.nt := rfl
@[simp] theorem State.iterateBp_nwave (c : Config) : (s.iterateBp c).nwave = s.nwave := rfl
@[simp] theorem State.iterateBp_cfg (c : Config) : (s.iterateBp c).cfg = s.cfg := rfl
@[simp] theorem State.iterateBp_phase (c : Config) : (s.iterateBp c).phase = s.phase := rfl
@[simp] theorem State.iterateBp_cidx (c : Config) : (s.iterateBp c).cidx = s.cidx := rfl
@[simp] theorem State.iterateBp_iterT (c : Config) : (s.iterateBp c).iterT = s.iterT + 1 := rfl
@[simp] theorem State.iterateBp_abortReq (c : Config) : (s.iterateBp c).abortReq = s.abortReq := rfl
@[simp] theorem State.iterateBp_run (c : Config) : (s.iterateBp c).run = s.run := rfl
@[simp] theorem State.iterateBp_acc (c : Config) : (s.iterateBp c).acc = s.acc := rfl
@[simp] theorem State.iterateBp_rdata (c : Config) : (s.iterateBp c).rdata = s.rdata := rfl
@[simp] theorem State.iterateBp_ticks (c : Config) : (s.iterateBp c).ticks = s.ticks := rfl
@[simp] theorem State.iterateBp_port (c : Config) : (s.iterateBp c).port = s.port := rfl
@[simp] theorem State.iterateBp_draws (c : Config) : (s.iterateBp c).draws = s.draws := rfl

/-! `splitCodeword` writes PAY and CRC. -/

@[simp] theorem State.splitCodeword_msg : s.splitCodeword.msg = s.msg := rfl
@[simp] theorem State.splitCodeword_pay : s.splitCodeword.pay = slice s.cw 0 77 := rfl
@[simp] theorem State.splitCodeword_crc : s.splitCodeword.crc = slice s.cw 77 14 := rfl
@[simp] theorem State.splitCodeword_cw : s.splitCodeword.cw = s.cw := rfl
@[simp] theorem State.splitCodeword_sym : s.splitCodeword.sym = s.sym := rfl
@[simp] theorem State.splitCodeword_llr : s.splitCodeword.llr = s.llr := rfl
@[simp] theorem State.splitCodeword_samp : s.splitCodeword.samp = s.samp := rfl
@[simp] theorem State.splitCodeword_wave : s.splitCodeword.wave = s.wave := rfl
@[simp] theorem State.splitCodeword_spec : s.splitCodeword.spec = s.spec := rfl
@[simp] theorem State.splitCodeword_cand : s.splitCodeword.cand = s.cand := rfl
@[simp] theorem State.splitCodeword_res : s.splitCodeword.res = s.res := rfl
@[simp] theorem State.splitCodeword_bp : s.splitCodeword.bp = s.bp := rfl
@[simp] theorem State.splitCodeword_valid : s.splitCodeword.valid = s.valid := rfl
@[simp] theorem State.splitCodeword_busy : s.splitCodeword.busy = s.busy := rfl
@[simp] theorem State.splitCodeword_done : s.splitCodeword.done = s.done := rfl
@[simp] theorem State.splitCodeword_fault : s.splitCodeword.fault = s.fault := rfl
@[simp] theorem State.splitCodeword_aborted : s.splitCodeword.aborted = s.aborted := rfl
@[simp] theorem State.splitCodeword_crcOk : s.splitCodeword.crcOk = s.crcOk := rfl
@[simp] theorem State.splitCodeword_conv : s.splitCodeword.conv = s.conv := rfl
@[simp] theorem State.splitCodeword_malf : s.splitCodeword.malf = s.malf := rfl
@[simp] theorem State.splitCodeword_lastErr : s.splitCodeword.lastErr = s.lastErr := rfl
@[simp] theorem State.splitCodeword_faultInfo : s.splitCodeword.faultInfo = s.faultInfo := rfl
@[simp] theorem State.splitCodeword_iter : s.splitCodeword.iter = s.iter := rfl
@[simp] theorem State.splitCodeword_conf : s.splitCodeword.conf = s.conf := rfl
@[simp] theorem State.splitCodeword_ncand : s.splitCodeword.ncand = s.ncand := rfl
@[simp] theorem State.splitCodeword_nres : s.splitCodeword.nres = s.nres := rfl
@[simp] theorem State.splitCodeword_nt : s.splitCodeword.nt = s.nt := rfl
@[simp] theorem State.splitCodeword_nwave : s.splitCodeword.nwave = s.nwave := rfl
@[simp] theorem State.splitCodeword_cfg : s.splitCodeword.cfg = s.cfg := rfl
@[simp] theorem State.splitCodeword_phase : s.splitCodeword.phase = s.phase := rfl
@[simp] theorem State.splitCodeword_cidx : s.splitCodeword.cidx = s.cidx := rfl
@[simp] theorem State.splitCodeword_iterT : s.splitCodeword.iterT = s.iterT := rfl
@[simp] theorem State.splitCodeword_abortReq : s.splitCodeword.abortReq = s.abortReq := rfl
@[simp] theorem State.splitCodeword_run : s.splitCodeword.run = s.run := rfl
@[simp] theorem State.splitCodeword_acc : s.splitCodeword.acc = s.acc := rfl
@[simp] theorem State.splitCodeword_rdata : s.splitCodeword.rdata = s.rdata := rfl
@[simp] theorem State.splitCodeword_ticks : s.splitCodeword.ticks = s.ticks := rfl
@[simp] theorem State.splitCodeword_port : s.splitCodeword.port = s.port := rfl
@[simp] theorem State.splitCodeword_draws : s.splitCodeword.draws = s.draws := rfl

/-! `resetBlock` writes everything but the port. -/

@[simp] theorem State.resetBlock_msg : s.resetBlock.msg = ⟨none, []⟩ := rfl
@[simp] theorem State.resetBlock_pay : s.resetBlock.pay = 0#77 := rfl
@[simp] theorem State.resetBlock_crc : s.resetBlock.crc = 0#14 := rfl
@[simp] theorem State.resetBlock_cw : s.resetBlock.cw = 0#174 := rfl
@[simp] theorem State.resetBlock_sym : s.resetBlock.sym = ⟨none, []⟩ := rfl
@[simp] theorem State.resetBlock_llr : s.resetBlock.llr = ⟨some s.draws, []⟩ := rfl
@[simp] theorem State.resetBlock_samp : s.resetBlock.samp = ⟨some (s.draws + 1), []⟩ := rfl
@[simp] theorem State.resetBlock_wave : s.resetBlock.wave = ⟨some (s.draws + 2), []⟩ := rfl
@[simp] theorem State.resetBlock_spec : s.resetBlock.spec = ⟨some (s.draws + 3), []⟩ := rfl
@[simp] theorem State.resetBlock_cand : s.resetBlock.cand = ⟨some (s.draws + 4), []⟩ := rfl
@[simp] theorem State.resetBlock_res : s.resetBlock.res = ⟨some (s.draws + 5), []⟩ := rfl
@[simp] theorem State.resetBlock_bp : s.resetBlock.bp = ⟨s.draws + 6, [], [], []⟩ := rfl
@[simp] theorem State.resetBlock_valid : s.resetBlock.valid = 0#12 := rfl
@[simp] theorem State.resetBlock_busy : s.resetBlock.busy = false := rfl
@[simp] theorem State.resetBlock_done : s.resetBlock.done = false := rfl
@[simp] theorem State.resetBlock_fault : s.resetBlock.fault = false := rfl
@[simp] theorem State.resetBlock_aborted : s.resetBlock.aborted = false := rfl
@[simp] theorem State.resetBlock_crcOk : s.resetBlock.crcOk = false := rfl
@[simp] theorem State.resetBlock_conv : s.resetBlock.conv = false := rfl
@[simp] theorem State.resetBlock_malf : s.resetBlock.malf = false := rfl
@[simp] theorem State.resetBlock_lastErr : s.resetBlock.lastErr = 0#8 := rfl
@[simp] theorem State.resetBlock_faultInfo : s.resetBlock.faultInfo = 0#32 := rfl
@[simp] theorem State.resetBlock_iter : s.resetBlock.iter = 0#32 := rfl
@[simp] theorem State.resetBlock_conf : s.resetBlock.conf = 0#32 := rfl
@[simp] theorem State.resetBlock_ncand : s.resetBlock.ncand = 0#32 := rfl
@[simp] theorem State.resetBlock_nres : s.resetBlock.nres = 0#32 := rfl
@[simp] theorem State.resetBlock_nt : s.resetBlock.nt = 0#32 := rfl
@[simp] theorem State.resetBlock_nwave : s.resetBlock.nwave = 0#32 := rfl
@[simp] theorem State.resetBlock_cfg : s.resetBlock.cfg = CfgRegs.reset := rfl
@[simp] theorem State.resetBlock_phase : s.resetBlock.phase = .idle := rfl
@[simp] theorem State.resetBlock_cidx : s.resetBlock.cidx = 0 := rfl
@[simp] theorem State.resetBlock_iterT : s.resetBlock.iterT = 0 := rfl
@[simp] theorem State.resetBlock_abortReq : s.resetBlock.abortReq = false := rfl
@[simp] theorem State.resetBlock_run : s.resetBlock.run = none := rfl
@[simp] theorem State.resetBlock_acc : s.resetBlock.acc = [] := rfl
@[simp] theorem State.resetBlock_rdata : s.resetBlock.rdata = s.rdata := rfl
@[simp] theorem State.resetBlock_ticks : s.resetBlock.ticks = 0 := rfl
@[simp] theorem State.resetBlock_port : s.resetBlock.port = s.port := rfl
@[simp] theorem State.resetBlock_draws : s.resetBlock.draws = s.draws + 7 := rfl

/-! `scramble b` and `discard b` write buffer `b`, its counter and the number of the next draw. -/

@[simp] theorem State.scramble_bp (b : Space) : (s.scramble b).bp = s.bp := by
  cases b <;> rfl

@[simp] theorem State.discard_bp (b : Space) : (s.discard b).bp = s.bp := by
  cases b <;> rfl

@[simp] theorem State.scramble_busy (b : Space) : (s.scramble b).busy = s.busy := by
  cases b <;> rfl

@[simp] theorem State.discard_busy (b : Space) : (s.discard b).busy = s.busy := by
  cases b <;> rfl

@[simp] theorem State.scramble_done (b : Space) : (s.scramble b).done = s.done := by
  cases b <;> rfl

@[simp] theorem State.discard_done (b : Space) : (s.discard b).done = s.done := by
  cases b <;> rfl

@[simp] theorem State.scramble_fault (b : Space) : (s.scramble b).fault = s.fault := by
  cases b <;> rfl

@[simp] theorem State.discard_fault (b : Space) : (s.discard b).fault = s.fault := by
  cases b <;> rfl

@[simp] theorem State.scramble_aborted (b : Space) : (s.scramble b).aborted = s.aborted := by
  cases b <;> rfl

@[simp] theorem State.discard_aborted (b : Space) : (s.discard b).aborted = s.aborted := by
  cases b <;> rfl

@[simp] theorem State.scramble_crcOk (b : Space) : (s.scramble b).crcOk = s.crcOk := by
  cases b <;> rfl

@[simp] theorem State.discard_crcOk (b : Space) : (s.discard b).crcOk = s.crcOk := by
  cases b <;> rfl

@[simp] theorem State.scramble_conv (b : Space) : (s.scramble b).conv = s.conv := by
  cases b <;> rfl

@[simp] theorem State.discard_conv (b : Space) : (s.discard b).conv = s.conv := by
  cases b <;> rfl

@[simp] theorem State.scramble_malf (b : Space) : (s.scramble b).malf = s.malf := by
  cases b <;> rfl

@[simp] theorem State.discard_malf (b : Space) : (s.discard b).malf = s.malf := by
  cases b <;> rfl

@[simp] theorem State.scramble_lastErr (b : Space) : (s.scramble b).lastErr = s.lastErr := by
  cases b <;> rfl

@[simp] theorem State.discard_lastErr (b : Space) : (s.discard b).lastErr = s.lastErr := by
  cases b <;> rfl

@[simp] theorem State.scramble_faultInfo (b : Space) : (s.scramble b).faultInfo = s.faultInfo := by
  cases b <;> rfl

@[simp] theorem State.discard_faultInfo (b : Space) : (s.discard b).faultInfo = s.faultInfo := by
  cases b <;> rfl

@[simp] theorem State.scramble_iter (b : Space) : (s.scramble b).iter = s.iter := by
  cases b <;> rfl

@[simp] theorem State.discard_iter (b : Space) : (s.discard b).iter = s.iter := by
  cases b <;> rfl

@[simp] theorem State.scramble_conf (b : Space) : (s.scramble b).conf = s.conf := by
  cases b <;> rfl

@[simp] theorem State.discard_conf (b : Space) : (s.discard b).conf = s.conf := by
  cases b <;> rfl

@[simp] theorem State.scramble_cfg (b : Space) : (s.scramble b).cfg = s.cfg := by
  cases b <;> rfl

@[simp] theorem State.discard_cfg (b : Space) : (s.discard b).cfg = s.cfg := by
  cases b <;> rfl

@[simp] theorem State.scramble_phase (b : Space) : (s.scramble b).phase = s.phase := by
  cases b <;> rfl

@[simp] theorem State.discard_phase (b : Space) : (s.discard b).phase = s.phase := by
  cases b <;> rfl

@[simp] theorem State.scramble_cidx (b : Space) : (s.scramble b).cidx = s.cidx := by
  cases b <;> rfl

@[simp] theorem State.discard_cidx (b : Space) : (s.discard b).cidx = s.cidx := by
  cases b <;> rfl

@[simp] theorem State.scramble_iterT (b : Space) : (s.scramble b).iterT = s.iterT := by
  cases b <;> rfl

@[simp] theorem State.discard_iterT (b : Space) : (s.discard b).iterT = s.iterT := by
  cases b <;> rfl

@[simp] theorem State.scramble_abortReq (b : Space) : (s.scramble b).abortReq = s.abortReq := by
  cases b <;> rfl

@[simp] theorem State.discard_abortReq (b : Space) : (s.discard b).abortReq = s.abortReq := by
  cases b <;> rfl

@[simp] theorem State.scramble_run (b : Space) : (s.scramble b).run = s.run := by
  cases b <;> rfl

@[simp] theorem State.discard_run (b : Space) : (s.discard b).run = s.run := by
  cases b <;> rfl

@[simp] theorem State.scramble_acc (b : Space) : (s.scramble b).acc = s.acc := by
  cases b <;> rfl

@[simp] theorem State.discard_acc (b : Space) : (s.discard b).acc = s.acc := by
  cases b <;> rfl

@[simp] theorem State.scramble_rdata (b : Space) : (s.scramble b).rdata = s.rdata := by
  cases b <;> rfl

@[simp] theorem State.discard_rdata (b : Space) : (s.discard b).rdata = s.rdata := by
  cases b <;> rfl

@[simp] theorem State.scramble_ticks (b : Space) : (s.scramble b).ticks = s.ticks := by
  cases b <;> rfl

@[simp] theorem State.discard_ticks (b : Space) : (s.discard b).ticks = s.ticks := by
  cases b <;> rfl

@[simp] theorem State.scramble_port (b : Space) : (s.scramble b).port = s.port := by
  cases b <;> rfl

@[simp] theorem State.discard_port (b : Space) : (s.discard b).port = s.port := by
  cases b <;> rfl

theorem State.scramble_msg_of_ne (b : Space) (h : b ≠ .msg) : (s.scramble b).msg = s.msg := by
  cases b <;> first | rfl | exact absurd rfl h

theorem State.discard_msg_of_ne (b : Space) (h : b ≠ .msg) : (s.discard b).msg = s.msg := by
  cases b <;> first | rfl | exact absurd rfl h

theorem State.scramble_pay_of_ne (b : Space) (h : b ≠ .pay) : (s.scramble b).pay = s.pay := by
  cases b <;> first | rfl | exact absurd rfl h

theorem State.discard_pay_of_ne (b : Space) (h : b ≠ .pay) : (s.discard b).pay = s.pay := by
  cases b <;> first | rfl | exact absurd rfl h

theorem State.scramble_crc_of_ne (b : Space) (h : b ≠ .crc) : (s.scramble b).crc = s.crc := by
  cases b <;> first | rfl | exact absurd rfl h

theorem State.discard_crc_of_ne (b : Space) (h : b ≠ .crc) : (s.discard b).crc = s.crc := by
  cases b <;> first | rfl | exact absurd rfl h

theorem State.scramble_cw_of_ne (b : Space) (h : b ≠ .cw) : (s.scramble b).cw = s.cw := by
  cases b <;> first | rfl | exact absurd rfl h

theorem State.discard_cw_of_ne (b : Space) (h : b ≠ .cw) : (s.discard b).cw = s.cw := by
  cases b <;> first | rfl | exact absurd rfl h

theorem State.scramble_sym_of_ne (b : Space) (h : b ≠ .sym) : (s.scramble b).sym = s.sym := by
  cases b <;> first | rfl | exact absurd rfl h

theorem State.discard_sym_of_ne (b : Space) (h : b ≠ .sym) : (s.discard b).sym = s.sym := by
  cases b <;> first | rfl | exact absurd rfl h

theorem State.scramble_llr_of_ne (b : Space) (h : b ≠ .llr) : (s.scramble b).llr = s.llr := by
  cases b <;> first | rfl | exact absurd rfl h

theorem State.discard_llr_of_ne (b : Space) (h : b ≠ .llr) : (s.discard b).llr = s.llr := by
  cases b <;> first | rfl | exact absurd rfl h

theorem State.scramble_samp_of_ne (b : Space) (h : b ≠ .samp) : (s.scramble b).samp = s.samp := by
  cases b <;> first | rfl | exact absurd rfl h

theorem State.discard_samp_of_ne (b : Space) (h : b ≠ .samp) : (s.discard b).samp = s.samp := by
  cases b <;> first | rfl | exact absurd rfl h

theorem State.scramble_wave_of_ne (b : Space) (h : b ≠ .wave) : (s.scramble b).wave = s.wave := by
  cases b <;> first | rfl | exact absurd rfl h

theorem State.discard_wave_of_ne (b : Space) (h : b ≠ .wave) : (s.discard b).wave = s.wave := by
  cases b <;> first | rfl | exact absurd rfl h

theorem State.scramble_spec_of_ne (b : Space) (h : b ≠ .spec) : (s.scramble b).spec = s.spec := by
  cases b <;> first | rfl | exact absurd rfl h

theorem State.discard_spec_of_ne (b : Space) (h : b ≠ .spec) : (s.discard b).spec = s.spec := by
  cases b <;> first | rfl | exact absurd rfl h

theorem State.scramble_cand_of_ne (b : Space) (h : b ≠ .cand) : (s.scramble b).cand = s.cand := by
  cases b <;> first | rfl | exact absurd rfl h

theorem State.discard_cand_of_ne (b : Space) (h : b ≠ .cand) : (s.discard b).cand = s.cand := by
  cases b <;> first | rfl | exact absurd rfl h

theorem State.scramble_res_of_ne (b : Space) (h : b ≠ .res) : (s.scramble b).res = s.res := by
  cases b <;> first | rfl | exact absurd rfl h

theorem State.discard_res_of_ne (b : Space) (h : b ≠ .res) : (s.discard b).res = s.res := by
  cases b <;> first | rfl | exact absurd rfl h

theorem State.scramble_nwave_of_ne (b : Space) (h : b ≠ .wave) : (s.scramble b).nwave = s.nwave := by
  cases b <;> first | rfl | exact absurd rfl h

theorem State.discard_nwave_of_ne (b : Space) (h : b ≠ .wave) : (s.discard b).nwave = s.nwave := by
  cases b <;> first | rfl | exact absurd rfl h

theorem State.scramble_nt_of_ne (b : Space) (h : b ≠ .spec) : (s.scramble b).nt = s.nt := by
  cases b <;> first | rfl | exact absurd rfl h

theorem State.discard_nt_of_ne (b : Space) (h : b ≠ .spec) : (s.discard b).nt = s.nt := by
  cases b <;> first | rfl | exact absurd rfl h

theorem State.scramble_ncand_of_ne (b : Space) (h : b ≠ .cand) : (s.scramble b).ncand = s.ncand := by
  cases b <;> first | rfl | exact absurd rfl h

theorem State.discard_ncand_of_ne (b : Space) (h : b ≠ .cand) : (s.discard b).ncand = s.ncand := by
  cases b <;> first | rfl | exact absurd rfl h

theorem State.scramble_nres_of_ne (b : Space) (h : b ≠ .res) : (s.scramble b).nres = s.nres := by
  cases b <;> first | rfl | exact absurd rfl h

theorem State.discard_nres_of_ne (b : Space) (h : b ≠ .res) : (s.discard b).nres = s.nres := by
  cases b <;> first | rfl | exact absurd rfl h

@[simp] theorem State.scramble_valid (b : Space) : (s.scramble b).valid = s.valid := by
  cases b <;> rfl

@[simp] theorem State.scramble_draws (b : Space) : (s.scramble b).draws = s.draws + 1 := by
  cases b <;> rfl

@[simp] theorem State.discard_valid (b : Space) :
    (s.discard b).valid = (s.setValid b false).valid := by
  cases b <;> rfl

@[simp] theorem State.discard_draws (b : Space) : (s.discard b).draws = s.draws + 1 := by
  cases b <;> rfl

/-- A field that no discard writes. -/
theorem State.discardAll_field {α : Type} {f : State → α} (h : ∀ s b, f (s.discard b) = f s)
    (l : List Space) (s : State) : f (s.discardAll l) = f s := by
  induction l generalizing s with
  | nil => rfl
  | cons b l ih => rw [State.discardAll, List.foldl_cons, ← State.discardAll, ih, h]

@[simp] theorem State.discardAll_bp (l : List Space) : (s.discardAll l).bp = s.bp :=
  State.discardAll_field State.discard_bp l s

@[simp] theorem State.discardAll_busy (l : List Space) : (s.discardAll l).busy = s.busy :=
  State.discardAll_field State.discard_busy l s

@[simp] theorem State.discardAll_done (l : List Space) : (s.discardAll l).done = s.done :=
  State.discardAll_field State.discard_done l s

@[simp] theorem State.discardAll_fault (l : List Space) : (s.discardAll l).fault = s.fault :=
  State.discardAll_field State.discard_fault l s

@[simp] theorem State.discardAll_aborted (l : List Space) : (s.discardAll l).aborted = s.aborted :=
  State.discardAll_field State.discard_aborted l s

@[simp] theorem State.discardAll_crcOk (l : List Space) : (s.discardAll l).crcOk = s.crcOk :=
  State.discardAll_field State.discard_crcOk l s

@[simp] theorem State.discardAll_conv (l : List Space) : (s.discardAll l).conv = s.conv :=
  State.discardAll_field State.discard_conv l s

@[simp] theorem State.discardAll_malf (l : List Space) : (s.discardAll l).malf = s.malf :=
  State.discardAll_field State.discard_malf l s

@[simp] theorem State.discardAll_lastErr (l : List Space) : (s.discardAll l).lastErr = s.lastErr :=
  State.discardAll_field State.discard_lastErr l s

@[simp] theorem State.discardAll_faultInfo (l : List Space) : (s.discardAll l).faultInfo = s.faultInfo :=
  State.discardAll_field State.discard_faultInfo l s

@[simp] theorem State.discardAll_iter (l : List Space) : (s.discardAll l).iter = s.iter :=
  State.discardAll_field State.discard_iter l s

@[simp] theorem State.discardAll_conf (l : List Space) : (s.discardAll l).conf = s.conf :=
  State.discardAll_field State.discard_conf l s

@[simp] theorem State.discardAll_cfg (l : List Space) : (s.discardAll l).cfg = s.cfg :=
  State.discardAll_field State.discard_cfg l s

@[simp] theorem State.discardAll_phase (l : List Space) : (s.discardAll l).phase = s.phase :=
  State.discardAll_field State.discard_phase l s

@[simp] theorem State.discardAll_cidx (l : List Space) : (s.discardAll l).cidx = s.cidx :=
  State.discardAll_field State.discard_cidx l s

@[simp] theorem State.discardAll_iterT (l : List Space) : (s.discardAll l).iterT = s.iterT :=
  State.discardAll_field State.discard_iterT l s

@[simp] theorem State.discardAll_abortReq (l : List Space) : (s.discardAll l).abortReq = s.abortReq :=
  State.discardAll_field State.discard_abortReq l s

@[simp] theorem State.discardAll_run (l : List Space) : (s.discardAll l).run = s.run :=
  State.discardAll_field State.discard_run l s

@[simp] theorem State.discardAll_acc (l : List Space) : (s.discardAll l).acc = s.acc :=
  State.discardAll_field State.discard_acc l s

@[simp] theorem State.discardAll_rdata (l : List Space) : (s.discardAll l).rdata = s.rdata :=
  State.discardAll_field State.discard_rdata l s

@[simp] theorem State.discardAll_ticks (l : List Space) : (s.discardAll l).ticks = s.ticks :=
  State.discardAll_field State.discard_ticks l s

@[simp] theorem State.discardAll_port (l : List Space) : (s.discardAll l).port = s.port :=
  State.discardAll_field State.discard_port l s

theorem State.discardAll_msg_of_not_mem (l : List Space) (h : .msg ∉ l) :
    (s.discardAll l).msg = s.msg := by
  induction l generalizing s with
  | nil => rfl
  | cons b l ih =>
    rw [List.mem_cons, not_or] at h
    rw [State.discardAll, List.foldl_cons, ← State.discardAll, ih _ h.2,
      State.discard_msg_of_ne s b (Ne.symm h.1)]

theorem State.discardAll_pay_of_not_mem (l : List Space) (h : .pay ∉ l) :
    (s.discardAll l).pay = s.pay := by
  induction l generalizing s with
  | nil => rfl
  | cons b l ih =>
    rw [List.mem_cons, not_or] at h
    rw [State.discardAll, List.foldl_cons, ← State.discardAll, ih _ h.2,
      State.discard_pay_of_ne s b (Ne.symm h.1)]

theorem State.discardAll_crc_of_not_mem (l : List Space) (h : .crc ∉ l) :
    (s.discardAll l).crc = s.crc := by
  induction l generalizing s with
  | nil => rfl
  | cons b l ih =>
    rw [List.mem_cons, not_or] at h
    rw [State.discardAll, List.foldl_cons, ← State.discardAll, ih _ h.2,
      State.discard_crc_of_ne s b (Ne.symm h.1)]

theorem State.discardAll_cw_of_not_mem (l : List Space) (h : .cw ∉ l) :
    (s.discardAll l).cw = s.cw := by
  induction l generalizing s with
  | nil => rfl
  | cons b l ih =>
    rw [List.mem_cons, not_or] at h
    rw [State.discardAll, List.foldl_cons, ← State.discardAll, ih _ h.2,
      State.discard_cw_of_ne s b (Ne.symm h.1)]

theorem State.discardAll_sym_of_not_mem (l : List Space) (h : .sym ∉ l) :
    (s.discardAll l).sym = s.sym := by
  induction l generalizing s with
  | nil => rfl
  | cons b l ih =>
    rw [List.mem_cons, not_or] at h
    rw [State.discardAll, List.foldl_cons, ← State.discardAll, ih _ h.2,
      State.discard_sym_of_ne s b (Ne.symm h.1)]

theorem State.discardAll_llr_of_not_mem (l : List Space) (h : .llr ∉ l) :
    (s.discardAll l).llr = s.llr := by
  induction l generalizing s with
  | nil => rfl
  | cons b l ih =>
    rw [List.mem_cons, not_or] at h
    rw [State.discardAll, List.foldl_cons, ← State.discardAll, ih _ h.2,
      State.discard_llr_of_ne s b (Ne.symm h.1)]

theorem State.discardAll_samp_of_not_mem (l : List Space) (h : .samp ∉ l) :
    (s.discardAll l).samp = s.samp := by
  induction l generalizing s with
  | nil => rfl
  | cons b l ih =>
    rw [List.mem_cons, not_or] at h
    rw [State.discardAll, List.foldl_cons, ← State.discardAll, ih _ h.2,
      State.discard_samp_of_ne s b (Ne.symm h.1)]

theorem State.discardAll_wave_of_not_mem (l : List Space) (h : .wave ∉ l) :
    (s.discardAll l).wave = s.wave := by
  induction l generalizing s with
  | nil => rfl
  | cons b l ih =>
    rw [List.mem_cons, not_or] at h
    rw [State.discardAll, List.foldl_cons, ← State.discardAll, ih _ h.2,
      State.discard_wave_of_ne s b (Ne.symm h.1)]

theorem State.discardAll_spec_of_not_mem (l : List Space) (h : .spec ∉ l) :
    (s.discardAll l).spec = s.spec := by
  induction l generalizing s with
  | nil => rfl
  | cons b l ih =>
    rw [List.mem_cons, not_or] at h
    rw [State.discardAll, List.foldl_cons, ← State.discardAll, ih _ h.2,
      State.discard_spec_of_ne s b (Ne.symm h.1)]

theorem State.discardAll_cand_of_not_mem (l : List Space) (h : .cand ∉ l) :
    (s.discardAll l).cand = s.cand := by
  induction l generalizing s with
  | nil => rfl
  | cons b l ih =>
    rw [List.mem_cons, not_or] at h
    rw [State.discardAll, List.foldl_cons, ← State.discardAll, ih _ h.2,
      State.discard_cand_of_ne s b (Ne.symm h.1)]

theorem State.discardAll_res_of_not_mem (l : List Space) (h : .res ∉ l) :
    (s.discardAll l).res = s.res := by
  induction l generalizing s with
  | nil => rfl
  | cons b l ih =>
    rw [List.mem_cons, not_or] at h
    rw [State.discardAll, List.foldl_cons, ← State.discardAll, ih _ h.2,
      State.discard_res_of_ne s b (Ne.symm h.1)]

theorem State.discardAll_nwave_of_not_mem (l : List Space) (h : .wave ∉ l) :
    (s.discardAll l).nwave = s.nwave := by
  induction l generalizing s with
  | nil => rfl
  | cons b l ih =>
    rw [List.mem_cons, not_or] at h
    rw [State.discardAll, List.foldl_cons, ← State.discardAll, ih _ h.2,
      State.discard_nwave_of_ne s b (Ne.symm h.1)]

theorem State.discardAll_nt_of_not_mem (l : List Space) (h : .spec ∉ l) :
    (s.discardAll l).nt = s.nt := by
  induction l generalizing s with
  | nil => rfl
  | cons b l ih =>
    rw [List.mem_cons, not_or] at h
    rw [State.discardAll, List.foldl_cons, ← State.discardAll, ih _ h.2,
      State.discard_nt_of_ne s b (Ne.symm h.1)]

theorem State.discardAll_ncand_of_not_mem (l : List Space) (h : .cand ∉ l) :
    (s.discardAll l).ncand = s.ncand := by
  induction l generalizing s with
  | nil => rfl
  | cons b l ih =>
    rw [List.mem_cons, not_or] at h
    rw [State.discardAll, List.foldl_cons, ← State.discardAll, ih _ h.2,
      State.discard_ncand_of_ne s b (Ne.symm h.1)]

theorem State.discardAll_nres_of_not_mem (l : List Space) (h : .res ∉ l) :
    (s.discardAll l).nres = s.nres := by
  induction l generalizing s with
  | nil => rfl
  | cons b l ih =>
    rw [List.mem_cons, not_or] at h
    rw [State.discardAll, List.foldl_cons, ← State.discardAll, ih _ h.2,
      State.discard_nres_of_ne s b (Ne.symm h.1)]

/-! `toBoundary` writes PHASE, and `nextCandidate` CIDX as well. -/

@[simp] theorem State.toBoundary_msg : s.toBoundary.msg = s.msg := by
  unfold State.toBoundary; split <;> rfl

@[simp] theorem State.nextCandidate_msg : s.nextCandidate.msg = s.msg := by
  simp [State.nextCandidate]

@[simp] theorem State.toBoundary_pay : s.toBoundary.pay = s.pay := by
  unfold State.toBoundary; split <;> rfl

@[simp] theorem State.nextCandidate_pay : s.nextCandidate.pay = s.pay := by
  simp [State.nextCandidate]

@[simp] theorem State.toBoundary_crc : s.toBoundary.crc = s.crc := by
  unfold State.toBoundary; split <;> rfl

@[simp] theorem State.nextCandidate_crc : s.nextCandidate.crc = s.crc := by
  simp [State.nextCandidate]

@[simp] theorem State.toBoundary_cw : s.toBoundary.cw = s.cw := by
  unfold State.toBoundary; split <;> rfl

@[simp] theorem State.nextCandidate_cw : s.nextCandidate.cw = s.cw := by
  simp [State.nextCandidate]

@[simp] theorem State.toBoundary_sym : s.toBoundary.sym = s.sym := by
  unfold State.toBoundary; split <;> rfl

@[simp] theorem State.nextCandidate_sym : s.nextCandidate.sym = s.sym := by
  simp [State.nextCandidate]

@[simp] theorem State.toBoundary_llr : s.toBoundary.llr = s.llr := by
  unfold State.toBoundary; split <;> rfl

@[simp] theorem State.nextCandidate_llr : s.nextCandidate.llr = s.llr := by
  simp [State.nextCandidate]

@[simp] theorem State.toBoundary_samp : s.toBoundary.samp = s.samp := by
  unfold State.toBoundary; split <;> rfl

@[simp] theorem State.nextCandidate_samp : s.nextCandidate.samp = s.samp := by
  simp [State.nextCandidate]

@[simp] theorem State.toBoundary_wave : s.toBoundary.wave = s.wave := by
  unfold State.toBoundary; split <;> rfl

@[simp] theorem State.nextCandidate_wave : s.nextCandidate.wave = s.wave := by
  simp [State.nextCandidate]

@[simp] theorem State.toBoundary_spec : s.toBoundary.spec = s.spec := by
  unfold State.toBoundary; split <;> rfl

@[simp] theorem State.nextCandidate_spec : s.nextCandidate.spec = s.spec := by
  simp [State.nextCandidate]

@[simp] theorem State.toBoundary_cand : s.toBoundary.cand = s.cand := by
  unfold State.toBoundary; split <;> rfl

@[simp] theorem State.nextCandidate_cand : s.nextCandidate.cand = s.cand := by
  simp [State.nextCandidate]

@[simp] theorem State.toBoundary_res : s.toBoundary.res = s.res := by
  unfold State.toBoundary; split <;> rfl

@[simp] theorem State.nextCandidate_res : s.nextCandidate.res = s.res := by
  simp [State.nextCandidate]

@[simp] theorem State.toBoundary_bp : s.toBoundary.bp = s.bp := by
  unfold State.toBoundary; split <;> rfl

@[simp] theorem State.nextCandidate_bp : s.nextCandidate.bp = s.bp := by
  simp [State.nextCandidate]

@[simp] theorem State.toBoundary_valid : s.toBoundary.valid = s.valid := by
  unfold State.toBoundary; split <;> rfl

@[simp] theorem State.nextCandidate_valid : s.nextCandidate.valid = s.valid := by
  simp [State.nextCandidate]

@[simp] theorem State.toBoundary_busy : s.toBoundary.busy = s.busy := by
  unfold State.toBoundary; split <;> rfl

@[simp] theorem State.nextCandidate_busy : s.nextCandidate.busy = s.busy := by
  simp [State.nextCandidate]

@[simp] theorem State.toBoundary_done : s.toBoundary.done = s.done := by
  unfold State.toBoundary; split <;> rfl

@[simp] theorem State.nextCandidate_done : s.nextCandidate.done = s.done := by
  simp [State.nextCandidate]

@[simp] theorem State.toBoundary_fault : s.toBoundary.fault = s.fault := by
  unfold State.toBoundary; split <;> rfl

@[simp] theorem State.nextCandidate_fault : s.nextCandidate.fault = s.fault := by
  simp [State.nextCandidate]

@[simp] theorem State.toBoundary_aborted : s.toBoundary.aborted = s.aborted := by
  unfold State.toBoundary; split <;> rfl

@[simp] theorem State.nextCandidate_aborted : s.nextCandidate.aborted = s.aborted := by
  simp [State.nextCandidate]

@[simp] theorem State.toBoundary_crcOk : s.toBoundary.crcOk = s.crcOk := by
  unfold State.toBoundary; split <;> rfl

@[simp] theorem State.nextCandidate_crcOk : s.nextCandidate.crcOk = s.crcOk := by
  simp [State.nextCandidate]

@[simp] theorem State.toBoundary_conv : s.toBoundary.conv = s.conv := by
  unfold State.toBoundary; split <;> rfl

@[simp] theorem State.nextCandidate_conv : s.nextCandidate.conv = s.conv := by
  simp [State.nextCandidate]

@[simp] theorem State.toBoundary_malf : s.toBoundary.malf = s.malf := by
  unfold State.toBoundary; split <;> rfl

@[simp] theorem State.nextCandidate_malf : s.nextCandidate.malf = s.malf := by
  simp [State.nextCandidate]

@[simp] theorem State.toBoundary_lastErr : s.toBoundary.lastErr = s.lastErr := by
  unfold State.toBoundary; split <;> rfl

@[simp] theorem State.nextCandidate_lastErr : s.nextCandidate.lastErr = s.lastErr := by
  simp [State.nextCandidate]

@[simp] theorem State.toBoundary_faultInfo : s.toBoundary.faultInfo = s.faultInfo := by
  unfold State.toBoundary; split <;> rfl

@[simp] theorem State.nextCandidate_faultInfo : s.nextCandidate.faultInfo = s.faultInfo := by
  simp [State.nextCandidate]

@[simp] theorem State.toBoundary_iter : s.toBoundary.iter = s.iter := by
  unfold State.toBoundary; split <;> rfl

@[simp] theorem State.nextCandidate_iter : s.nextCandidate.iter = s.iter := by
  simp [State.nextCandidate]

@[simp] theorem State.toBoundary_conf : s.toBoundary.conf = s.conf := by
  unfold State.toBoundary; split <;> rfl

@[simp] theorem State.nextCandidate_conf : s.nextCandidate.conf = s.conf := by
  simp [State.nextCandidate]

@[simp] theorem State.toBoundary_ncand : s.toBoundary.ncand = s.ncand := by
  unfold State.toBoundary; split <;> rfl

@[simp] theorem State.nextCandidate_ncand : s.nextCandidate.ncand = s.ncand := by
  simp [State.nextCandidate]

@[simp] theorem State.toBoundary_nres : s.toBoundary.nres = s.nres := by
  unfold State.toBoundary; split <;> rfl

@[simp] theorem State.nextCandidate_nres : s.nextCandidate.nres = s.nres := by
  simp [State.nextCandidate]

@[simp] theorem State.toBoundary_nt : s.toBoundary.nt = s.nt := by
  unfold State.toBoundary; split <;> rfl

@[simp] theorem State.nextCandidate_nt : s.nextCandidate.nt = s.nt := by
  simp [State.nextCandidate]

@[simp] theorem State.toBoundary_nwave : s.toBoundary.nwave = s.nwave := by
  unfold State.toBoundary; split <;> rfl

@[simp] theorem State.nextCandidate_nwave : s.nextCandidate.nwave = s.nwave := by
  simp [State.nextCandidate]

@[simp] theorem State.toBoundary_cfg : s.toBoundary.cfg = s.cfg := by
  unfold State.toBoundary; split <;> rfl

@[simp] theorem State.nextCandidate_cfg : s.nextCandidate.cfg = s.cfg := by
  simp [State.nextCandidate]

@[simp] theorem State.toBoundary_cidx : s.toBoundary.cidx = s.cidx := by
  unfold State.toBoundary; split <;> rfl

@[simp] theorem State.nextCandidate_cidx : s.nextCandidate.cidx = s.cidx + 1 := by
  simp [State.nextCandidate]

@[simp] theorem State.toBoundary_iterT : s.toBoundary.iterT = s.iterT := by
  unfold State.toBoundary; split <;> rfl

@[simp] theorem State.nextCandidate_iterT : s.nextCandidate.iterT = s.iterT := by
  simp [State.nextCandidate]

@[simp] theorem State.toBoundary_abortReq : s.toBoundary.abortReq = s.abortReq := by
  unfold State.toBoundary; split <;> rfl

@[simp] theorem State.nextCandidate_abortReq : s.nextCandidate.abortReq = s.abortReq := by
  simp [State.nextCandidate]

@[simp] theorem State.toBoundary_run : s.toBoundary.run = s.run := by
  unfold State.toBoundary; split <;> rfl

@[simp] theorem State.nextCandidate_run : s.nextCandidate.run = s.run := by
  simp [State.nextCandidate]

@[simp] theorem State.toBoundary_acc : s.toBoundary.acc = s.acc := by
  unfold State.toBoundary; split <;> rfl

@[simp] theorem State.nextCandidate_acc : s.nextCandidate.acc = s.acc := by
  simp [State.nextCandidate]

@[simp] theorem State.toBoundary_rdata : s.toBoundary.rdata = s.rdata := by
  unfold State.toBoundary; split <;> rfl

@[simp] theorem State.nextCandidate_rdata : s.nextCandidate.rdata = s.rdata := by
  simp [State.nextCandidate]

@[simp] theorem State.toBoundary_ticks : s.toBoundary.ticks = s.ticks := by
  unfold State.toBoundary; split <;> rfl

@[simp] theorem State.nextCandidate_ticks : s.nextCandidate.ticks = s.ticks := by
  simp [State.nextCandidate]

@[simp] theorem State.toBoundary_port : s.toBoundary.port = s.port := by
  unfold State.toBoundary; split <;> rfl

@[simp] theorem State.nextCandidate_port : s.nextCandidate.port = s.port := by
  simp [State.nextCandidate]

@[simp] theorem State.toBoundary_draws : s.toBoundary.draws = s.draws := by
  unfold State.toBoundary; split <;> rfl

@[simp] theorem State.nextCandidate_draws : s.nextCandidate.draws = s.draws := by
  simp [State.nextCandidate]

end Sys2Proof.Machine
end

