-- ==== Sys2Proof/Laws/Ops.lean ====
section
/-!
SUPPORT. What each shared operation can do, said once: validity bits, discards, fault entry, and how a
command runs.
-/

namespace Sys2Proof.Machine

/-! ### Validity bits -/

/-- `VALID.B <- v` writes that bit (R36). -/
theorem State.isValid_setValid (s : State) (b b' : Space) (v : Bool) :
    (s.setValid b v).isValid b' = if b' = b then v else s.isValid b' := by
  cases b <;> cases b' <;> cases v <;> simp [State.isValid, State.setValid, Space.id]

@[simp] theorem State.isValid_setValid_self (s : State) (b : Space) (v : Bool) :
    (s.setValid b v).isValid b = v := by
  simp [State.isValid_setValid]

theorem State.isValid_congr {s t : State} (h : s.valid = t.valid) (b : Space) :
    s.isValid b = t.isValid b := by
  simp [State.isValid, h]

@[simp] theorem State.isValid_scramble (s : State) (b b' : Space) :
    (s.scramble b).isValid b' = s.isValid b' :=
  State.isValid_congr (State.scramble_valid s b) b'

theorem State.isValid_discard (s : State) (b b' : Space) :
    (s.discard b).isValid b' = if b' = b then false else s.isValid b' := by
  simp [State.discard, State.isValid_setValid]

/-- VALID\[0\] is written by no operation (R37). -/
theorem State.setValid_bit0 (s : State) (b : Space) (v : Bool) :
    (s.setValid b v).valid.getLsbD 0 = s.valid.getLsbD 0 := by
  cases b <;> cases v <;> simp [State.setValid, Space.id]

theorem State.discard_bit0 (s : State) (b : Space) :
    (s.discard b).valid.getLsbD 0 = s.valid.getLsbD 0 := by
  rw [State.discard_valid, State.setValid_bit0]

theorem State.discardAll_cons (s : State) (b : Space) (l : List Space) :
    s.discardAll (b :: l) = (s.discard b).discardAll l := rfl

@[simp] theorem State.discardAll_nil (s : State) : s.discardAll [] = s := rfl

/-- A property that each discard keeps, all of them keep. -/
theorem State.discardAll_induct {P : State → Prop} (h : ∀ s b, P s → P (s.discard b))
    (l : List Space) (s : State) (hs : P s) : P (s.discardAll l) := by
  induction l generalizing s with
  | nil => exact hs
  | cons b l ih => exact ih _ (h s b hs)

theorem State.isValid_discardAll (s : State) (l : List Space) (b : Space) :
    (s.discardAll l).isValid b = (s.isValid b && !l.contains b) := by
  induction l generalizing s with
  | nil => simp
  | cons c l ih =>
    rw [State.discardAll_cons, ih, State.isValid_discard, List.contains_cons]
    by_cases h : b = c
    · subst h; simp
    · simp [h, show (b == c) = false by simpa using h]

/-- The operand check passes exactly when all the operands are valid (R36 item 3). -/
theorem State.firstInvalid_eq_none (s : State) (l : List Space) :
    s.firstInvalid l = none ↔ ∀ b ∈ l, s.isValid b = true := by
  simp [State.firstInvalid]

/-- The first invalid operand is the one reported (R237). -/
theorem State.firstInvalid_cons (s : State) (b : Space) (l : List Space) :
    s.firstInvalid (b :: l) =
      if s.isValid b then s.firstInvalid l
      else some ⟨.operandInvalid, BitVec.ofNat 16 b.id⟩ := by
  cases h : s.isValid b <;> simp [State.firstInvalid, h]

@[simp] theorem State.firstInvalid_nil (s : State) : s.firstInvalid [] = none := rfl

/-! ### Fault entry -/

/-- A faulted block takes no second fault (R280). -/
theorem State.raise_of_fault {s : State} (p : Precond) (h : s.fault = true) : s.raise p = s := by
  simp [State.raise, h]

/-- Fault entry where no command runs (R270). -/
theorem State.raise_of_idle {s : State} (p : Precond) (hf : s.fault = false)
    (hb : s.busy = false) : s.raise p = s.faulted p := by
  simp [State.raise, hf, hb, State.faulted]

/-- Fault entry while command `i` runs (R270, R273). -/
theorem State.raise_of_busy {s : State} {i : Instr} (p : Precond) (hf : s.fault = false)
    (hb : s.busy = true) (hr : s.run = some i) : s.raise p = (s.abandon i).faulted p := by
  simp [State.raise, hf, hb, hr, State.faulted]

/-! ### Running -/

theorem State.landing_of_quiet {s : State} (h : s.quiet = true) : s.landing = false := by
  cases hp : s.port with
  | nil => simp [State.landing, hp]
  | cons e rest =>
    cases he : e.lands with
    | none => simp [State.landing, hp, he]
    | some k => simp [State.quiet, hp, he] at h

theorem State.quiet_congr {s t : State} (h : s.port = t.port) : s.quiet = t.quiet := by
  simp [State.quiet, h]

theorem State.ready_iff (s : State) :
    s.ready = true ↔ s.busy = false ∧ s.fault = false ∧ s.quiet = true := by
  simp [State.ready, and_assoc]

/-- What a running command keeps at each internal step, it keeps to its end. -/
theorem drain_induct {P : State → Prop} {tick : State → State}
    (h : ∀ s, s.busy = true → P s → P (tick { s with ticks := s.ticks + 1 })) (n : Nat) (s : State)
    (hs : P s) : P (drain tick n s) := by
  induction n generalizing s with
  | zero => exact hs
  | succ n ih =>
    rw [drain]
    split
    · rename_i hb
      simp only [Bool.and_eq_true] at hb
      exact ih _ (h s hb.1 hs)
    · exact hs

/-- A command that is not busy makes no internal step. -/
theorem drain_of_idle {tick : State → State} (n : Nat) {s : State} (h : s.busy = false) :
    drain tick n s = s := by
  cases n <;> simp [drain, h]

/-- One internal step of a running command on which nothing lands. -/
theorem drain_succ {tick : State → State} (n : Nat) {s : State} (hb : s.busy = true)
    (hq : s.quiet = true) :
    drain tick (n + 1) s = drain tick n (tick { s with ticks := s.ticks + 1 }) := by
  simp [drain, hb, State.landing_of_quiet hq]

theorem runCommand_of_fault {i : Instr} {ph : Phase} {check : State → Option Precond}
    {start tick : State → State} {fuel : Nat} {s : State} (h : s.fault = true) :
    runCommand i ph check start tick fuel s = s := by
  simp [runCommand, h]

/-- A command whose precondition fails takes the fault and changes nothing else (R236). -/
theorem runCommand_of_precond {i : Instr} {ph : Phase} {check : State → Option Precond}
    {start tick : State → State} {fuel : Nat} {s : State} {p : Precond} (hf : s.fault = false)
    (hb : s.busy = false) (hc : check s = some p) :
    runCommand i ph check start tick fuel s = s.faulted p := by
  simp [runCommand, hf, hb, hc, State.raise_of_idle p hf hb]

/-- A command whose preconditions hold is accepted and runs (R236). -/
theorem runCommand_of_accept {i : Instr} {ph : Phase} {check : State → Option Precond}
    {start tick : State → State} {fuel : Nat} {s : State} (hf : s.fault = false)
    (hb : s.busy = false) (hc : check s = none) :
    runCommand i ph check start tick fuel s = drain tick fuel (start (s.accept i ph)) := by
  simp [runCommand, hf, hb, hc]

/-- A unit command on which nothing lands makes its one internal step (R84). -/
theorem runUnit_of_ready {i : Instr} {ph : Phase} {check : State → Option Precond}
    {body : State → State} {s : State} (h : s.ready = true) (hc : check s = none) :
    runUnit i ph check body s = body (s.started i ph) := by
  rw [State.ready_iff] at h
  obtain ⟨hb, hf, hq⟩ := h
  have hq' : (s.accept i ph).quiet = true := hq
  rw [runUnit, runCommand_of_accept hf hb hc, id, drain_succ 0 rfl hq']
  rfl

end Sys2Proof.Machine
end

