-- ==== Sys2Proof/Laws/Buffers.lean ====
section
/-!
SUPPORT. What the operations that store into the buffers leave there, read back element by element, and
in the other fields.
-/

namespace Sys2Proof.Machine

/-! ### Indices of records -/

theorem mul_add_div_of_lt {a b n : Nat} (h : b < n) : (a * n + b) / n = a := by
  rw [Nat.mul_comm, Nat.mul_add_div (by omega), Nat.div_eq_of_lt h, Nat.add_zero]

theorem mul_add_mod_of_lt {a b n : Nat} (h : b < n) : (a * n + b) % n = b := by
  rw [Nat.mul_comm, Nat.mul_add_mod, Nat.mod_eq_of_lt h]

theorem mul_add_lt {a b n m : Nat} (ha : a < m) (h : b < n) : a * n + b < m * n := by
  calc a * n + b < a * n + n := by omega
    _ = (a + 1) * n := by rw [Nat.add_mul, Nat.one_mul]
    _ ≤ m * n := Nat.mul_le_mul_right _ ha

/-! ### MSG -/

/-- MSG reads back as the message stored in it (R137). -/
theorem State.message_putMessage (c : Config) (m : List Word) (s : State)
    (h : m.length = c.msgWords) : (s.putMessage c m).message c = m := by
  apply List.ext_getElem
  · simp [State.message, h]
  · intro i h1 h2
    simp only [State.message, List.getElem_map, List.getElem_range, State.putMessage]
    rw [Mem.rd_ofFn, if_pos (by simpa [State.message] using h1)]
    simp [List.getD_eq_getElem?_getD, h2]

theorem State.message_congr {c : Config} {s t : State} (h : s.msg = t.msg) :
    s.message c = t.message c := by
  simp [State.message, h]

/-! ### SYM and WAVE -/

theorem State.mapSymbols_rd (c : Config) (s : State) {p : Nat} (h : p < 79) :
    (s.mapSymbols c).sym.rd p = symbolAt c s.cw p := by
  simp [State.mapSymbols, Mem.rd_ofFn, h]

/-- SYM as a list after MOD.MAP (R195). -/
theorem State.symbols_mapSymbols (c : Config) (s : State) :
    (s.mapSymbols c).symbols = (List.range 79).map (symbolAt c s.cw) := by
  apply List.map_congr_left
  intro p hp
  exact State.mapSymbols_rd c s (List.mem_range.1 hp)

theorem State.putWave_rd (c : Config) (n : Nat) (s : State) {i : Nat} (h : i < n) :
    (s.putWave c n).wave.rd i = c.synth s.symbols s.cfg.fs s.cfg.base i := by
  show (Mem.prefixOf _ _ _).rd i = _
  rw [Mem.rd_prefixOf, if_pos h]

/-- A waveform that fits in WAVE fits in NWAVE (R198). -/
theorem waveLength_le {c : Config} {fs : Word} {n : Nat} (h : waveLength c fs = some n) :
    n ≤ c.maxSamples := by
  unfold waveLength at h
  split at h
  · simp at h
  · split at h
    · simp only [Option.some.injEq] at h; omega
    · simp at h

theorem waveLength_toNat {c : Config} (hc : c.Lawful) {fs : Word} {n : Nat}
    (h : waveLength c fs = some n) : (BitVec.ofNat 32 n).toNat = n := by
  have h1 := waveLength_le h
  have h2 := hc.samplesCap.2
  rw [BitVec.toNat_ofNat, Nat.mod_eq_of_lt (by omega)]

/-! ### SPEC -/

theorem sps_pos {c : Config} {fs : Word} {n : Nat} (h : sps c fs = some n) : 0 < n := by
  unfold sps at h
  split at h
  · rename_i h'; simp only [Option.some.injEq] at h; omega
  · simp at h

theorem State.buildSpec_nt (c : Config) (n : Nat) (s : State) :
    (s.buildSpec c n).nt.toNat = s.cfg.nsamp.toNat / n := by
  show (BitVec.ofNat 32 (s.cfg.nsamp.toNat / n)).toNat = _
  rw [BitVec.toNat_ofNat, Nat.mod_eq_of_lt]
  exact lt_of_le_of_lt (Nat.div_le_self _ _) s.cfg.nsamp.isLt

/-- `SPEC[t][f]` after the build (R208). -/
theorem State.buildSpec_rd (c : Config) (n : Nat) (s : State) {x f : Nat}
    (hx : x < s.cfg.nsamp.toNat / n) (hf : f < c.nf) :
    (s.buildSpec c n).spec.rd (x * c.nf + f) =
      c.stft (s.samples s.cfg.nsamp.toNat) s.cfg.fs x f := by
  show (Mem.ofFn _ _).rd _ = _
  rw [Mem.rd_ofFn, if_pos (mul_add_lt hx hf), mul_add_div_of_lt hf, mul_add_mod_of_lt hf]

/-! ### CAND -/

/-- The words of the stored records (R104, R212). -/
theorem State.putCandidates_rd (l : List Candidate) (s : State) {i j : Nat} (hi : i < l.length)
    (hj : j < 4) : (s.putCandidates l).cand.rd (4 * i + j) = (l[i]).word j := by
  show (Mem.prefixOf _ _ _).rd _ = _
  rw [Mem.rd_prefixOf, if_pos (by omega)]
  have h1 : (4 * i + j) / 4 = i := by omega
  have h2 : (4 * i + j) % 4 = j := by omega
  rw [h1, h2]
  simp [List.getD_eq_getElem?_getD, hi]

/-- A record whose fields fit 32 bits reads back as the candidate stored (R104). -/
theorem State.candidate_putCandidates (l : List Candidate) (s : State) {i : Nat}
    (hi : i < l.length) (ht : (l[i]).t < 2 ^ 32) (hf : (l[i]).f < 2 ^ 32)
    (hs : (l[i]).score < 2 ^ 32) : (s.putCandidates l).candidate i = l[i] := by
  have h0 := State.putCandidates_rd l s hi (j := 0) (by omega)
  have h1 := State.putCandidates_rd l s hi (j := 1) (by omega)
  have h2 := State.putCandidates_rd l s hi (j := 2) (by omega)
  rw [State.candidate]
  rw [Nat.add_zero] at h0
  rw [h0, h1, h2]
  simp only [Candidate.word, BitVec.toNat_ofNat, Nat.mod_eq_of_lt ht, Nat.mod_eq_of_lt hf,
    Nat.mod_eq_of_lt hs]

/-! ### LLR -/

/-- `LLR[3d + k]` after the demodulation (R228, R229). -/
theorem State.putLlr_rd (c : Config) (k : Candidate) (s : State) {d j : Nat} (hd : d < 58)
    (hj : j < 3) : (s.putLlr c k).llr.rd (3 * d + j) =
      BitVec.ofInt 32 (llrValue c (toneMagnitudes c s k) d j) := by
  show (Mem.ofFn _ _).rd _ = _
  have h1 : (3 * d + j) / 3 = d := by omega
  have h2 : (3 * d + j) % 3 = j := by omega
  rw [Mem.rd_ofFn, if_pos (by omega), h1, h2]

/-! ### RES -/

/-- The words of the stored results (R105, R245). -/
theorem State.putResults_rd (c : Config) (l : List Accepted) (s : State) {i j : Nat}
    (hi : i < l.length) (hj : j < resStride c) :
    (s.putResults c l).res.rd (i * resStride c + j) = (l[i]).word j := by
  show (Mem.prefixOf _ _ _).rd _ = _
  rw [Mem.rd_prefixOf, if_pos, mul_add_div_of_lt hj, mul_add_mod_of_lt hj]
  · simp [List.getD_eq_getElem?_getD, hi]
  · rw [Nat.mul_comm (resStride c)]; exact mul_add_lt hi hj

end Sys2Proof.Machine
end

