-- ==== Sys2Proof/Laws/PerInstr.lean ====
section
/-!
SUPPORT. One lemma for each command: the three fields of its word (30_encoding.md rules R92 to R96).
-/

namespace Sys2Proof.Laws.EncodeFields

/-- The word of a command has `rsv` = 0; a format-N word has its row's opcode and `arg` = 0, and the
word of DEM.DEMOD has opcode 0x0C and its index in `arg`. -/
def Statement (i : Instr) : Prop :=
  rsvField (encode i) = 0#8 ∧
  (∀ cidx, i = .demDemod cidx →
    opField (encode i) = 0x0C#8 ∧ argField (encode i) = BitVec.ofNat 16 cidx) ∧
  ((∀ cidx, i ≠ .demDemod cidx) →
    formatN (opField (encode i)) = some i ∧ argField (encode i) = 0#16)

theorem cksGen : Statement .cksGen :=
  ⟨by decide, (fun _ h => by cases h), fun _ => by decide⟩

theorem cksVfy : Statement .cksVfy :=
  ⟨by decide, (fun _ h => by cases h), fun _ => by decide⟩

theorem pckPack : Statement .pckPack :=
  ⟨by decide, (fun _ h => by cases h), fun _ => by decide⟩

theorem pckUnpack : Statement .pckUnpack :=
  ⟨by decide, (fun _ h => by cases h), fun _ => by decide⟩

theorem encEncode : Statement .encEncode :=
  ⟨by decide, (fun _ h => by cases h), fun _ => by decide⟩

theorem encXtr : Statement .encXtr :=
  ⟨by decide, (fun _ h => by cases h), fun _ => by decide⟩

theorem bpdDecode : Statement .bpdDecode :=
  ⟨by decide, (fun _ h => by cases h), fun _ => by decide⟩

theorem modMap : Statement .modMap :=
  ⟨by decide, (fun _ h => by cases h), fun _ => by decide⟩

theorem modSynth : Statement .modSynth :=
  ⟨by decide, (fun _ h => by cases h), fun _ => by decide⟩

theorem synBuild : Statement .synBuild :=
  ⟨by decide, (fun _ h => by cases h), fun _ => by decide⟩

theorem synSearch : Statement .synSearch :=
  ⟨by decide, (fun _ h => by cases h), fun _ => by decide⟩

theorem demDemod (cidx : Nat) : Statement (.demDemod cidx) := by
  have hi (k : Nat) (h : 16 ≤ k) (h' : k < 32) :
      (encode (.demDemod cidx)).getLsbD k = (0x0C00#16).getLsbD (k - 16) := by
    simp only [encode, BitVec.getLsbD_append, show ¬ k < 16 by omega, if_false]
  have lo (k : Nat) (h : k < 16) :
      (encode (.demDemod cidx)).getLsbD k = (BitVec.ofNat 16 cidx).getLsbD k := by
    simp only [encode, BitVec.getLsbD_append, h, if_true]
  refine ⟨?_, ?_, fun h => absurd rfl (h cidx)⟩
  · ext k hk
    simp only [rsvField, BitVec.getElem_extractLsb', hi (16 + k) (by omega) (by omega)]
    revert hk; revert k; decide
  · rintro _ ⟨rfl⟩
    constructor
    · ext k hk
      simp only [opField, BitVec.getElem_extractLsb', hi (24 + k) (by omega) (by omega)]
      revert hk; revert k; decide
    · ext k hk
      simp only [argField, BitVec.getElem_extractLsb', Nat.zero_add, lo k (by omega),
        BitVec.getLsbD_eq_getElem hk]

theorem seqEncmsg : Statement .seqEncmsg :=
  ⟨by decide, (fun _ h => by cases h), fun _ => by decide⟩

theorem seqDecbuf : Statement .seqDecbuf :=
  ⟨by decide, (fun _ h => by cases h), fun _ => by decide⟩

theorem sysNop : Statement .sysNop :=
  ⟨by decide, (fun _ h => by cases h), fun _ => by decide⟩

theorem sysSrst : Statement .sysSrst :=
  ⟨by decide, (fun _ h => by cases h), fun _ => by decide⟩

end Sys2Proof.Laws.EncodeFields
end

