-- ==== Sys2Proof/Laws/Port.lean ====
section
/-!
SUPPORT. What a step does with the next outside event, and what the two host transactions can do.
-/

namespace Sys2Proof.Machine

/-- The meanings of the commands are those of any block, on this block's parameters (R10). -/
theorem exec_eq_meaning (i : Instr) (s : State) : exec i s = meaning Config.block i s := by
  cases i <;> rfl

/-- The machine is the one of any block, on this block's parameters (R10, R11). -/
theorem step_eq_stepOn (s : State) : step s = stepOn Config.block s := by
  rw [step, stepOn, show exec = meaning Config.block from funext fun i => funext (exec_eq_meaning i)]

/-- An outside event that lands is the whole step (R258). -/
theorem step_of_event {s : State} {e : PortEvent} {rest : List PortEvent}
    (hp : s.port = e :: rest) (h : s.busy = false ∨ s.landing = true) :
    step s = transact Config.block exec e.txn { s with port := rest } := by
  have h' : (s.busy && !s.landing) = false := by rcases h with h | h <;> simp [h]
  simp [step, stepWith, h', hp]

/-- A command on which nothing lands goes on (R235). -/
theorem step_of_running {s : State} {i : Instr} (hb : s.busy = true) (hr : s.run = some i)
    (hl : s.landing = false) :
    step s = .next (drain (tickOf Config.block i) (fuelOf Config.block i s) s) := by
  simp [step, stepWith, resume, hb, hl, hr]

/-- A block with nothing to do and no event queued stays as it is (R289). -/
theorem step_of_nothing {s : State} (hb : s.busy = false) (hp : s.port = []) :
    step s = .next s := by
  simp [step, stepWith, hb, hp]

/-- HOST.RD changes nothing but `rdata`, unless it raises a fault (R66). -/
theorem hostRd_cases (c : Config) (space : BitVec 4) (index : BitVec 28) (s : State) :
    (∃ p : Precond, hostRd c space index s = { s.raise p with rdata := 0#32 }) ∨
      (s.outOfRange c space index = false ∧
        hostRd c space index s = { s with rdata := s.readPort space index }) := by
  unfold hostRd
  split
  · exact .inl ⟨_, rfl⟩
  · cases h : s.outOfRange c space index
    · exact .inr ⟨rfl, rfl⟩
    · exact .inl ⟨⟨.indexRange, space.setWidth 16⟩, rfl⟩

/-- Every register but the configuration registers is read-only, or CMD, VSET or ABORT (R38). -/
theorem isReadOnly_of_lt {i : Nat} (h : isRegister i = true) (h10 : i < 0x10) :
    isReadOnly i = true ∨ i = 0x00 ∨ i = 0x0A ∨ i = 0x0C := by
  simp only [isReadOnly, isWriteOnly, h, h10, Bool.true_and, decide_true, Bool.and_true,
    Bool.not_eq_true', decide_eq_false_iff_not]
  omega

/-- A write of a command word to an idle block is its issue (R236). -/
theorem hostWr_cmd {c : Config} {run : Commands} {s : State}
    (w : Word) (hb : s.busy = false) : hostWr c run 0#4 0x00#28 w s = issue run w s := by
  have h1 : s.outOfRange c 0#4 0x00#28 = false := by simp [State.outOfRange, isRegister]
  have h2 : readOnlyTarget 0#4 0x00#28 = none := by decide
  simp [hostWr, hb, h1, h2]

/-- The issue of a legal word to a block that is not faulted is the meaning of its command (R236). -/
theorem issue_of_decode {run : Commands} {s : State} {w : Word}
    {i : Instr} (hf : s.fault = false) (hd : decode w = .ok i) : issue run w s = run i s := by
  simp [issue, hf, hd]

/-- The issue of an illegal word to a block that is not faulted raises its fault (R97). -/
theorem issue_of_error {run : Commands} {s : State} {w : Word}
    {e : DecodeError} (hf : s.fault = false) (hd : decode w = .error e) :
    issue run w s = .next (s.raise
      ⟨match e with | .reservedOpcode => .reservedOpcode | .reservedField => .reservedField,
        w.extractLsb' 16 16⟩) := by
  cases e <;> simp [issue, hf, hd]

/-- What a host write can do: take a fault, issue a command, or change VALID, ABORT_REQ, a
configuration register or one host-loadable element (R67). -/
theorem hostWr_cases (c : Config) (run : Commands) (space : BitVec 4) (index : BitVec 28) (v : Word)
    (s : State) :
    (∃ p : Precond, hostWr c run space index v s = .next (s.raise p)) ∨
    (s.busy = false ∧ space = 0#4 ∧ index = 0x00#28 ∧ hostWr c run space index v s = issue run v s) ∨
    (s.busy = false ∧ s.fault = false ∧ ∃ r, hostWr c run space index v s = .next { s with valid := r } ∧
      r = s.valid ||| v.setWidth 12 ∧ v &&& 0xFFFFFF01#32 = 0#32) ∨
    (s.fault = false ∧ space = 0#4 ∧ index = 0x0C#28 ∧
      hostWr c run space index v s = .next { s with abortReq := s.abortReq || v.getLsbD 0 }) ∨
    (s.busy = false ∧ s.fault = false ∧ spaceOf space.toNat = none ∧
      hostWr c run space index v s = .next { s with cfg := s.cfg.write index.toNat v }) ∨
    (s.busy = false ∧ s.fault = false ∧ ∃ b, spaceOf space.toNat = some b ∧
      representable b v = true ∧ hostWr c run space index v s = .next (s.writeElem b index.toNat v)) ∨
    (s.fault = true ∧ hostWr c run space index v s = .next s) := by
  unfold hostWr
  split
  · exact .inl ⟨_, rfl⟩
  rename_i hb
  split
  · exact .inl ⟨_, rfl⟩
  split
  · exact .inl ⟨_, rfl⟩
  have hC (h : ¬(space = 0#4 ∧ index = 0x0C#28)) : s.busy = false := by
    cases hs : s.busy
    · rfl
    · simp [hs, h] at hb
  split
  · rename_i h0
    exact .inr (.inl ⟨hC (by rintro ⟨-, h⟩; simp [h] at h0), h0.1, h0.2, rfl⟩)
  split
  · rename_i hA
    have hs : s.busy = false := hC (by rintro ⟨-, h⟩; simp [h] at hA)
    by_cases hf : s.fault = true
    · exact .inr (.inr (.inr (.inr (.inr (.inr ⟨hf, by rw [vsetWrite, if_pos hf]⟩)))))
    · by_cases hv : v &&& 0xFFFFFF01#32 = 0#32
      · exact .inr (.inr (.inl ⟨hs, by simpa using hf, _,
          by rw [vsetWrite, if_neg hf, if_neg (not_not.2 hv)], rfl, hv⟩))
      · exact .inl ⟨_, by rw [vsetWrite, if_neg hf, if_pos hv]⟩
  split
  · rename_i h
    by_cases hf : s.fault = true
    · exact .inr (.inr (.inr (.inr (.inr (.inr ⟨hf, by rw [abortWrite, if_pos hf]⟩)))))
    · refine .inr (.inr (.inr (.inl ⟨by simpa using hf, h.1, h.2, ?_⟩)))
      rw [abortWrite, if_neg hf]
      cases v.getLsbD 0 <;> simp
  rename_i h
  have hs := hC h
  by_cases hf : s.fault = true
  · exact .inr (.inr (.inr (.inr (.inr (.inr ⟨hf, by rw [dataWrite, if_pos hf]⟩)))))
  have hf' : s.fault = false := by simpa using hf
  rw [dataWrite, if_neg hf]
  split
  · rename_i hn
    exact .inr (.inr (.inr (.inr (.inl ⟨hs, hf', hn, rfl⟩))))
  · rename_i b hn
    split
    · rename_i hr
      exact .inr (.inr (.inr (.inr (.inr (.inl ⟨hs, hf', b, hn, hr, rfl⟩)))))
    · exact .inl ⟨_, rfl⟩

end Sys2Proof.Machine
end

