-- ==== Sys2Proof/Laws/Progress.lean ====
section
/-!
SUPPORT. SEQ.DECBUF's list A: every internal step keeps what it holds, the outcomes of the candidates
before CIDX (47_sequencer.md rules R245, R247, R249).
-/

namespace Sys2Proof.Machine

/-- What the internal steps of SEQ.DECBUF keep: `progressOk`, with what it needs of the counters. -/
structure State.decbufOk (c : Config) (s : State) : Prop where
  progress : s.progressOk c
  iterating : s.run = some .seqDecbuf → s.phase = .fecdec → s.iterT < s.cfg.maxIter.toNat
  start : s.run = some .seqDecbuf → s.phase = .cfgchk ∨ s.phase = .build ∨ s.phase = .search →
    s.cidx = 0 ∧ s.acc = []

/-- A candidate's outcome depends on SPEC, CAND and the configuration registers alone (R249). -/
theorem outcomes_congr {c : Config} {s t : State} (h1 : t.spec = s.spec) (h2 : t.cand = s.cand)
    (h3 : t.cfg = s.cfg) (k : Nat) : t.outcomes c k = s.outcomes c k := by
  have hc : t.candidate = s.candidate := by funext i; simp only [State.candidate, h2]
  have hl : ∀ k, (t.putLlr c k).llrAt = (s.putLlr c k).llrAt := by
    intro k; funext n
    simp only [State.llrAt, State.putLlr, toneMagnitudes, State.specAt, h1]
  have ho : candidateOutcome c t = candidateOutcome c s := by
    funext k
    simp only [candidateOutcome, hl, h3]
  rw [State.outcomes, State.outcomes, hc, ho]

/-- One candidate more. -/
theorem outcomes_succ (c : Config) (s : State) (k : Nat) :
    s.outcomes c (k + 1) = s.outcomes c k ++ (candidateOutcome c s (s.candidate k)).toList := by
  simp [State.outcomes, List.range_succ, List.filterMap_append]
  cases h : candidateOutcome c s (s.candidate k) <;> simp [h]

/-- The end of candidate CIDX, once A holds its outcome as well. -/
theorem nextCandidate_ok {c : Config} {s : State} (hb : s.cfg.maxIter ≠ 0#32)
    (h : s.acc = s.outcomes c (s.cidx + 1)) : s.nextCandidate.decbufOk c := by
  have ph : s.nextCandidate.phase = .demod ∨ s.nextCandidate.phase = .collect := by
    simp only [State.nextCandidate, State.toBoundary]; split <;> simp
  have e := outcomes_congr (c := c) (s := s) (t := s.nextCandidate) (by simp) (by simp) (by simp)
  refine ⟨⟨?_, ?_, ?_, ?_, ?_, ?_⟩, ?_, ?_⟩
  · intro _; rw [e]; simpa using h
  · intro _ _; simpa using hb
  all_goals
    intro _ h'
    rcases ph with p | p <;> simp [p] at h'

/-- Every internal step of SEQ.DECBUF keeps it (R245, R247). -/
theorem decbufTick_ok (c : Config) (s : State) (hr : s.run = some .seqDecbuf) (h : s.decbufOk c) :
    (decbufTick c s).decbufOk c := by
  obtain ⟨⟨h1, h2, h3, h4, h5, h6⟩, h7, h8⟩ := h
  have h1 := h1 hr; have h2 := h2 hr; have h3 := h3 hr; have h4 := h4 hr; have h5 := h5 hr
  have h6 := h6 hr; have h7 := h7 hr; have h8 := h8 hr
  have done : ∀ t : State, t.run = none → t.decbufOk c := by
    intro t ht
    refine ⟨⟨?_, ?_, ?_, ?_, ?_, ?_⟩, ?_, ?_⟩ <;> intro h <;> simp [ht] at h
  unfold decbufTick
  split
  · rename_i hp
    obtain ⟨hc0, ha0⟩ := h8 (.inl hp)
    split
    · exact done _ rfl
    · rename_i hbad
      have : s.cfg.maxIter ≠ 0#32 := by
        intro h0
        apply hbad
        unfold decbufCfgBad
        split
        · rfl
        · simp [h0]
      refine ⟨⟨fun _ => ?_, fun _ _ => this, ?_, ?_, ?_, ?_⟩, ?_, ?_⟩
      · exact h1.trans (outcomes_congr (s := s) rfl rfl rfl _).symm
      all_goals intro _ h'
      all_goals first | exact ⟨hc0, ha0⟩ | simp at h'
  · rename_i hp
    obtain ⟨hc0, ha0⟩ := h8 (.inr (.inl hp))
    split
    · exact done _ rfl
    · rename_i n _
      have hm : s.cfg.maxIter ≠ 0#32 := h2 (by simp [hp])
      have g1 : (s.dropSession.buildSpec c n).acc = [] := by simp [State.dropSession, ha0]
      have g2 : (s.dropSession.buildSpec c n).cidx = 0 := by simp [State.dropSession, hc0]
      have g3 : (s.dropSession.buildSpec c n).cfg = s.cfg := by simp [State.dropSession]
      generalize s.dropSession.buildSpec c n = u at g1 g2 g3
      refine ⟨⟨fun _ => ?_, fun _ _ => ?_, ?_, ?_, ?_, ?_⟩, ?_, ?_⟩
      · simp [g1, g2, State.outcomes]
      · simpa [g3] using hm
      all_goals intro _ h'
      all_goals first | exact ⟨g2, g1⟩ | simp at h'
  · rename_i hp
    have hm : s.cfg.maxIter ≠ 0#32 := h2 (by simp [hp])
    generalize hu : ({ s.putCandidates (searchResult c s) with cidx := 0, acc := [] } : State) = u
    have hu1 : u.cidx = 0 := by rw [← hu]
    have hu2 : u.acc = [] := by rw [← hu]
    have hu3 : u.cfg = s.cfg := by rw [← hu]; exact State.putCandidates_cfg s (searchResult c s)
    have ph : u.toBoundary.phase = .demod ∨ u.toBoundary.phase = .collect := by
      simp only [State.toBoundary]; split <;> simp
    refine ⟨⟨fun _ => ?_, fun _ _ => ?_, ?_, ?_, ?_, ?_⟩, ?_, ?_⟩
    · simp [hu1, hu2, State.outcomes]
    · simpa [hu3] using hm
    all_goals
      intro _ h'
      rcases ph with p | p <;> simp [p] at h'
  · rename_i hp
    have hm : s.cfg.maxIter ≠ 0#32 := h2 (by simp [hp])
    split
    · refine ⟨⟨fun _ => ?_, fun _ _ => hm, ?_, ?_, ?_, ?_⟩, ?_, ?_⟩
      · exact h1.trans (outcomes_congr (s := s) rfl rfl rfl _).symm
      all_goals intro _ h'; simp at h'
    · refine ⟨⟨fun _ => ?_, fun _ _ => hm, ?_, ?_, ?_, ?_⟩, ?_, ?_⟩
      · exact h1.trans (outcomes_congr (s := s) rfl rfl rfl _).symm
      · intro _ _
        refine ⟨rfl, ?_⟩
        exact bpLoop_init c _ _ _
      · intro _ h'; simp at h'
      · intro _ h'; simp at h'
      · intro _ h'; simp at h'
      · intro _ _
        have : s.cfg.maxIter.toNat ≠ 0 := fun h0 => hm (BitVec.eq_of_toNat_eq h0)
        show 0 < s.cfg.maxIter.toNat
        omega
      · intro _ h'; simp at h'
  · rename_i hp
    have hm : s.cfg.maxIter ≠ 0#32 := h2 (by simp [hp])
    obtain ⟨hl, hd⟩ := h3 hp
    have hlt := h7 hp
    obtain ⟨k, hk⟩ : ∃ k, s.cfg.maxIter.toNat - s.iterT = k + 1 :=
      ⟨s.cfg.maxIter.toNat - s.iterT - 1, by omega⟩
    rw [hk] at hd
    have hll : s.llrAt = (s.putLlr c (s.candidate s.cidx)).llrAt := by
      funext n; rw [State.llrAt, State.llrAt, ← hl]
    simp only [bpLoop] at hd
    dsimp only
    split
    · rename_i hcw
      have hcw' : isCodeword c (hardDecision (bpIterate c s.llrAt s.bp)) = true := hcw
      rw [if_pos hcw'] at hd
      refine ⟨⟨fun _ => ?_, fun _ _ => hm, ?_, ?_, ?_, ?_⟩, ?_, ?_⟩
      · exact h1.trans (outcomes_congr (s := s) rfl rfl rfl _).symm
      · intro _ h'; simp at h'
      · intro _ _
        show bpDecode c (s.putLlr c (s.candidate s.cidx)).llrAt s.cfg.maxIter.toNat =
          some (hardDecision (bpIterate c s.llrAt s.bp), s.iterT + 1)
        rw [← hll]
        exact hd.symm
      all_goals intro _ h'; simp at h'
    · rename_i hcw
      have hcw' : ¬ isCodeword c (hardDecision (bpIterate c s.llrAt s.bp)) = true := hcw
      rw [if_neg hcw'] at hd
      split
      · rename_i hex
        have hex' : s.cfg.maxIter.toNat ≤ s.iterT + 1 := hex
        have hk0 : k = 0 := by omega
        subst hk0
        have oc := outcomes_congr (c := c) (s := s) (t := s.iterateBp c) (by simp) (by simp)
          (by simp)
        apply nextCandidate_ok (s := s.iterateBp c)
        · simpa using hm
        · rw [oc, State.iterateBp_acc, State.iterateBp_cidx, outcomes_succ, ← h1]
          have : candidateOutcome c s (s.candidate s.cidx) = none := by
            unfold candidateOutcome
            rw [← hll, ← hd]; rfl
          simp [this]
      · rename_i hex
        have hex' : ¬ s.cfg.maxIter.toNat ≤ s.iterT + 1 := hex
        refine ⟨⟨fun _ => ?_, fun _ _ => hm, ?_, ?_, ?_, ?_⟩, ?_, ?_⟩
        · exact h1.trans (outcomes_congr (s := s) rfl rfl rfl _).symm
        · intro _ _
          refine ⟨hl, ?_⟩
          show bpLoop c s.llrAt (s.cfg.maxIter.toNat - (s.iterT + 1)) (s.iterT + 1)
            (bpIterate c s.llrAt s.bp) = _
          rw [show s.cfg.maxIter.toNat - (s.iterT + 1) = k by omega]; exact hd
        · intro _ h'; rw [State.iterateBp_phase, hp] at h'; simp at h'
        · intro _ h'; rw [State.iterateBp_phase, hp] at h'; simp at h'
        · intro _ h'; rw [State.iterateBp_phase, hp] at h'; simp at h'
        · intro _ _; simp only [State.iterateBp_iterT, State.iterateBp_cfg]; omega
        · intro _ h'; rw [State.iterateBp_phase, hp] at h'; simp at h'
  · rename_i hp
    have hm : s.cfg.maxIter ≠ 0#32 := h2 (by simp [hp])
    refine ⟨⟨fun _ => ?_, fun _ _ => hm, ?_, ?_, ?_, ?_⟩, ?_, ?_⟩
    · exact h1.trans (outcomes_congr (s := s) rfl rfl rfl _).symm
    · intro _ h'; simp at h'
    · intro _ _; exact h4 (.inl hp)
    · intro _ _; exact ⟨rfl, rfl⟩
    all_goals intro _ h'; simp at h'
  · rename_i hp
    have hm : s.cfg.maxIter ≠ 0#32 := h2 (by simp [hp])
    have hd := h4 (.inr (.inl hp))
    obtain ⟨e1, e2⟩ := h5 (.inl hp)
    split
    · rename_i hck
      refine ⟨⟨fun _ => ?_, fun _ _ => hm, ?_, fun _ _ => hd, fun _ _ => ⟨e1, e2⟩,
        fun _ _ => hck⟩, ?_, ?_⟩
      · exact h1.trans (outcomes_congr (s := s) rfl rfl rfl _).symm
      all_goals intro _ h'; simp at h'
    · rename_i hck
      apply nextCandidate_ok hm
      rw [outcomes_succ, ← h1]
      have : candidateOutcome c s (s.candidate s.cidx) = none := by
        unfold candidateOutcome
        rw [hd]
        simp only
        rw [if_neg]; rw [← e1, ← e2]; exact hck
      simp [this]
  · rename_i hp
    have hm : s.cfg.maxIter ≠ 0#32 := h2 (by simp [hp])
    have hd := h4 (.inr (.inr hp))
    obtain ⟨e1, e2⟩ := h5 (.inr hp)
    have hck := h6 hp
    have ho : candidateOutcome c s (s.candidate s.cidx) =
        (c.packFmt.unpack s.pay).map fun m => s.acceptedEntry m := by
      unfold candidateOutcome
      rw [hd]
      simp only
      rw [if_pos (by rw [← e1, ← e2]; exact hck), ← e1]
      simp [State.candidate, State.acceptedEntry]
    split
    · rename_i hu
      apply nextCandidate_ok hm
      rw [outcomes_succ, ← h1, ho, hu]; simp
    · rename_i m hu
      apply nextCandidate_ok
      · exact hm
      · show s.acc ++ [s.acceptedEntry m] = State.outcomes c _ (s.cidx + 1)
        refine Eq.trans ?_ (outcomes_congr (s := s) rfl rfl rfl _).symm
        rw [outcomes_succ, ← h1, ho, hu]
        rfl
  · exact done _ rfl
  · exact ⟨⟨fun _ => h1, fun _ => h2, fun _ => h3, fun _ => h4, fun _ => h5, fun _ => h6⟩,
      fun _ => h7, fun _ => h8⟩
end Sys2Proof.Machine
end

