-- ==== Sys2Proof/Tests/Slice0.lean ====
section
/-!
SUPPORT. Tests whose expected values come from the spec (95_test_vectors.md, by the name of the vector),
and a witness for the hypotheses of every statement that has any.
-/

namespace Sys2Proof.Tests.Slice0

open Sys2Proof Sys2Proof.Machine

/-! ### Well-formedness -/

/-- R94: the index has 16 bits. -/
theorem test_wf_refuses_wide_index : (Instr.demDemod 65536).wf = false := by decide

theorem test_wf_accepts_widest_index : (Instr.demDemod 65535).wf = true := by decide

/-! ### Decoding: the words written out from the columns of R95 -/

theorem test_decode_cksGen :
    decode 0b00000001_00000000_0000000000000000#32 = .ok .cksGen := by rfl
theorem test_decode_cksVfy :
    decode 0b00000010_00000000_0000000000000000#32 = .ok .cksVfy := by rfl
theorem test_decode_pckPack :
    decode 0b00000011_00000000_0000000000000000#32 = .ok .pckPack := by rfl
theorem test_decode_pckUnpack :
    decode 0b00000100_00000000_0000000000000000#32 = .ok .pckUnpack := by rfl
theorem test_decode_encEncode :
    decode 0b00000101_00000000_0000000000000000#32 = .ok .encEncode := by rfl
theorem test_decode_encXtr :
    decode 0b00000110_00000000_0000000000000000#32 = .ok .encXtr := by rfl
theorem test_decode_bpdDecode :
    decode 0b00000111_00000000_0000000000000000#32 = .ok .bpdDecode := by rfl
theorem test_decode_modMap :
    decode 0b00001000_00000000_0000000000000000#32 = .ok .modMap := by rfl
theorem test_decode_modSynth :
    decode 0b00001001_00000000_0000000000000000#32 = .ok .modSynth := by rfl
theorem test_decode_synBuild :
    decode 0b00001010_00000000_0000000000000000#32 = .ok .synBuild := by rfl
theorem test_decode_synSearch :
    decode 0b00001011_00000000_0000000000000000#32 = .ok .synSearch := by rfl
theorem test_decode_demDemod :
    decode 0b00001100_00000000_1000000000000101#32 = .ok (.demDemod 32773) := by rfl
theorem test_decode_seqEncmsg :
    decode 0b00010000_00000000_0000000000000000#32 = .ok .seqEncmsg := by rfl
theorem test_decode_seqDecbuf :
    decode 0b00010001_00000000_0000000000000000#32 = .ok .seqDecbuf := by rfl
theorem test_decode_sysNop :
    decode 0b00100000_00000000_0000000000000000#32 = .ok .sysNop := by rfl
theorem test_decode_sysSrst :
    decode 0b00100001_00000000_0000000000000000#32 = .ok .sysSrst := by rfl

/-- R97: opcodes 0x00, 0x0D, 0x12 and 0xFF are reserved. -/
theorem test_decode_reserved_opcodes :
    [0x00000000#32, 0x0D000000#32, 0x12000000#32, 0xFFFFFFFF#32].map decode =
      List.replicate 4 (.error .reservedOpcode) := by rfl

/-- R97: `rsv` ≠ 0, and `arg` ≠ 0 in format N, are reserved. -/
theorem test_decode_reserved_fields :
    [0x01000001#32, 0x05010000#32, 0x0C800000#32, 0x21008000#32].map decode =
      List.replicate 4 (.error .reservedField) := by rfl

/-- The host's numbering: bit 0 is the word's least significant bit (R90). -/
theorem test_decodeTableWord : decodeTableWord 32 0x0C000007 = some (.demDemod 7) := by rfl

/-! ### Vectors of 95_test_vectors.md under profile T -/

/-- The reset state with the validity bits `v`. -/
def live (v : BitVec 12) : State := { State.reset with valid := v }

/-- Profile T. -/
def T : Config := profileT 16

/-- P1, the payload of M1 (V-PCK-1). -/
def p1 : BitVec 77 :=
  0b00101001111000010010111000010111011100000101100101110000010100001010000000000#77

/-- M1: STD `K1ABC` `W9XYZ` `FN20` (V-PCK-1). -/
def m1 : List Word :=
  [0#32, 75#32, 49#32, 65#32, 66#32, 67#32, 87#32, 57#32, 88#32, 89#32, 90#32, 0#32, 70#32, 78#32,
    50#32, 48#32] ++ List.replicate 64 0#32

/-- CW1 (V-ENC-1). -/
def cw1 : BitVec 174 := p1 ++ 0b10111110010110#14 ++
  0b00101100101111111001111000000101100101010000101011110101011001110110000001001101011#83

/-- V-CKS-6. -/
theorem test_cksGen : let t := cksGen T { live 0x004#12 with pay := p1 }
    t.crc = 0b10111110010110#14 ∧ t.valid = 0x00C#12 ∧ t.lastErr = 0#8 := by decide +kernel

/-- Section 2.1: PAY = P1 with the last bit of the checksum flipped. -/
theorem test_cksVfy : let t := cksVfy T { live 0x00C#12 with pay := p1, crc := 0b10111110010111#14 }
    t.crcOk = false ∧ t.lastErr = 4#8 ∧ t.done = true := by decide +kernel

/-- V-PCK-1. -/
theorem test_pckPack : (pckPack T ((live 0x002#12).putMessage T m1)).pay = p1 := by decide +kernel

/-- V-PCK-1 read back. -/
theorem test_pckUnpack : let t := pckUnpack T { live 0x004#12 with pay := p1 }
    t.message T = m1 ∧ t.valid = 0x006#12 ∧ t.malf = false := by decide +kernel

/-- V-PCK-5. -/
theorem test_pckUnpack_malformed : let t := pckUnpack T { live 0x006#12 with pay := 0b111#3 ++ 0#74 }
    t.malf = true ∧ t.lastErr = 5#8 ∧ t.valid = 0x004#12 := by decide +kernel

/-- V-ENC-1. -/
theorem test_encEncode :
    (encEncode T { live 0x00C#12 with pay := p1, crc := 0b10111110010110#14 }).cw = cw1 := by
  decide +kernel

/-- V-ENC-7. -/
theorem test_encXtr : let t := encXtr { live 0x010#12 with cw := cw1 }
    t.pay = p1 ∧ t.crc = 0b10111110010110#14 ∧ t.valid = 0x01C#12 := by decide +kernel

/-- V-BPD-6: no information decodes to zero in iteration 1. -/
theorem test_bpDecode_zero : bpDecode T (fun _ => 0) 20 = some (0#174, 1) := by decide +kernel

/-- V-BPD-9; neither T nor the message memory is written (R175). -/
theorem test_bpdDecode_config :
    let t := bpdDecode T
      { live 0x050#12 with iterT := 7, cfg := { CfgRegs.reset with maxIter := 0#32 } }
    t.lastErr = 2#8 ∧ t.valid = 0x040#12 ∧ t.conv = false ∧ t.fault = false ∧ t.iterT = 7 ∧
      t.bp = State.reset.bp := by decide +kernel

/-- V-MOD-2: the zero codeword. -/
theorem test_modMap :
    (modMap T (live 0x010#12)).symbols.map (·.toNat) =
      [3, 1, 4, 0, 6, 5, 2] ++ List.replicate 29 0 ++ [3, 1, 4, 0, 6, 5, 2] ++ List.replicate 29 0 ++
        [3, 1, 4, 0, 6, 5, 2] := by decide +kernel

/-- V-MOD-1: the first data symbols of CW1 are 1, 3, 2. -/
theorem test_modMap_gray :
    ([7, 8, 9].map fun p => (symbolAt T cw1 p).toNat) = [1, 3, 2] := by decide +kernel

/-- V-MOD-7: NWAVE at 12000 samples a second, and CONFIG at 12001. -/
theorem test_modSynth : (modSynth T (live 0x020#12)).nwave = 151680#32 ∧
    (modSynth T { live 0x120#12 with cfg := { CfgRegs.reset with fs := 12001#32 } }).valid =
      0x020#12 := by decide +kernel

/-- R197: tone 1 above a base of 1500 Hz under profile T. -/
theorem test_toneFrequency : toneFrequency T 1500#32 1#3 = 6025 / 4 := by
  simp only [toneFrequency, T, profileT, show (1500#32 : Word).toNat = 1500 from rfl,
    show (1#3 : Tone).toNat = 1 from rfl]
  norm_num

/-- Program P2: NT of 157 440 samples. -/
theorem test_synBuild :
    let t := synBuild T { live 0xC80#12 with cfg := { CfgRegs.reset with nsamp := 157440#32 } }
    t.nt = 82#32 ∧ t.valid = 0xA80#12 := by decide +kernel

/-- Section 2.6: CFG_NSAMP = 180 001. -/
theorem test_synBuild_badLength :
    (synBuild T { live 0x080#12 with cfg := { CfgRegs.reset with nsamp := 180001#32 } }).faultInfo =
      0xBF210701#32 := by decide +kernel

/-- V-SYN-5: no position to search. -/
theorem test_synSearch_config :
    let t := synSearch T { live 0x280#12 with
      nt := 82#32, cfg := { CfgRegs.reset with tmin := 5#32 } }
    t.lastErr = 2#8 ∧ t.ncand = 0#32 ∧ t.valid = 0x280#12 ∧ t.fault = false := by decide +kernel

/-- V-SYN-1: the merge walk over the scores above 200, listed there. -/
theorem test_synSearch_merge :
    (mergeRanked CfgRegs.reset (([⟨0, 1, 318⟩, ⟨0, 5, 318⟩, ⟨0, 6, 318⟩, ⟨0, 7, 318⟩, ⟨0, 8, 318⟩,
      ⟨1, 4, 2100⟩, ⟨2, 0, 318⟩, ⟨2, 1, 318⟩, ⟨2, 2, 318⟩, ⟨2, 3, 417⟩, ⟨2, 7, 318⟩, ⟨3, 0, 417⟩,
      ⟨3, 3, 318⟩, ⟨3, 5, 417⟩, ⟨3, 6, 318⟩] : List Candidate).insertionSort
        fun x y => rankBefore x y = true)) =
      [⟨1, 4, 2100⟩, ⟨3, 0, 417⟩, ⟨3, 5, 417⟩, ⟨0, 1, 318⟩, ⟨0, 6, 318⟩, ⟨0, 8, 318⟩, ⟨2, 2, 318⟩,
        ⟨2, 7, 318⟩] := by decide +kernel

/-- V-DEM-4: two tones in one symbol. -/
theorem test_demDemod_llr :
    ([0, 1, 2].map fun k =>
      llrValue T [[2#16, 100#16, 2#16, 250#16, 2#16, 2#16, 2#16, 2#16]] 0 k) = [248, -150, 150] := by
  decide +kernel

/-- V-DEM-3. -/
theorem test_demDemod_range :
    (demDemod T 8 { live 0x680#12 with ncand := 8#32 }).faultInfo = 0x00080301#32 := by
  decide +kernel

/-- R240: an unusable sample rate. -/
theorem test_seqEncmsg_config :
    let t := seqEncmsg T (({ live 0x13E#12 with
      cfg := { CfgRegs.reset with fs := 12001#32 }, crcOk := true } : State).putMessage T m1)
    t.lastErr = 2#8 ∧ t.valid = 0x002#12 ∧ t.crcOk = false ∧ t.done = true := by decide +kernel

/-- Program P1's length, by SEQ.ENCMSG (R241). -/
theorem test_seqEncmsg : let t := seqEncmsg T ((live 0x002#12).putMessage T m1)
    t.nwave = 151680#32 ∧ t.valid = 0x102#12 ∧ t.lastErr = 0#8 := by decide +kernel

/-- R246: a budget of zero is a configuration error before any search. -/
theorem test_seqDecbuf_config :
    let t := seqDecbuf T { live 0x880#12 with
      cfg := { CfgRegs.reset with nsamp := 161280#32, maxIter := 0#32 } }
    t.lastErr = 2#8 ∧ t.valid = 0x080#12 ∧ t.fault = false := by decide +kernel

/-- Program P3: what COLLECT keeps of the three accepted entries. -/
theorem test_seqDecbuf_collect :
    (collect T [⟨19#32, 2100#32, 1#32, 4#32, [1#32]⟩, ⟨20#32, 1680#32, 4#32, 30#32, [3#32]⟩,
      ⟨20#32, 1260#32, 3#32, 20#32, [1#32]⟩]).map (fun a => (a.conf, a.score)) =
      [(20#32, 1680#32), (20#32, 1260#32)] := by decide +kernel

/-- Section 2.8: SYS.NOP after a mismatch. -/
theorem test_sysNop : let t := sysNop { live 0x00C#12 with lastErr := 4#8, done := true }
    t.lastErr = 0#8 ∧ t.statusWord = 0x2#32 ∧ t.crcOk = false := by decide +kernel

/-- Program P4: SYS.SRST leaves the fault. -/
theorem test_sysSrst :
    let t := sysSrst { live 0x004#12 with
      fault := true, phase := .faulted, faultInfo := 0x0D000101#32 }
    t.statusWord = 0#32 ∧ t.faultInfo = 0#32 ∧ t.validWord = 0#32 ∧ t.cfg.maxIter = 20#32 := by
  decide +kernel

/-- FAULTINFO after one transaction of the host on the block of profile T. -/
def infoAfter (t : Txn) (s : State) : Option Word :=
  match transact T (meaning T) t s with
  | .next u => some u.faultInfo
  | .fault _ => none
  | .refused _ => none

/-- Program P4 and its variants from the reset state. -/
theorem test_faulting_transactions :
    [.wr 0#4 0x00#28 0x0D000000#32, .wr 0#4 0x00#28 0x01000001#32, .rd 12#4 0#28,
      .rd 0#4 0x0F#28, .wr 8#4 0#28 0#32, .wr 0#4 0x01#28 0#32, .wr 0#4 0x0A#28 0x100#32,
      .wr 2#4 0#28 2#32, .wr 7#4 0#28 0x8000#32, .wr 7#4 0#28 0xFFFF8000#32, .wr 2#4 77#28 0#32,
      .wr 0#4 0x00#28 0x01000000#32].map (infoAfter · State.reset) =
    [0x0D000101#32, 0x01000201#32, 0x000C0301#32, 0x00000301#32, 0x00080601#32, 0x00010601#32,
      0x01000601#32, 0x00020901#32, 0x00070901#32, 0#32, 0x00020301#32, 0x00020401#32].map some := by
  decide +kernel

/-- A step of the machine on the word the host places: SYS.NOP right after reset (R256). -/
theorem test_step_runs_placed_word :
    (match step (State.reset.withFetchWord 32 0x20000000) with
      | .next t => t.statusWord
      | .fault _ => 0#32
      | .refused _ => 0#32) = 0x2#32 := by rfl

/-! ### Witnesses: the hypotheses of every statement are met by some state and operands

The block's parameters are opaque, so where a hypothesis speaks of them the witness is one that every
lawful block has. -/

/-- The next outside event, landing at once on an idle block. -/
def event (t : Txn) : PortEvent := ⟨none, t⟩

theorem isValid_of {s : State} {b : Space} (v : BitVec 12) (h : s.valid = v)
    (hv : v.getLsbD b.id = true) : s.isValid b = true := by
  rw [State.isValid, h, hv]

/-- A block with validity bits `v` to which the host does `t` next. -/
def facing (v : BitVec 12) (t : Txn) : State := { live v with port := [event t] }

/-- A faulted block to which the host does `t` next. -/
def faultedFacing (t : Txn) : State :=
  { facing 0x004#12 t with fault := true, phase := .faulted, faultInfo := 0x0D000101#32 }

/-- A block in which CKS.GEN runs, `t` landing on it at once. -/
def busyFacing (t : Txn) : State :=
  { live 0x004#12 with
    busy := true, run := some .cksGen, phase := .cksgen, port := [⟨some 0, t⟩] }

theorem witness_StepRunsDecodedCommand :
    (facing 0#12 (.wr 0#4 0x00#28 0x0C00FFFF#32)).busy = false ∧
    (facing 0#12 (.wr 0#4 0x00#28 0x0C00FFFF#32)).port =
      [⟨none, .wr 0#4 0x00#28 0x0C00FFFF#32⟩] ∧
    decode 0x0C00FFFF#32 = .ok (.demDemod 65535) := ⟨rfl, rfl, rfl⟩

/-- The opcodes next to the sixteen, and the boundary values of the reserved fields. -/
theorem witness_IllegalWordsFault :
    (∀ w ∈ [0x00000000#32, 0x0D000000#32, 0x0FFFFFFF#32, 0x22000000#32, 0xFF000000#32],
      w.toNat / 2 ^ 24 ∉ [1, 2, 3, 4, 5, 6, 7, 8, 9, 10, 11, 12, 16, 17, 32, 33]) ∧
    (∀ w ∈ [0x0C010000#32, 0x0CFFFFFF#32, 0x01000001#32, 0x2100FFFF#32],
      w.toNat / 2 ^ 24 ∈ [1, 2, 3, 4, 5, 6, 7, 8, 9, 10, 11, 12, 16, 17, 32, 33] ∧
      (w.toNat / 2 ^ 16 % 2 ^ 8 ≠ 0 ∨ (w.toNat / 2 ^ 24 ≠ 12 ∧ w.toNat % 2 ^ 16 ≠ 0))) ∧
    decode 0x0C00FFFF#32 = .ok (.demDemod 65535) ∧
    (∀ w, (facing 0#12 (.wr 0#4 0x00#28 w)).busy = false ∧
      (facing 0#12 (.wr 0#4 0x00#28 w)).fault = false ∧
      (facing 0#12 (.wr 0#4 0x00#28 w)).port = [⟨none, .wr 0#4 0x00#28 w⟩]) :=
  ⟨by simp, by simp, rfl, fun _ => ⟨rfl, rfl, rfl⟩⟩

/-- The reset event on an idle and on a busy block, and SYS.SRST on a faulted one. -/
theorem witness_ResetAndSoftResetAgree :
    ((facing 0#12 .reset).port = [event .reset] ∧ (facing 0#12 .reset).busy = false) ∧
    ((busyFacing .reset).port = [⟨some 0, .reset⟩] ∧ (busyFacing .reset).landing = true) ∧
    (faultedFacing .reset).fault = true := ⟨⟨rfl, rfl⟩, ⟨rfl, rfl⟩, rfl⟩

/-- Every command that has a source, with all of its sources invalid; and CKS.VFY with only its last
source invalid. -/
theorem witness_InvalidOperandsFault :
    (∀ i ∈ [Instr.cksGen, .cksVfy, .pckPack, .pckUnpack, .encEncode, .encXtr, .bpdDecode, .modMap,
        .modSynth, .synBuild, .synSearch, .demDemod 0, .seqEncmsg, .seqDecbuf],
      ∃ b ∈ sources i, (live 0#12).isValid b = false ∧
        ∀ b' ∈ sources i, b'.id < b.id → (live 0#12).isValid b' = true) ∧
    Space.crc ∈ sources .cksVfy ∧ (live 0x004#12).isValid .crc = false ∧
      (∀ b' ∈ sources .cksVfy, b'.id < Space.crc.id → (live 0x004#12).isValid b' = true) ∧
    (live 0#12).busy = false ∧ (live 0#12).fault = false := by
  refine ⟨?_, by decide, by decide, by decide, rfl, rfl⟩
  intro i hi
  simp only [List.mem_cons, List.not_mem_nil, or_false] at hi
  rcases hi with rfl | rfl | rfl | rfl | rfl | rfl | rfl | rfl | rfl | rfl | rfl | rfl | rfl | rfl
  · exact ⟨.pay, by decide⟩
  · exact ⟨.pay, by decide⟩
  · exact ⟨.msg, by decide⟩
  · exact ⟨.pay, by decide⟩
  · exact ⟨.pay, by decide⟩
  · exact ⟨.cw, by decide⟩
  · exact ⟨.llr, by decide⟩
  · exact ⟨.cw, by decide⟩
  · exact ⟨.sym, by decide⟩
  · exact ⟨.samp, by decide⟩
  · exact ⟨.spec, by decide⟩
  · exact ⟨.spec, by decide⟩
  · exact ⟨.msg, by decide⟩
  · exact ⟨.samp, by decide⟩

/-- A block whose MSG begins with the word 3, which is no variant code. -/
def badMessage : State := { live 0x002#12 with msg := ⟨none, [(0, 3#32)]⟩ }

theorem badMessage_invalid :
    Config.block.packFmt.validMsg (badMessage.message Config.block) = false := by
  by_contra h
  have h1 := (Config.block_lawful.pack.validShape _ (by simpa using h)).2
  have h2 : (badMessage.message Config.block).getD 0 0#32 = 3#32 := by
    have := Config.block_lawful.wordsCap
    simp [State.message, List.getD_eq_getElem?_getD, badMessage, Mem.rd, findCell,
      show 0 < Config.block.msgWords by omega]
  rw [h2] at h1
  exact absurd h1 (by decide)

/-- A block with samples, of which the host declares `n`. -/
def sampled (n : Nat) : State :=
  { live 0x080#12 with cfg := { CfgRegs.reset with nsamp := BitVec.ofNat 32 n } }

theorem sampled_nsamp {n : Nat} (h : n ≤ 2 ^ 28) : (sampled n).cfg.nsamp.toNat = n := by
  show (BitVec.ofNat 32 n).toNat = n
  rw [BitVec.toNat_ofNat, Nat.mod_eq_of_lt (by omega)]

/-- The boundary lengths 0 and MAX_SAMPLES + 1, and the index NCAND. -/
theorem witness_OtherPreconditionsFault :
    (badMessage.busy = false ∧ badMessage.fault = false ∧ badMessage.isValid .msg = true ∧
      Config.block.packFmt.validMsg (badMessage.message Config.block) = false) ∧
    ((sampled 0).isValid .samp = true ∧ (sampled 0).cfg.nsamp.toNat = 0) ∧
    ((sampled (Config.block.maxSamples + 1)).isValid .samp = true ∧
      Config.block.maxSamples < (sampled (Config.block.maxSamples + 1)).cfg.nsamp.toNat) ∧
    ((live 0x600#12).isValid .spec = true ∧ (live 0x600#12).isValid .cand = true ∧
      (live 0x600#12).ncand.toNat ≤ 0) := by
  refine ⟨⟨rfl, rfl, rfl, badMessage_invalid⟩, ⟨rfl, rfl⟩, ⟨rfl, ?_⟩, rfl, rfl, le_refl 0⟩
  rw [sampled_nsamp (by have := Config.block_lawful.samplesCap.2; omega)]
  omega

theorem witness_FaultedBlockIsInert (space : BitVec 4) (index : BitVec 28) (v : Word) :
    (faultedFacing (.rd space index)).fault = true ∧
    (faultedFacing (.rd space index)).busy = false ∧
    (faultedFacing (.rd space index)).port = [event (.rd space index)] ∧
    (faultedFacing (.wr space index v)).port = [event (.wr space index v)] ∧
    ((0#4 : BitVec 4) = 0#4 ∧ State.outOfRange Config.block (faultedFacing .reset) 2#4 76#28 = false) ∧
    ¬((0#4 : BitVec 4) = 0#4 ∧ (0x00#28 : BitVec 28) = 0x00#28 ∧
      (0x21000001#32 : Word) = 0x21000000#32) :=
  ⟨rfl, rfl, rfl, rfl, ⟨rfl, rfl⟩, by decide⟩

/-- A read and a write of every space but the two exceptions. -/
theorem witness_BusyAccessAbandonsCommand :
    (busyFacing (.rd 2#4 0#28)).busy = true ∧ (busyFacing (.rd 2#4 0#28)).fault = false ∧
    (busyFacing (.rd 2#4 0#28)).run = some .cksGen ∧
    (busyFacing (.rd 2#4 0#28)).landing = true ∧
    ¬((2#4 : BitVec 4) = 0#4 ∧ (0#28 : BitVec 28) = 0x01#28) ∧
    (busyFacing (.wr 0#4 0x00#28 0x21000000#32)).landing = true ∧
    ¬((0#4 : BitVec 4) = 0#4 ∧ (0x00#28 : BitVec 28) = 0x0C#28) :=
  ⟨rfl, rfl, rfl, rfl, by decide, rfl, by decide⟩

/-! The invariants hold in an idle, a faulted and a busy state. -/

/-- An idle block that has completed a command with outcome CONFIG. -/
def idleDone : State := { facing 0#12 (.wr 0#4 0x00#28 0x20000000#32) with
  done := true, lastErr := 2#8 }

theorem idleDone_statusOk : idleDone.statusOk where
  idle := ⟨fun _ => ⟨rfl, rfl⟩, fun _ => rfl⟩
  faulted := ⟨fun h => Phase.noConfusion h, fun h => Bool.noConfusion h⟩
  exclusive _ := rfl
  running := ⟨fun h => Bool.noConfusion h,
    fun ⟨i, h, _⟩ => absurd (show none = some i from h) (Option.some_ne_none i).symm⟩
  notRunning _ := rfl
  pending h := Bool.noConfusion h
  noInfo _ := rfl
  info h := Bool.noConfusion h
  outcome := ⟨.config, rfl⟩
  validBit0 := rfl

theorem idleDone_countersOk : idleDone.countersOk Config.block where
  ncandMax := Nat.zero_le _
  nresMax := Nat.zero_le _
  nwaveMax := Nat.zero_le _
  nwave _ := rfl
  nt _ := rfl
  ncand _ := rfl
  nres _ := rfl
  cidx := le_refl 0
  candidate h := by cases h
  start _ := ⟨rfl, rfl⟩
  iterating h := Phase.noConfusion h

/-- A block in which SEQ.DECBUF is at the boundary of candidate 0, the only one, with the abort request
set or not, and the outside events `l`. -/
def atBoundary (req : Bool) (l : List PortEvent) : State :=
  { live 0x680#12 with
    busy := true, run := some .seqDecbuf, phase := .demod, ncand := 1#32, abortReq := req, port := l }

theorem atBoundary_statusOk (req : Bool) (l : List PortEvent) : (atBoundary req l).statusOk where
  idle := ⟨fun h => Phase.noConfusion h, fun h => Bool.noConfusion h.1⟩
  faulted := ⟨fun h => Phase.noConfusion h, fun h => Bool.noConfusion h⟩
  exclusive h := Bool.noConfusion h
  running := ⟨fun _ => ⟨.seqDecbuf, rfl, (by decide : Phase.demod ∈ phasesOf .seqDecbuf)⟩,
    fun _ => rfl⟩
  notRunning h := Bool.noConfusion h
  pending _ := ⟨rfl, rfl⟩
  noInfo _ := rfl
  info h := Bool.noConfusion h
  outcome := ⟨.ok, rfl⟩
  validBit0 := (by decide : (0x680#12).getLsbD 0 = false)

theorem atBoundary_countersOk (req : Bool) (l : List PortEvent) :
    (atBoundary req l).countersOk Config.block where
  ncandMax := Config.block_lawful.candCap.1
  nresMax := Nat.zero_le _
  nwaveMax := Nat.zero_le _
  nwave _ := rfl
  nt h := absurd h (by rw [isValid_of 0x680#12 rfl (by decide)]; simp)
  ncand h := absurd h (by rw [isValid_of 0x680#12 rfl (by decide)]; simp)
  nres _ := rfl
  cidx := Nat.zero_le _
  candidate _ _ := Nat.zero_lt_one
  start h := by
    rcases h with h | h | h | h
    · exact absurd rfl h
    · exact Phase.noConfusion h
    · exact Phase.noConfusion h
    · exact Phase.noConfusion h
  iterating h := Phase.noConfusion h

theorem witness_MemoriesStayCanonical :
    idleDone.memoriesOk ∧ ∃ t, step idleDone = .next t :=
  ⟨⟨rfl, rfl, rfl, rfl, rfl, rfl, rfl, rfl⟩, _, rfl⟩

theorem witness_StatusStaysConsistent :
    idleDone.statusOk ∧ idleDone.countersOk Config.block ∧ ∃ t, step idleDone = .next t :=
  ⟨idleDone_statusOk, idleDone_countersOk, _, rfl⟩

theorem witness_NoStepStopsTheModel : (atBoundary false []).statusOk := atBoundary_statusOk _ _

theorem witness_IssuedCommandsTerminate : (live 0xFFE#12).ready = true := rfl

theorem witness_RunningCommandsComplete :
    (atBoundary false []).statusOk ∧ (atBoundary false []).countersOk Config.block ∧
    (atBoundary false []).busy = true ∧ (atBoundary false []).quiet = true :=
  ⟨atBoundary_statusOk _ _, atBoundary_countersOk _ _, rfl, rfl⟩

/-- Also with a transaction that cuts the command short. -/
theorem witness_CommandsTouchOnlyTheirBuffers :
    ({ live 0x004#12 with port := [⟨some 0, .rd 2#4 0#28⟩] } : State).busy = false ∧
    Instr.cksGen ≠ .sysSrst ∧
    ∃ t, exec .cksGen { live 0x004#12 with port := [⟨some 0, .rd 2#4 0#28⟩] } = .next t :=
  ⟨rfl, by decide, _, rfl⟩

theorem witness_FlagsAndCountersHaveOwners :
    (live 0x004#12).busy = false ∧ Instr.cksGen ≠ .sysSrst ∧
    (∃ t, exec .cksGen (live 0x004#12) = .next t) ∧
    Instr.cksGen ∉ [Instr.cksVfy, .seqEncmsg, .seqDecbuf] ∧
    Instr.cksGen ∉ [Instr.bpdDecode, .seqEncmsg, .seqDecbuf] ∧
    Instr.cksGen ∉ [Instr.pckUnpack, .seqEncmsg, .seqDecbuf] ∧
    Instr.cksGen ∉ [Instr.modSynth, .seqEncmsg] ∧
    Instr.cksGen ∉ [Instr.synBuild, .seqDecbuf] ∧
    Instr.cksGen ∉ [Instr.synBuild, .synSearch, .seqDecbuf] ∧ Instr.cksGen ∉ [Instr.seqDecbuf] :=
  ⟨rfl, by decide, ⟨_, rfl⟩, by decide, by decide, by decide, by decide, by decide, by decide,
    by decide⟩

/-- An idle block to which the host writes CFG_NSAMP. -/
def writingConfig : State := { idleDone with port := [event (.wr 0#4 0x1A#28 7#32)] }

theorem witness_ConfigChangesOnlyByWriteOrReset :
    writingConfig.statusOk ∧ (∃ t, step writingConfig = .next t ∧ t.cfg ≠ writingConfig.cfg) ∧
    Instr.seqDecbuf ≠ .sysSrst ∧ ∃ t, exec .seqDecbuf (live 0#12) = .next t := by
  refine ⟨?_, ⟨_, rfl, by decide⟩, by decide, _, rfl⟩
  exact ⟨idleDone_statusOk.1, idleDone_statusOk.2, idleDone_statusOk.3, idleDone_statusOk.4,
    idleDone_statusOk.5, idleDone_statusOk.6, idleDone_statusOk.7, idleDone_statusOk.8,
    idleDone_statusOk.9, idleDone_statusOk.10⟩

/-- The last element of PAY, and the index after it. -/
theorem witness_HostReadReturnsElement :
    (facing 0x004#12 (.rd 2#4 76#28)).busy = false ∧
    (facing 0x004#12 (.rd 2#4 76#28)).fault = false ∧
    (facing 0x004#12 (.rd 2#4 76#28)).port = [⟨none, .rd 2#4 76#28⟩] ∧
    (facing 0x004#12 (.rd 2#4 76#28)).outOfRange Config.block 2#4 76#28 = false ∧
    (facing 0x004#12 (.rd 2#4 77#28)).outOfRange Config.block 2#4 77#28 = true :=
  ⟨rfl, rfl, rfl, rfl, rfl⟩

/-- The last element of CW. -/
theorem witness_WrittenElementReadsBack :
    let s := { live 0#12 with port := [event (.wr 4#4 173#28 1#32), event (.rd 4#4 173#28)] }
    s.busy = false ∧ s.fault = false ∧ s.memoriesOk ∧ 1 ≤ Space.cw.id ∧ Space.cw.id ≤ 7 ∧
    (173#28 : BitVec 28).toNat < s.elements Config.block .cw ∧ representable .cw 1#32 = true ∧
    s.port = [⟨none, .wr (BitVec.ofNat 4 Space.cw.id) 173#28 1#32⟩,
      ⟨none, .rd (BitVec.ofNat 4 Space.cw.id) 173#28⟩] :=
  ⟨rfl, rfl, ⟨rfl, rfl, rfl, rfl, rfl, rfl, rfl, rfl⟩, by decide, by decide,
    Nat.lt_of_lt_of_eq (by decide : 173 < 174) rfl, by decide, rfl⟩

/-- The first and the last configuration register. -/
theorem witness_ConfigRegisterReadsBack :
    (∀ i, (facing 0#12 (.wr 0#4 i 7#32)).busy = false ∧ (facing 0#12 (.wr 0#4 i 7#32)).fault = false ∧
      (facing 0#12 (.wr 0#4 i 7#32)).port = [⟨none, .wr 0#4 i 7#32⟩]) ∧
    (0x10 ≤ (0x10#28 : BitVec 28).toNat ∧ (0x10#28 : BitVec 28).toNat ≤ 0x1A) ∧
    0x10 ≤ (0x1A#28 : BitVec 28).toNat ∧ (0x1A#28 : BitVec 28).toNat ≤ 0x1A :=
  ⟨fun _ => ⟨rfl, rfl, rfl⟩, by decide, by decide⟩

/-- A reserved space, an index past the end, the first output element, a read-only register at either
end of the list, and values that do not fit. -/
theorem witness_ForbiddenWritesFault :
    (live 0#12).outOfRange Config.block 12#4 0#28 = true ∧
    (live 0#12).outOfRange Config.block 3#4 14#28 = true ∧
    (live 0#12).outOfRange Config.block 10#4 0#28 = false ∧ 8 ≤ (10#4 : BitVec 4).toNat ∧
    (0x01#28 : BitVec 28).toNat ∈ [1, 2, 3, 4, 5, 6, 7, 8, 9, 11, 13, 14] ∧
    (0x0E#28 : BitVec 28).toNat ∈ [1, 2, 3, 4, 5, 6, 7, 8, 9, 11, 13, 14] ∧
    (live 0#12).outOfRange Config.block 2#4 0#28 = false ∧ (2#32 : Word) >>> 1 ≠ 0#32 ∧
    (live 0#12).outOfRange Config.block 5#4 78#28 = false ∧ (8#32 : Word) >>> 3 ≠ 0#32 ∧
    (live 0#12).outOfRange Config.block 7#4 0#28 = false ∧
    (0x8000#32 : Word) ≠ ((0x8000#32 : Word).setWidth 16).signExtend 32 ∧
    ∀ space i v, (facing 0#12 (.wr space i v)).busy = false ∧
      (facing 0#12 (.wr space i v)).fault = false ∧
      (facing 0#12 (.wr space i v)).port = [⟨none, .wr space i v⟩] := by
  have hc := Config.block_lawful.candCap.1
  have hs := Config.block_lawful.samplesCap.1
  refine ⟨rfl, rfl, ?_, by decide, by decide, by decide, rfl, by decide, rfl, by decide, ?_,
    by decide, fun _ _ _ => ⟨rfl, rfl, rfl⟩⟩
  · show decide (4 * Config.block.maxCand ≤ 0) = false
    simpa using (show Config.block.maxCand ≠ 0 by omega)
  · show decide (Config.block.maxSamples ≤ 0) = false
    simpa using (show Config.block.maxSamples ≠ 0 by omega)

/-- The last host-loadable bit, and the first of either side that is not. -/
theorem witness_VsetAndAbortWrites :
    ((0x80#32 : Word).toNat % 2 = 0 ∧ (0x80#32 : Word).toNat < 2 ^ 8) ∧
    (0x01#32 : Word).toNat % 2 = 1 ∧ 2 ^ 8 ≤ (0x100#32 : Word).toNat ∧
    ∀ i v, (facing 0#12 (.wr 0#4 i v)).busy = false ∧ (facing 0#12 (.wr 0#4 i v)).fault = false ∧
      (facing 0#12 (.wr 0#4 i v)).port = [⟨none, .wr 0#4 i v⟩] :=
  ⟨by decide, by decide, by decide, fun _ _ => ⟨rfl, rfl, rfl⟩⟩

theorem witness_StatusReadAndAbortWhileBusy (t : Txn) :
    (atBoundary false [⟨some 0, t⟩]).statusOk ∧ (atBoundary false [⟨some 0, t⟩]).busy = true ∧
    (atBoundary false [⟨some 0, t⟩]).port = [⟨some 0, t⟩] ∧
    (atBoundary false [⟨some 0, t⟩]).landing = true :=
  ⟨atBoundary_statusOk _ _, rfl, rfl, rfl⟩

/-! The commands, on a block whose buffers are all valid. -/

theorem witness_ChecksumCommandsComplete :
    (live 0x00C#12).ready = true ∧ (live 0x00C#12).isValid .pay = true ∧
    (live 0x00C#12).isValid .crc = true := ⟨rfl, rfl, rfl⟩

/-- A block whose MSG holds the message `m`. -/
def holding (m : List Word) : State := (live 0xFFE#12).putMessage Config.block m

/-- The block has a valid message (R130), and the host can load it. -/
theorem some_message : ∃ m, (holding m).ready = true ∧ (holding m).isValid .msg = true ∧
    (holding m).message Config.block = m ∧ Config.block.packFmt.validMsg m = true := by
  obtain ⟨m, hm, -⟩ := Config.block_lawful.pack.variants 0 (by decide)
  exact ⟨m, rfl, isValid_of 0xFFE#12 rfl (by decide),
    State.message_putMessage _ _ _ (Config.block_lawful.pack.validShape m hm).1, hm⟩

theorem witness_PackerCommandsComplete : ∃ s : State, s.ready = true ∧ s.isValid .msg = true ∧
    Config.block.packFmt.validMsg (s.message Config.block) = true ∧ s.isValid .pay = true := by
  obtain ⟨m, h1, h2, h3, h4⟩ := some_message
  exact ⟨_, h1, h2, by rw [h3]; exact h4, isValid_of 0xFFE#12 rfl (by decide)⟩

/-- Both outcomes of PCK.UNPACK occur: on profile T, a lawful block (V-PCK-1, V-PCK-5). -/
theorem witness_PackerOutcomes : T.Lawful ∧ T.packFmt.unpack p1 = some m1 ∧
    T.packFmt.unpack (0b111#3 ++ 0#74) = none :=
  ⟨profileT_lawful 16 (by decide), by decide +kernel, by decide +kernel⟩

theorem witness_EncoderCommandsComplete :
    (live 0x01C#12).ready = true ∧ (live 0x01C#12).isValid .pay = true ∧
    (live 0x01C#12).isValid .crc = true ∧ (live 0x01C#12).isValid .cw = true :=
  ⟨rfl, rfl, rfl, rfl⟩

/-- With a budget, and with a budget of zero. -/
theorem witness_BpDecodeCompletes :
    ((live 0x040#12).ready = true ∧ (live 0x040#12).isValid .llr = true ∧
      (live 0x040#12).cfg.maxIter ≠ 0#32) ∧
    let s := { live 0x040#12 with cfg := { CfgRegs.reset with maxIter := 0#32 } }
    s.ready = true ∧ s.isValid .llr = true ∧ s.cfg.maxIter = 0#32 :=
  ⟨⟨rfl, rfl, by decide⟩, rfl, rfl, rfl⟩

/-- A sample rate of 0 is not usable. -/
theorem sps_zero (c : Config) : sps c 0#32 = none := by simp [sps]

/-- A sample rate that is not usable, and one that is, on the lawful block of profile T (V-MOD-7). -/
theorem witness_ModulatorCommandsComplete :
    (live 0x030#12).ready = true ∧ (live 0x030#12).isValid .cw = true ∧
    (live 0x030#12).isValid .sym = true ∧ waveLength Config.block 0#32 = none ∧ T.Lawful ∧
    waveLength T 12000#32 = some 151680 :=
  ⟨rfl, rfl, rfl, by simp [waveLength, sps_zero], profileT_lawful 16 (by decide), by decide⟩

/-- A spectrogram of 79 time-steps, the fewest that can be searched. -/
def searchable : State := { live 0x280#12 with nt := 79#32 }

theorem searchable_ok : searchCfgBad Config.block searchable.cfg searchable.nt.toNat = false := by
  have := Config.block_lawful.binsCap
  simp [searchCfgBad, searchTHi, searchFHi, searchable, live, State.reset, State.resetFrom,
    CfgRegs.reset]

/-- The boundary lengths, and a good and a bad search configuration. -/
theorem witness_SynchronizerCommandsComplete :
    (∀ n, n = 1 ∨ n = Config.block.maxSamples →
      (sampled n).ready = true ∧ (sampled n).isValid .samp = true ∧
      1 ≤ (sampled n).cfg.nsamp.toNat ∧
      (sampled n).cfg.nsamp.toNat ≤ Config.block.maxSamples) ∧
    (searchable.ready = true ∧ searchable.isValid .spec = true ∧
      searchCfgBad Config.block searchable.cfg searchable.nt.toNat = false) ∧
    (live 0x280#12).isValid .spec = true ∧
      searchCfgBad Config.block (live 0x280#12).cfg (live 0x280#12).nt.toNat = true := by
  have hs := Config.block_lawful.samplesCap
  refine ⟨fun n hn => ⟨rfl, isValid_of 0x080#12 rfl (by decide), ?_, ?_⟩,
    ⟨rfl, rfl, searchable_ok⟩, rfl, ?_⟩
  · rw [sampled_nsamp (by omega)]; omega
  · rw [sampled_nsamp (by omega)]; omega
  · simp [searchCfgBad, live, State.reset, State.resetFrom]

/-- A block with one candidate. -/
def oneCandidate : State := { live 0x680#12 with ncand := 1#32 }

theorem witness_DemodCompletes :
    oneCandidate.ready = true ∧ oneCandidate.isValid .spec = true ∧
    oneCandidate.isValid .cand = true ∧ 0 < oneCandidate.ncand.toNat :=
  ⟨rfl, rfl, rfl, by decide⟩

theorem witness_EncmsgCompletes : ∃ s : State, s.ready = true ∧ s.isValid .msg = true ∧
    Config.block.packFmt.validMsg (s.message Config.block) = true := by
  obtain ⟨m, h1, h2, h3, h4⟩ := some_message
  exact ⟨_, h1, h2, by rw [h3]; exact h4⟩

/-- The boundary lengths. -/
theorem witness_DecbufCompletes : ∀ n, n = 1 ∨ n = Config.block.maxSamples →
    (sampled n).ready = true ∧ (sampled n).isValid .samp = true ∧
    1 ≤ (sampled n).cfg.nsamp.toNat ∧ (sampled n).cfg.nsamp.toNat ≤ Config.block.maxSamples :=
  witness_SynchronizerCommandsComplete.1

theorem witness_SystemCommandsComplete :
    (live 0#12).busy = false ∧ (live 0#12).fault = false ∧
    (faultedFacing .reset).fault = true ∧ Instr.sysNop ≠ .sysSrst := ⟨rfl, rfl, rfl, by decide⟩

/-! The units. -/

/-- A block whose checksum is that of its payload. -/
def checked : State := { live 0x00C#12 with crc := crc14 Config.block 0#77 }

/-- The first and the last bit. -/
theorem witness_SingleBitErrorsAreDetected :
    checked.ready = true ∧ checked.isValid .pay = true ∧ checked.isValid .crc = true ∧
    checked.crc = crc14 Config.block checked.pay ∧ 0 < 14 ∧ 13 < 14 ∧ 76 < 77 :=
  ⟨rfl, isValid_of 0x00C#12 rfl (by decide), isValid_of 0x00C#12 rfl (by decide), by
    simp [checked, live, State.reset, State.resetFrom], by decide, by decide, by decide⟩

theorem witness_GenerateThenVerifySucceeds :
    (live 0x004#12).ready = true ∧ (live 0x004#12).isValid .pay = true := ⟨rfl, rfl⟩

theorem witness_PackThenUnpackRestoresMessage : ∃ s : State, s.ready = true ∧
    s.isValid .msg = true ∧ Config.block.packFmt.validMsg (s.message Config.block) = true :=
  witness_EncmsgCompletes

/-- A payload that PCK.PACK makes unpacks (R131). -/
theorem witness_UnpackThenPackRestoresPayload : ∃ s : State, s.ready = true ∧
    s.isValid .pay = true ∧ Config.block.packFmt.unpack s.pay ≠ none := by
  obtain ⟨m, hm, -⟩ := Config.block_lawful.pack.variants 2 (by decide)
  refine ⟨{ live 0x004#12 with pay := Config.block.packFmt.pack m }, rfl,
    isValid_of 0x004#12 rfl (by decide), ?_⟩
  show Config.block.packFmt.unpack (Config.block.packFmt.pack m) ≠ none
  rw [Config.block_lawful.pack.roundTrip m hm]
  exact Option.some_ne_none m

theorem witness_EncoderOutputIsCodeword : 82 < 83 := by decide

theorem witness_ExtractUndoesEncode :
    90 < 91 ∧ (0#91 : BitVec 91) ≠ 1#91 ∧ (live 0x00C#12).ready = true ∧
    (live 0x00C#12).isValid .pay = true ∧ (live 0x00C#12).isValid .crc = true :=
  ⟨by decide, by decide, rfl, rfl, rfl⟩

/-- The zero sequence is a codeword. -/
theorem zero_isCodeword (c : Config) : isCodeword c 0#174 = true := by
  have h (l : List Nat) : xorSum l (0#174).getMsbD = false := by
    induction l with
    | nil => rfl
    | cons a l ih => simp [xorSum]
  simp [isCodeword, syndromeBit, h]

theorem witness_CodewordsAreEncoderOutputs :
    (live 0x010#12).ready = true ∧ (live 0x010#12).isValid .cw = true ∧
    isCodeword Config.block (live 0x010#12).cw = true := ⟨rfl, rfl, zero_isCodeword _⟩

/-- A decode that converges, on the lawful block of profile T (V-BPD-6). -/
theorem witness_ConvergedResultIsCodeword :
    T.Lawful ∧ bpDecode T (fun _ => 0) 20 = some (0#174, 1) ∧
    (live 0x040#12).ready = true ∧ (live 0x040#12).isValid .llr = true :=
  ⟨profileT_lawful 16 (by decide), test_bpDecode_zero, rfl, rfl⟩

/-- The zero codeword with reliability 1. -/
theorem witness_NoiselessDecodeConvergesAtOnce :
    let s := { live 0x040#12 with llr := Mem.ofFn 174 fun _ => 1#32 }
    isCodeword Config.block 0#174 = true ∧ s.ready = true ∧ s.isValid .llr = true ∧
    s.cfg.maxIter ≠ 0#32 ∧
    ∀ n < 174, s.llrAt n = if (0#174).getMsbD n then -1 else 1 := by
  refine ⟨zero_isCodeword _, rfl, rfl, by decide, fun n hn => ?_⟩
  simp [State.llrAt, Mem.rd_ofFn, hn]

theorem witness_SymbolsRecoverCodeword :
    57 < 58 ∧ (0#174 : BitVec 174) ≠ 1#174 ∧ 2 < 3 ∧ 6 < 7 := by decide

theorem witness_LlrIsDifferenceOfStrongest :
    oneCandidate.ready = true ∧ oneCandidate.isValid .spec = true ∧
    oneCandidate.isValid .cand = true ∧ 0 < oneCandidate.ncand.toNat ∧
    (∃ t, exec (.demDemod 0) oneCandidate = .next t) ∧ 57 < 58 ∧ 2 < 3 :=
  ⟨rfl, rfl, rfl, by decide, ⟨_, rfl⟩, by decide, by decide⟩

/-- Tone 7 strictly the strongest, on the lawful block of profile T. -/
theorem witness_CleanSymbolDecidesRight :
    let e : List (List Half) := [[2#16, 2#16, 2#16, 2#16, 2#16, 2#16, 2#16, 3#16]]
    T.Lawful ∧ (7 < 8) ∧ (∀ j' < 8, j' ≠ 7 → T.norm e 0 j' < T.norm e 0 7) ∧ 2 < 3 :=
  ⟨profileT_lawful 16 (by decide), by decide, by decide, by decide⟩

theorem witness_SearchFindsRankedCandidates :
    searchable.ready = true ∧ searchable.isValid .spec = true ∧ 79 ≤ searchable.nt.toNat ∧
    searchable.cfg.tmin.toNat ≤ min searchable.cfg.tmax.toNat (searchable.nt.toNat - 79) ∧
    searchable.cfg.fmin.toNat ≤ min searchable.cfg.fmax.toNat (Config.block.nf - 8) ∧
    searchable.cfg.thresh.toNat < 21 * 65535 :=
  ⟨rfl, rfl, by decide, Nat.zero_le _, Nat.zero_le _, by decide⟩

/-- Two blocks that differ in what the search does not read. -/
theorem witness_SearchDependsOnItsInputsOnly :
    let s' : State := { searchable with crcOk := true, cidx := 3 }
    searchable.ready = true ∧ s'.ready = true ∧ searchable.isValid .spec = true ∧
    s'.isValid .spec = true ∧ s'.nt = searchable.nt ∧ s'.spec = searchable.spec ∧
    s'.cfg = searchable.cfg ∧ s' ≠ searchable ∧
    (∃ t, exec .synSearch searchable = .next t) ∧ ∃ t', exec .synSearch s' = .next t' := by
  refine ⟨rfl, rfl, rfl, rfl, rfl, rfl, rfl, fun h => ?_, ⟨_, rfl⟩, ⟨_, rfl⟩⟩
  exact absurd (congrArg State.cidx h) (by decide)

theorem witness_EncmsgEqualsUnitSequence : ∃ s : State, s.ready = true ∧
    s.isValid .msg = true ∧ Config.block.packFmt.validMsg (s.message Config.block) = true :=
  witness_EncmsgCompletes

theorem witness_CandidateOutcomeByUnitCommands :
    oneCandidate.ready = true ∧ oneCandidate.isValid .spec = true ∧
    oneCandidate.isValid .cand = true ∧ 0 < oneCandidate.ncand.toNat ∧
    oneCandidate.cfg.maxIter ≠ 0#32 := ⟨rfl, rfl, rfl, by decide, by decide⟩

theorem witness_DecbufIsRestartable : ∀ n, n = 1 ∨ n = Config.block.maxSamples →
    (sampled n).ready = true ∧ (sampled n).isValid .samp = true ∧
    1 ≤ (sampled n).cfg.nsamp.toNat ∧ (sampled n).cfg.nsamp.toNat ≤ Config.block.maxSamples :=
  witness_DecbufCompletes

theorem atBoundary_decbufOk (req : Bool) (l : List PortEvent) :
    (atBoundary req l).decbufOk Config.block where
  progress :=
    { accepted := fun _ => rfl
      budget := fun _ _ => by simp [atBoundary, live, State.reset, State.resetFrom, CfgRegs.reset]
      decoding := fun _ h => Phase.noConfusion h
      decoded := fun _ h => by rcases h with h | h | h <;> exact Phase.noConfusion h
      extracted := fun _ h => by rcases h with h | h <;> exact Phase.noConfusion h
      verified := fun _ h => Phase.noConfusion h }
  iterating _ h := Phase.noConfusion h
  start _ h := by rcases h with h | h | h <;> exact Phase.noConfusion h

/-- A block in which SEQ.DECBUF decodes the only candidate, an abort request having come too late. -/
def lateRequest : State :=
  { decbufTick Config.block (atBoundary false []) with abortReq := true }

theorem lateRequest_progressOk : lateRequest.progressOk Config.block :=
  have h := (decbufTick_ok Config.block (atBoundary false []) rfl (atBoundary_decbufOk _ _)).progress
  ⟨h.accepted, h.budget, h.decoding, h.decoded, h.extracted, h.verified⟩

/-- A block in which SEQ.DECBUF searches an empty spectrogram, an abort request being pending. -/
def silent : State :=
  { live 0x280#12 with
    busy := true, run := some .seqDecbuf, phase := .search, nt := 79#32, spec := ⟨none, []⟩,
    abortReq := true }

theorem silent_searchResult : searchResult Config.block silent = [] := by
  have h (t f : Nat) : syncScore Config.block silent t f = 0 := by
    simp [syncScore, silent, State.specAt, Mem.rd, findCell]
  have h2 : aboveThreshold Config.block silent = [] := by
    rw [aboveThreshold, List.filter_eq_nil_iff]
    intro k hk
    obtain ⟨tf, -, rfl⟩ := List.mem_map.1 hk
    simp [h]
  simp [searchResult, h2, mergeRanked]

/-- A request at the boundary of the first candidate, one while the last candidate is decoded, and one
before a search that finds nothing. -/
theorem witness_AbortEndsAtCandidateBoundary :
    (let s := atBoundary true []
     s.statusOk ∧ s.countersOk Config.block ∧ s.progressOk Config.block ∧ s.busy = true ∧
       s.run = some .seqDecbuf ∧ s.quiet = true ∧ s.phase = .demod ∧ s.abortReq = true ∧
       ∃ t, step s = .next t) ∧
    (lateRequest.statusOk ∧ lateRequest.countersOk Config.block ∧
       lateRequest.progressOk Config.block ∧ lateRequest.busy = true ∧
       lateRequest.run = some .seqDecbuf ∧ lateRequest.quiet = true ∧
       lateRequest.phase.ofCandidate ∧ lateRequest.phase ≠ .demod ∧
       lateRequest.cidx + 1 = lateRequest.ncand.toNat) ∧
    (silent.statusOk ∧ silent.countersOk Config.block ∧ silent.progressOk Config.block ∧
       silent.busy = true ∧ silent.run = some .seqDecbuf ∧ silent.quiet = true ∧
       silent.phase = .search ∧ searchResult Config.block silent = []) := by
  refine ⟨⟨atBoundary_statusOk _ _, atBoundary_countersOk _ _, (atBoundary_decbufOk _ _).progress,
    rfl, rfl, rfl, rfl, rfl, _, rfl⟩, ⟨?_, ?_, lateRequest_progressOk, rfl, rfl, rfl, ?_, ?_, rfl⟩,
    ?_, ?_, ?_, rfl, rfl, rfl, rfl, silent_searchResult⟩
  · exact
      { idle := ⟨fun h => Phase.noConfusion h, fun h => Bool.noConfusion h.1⟩
        faulted := ⟨fun h => Phase.noConfusion h, fun h => Bool.noConfusion h⟩
        exclusive := fun h => Bool.noConfusion h
        running := ⟨fun _ => ⟨.seqDecbuf, rfl, (by decide : Phase.fecdec ∈ phasesOf .seqDecbuf)⟩,
          fun _ => rfl⟩
        notRunning := fun h => Bool.noConfusion h
        pending := fun _ => ⟨rfl, rfl⟩
        noInfo := fun _ => rfl
        info := fun h => Bool.noConfusion h
        outcome := ⟨.ok, rfl⟩
        validBit0 := (by decide : (0x680#12).getLsbD 0 = false) }
  · have h := atBoundary_countersOk false []
    exact
      { ncandMax := h.ncandMax, nresMax := h.nresMax, nwaveMax := h.nwaveMax, nwave := h.nwave
        nt := h.nt, ncand := h.ncand, nres := h.nres, cidx := h.cidx
        candidate := fun _ _ => Nat.zero_lt_one
        start := fun h' => by
          rcases h' with h' | h' | h' | h'
          · exact absurd rfl h'
          · exact Phase.noConfusion h'
          · exact Phase.noConfusion h'
          · exact Phase.noConfusion h'
        iterating := fun _ => .inl (by decide : 0 < (20#32 : Word).toNat) }
  · exact .inr (.inl rfl)
  · exact fun h => Phase.noConfusion h
  · exact
      { idle := ⟨fun h => Phase.noConfusion h, fun h => Bool.noConfusion h.1⟩
        faulted := ⟨fun h => Phase.noConfusion h, fun h => Bool.noConfusion h⟩
        exclusive := fun h => Bool.noConfusion h
        running := ⟨fun _ => ⟨.seqDecbuf, rfl, (by decide : Phase.search ∈ phasesOf .seqDecbuf)⟩,
          fun _ => rfl⟩
        notRunning := fun h => Bool.noConfusion h
        pending := fun _ => ⟨rfl, rfl⟩
        noInfo := fun _ => rfl
        info := fun h => Bool.noConfusion h
        outcome := ⟨.ok, rfl⟩
        validBit0 := (by decide : (0x280#12).getLsbD 0 = false) }
  · exact
      { ncandMax := Nat.zero_le _, nresMax := Nat.zero_le _, nwaveMax := Nat.zero_le _
        nwave := fun _ => rfl
        nt := fun h => absurd h (by rw [isValid_of 0x280#12 rfl (by decide)]; simp)
        ncand := fun _ => rfl, nres := fun _ => rfl, cidx := Nat.zero_le _
        candidate := fun _ h => by
          rcases h with h | h | h | h | h <;> exact Phase.noConfusion h
        start := fun _ => ⟨rfl, rfl⟩
        iterating := fun h => Phase.noConfusion h }
  · exact
      { accepted := fun _ => rfl
        budget := fun _ _ => by simp [silent, live, State.reset, State.resetFrom, CfgRegs.reset]
        decoding := fun _ h => Phase.noConfusion h
        decoded := fun _ h => by rcases h with h | h | h <;> exact Phase.noConfusion h
        extracted := fun _ h => by rcases h with h | h <;> exact Phase.noConfusion h
        verified := fun _ h => Phase.noConfusion h }

end Sys2Proof.Tests.Slice0
end

section
/-!
SUPPORT. How a command runs, said once for all of them: its check, its start and its internal steps,
and the induction over a whole command (47_sequencer.md rule R236). With the operand check.
-/

namespace Sys2Proof.Machine

/-- The phase command `i` is accepted in: the first of its phases (log entry 7). -/
def firstPhase (i : Instr) : Phase := (phasesOf i).headD .idle

theorem firstPhase_mem {i : Instr} (hn : i ≠ .sysNop) (hs : i ≠ .sysSrst) :
    firstPhase i ∈ phasesOf i := by
  cases i <;> first | exact absurd rfl hn | exact absurd rfl hs | exact List.mem_cons_self

/-- What a command checks beside its operands (R136, R208, R229). -/
def extraCheck (c : Config) (i : Instr) (s : State) : Option Precond :=
  match i with
  | .pckPack | .seqEncmsg =>
    if c.packFmt.validMsg (s.message c) then none
    else some ⟨.badMessage, (s.msg.rd 0).setWidth 16⟩
  | .synBuild | .seqDecbuf =>
    if s.cfg.nsamp.toNat = 0 ∨ c.maxSamples < s.cfg.nsamp.toNat then
      some ⟨.badLength, s.cfg.nsamp.setWidth 16⟩
    else none
  | .demDemod cidx =>
    if s.ncand.toNat ≤ cidx then some ⟨.indexRange, BitVec.ofNat 16 cidx⟩ else none
  | _ => none

/-- The precondition checks of a command: its operands in ascending space ids, then the rest
(R237). -/
def checkOf (c : Config) (i : Instr) (s : State) : Option Precond :=
  (s.firstInvalid (sources i)).or (extraCheck c i s)

/-- What a command does between its acceptance and its first internal step. -/
def startOf (c : Config) (i : Instr) : State → State :=
  match i with
  | .bpdDecode => bpdStart c
  | _ => id

theorem checkOf_of_no_extra {c : Config} {i : Instr} (h : ∀ s, extraCheck c i s = none) :
    checkOf c i = fun s => s.firstInvalid (sources i) := by
  funext s; rw [checkOf, h, Option.or_none]

theorem messageCheck_eq (c : Config) : messageCheck c = checkOf c .pckPack := by
  funext s; rw [messageCheck, checkOf, sources]; cases s.firstInvalid [.msg] <;> rfl

theorem samplesCheck_eq (c : Config) : samplesCheck c = checkOf c .synBuild := by
  funext s; rw [samplesCheck, checkOf, sources]; cases s.firstInvalid [.samp] <;> rfl

theorem demDemodCheck_eq (c : Config) (k : Nat) : demDemodCheck k = checkOf c (.demDemod k) := by
  funext s; rw [demDemodCheck, checkOf, sources]; cases s.firstInvalid [.spec, .cand] <;> rfl

/-- Every command but the two system commands is `runCommand` of its parts. -/
theorem meaning_eq_runCommand (c : Config) {i : Instr} (s : State) (hn : i ≠ .sysNop)
    (hs : i ≠ .sysSrst) :
    meaning c i s = .next (runCommand i (firstPhase i) (checkOf c i) (startOf c i) (tickOf c i)
      (fuelOf c i s) s) := by
  cases i with
  | pckPack => rw [← messageCheck_eq]; rfl
  | seqEncmsg => rw [show checkOf c .seqEncmsg = messageCheck c from (messageCheck_eq c).symm]; rfl
  | synBuild => rw [← samplesCheck_eq]; rfl
  | seqDecbuf => rw [show checkOf c .seqDecbuf = samplesCheck c from (samplesCheck_eq c).symm]; rfl
  | demDemod k => rw [← demDemodCheck_eq]; rfl
  | sysNop => exact absurd rfl hn
  | sysSrst => exact absurd rfl hs
  | _ => rw [checkOf_of_no_extra fun _ => rfl]; rfl

/-- What fault entry can do (R270, R273, R280). -/
theorem State.raise_cases (s : State) (p : Precond) :
    (s.fault = true ∧ s.raise p = s) ∨
    (s.fault = false ∧ (s.busy = false ∨ s.run = none) ∧ s.raise p = s.faulted p) ∨
    (s.fault = false ∧ s.busy = true ∧
      ∃ i, s.run = some i ∧ s.raise p = (s.abandon i).faulted p) := by
  cases hf : s.fault with
  | true => exact .inl ⟨rfl, State.raise_of_fault p hf⟩
  | false =>
    cases hb : s.busy with
    | false => exact .inr (.inl ⟨rfl, .inl rfl, State.raise_of_idle p hf hb⟩)
    | true =>
      cases hr : s.run with
      | none => exact .inr (.inl ⟨rfl, .inr rfl, by simp [State.raise, State.faulted, hf, hb, hr]⟩)
      | some i => exact .inr (.inr ⟨rfl, rfl, i, rfl, State.raise_of_busy p hf hb hr⟩)

/-- Fault entry where no command runs: the first fault is taken, a second one is not (R270, R280). -/
theorem State.raise_of_not_busy {s : State} (hb : s.busy = false) (p : Precond) :
    s.raise p = s ∨ s.raise p = s.faulted p := by
  cases hf : s.fault with
  | true => exact .inl (State.raise_of_fault p hf)
  | false => exact .inr (State.raise_of_idle p hf hb)

/-- Where `runCommand` ends: it is dropped or faults, or it is accepted and has run for a while. -/
theorem runCommand_cases (i : Instr) (ph : Phase) (check : State → Option Precond)
    (start tick : State → State) (fuel : Nat) (s : State) :
    (∃ p, runCommand i ph check start tick fuel s = s.raise p) ∨
    (s.fault = false ∧ s.busy = false ∧
      runCommand i ph check start tick fuel s = drain tick fuel (start (s.accept i ph))) := by
  cases hf : s.fault with
  | true =>
    rw [runCommand_of_fault hf]
    exact .inl ⟨⟨.busyAccess, 0#16⟩, (State.raise_of_fault _ hf).symm⟩
  | false =>
    cases hb : s.busy with
    | true => exact .inl ⟨⟨.busyAccess, 0#16⟩, by simp [runCommand, hf, hb]⟩
    | false =>
      cases hc : check s with
      | some p =>
        rw [runCommand_of_precond hf hb hc, ← State.raise_of_idle p hf hb]
        exact .inl ⟨p, rfl⟩
      | none => exact .inr ⟨rfl, rfl, runCommand_of_accept hf hb hc⟩

/-- SYS.NOP completes at its acceptance (R256; log entry 10). -/
theorem sysNop_cases (s : State) :
    (∃ p, sysNop s = s.raise p) ∨
    (s.fault = false ∧ s.busy = false ∧ sysNop s = (s.accept .sysNop .idle).complete .ok) := by
  cases hf : s.fault with
  | true =>
    exact .inl ⟨⟨.busyAccess, 0#16⟩, by rw [sysNop, if_pos hf, State.raise_of_fault _ hf]⟩
  | false =>
    cases hb : s.busy with
    | true => exact .inl ⟨⟨.busyAccess, 0#16⟩, by simp [sysNop, hf, hb]⟩
    | false => exact .inr ⟨rfl, rfl, by simp [sysNop, hf, hb]⟩

/-- Where a command ends: it is dropped or faults, or it is accepted and has run for a while. -/
theorem exec_cases {i : Instr} {s t : State} (hi : i ≠ .sysSrst) (h : exec i s = .next t) :
    (∃ p, t = s.raise p) ∨
    (s.fault = false ∧ s.busy = false ∧
      ((i = .sysNop ∧ t = (s.accept .sysNop .idle).complete .ok) ∨
        (i ≠ .sysNop ∧ ∃ n, t = drain (tickOf Config.block i) n
          (startOf Config.block i (s.accept i (firstPhase i)))))) := by
  by_cases hn : i = .sysNop
  · subst hn
    obtain rfl : sysNop s = t := Host.Outcome.next.inj h
    exact (sysNop_cases s).imp_right fun ⟨hf, hb, e⟩ => ⟨hf, hb, .inl ⟨rfl, e⟩⟩
  · rw [exec_eq_meaning, meaning_eq_runCommand _ _ hn hi] at h
    rw [← Host.Outcome.next.inj h]
    exact (runCommand_cases ..).imp_right fun ⟨hf, hb, e⟩ => ⟨hf, hb, .inr ⟨hn, _, e⟩⟩

/-- The induction over a command: what fault entry and acceptance give and each internal step keeps
holds where the command ends, cut short or not. -/
theorem exec_induct {P : State → Prop} {i : Instr} {s t : State} (hi : i ≠ .sysSrst)
    (h : exec i s = .next t) (raised : ∀ p, P (s.raise p))
    (accepted : P (startOf Config.block i (s.accept i (firstPhase i))))
    (tick : ∀ u, P u → P (tickOf Config.block i { u with ticks := u.ticks + 1 })) : P t := by
  rcases exec_cases hi h with ⟨p, rfl⟩ | ⟨-, -, ⟨rfl, rfl⟩ | ⟨-, n, rfl⟩⟩
  · exact raised p
  · exact tick _ accepted
  · exact drain_induct (fun u _ hu => tick u hu) n _ accepted

/-- What a step can be: nothing, the running command going on, or an outside event that lands. -/
theorem step_cases {s t : State} (h : step s = .next t) :
    t = s ∨
    (∃ i, s.busy = true ∧ s.run = some i ∧
      t = drain (tickOf Config.block i) (fuelOf Config.block i s) s) ∨
    (∃ e rest, s.port = e :: rest ∧
      transact Config.block exec e.txn { s with port := rest } = .next t) := by
  unfold step stepWith at h
  split at h
  · rename_i hrun
    simp only [Bool.and_eq_true] at hrun
    unfold resume at h
    split at h
    · cases h
    · rename_i i hr
      exact .inr (.inl ⟨i, hrun.1, hr, (Host.Outcome.next.inj h).symm⟩)
  · split at h
    · exact .inl (Host.Outcome.next.inj h).symm
    · rename_i e rest hp
      exact .inr (.inr ⟨e, rest, hp, h⟩)

/-! ### The operand check -/

/-- The first invalid space of an ascending list is its lowest. -/
theorem State.firstInvalid_of_lowest {s : State} {b : Space} {l : List Space}
    (hl : l.Pairwise fun x y => x.id < y.id) (hb : b ∈ l) (hv : s.isValid b = false)
    (hlow : ∀ b' ∈ l, b'.id < b.id → s.isValid b' = true) :
    s.firstInvalid l = some ⟨.operandInvalid, BitVec.ofNat 16 b.id⟩ := by
  induction l with
  | nil => simp at hb
  | cons a l ih =>
    rw [State.firstInvalid_cons]
    rw [List.pairwise_cons] at hl
    rcases List.mem_cons.1 hb with rfl | hm
    · simp [hv]
    · rw [if_pos (hlow a List.mem_cons_self (hl.1 b hm))]
      exact ih hl.2 hm fun b' hb' => hlow b' (List.mem_cons_of_mem _ hb')

theorem sources_ascending (i : Instr) : (sources i).Pairwise fun x y => x.id < y.id := by
  cases i <;> simp [sources, Space.id]

/-- Settles O7: the operand check comes first and reports the lowest invalid space. -/
theorem invalidOperandsFault : Obligations.InvalidOperandsFault := by
  intro i s b hb hf hm hv hlow
  have hn : i ≠ .sysNop := by rintro rfl; simp [sources] at hm
  have hs : i ≠ .sysSrst := by rintro rfl; simp [sources] at hm
  have hc : checkOf Config.block i s = some ⟨.operandInvalid, BitVec.ofNat 16 b.id⟩ := by
    rw [checkOf, State.firstInvalid_of_lowest (sources_ascending i) hm hv hlow, Option.some_or]
  rw [exec_eq_meaning, meaning_eq_runCommand _ _ hn hs, runCommand_of_precond hf hb hc]

end Sys2Proof.Machine
end

section
/-!
SUPPORT. What a command leaves alone: the buffers outside its row with their validity bits and
counters, CFG and the port (10_state.md rules R33, R34, R45 and R50), and the flags it does not own
(rules R41 and R44).
-/

namespace Sys2Proof.Machine

/-! ### The buffers -/

/-- `t` differs from `s` at most in the buffers of `l`, their validity bits and counters, and in the
registers that are neither CFG nor the port's. -/
structure State.framed (l : List Space) (s t : State) : Prop where
  buffers : ∀ b, b ∉ l →
    sameBuffer b s t ∧ t.isValid b = s.isValid b ∧ t.counterOf b = s.counterOf b
  cfg : t.cfg = s.cfg
  port : t.port = s.port
  rdata : t.rdata = s.rdata

/-- The part of the state that `State.framed` speaks of. -/
def State.storage (s : State) :=
  (s.msg, s.pay, s.crc, s.cw, s.sym, s.llr, s.samp, s.wave, s.spec, s.cand, s.res, s.valid, s.nwave,
    s.nt, s.ncand, s.nres, s.cfg, s.port, s.rdata)

theorem sameBuffer_refl (b : Space) (s : State) : sameBuffer b s s := by cases b <;> rfl

theorem sameBuffer_trans {b : Space} {s t u : State} (h : sameBuffer b s t)
    (h' : sameBuffer b t u) : sameBuffer b s u := by
  cases b <;> exact Eq.trans h' h

/-- `t` with buffer `b` and its counter taken from `u`. -/
def State.graft (b : Space) (t u : State) : State :=
  match b with
  | .msg => { t with msg := u.msg }
  | .pay => { t with pay := u.pay }
  | .crc => { t with crc := u.crc }
  | .cw => { t with cw := u.cw }
  | .sym => { t with sym := u.sym }
  | .llr => { t with llr := u.llr }
  | .samp => { t with samp := u.samp }
  | .wave => { t with wave := u.wave, nwave := u.nwave }
  | .spec => { t with spec := u.spec, nt := u.nt }
  | .cand => { t with cand := u.cand, ncand := u.ncand }
  | .res => { t with res := u.res, nres := u.nres }

namespace State.framed

variable {l : List Space} {s t u : State} {b : Space}

theorem refl (l : List Space) (s : State) : s.framed l s :=
  ⟨fun b _ => ⟨sameBuffer_refl b s, rfl, rfl⟩, rfl, rfl, rfl⟩

theorem trans (h : s.framed l t) (h' : t.framed l u) : s.framed l u where
  buffers b hb := by
    obtain ⟨h1, h2, h3⟩ := h.buffers b hb
    obtain ⟨g1, g2, g3⟩ := h'.buffers b hb
    exact ⟨sameBuffer_trans h1 g1, g2.trans h2, g3.trans h3⟩
  cfg := h'.cfg.trans h.cfg
  port := h'.port.trans h.port
  rdata := h'.rdata.trans h.rdata

theorem graft (hm : b ∈ l) (t u : State) : t.framed l (t.graft b u) where
  buffers b' hb' := by
    have hne : b' ≠ b := fun e => hb' (e.symm ▸ hm)
    cases b <;> cases b' <;> first | exact ⟨rfl, rfl, rfl⟩ | exact absurd rfl hne
  cfg := by cases b <;> rfl
  port := by cases b <;> rfl
  rdata := by cases b <;> rfl

/-- The registers the frame does not speak of may change. -/
theorem congr (h : s.framed l t) (e : u.storage = t.storage) : s.framed l u := by
  simp only [State.storage, Prod.mk.injEq] at e
  obtain ⟨e1, e2, e3, e4, e5, e6, e7, e8, e9, e10, e11, e12, e13, e14, e15, e16, e17, e18, e19⟩ := e
  refine h.trans ⟨fun b _ => ?_, e17, e18, e19⟩
  refine ⟨?_, State.isValid_congr e12 b, ?_⟩
  · cases b <;> assumption
  · cases b <;> simp only [State.counterOf, e13, e14, e15, e16]

/-- A buffer of `l` and its counter may change. -/
theorem write (h : s.framed l t) (hm : b ∈ l) (e : u.storage = (t.graft b u).storage) :
    s.framed l u :=
  congr (h.trans (graft hm t u)) e

theorem setValid (h : s.framed l t) (hm : b ∈ l) (v : Bool) : s.framed l (t.setValid b v) := by
  refine h.trans ⟨fun b' hb' => ⟨?_, ?_, ?_⟩, rfl, rfl, rfl⟩
  · cases b' <;> rfl
  · rw [State.isValid_setValid, if_neg fun e : b' = b => hb' (e.symm ▸ hm)]
  · cases b' <;> rfl

/-- A buffer of `l`, its counter and its validity bit may change. -/
theorem store (h : s.framed l t) (hm : b ∈ l)
    (e : u.storage = ((t.graft b u).setValid b true).storage) : s.framed l u :=
  congr ((h.trans (graft hm t u)).setValid hm true) e

theorem scramble (h : s.framed l t) (hm : b ∈ l) : s.framed l (t.scramble b) := by
  refine h.write hm ?_
  cases b <;> rfl

theorem discard (h : s.framed l t) (hm : b ∈ l) : s.framed l (t.discard b) :=
  (h.setValid hm false).scramble hm

theorem discardAll {k : List Space} (h : s.framed l t) (hk : k ⊆ l) :
    s.framed l (t.discardAll k) := by
  induction k generalizing t with
  | nil => exact h
  | cons a k ih =>
    rw [List.cons_subset] at hk
    exact ih (h.discard hk.1) hk.2

theorem setPay (h : s.framed l t) (hm : .pay ∈ l) (v : BitVec 77) :
    s.framed l { t with pay := v } :=
  h.write hm rfl

theorem setCrc (h : s.framed l t) (hm : .crc ∈ l) (v : BitVec 14) :
    s.framed l { t with crc := v } :=
  h.write hm rfl

theorem setCw (h : s.framed l t) (hm : .cw ∈ l) (v : BitVec 174) :
    s.framed l { t with cw := v } :=
  h.write hm rfl

theorem splitCodeword (h : s.framed l t) (hp : .pay ∈ l) (hc : .crc ∈ l) :
    s.framed l t.splitCodeword :=
  (h.setPay hp (slice t.cw 0 77)).setCrc hc (slice t.cw 77 14)

theorem putMessage (h : s.framed l t) (hm : .msg ∈ l) (c : Config) (m : List Word) :
    s.framed l (t.putMessage c m) :=
  h.write hm rfl

theorem mapSymbols (h : s.framed l t) (hm : .sym ∈ l) (c : Config) : s.framed l (t.mapSymbols c) :=
  h.write hm rfl

theorem putLlr (h : s.framed l t) (hm : .llr ∈ l) (c : Config) (k : Candidate) :
    s.framed l (t.putLlr c k) :=
  h.write hm rfl

theorem putWave (h : s.framed l t) (hm : .wave ∈ l) (c : Config) (n : Nat) :
    s.framed l (t.putWave c n) :=
  h.store hm rfl

theorem buildSpec (h : s.framed l t) (hm : .spec ∈ l) (c : Config) (n : Nat) :
    s.framed l (t.buildSpec c n) :=
  h.store hm rfl

theorem putCandidates (h : s.framed l t) (hm : .cand ∈ l) (k : List Candidate) :
    s.framed l (t.putCandidates k) :=
  h.store hm rfl

theorem putResults (h : s.framed l t) (hm : .res ∈ l) (c : Config) (k : List Accepted) :
    s.framed l (t.putResults c k) :=
  h.store hm rfl

theorem complete (h : s.framed l t) (o : Code) : s.framed l (t.complete o) :=
  h.congr rfl

theorem toBoundary (h : s.framed l t) : s.framed l t.toBoundary :=
  h.congr (by simp [State.storage])

theorem nextCandidate (h : s.framed l t) : s.framed l t.nextCandidate :=
  h.congr (by simp [State.storage])

theorem discardEncode (h : s.framed l t) (hm : [.pay, .crc, .cw, .sym] ⊆ l) :
    s.framed l t.discardEncode :=
  (h.discardAll hm).congr rfl

theorem discardDecode (h : s.framed l t) (hm : [.spec, .cand, .llr, .cw, .pay, .crc, .msg] ⊆ l) :
    s.framed l t.discardDecode :=
  (h.discardAll hm).congr rfl

end State.framed

/-! ### What an internal step leaves alone -/

section Frame

variable {c : Config} {s u : State}

theorem bpdTick_framed (h : s.framed (touched .bpdDecode) u) :
    s.framed (touched .bpdDecode) (bpdTick c u) := by
  have hm : .cw ∈ touched .bpdDecode := by decide
  have hit : s.framed (touched .bpdDecode) (u.iterateBp c) := h.congr rfl
  unfold bpdTick
  split
  · have hd := State.framed.discard (h.congr rfl : s.framed _ (u.withConv false)) hm
    unfold bpdConfig
    refine State.framed.complete ?_ .config
    exact hd.congr rfl
  · dsimp only
    split
    · unfold bpdConverged
      generalize hardDecision (u.iterateBp c).bp = x
      refine State.framed.complete (.setValid ?_ hm true) .ok
      exact hit.write hm rfl
    · split
      · have hf : s.framed _ ((u.iterateBp c).withConv false).scrambleBp := hit.congr rfl
        unfold bpdExhausted
        refine State.framed.complete ?_ .fecNotConverged
        exact (hf.discard hm).congr rfl
      · exact hit

theorem encmsgConfig_framed (h : s.framed (touched .seqEncmsg) u) :
    s.framed (touched .seqEncmsg) (encmsgConfig u) :=
  ((h.discard (by decide)).discardEncode (by decide)).complete .config

theorem encmsgTick_framed (h : s.framed (touched .seqEncmsg) u) :
    s.framed (touched .seqEncmsg) (encmsgTick c u) := by
  unfold encmsgTick
  split
  · -- CFGCHK
    split
    · exact encmsgConfig_framed h
    · exact h.congr rfl
  · -- PACK
    exact h.write (b := .pay) (by decide) rfl
  · -- CKSGEN
    generalize crc14 c u.pay = x
    exact h.write (b := .crc) (by decide) rfl
  · -- FECENC
    generalize fecEncode c u.fecInput = x
    exact h.write (b := .cw) (by decide) rfl
  · -- MAP
    exact h.write (b := .sym) (by decide) rfl
  · -- SYNTH
    split
    · exact encmsgConfig_framed h
    · exact ((h.putWave (by decide) c _).discardEncode (by decide)).complete .ok
  · -- no phase of this command
    exact h

theorem decbufConfig_framed (h : s.framed (touched .seqDecbuf) u) :
    s.framed (touched .seqDecbuf) (decbufConfig u) :=
  ((h.discard (by decide)).discardDecode (by decide)).complete .config

theorem decbufTick_framed (h : s.framed (touched .seqDecbuf) u) :
    s.framed (touched .seqDecbuf) (decbufTick c u) := by
  have hit : s.framed (touched .seqDecbuf) (u.iterateBp c) := h.congr rfl
  unfold decbufTick
  split
  · -- CFGCHK
    split
    · exact decbufConfig_framed h
    · exact h.congr rfl
  · -- BUILD
    split
    · exact decbufConfig_framed h
    · have hd : s.framed (touched .seqDecbuf) u.dropSession := h.discardAll (by decide)
      exact (hd.buildSpec (by decide) c _).congr rfl
  · -- SEARCH
    have hp := h.putCandidates (by decide) (searchResult c u)
    exact State.framed.toBoundary (hp.congr rfl)
  · -- DEMOD: the candidate boundary
    split
    · exact h.congr rfl
    · exact (h.putLlr (by decide) c (u.candidate u.cidx)).congr rfl
  · -- FECDEC: one iteration
    dsimp only
    split
    · generalize hardDecision (u.iterateBp c).bp = x
      exact hit.write (b := .cw) (by decide) rfl
    · split
      · exact hit.nextCandidate
      · exact hit
  · -- XTR
    exact (h.splitCodeword (by decide) (by decide)).congr rfl
  · -- CKSVFY
    split
    · exact h.congr rfl
    · exact h.nextCandidate
  · -- UNPACK
    split
    · exact h.nextCandidate
    · exact State.framed.nextCandidate ((h.putMessage (by decide) c _).congr rfl)
  · -- COLLECT
    have ha : s.framed (touched .seqDecbuf) { u with aborted := decide (u.cidx < u.ncand.toNat) } :=
      h.congr rfl
    exact ((ha.putResults (by decide) c _).discardDecode (by decide)).complete .ok
  · -- no phase of this command
    exact h

/-- An internal step writes the buffers of its command's row only (R33, R34). -/
theorem tickOf_framed {i : Instr} (hi : i ≠ .sysSrst) (h : s.framed (touched i) u) :
    s.framed (touched i) (tickOf c i u) := by
  cases i with
  | cksGen => exact ((h.setCrc (by decide) _).setValid (by decide) true).complete .ok
  | cksVfy =>
    change s.framed _ (cksVfyBody c u)
    unfold cksVfyBody
    split <;> exact h.congr rfl
  | pckPack => exact ((h.setPay (by decide) _).setValid (by decide) true).complete .ok
  | pckUnpack =>
    change s.framed _ (pckUnpackBody c u)
    unfold pckUnpackBody
    split
    · have hf : s.framed (touched .pckUnpack) (u.withMalf true) := h.congr rfl
      exact (hf.discard (by decide)).complete .malformedPayload
    · rename_i m _
      have hp := (h.putMessage (by decide) c m).setValid (b := .msg) (by decide) true
      exact State.framed.complete (t := State.withMalf false _) (hp.congr rfl) .ok
  | encEncode => exact ((h.setCw (by decide) _).setValid (by decide) true).complete .ok
  | encXtr =>
    have hs := h.splitCodeword (by decide) (by decide)
    exact ((hs.setValid (by decide) true).setValid (by decide) true).complete .ok
  | bpdDecode => exact bpdTick_framed h
  | modMap => exact ((h.mapSymbols (by decide) c).setValid (by decide) true).complete .ok
  | modSynth =>
    change s.framed _ (modSynthBody c u)
    unfold modSynthBody
    split
    · exact (h.discard (by decide)).complete .config
    · exact (h.putWave (by decide) c _).complete .ok
  | synBuild =>
    have hd : s.framed (touched .synBuild) u.dropSession := h.discardAll (by decide)
    change s.framed _ (synBuildBody c u)
    unfold synBuildBody
    split
    · exact hd.complete .config
    · exact (hd.buildSpec (by decide) c _).complete .ok
  | synSearch =>
    change s.framed _ (synSearchBody c u)
    unfold synSearchBody
    split
    · exact (h.discard (by decide)).complete .config
    · exact (h.putCandidates (by decide) _).complete .ok
  | demDemod k =>
    have hm : .llr ∈ touched (.demDemod k) := List.mem_cons_self
    exact ((h.putLlr hm c (u.candidate k)).setValid hm true).complete .ok
  | seqEncmsg => exact encmsgTick_framed h
  | seqDecbuf => exact decbufTick_framed h
  | sysNop => exact h.complete .ok
  | sysSrst => exact absurd rfl hi

theorem startOf_eq (c : Config) (i : Instr) (u : State) :
    startOf c i u = u ∨ startOf c i u = u.startBp c := by
  cases i with
  | bpdDecode => exact (ite_eq_or_eq ..)
  | _ => exact .inl rfl

theorem startOf_framed {l : List Space} (i : Instr) (h : s.framed l u) :
    s.framed l (startOf c i u) := by
  rcases startOf_eq c i u with e | e <;> rw [e]
  · exact h
  · exact h.congr rfl

end Frame

/-- A command changes only the buffers of its row, whether or not it is cut short. -/
theorem exec_framed {i : Instr} {s t : State} (hb : s.busy = false) (hi : i ≠ .sysSrst)
    (h : exec i s = .next t) : s.framed (touched i) t := by
  refine exec_induct hi h (fun p => ?_) ?_ fun u hu => tickOf_framed hi (hu.congr rfl)
  · rcases State.raise_of_not_busy hb p with e | e <;> rw [e]
    · exact .refl _ s
    · exact (State.framed.refl _ s).congr rfl
  · exact startOf_framed i ((State.framed.refl _ s).congr rfl)

/-! ### The flags -/

/-- `t` differs from `s` in FLAGS, ITER and CONF at most in what command `i` owns (R41, R44). -/
structure State.flagsFramed (i : Instr) (s t : State) : Prop where
  crcOk : i ∉ [.cksVfy, .seqEncmsg, .seqDecbuf] → t.crcOk = s.crcOk
  decoder : i ∉ [.bpdDecode, .seqEncmsg, .seqDecbuf] →
    t.conv = s.conv ∧ t.iter = s.iter ∧ t.conf = s.conf
  malf : i ∉ [.pckUnpack, .seqEncmsg, .seqDecbuf] → t.malf = s.malf

/-- FLAGS, ITER and CONF. -/
def State.flagRegs (s : State) := (s.crcOk, s.conv, s.malf, s.iter, s.conf)

theorem State.flagsFramed.congr {i : Instr} {s t u : State} (h : s.flagsFramed i t)
    (e : u.flagRegs = t.flagRegs) : s.flagsFramed i u := by
  simp only [State.flagRegs, Prod.mk.injEq] at e
  obtain ⟨e1, e2, e3, e4, e5⟩ := e
  refine ⟨fun hi => e1.trans (h.crcOk hi), fun hi => ?_, fun hi => e3.trans (h.malf hi)⟩
  obtain ⟨h1, h2, h3⟩ := h.decoder hi
  exact ⟨e2.trans h1, e4.trans h2, e5.trans h3⟩

theorem State.flagsFramed.refl (i : Instr) (s : State) : s.flagsFramed i s :=
  ⟨fun _ => rfl, fun _ => ⟨rfl, rfl, rfl⟩, fun _ => rfl⟩

/-- The commands that own no flag write none. -/
theorem tickOf_flagRegs {c : Config} {i : Instr} (u : State)
    (hi : i ∉ [.cksVfy, .pckUnpack, .bpdDecode, .seqEncmsg, .seqDecbuf, .sysSrst]) :
    (tickOf c i u).flagRegs = u.flagRegs := by
  cases i with
  | cksVfy | pckUnpack | bpdDecode | seqEncmsg | seqDecbuf | sysSrst => simp at hi
  | modSynth =>
    change (modSynthBody c u).flagRegs = _
    unfold modSynthBody
    split <;> simp [State.flagRegs]
  | synBuild =>
    change (synBuildBody c u).flagRegs = _
    unfold synBuildBody
    split <;> simp [State.flagRegs, State.dropSession]
  | synSearch =>
    change (synSearchBody c u).flagRegs = _
    unfold synSearchBody
    split <;> simp [State.flagRegs]
  | _ =>
    simp [State.flagRegs, tickOf, cksGenBody, pckPackBody, encEncodeBody, encXtrBody, modMapBody,
      demDemodBody]

/-- An internal step writes only the flags its command owns. -/
theorem tickOf_flagsFramed {c : Config} {i : Instr} {s u : State} (hi : i ≠ .sysSrst)
    (h : s.flagsFramed i u) : s.flagsFramed i (tickOf c i u) := by
  cases i with
  | cksVfy =>
    have hk : ∃ b, (cksVfyBody c u).flagRegs = (u.withCrcOk b).flagRegs := by
      unfold cksVfyBody
      split
      · exact ⟨true, by simp [State.flagRegs]⟩
      · exact ⟨false, by simp [State.flagRegs]⟩
    obtain ⟨b, e⟩ := hk
    exact State.flagsFramed.congr (t := u.withCrcOk b)
      ⟨fun hn => absurd (by decide) hn, h.decoder, h.malf⟩ e
  | pckUnpack =>
    have hk : ∃ b, (pckUnpackBody c u).flagRegs = (u.withMalf b).flagRegs := by
      unfold pckUnpackBody
      split
      · exact ⟨true, by simp [State.flagRegs]⟩
      · exact ⟨false, by simp [State.flagRegs]⟩
    obtain ⟨b, e⟩ := hk
    exact State.flagsFramed.congr (t := u.withMalf b)
      ⟨h.crcOk, h.decoder, fun hn => absurd (by decide) hn⟩ e
  | bpdDecode =>
    have hk : (bpdTick c u).crcOk = u.crcOk ∧ (bpdTick c u).malf = u.malf := by
      unfold bpdTick
      split
      · simp [bpdConfig]
      · dsimp only
        split
        · simp [bpdConverged]
        · split
          · simp [bpdExhausted]
          · simp
    exact ⟨fun hn => hk.1.trans (h.crcOk hn), fun hn => absurd (by decide) hn,
      fun hn => hk.2.trans (h.malf hn)⟩
  | seqEncmsg | seqDecbuf =>
    exact ⟨fun hn => absurd (by decide) hn, fun hn => absurd (by decide) hn,
      fun hn => absurd (by decide) hn⟩
  | sysSrst => exact absurd rfl hi
  | _ => exact h.congr (tickOf_flagRegs u (by simp))

theorem startOf_flagRegs (c : Config) (i : Instr) (u : State) :
    (startOf c i u).flagRegs = u.flagRegs := by
  rcases startOf_eq c i u with e | e <;> rw [e]
  rfl

/-- A command writes only the flags it owns. -/
theorem exec_flagsFramed {i : Instr} {s t : State} (hb : s.busy = false) (hi : i ≠ .sysSrst)
    (h : exec i s = .next t) : s.flagsFramed i t := by
  refine exec_induct hi h (fun p => ?_) ?_ fun u hu => tickOf_flagsFramed hi (hu.congr rfl)
  · rcases State.raise_of_not_busy hb p with e | e <;> rw [e]
    · exact .refl _ s
    · exact (State.flagsFramed.refl _ s).congr rfl
  · exact (State.flagsFramed.refl _ s).congr (startOf_flagRegs _ i _)

/-! ### The rows and the owners -/

/-- Settles O17: each internal step writes its command's row only. -/
theorem commandsTouchOnlyTheirBuffers : Obligations.CommandsTouchOnlyTheirBuffers := by
  intro i s t hb hi h
  have hf := exec_framed hb hi h
  refine ⟨fun b hm => ?_, hf.cfg, hf.port, hf.rdata⟩
  obtain ⟨hbuf, hval, -⟩ := hf.buffers b hm
  exact ⟨hbuf, hval⟩

/-- The counter of a memory outside a command's row keeps its value (R45). -/
theorem exec_counterOf {i : Instr} {s t : State} (hb : s.busy = false) (hi : i ≠ .sysSrst)
    (h : exec i s = .next t) {b : Space} (hm : b ∉ touched i) : t.counterOf b = s.counterOf b :=
  ((exec_framed hb hi h).buffers b hm).2.2

/-- The commands whose row has a memory with a counter (R33, R45). -/
theorem owners_of_touched (i : Instr) :
    (.wave ∈ touched i → i ∈ [.modSynth, .seqEncmsg]) ∧
    (.spec ∈ touched i → i ∈ [.synBuild, .seqDecbuf]) ∧
    (.cand ∈ touched i → i ∈ [.synBuild, .synSearch, .seqDecbuf]) ∧
    (.res ∈ touched i → i ∈ [.seqDecbuf]) := by
  cases i <;> simp [touched]

/-- Settles O18: the counters go with their memories' rows, the flags with their owners. -/
theorem flagsAndCountersHaveOwners : Obligations.FlagsAndCountersHaveOwners := by
  intro i s t hb hi h
  have hflags := exec_flagsFramed hb hi h
  have hcount := fun b (hm : b ∉ touched i) => exec_counterOf hb hi h hm
  obtain ⟨hwave, hspec, hcand, hres⟩ := owners_of_touched i
  exact ⟨hflags.crcOk, hflags.decoder, hflags.malf,
    fun hn => Option.some.inj (hcount .wave fun hm => hn (hwave hm)),
    fun hn => Option.some.inj (hcount .spec fun hm => hn (hspec hm)),
    fun hn => Option.some.inj (hcount .cand fun hm => hn (hcand hm)),
    fun hn => Option.some.inj (hcount .res fun hm => hn (hres hm))⟩

/-! ### CFG -/

theorem State.raise_cfg (s : State) (p : Precond) : (s.raise p).cfg = s.cfg := by
  rcases s.raise_cases p with ⟨-, e⟩ | ⟨-, -, e⟩ | ⟨-, -, i, -, e⟩
  · rw [e]
  · rw [e]; rfl
  · rw [e]; simp [State.abandon]

theorem tickOf_cfg {c : Config} {i : Instr} (hi : i ≠ .sysSrst) (u : State) :
    (tickOf c i u).cfg = u.cfg :=
  (tickOf_framed hi (.refl _ u)).cfg

/-- No command but SYS.SRST changes CFG (R50). -/
theorem exec_cfg {i : Instr} {s t : State} (hi : i ≠ .sysSrst) (h : exec i s = .next t) :
    t.cfg = s.cfg :=
  exec_induct (P := fun u => u.cfg = s.cfg) hi h s.raise_cfg
    (startOf_framed i (.refl [] (s.accept i (firstPhase i)))).cfg
    fun _ hu => (tickOf_cfg hi _).trans hu

/-- A running command other than SYS.SRST keeps CFG to its end. -/
theorem drain_cfg {c : Config} {i : Instr} (hi : i ≠ .sysSrst) (n : Nat) (s : State) :
    (drain (tickOf c i) n s).cfg = s.cfg :=
  drain_induct (P := fun u => u.cfg = s.cfg) (fun _ _ hu => (tickOf_cfg hi _).trans hu) n s rfl

/-- The command word of SYS.SRST (R95). -/
theorem decode_srst : decode 0x21000000#32 = .ok .sysSrst := by decide

/-- The issue of a word changes CFG only where the word is SYS.SRST's (R50). -/
theorem issue_cfg {w : Word} {s t : State} (h : issue exec w s = .next t) (hne : t.cfg ≠ s.cfg) :
    decode w = .ok .sysSrst := by
  cases hf : s.fault with
  | true =>
    by_cases hw : w = 0x21000000#32
    · rw [hw]; exact decode_srst
    · simp only [issue, hf, if_true, if_neg hw] at h
      exact absurd (congrArg State.cfg (Host.Outcome.next.inj h).symm) hne
  | false =>
    cases hd : decode w with
    | error e =>
      rw [issue_of_error hf hd] at h
      rw [← Host.Outcome.next.inj h] at hne
      exact absurd (State.raise_cfg _ _) hne
    | ok i =>
      rw [issue_of_decode hf hd] at h
      by_cases hi : i = .sysSrst
      · rw [hi]
      · exact absurd (exec_cfg hi h) hne

/-- CFG registers have the numbers 0x10 to 0x1A (R49). -/
theorem CfgRegs.write_of_not_mem {r : CfgRegs} {i : Nat} {v : Word} (h : i < 0x10 ∨ 0x1A < i) :
    r.write i v = r := by
  unfold CfgRegs.write
  split <;> first | omega | rfl

theorem State.writeElem_cfg (s : State) (b : Space) (i : Nat) (v : Word) :
    (s.writeElem b i v).cfg = s.cfg := by
  cases b <;> rfl

/-- An access that has no element faults or is ignored (R65, R69, R70). -/
theorem hostWr_of_outOfRange {c : Config} {run : Commands} {space : BitVec 4} {index : BitVec 28}
    {s : State} (v : Word) (h : s.outOfRange c space index = true) :
    ∃ p, hostWr c run space index v s = .next (s.raise p) := by
  rw [hostWr, h]
  split
  · exact ⟨_, rfl⟩
  · exact ⟨_, rfl⟩

/-- An element in the register space is in space 0 (R61, R69). -/
theorem space_eq_zero_of_inRange {c : Config} {s : State} {space : BitVec 4} {index : BitVec 28}
    (h : s.outOfRange c space index = false) (hn : spaceOf space.toNat = none) : space = 0#4 := by
  by_contra h0
  simp [State.outOfRange, h0, hn] at h

/-- A host write changes CFG only where it writes one of its registers or issues SYS.SRST (R50). -/
theorem hostWr_cfg {space : BitVec 4} {index : BitVec 28} {v : Word} {s t : State}
    (h : hostWr Config.block exec space index v s = .next t) (hne : t.cfg ≠ s.cfg) :
    (space = 0#4 ∧ index = 0x00#28 ∧ decode v = .ok .sysSrst) ∨
    (space = 0#4 ∧ 0x10 ≤ index.toNat ∧ index.toNat ≤ 0x1A ∧
      t.cfg = s.cfg.write index.toNat v) := by
  have same : ∀ u : State, hostWr Config.block exec space index v s = .next u → u.cfg = s.cfg →
      False := fun u e hu => by
    rw [e] at h
    rw [← Host.Outcome.next.inj h] at hne
    exact hne hu
  cases hr : s.outOfRange Config.block space index with
  | true =>
    obtain ⟨p, e⟩ := hostWr_of_outOfRange (run := exec) v hr
    exact (same _ e (State.raise_cfg s p)).elim
  | false =>
    rcases hostWr_cases Config.block exec space index v s with ⟨p, e⟩ | ⟨-, h0, hi, e⟩ |
      ⟨-, -, r, e, -⟩ | ⟨-, -, -, e⟩ | ⟨-, -, hn, e⟩ | ⟨-, -, b, -, -, e⟩ | ⟨-, e⟩
    · exact (same _ e (State.raise_cfg s p)).elim
    · exact .inl ⟨h0, hi, issue_cfg (e.symm.trans h) hne⟩
    · exact (same _ e rfl).elim
    · exact (same _ e rfl).elim
    · have ht : t.cfg = s.cfg.write index.toNat v := by
        rw [← Host.Outcome.next.inj (e.symm.trans h)]
      have hi : ¬(index.toNat < 0x10 ∨ 0x1A < index.toNat) := fun hi =>
        hne (ht.trans (CfgRegs.write_of_not_mem hi))
      exact .inr ⟨space_eq_zero_of_inRange hr hn, by omega, by omega, ht⟩
    · exact (same _ e (State.writeElem_cfg s b _ v)).elim
    · exact (same _ e rfl).elim

theorem hostRd_cfg (c : Config) (space : BitVec 4) (index : BitVec 28) (s : State) :
    (hostRd c space index s).cfg = s.cfg := by
  rcases hostRd_cases c space index s with ⟨p, e⟩ | ⟨-, e⟩
  · rw [e]; exact State.raise_cfg s p
  · rw [e]

/-- SYS.SRST never runs: it has no phase. -/
theorem State.statusOk.run_ne_srst {s : State} {i : Instr} (h : s.statusOk) (hb : s.busy = true)
    (hr : s.run = some i) : i ≠ .sysSrst := by
  obtain ⟨j, hj, hp⟩ := h.running.1 hb
  obtain rfl : i = j := Option.some.inj (hr.symm.trans hj)
  rintro rfl
  exact List.not_mem_nil hp

/-- Settles O19: no internal step writes CFG, so an outside event must have. -/
theorem configChangesOnlyByWriteOrReset : Obligations.ConfigChangesOnlyByWriteOrReset := by
  refine ⟨fun i s t => exec_cfg, fun s t hs h hne => ?_⟩
  rcases step_cases h with rfl | ⟨i, hb, hr, rfl⟩ | ⟨e, rest, hp, h⟩
  · exact absurd rfl hne
  · exact absurd (drain_cfg (hs.run_ne_srst hb hr) _ s) hne
  · refine ⟨e, rest, hp, ?_⟩
    cases ht : e.txn with
    | rd space index =>
      rw [ht] at h
      rw [← Host.Outcome.next.inj h] at hne
      exact absurd (hostRd_cfg _ space index _) hne
    | wr space index v =>
      rw [ht] at h
      rcases hostWr_cfg (s := { s with port := rest }) h hne with
        ⟨rfl, rfl, hd⟩ | ⟨rfl, h1, h2, h3⟩
      · exact .inr (.inl ⟨v, rfl, hd⟩)
      · exact .inr (.inr ⟨index, v, rfl, h1, h2, h3⟩)
    | reset => exact .inl rfl

end Sys2Proof.Machine
end

section
/-!
SUPPORT. The register space: what its registers read as, after reset and after a write, and the
writes to CFG, VSET and ABORT (10_state.md rules R37 to R51).
-/

namespace Sys2Proof.Machine

/-! ### The register space -/

/-- A CFG write changes the register it names (R49). -/
theorem State.readReg_writeCfg (s : State) {i : Nat} (v : Word) (j : Nat) (h : 0x10 ≤ i)
    (h' : i ≤ 0x1A) :
    ({ s with cfg := s.cfg.write i v } : State).readReg j = if j = i then v else s.readReg j := by
  by_cases hj : 0x10 ≤ j ∧ j ≤ 0x1A
  · -- the eleven registers are a table, so both numbers are looked up in it
    obtain ⟨hj1, hj2⟩ := hj
    interval_cases i <;> interval_cases j <;> rfl
  · rw [if_neg (by omega)]
    unfold State.readReg
    split <;> first | rfl | omega

/-- A write of a CFG register to an idle block is the write of that register (R67). -/
theorem hostWr_cfgRegister {c : Config} {run : Commands} {s : State} {i : BitVec 28} (v : Word)
    (hb : s.busy = false) (hf : s.fault = false) (h : 0x10 ≤ i.toNat) (h' : i.toNat ≤ 0x1A) :
    hostWr c run 0#4 i v s = .next { s with cfg := s.cfg.write i.toNat v } := by
  have hne : ∀ k : BitVec 28, k.toNat < 0x10 → i ≠ k := by rintro k hk rfl; omega
  have hr : s.outOfRange c 0#4 i = false := by
    simp only [State.outOfRange, isRegister, if_true]
    simp only [Bool.not_eq_false', decide_eq_true_eq]
    omega
  have ho : readOnlyTarget 0#4 i = none := by
    have : ¬ i.toNat < 0x10 := by omega
    simp [readOnlyTarget, spaceOf, isReadOnly, this]
  simp [hostWr, hb, hr, ho, hne 0x00#28 (by decide), hne 0x0A#28 (by decide),
    hne 0x0C#28 (by decide), dataWrite, hf, spaceOf]

/-- Settles O23: the write reaches the register it names, and reads go by register number. -/
theorem configRegisterReadsBack : Obligations.ConfigRegisterReadsBack := by
  intro s i v l rest hb hf h h' hp
  refine ⟨s.cfg.write i.toNat v, ?_, fun j => ?_⟩
  · rw [step_of_event hp (.inl hb)]
    exact hostWr_cfgRegister (s := { s with port := rest }) v hb hf h h'
  · exact State.readReg_writeCfg { s with port := rest } v j h h'

/-- Settles O6, from the definition of the reset values. -/
theorem resetValues : Obligations.ResetValues := by
  intro d
  have hv : ∀ b, (State.resetFrom d).isValid b = false := fun b => by
    simp [State.isValid, State.resetFrom]
  have hs : (State.resetFrom d).statusWord = 0#32 := by simp [State.statusWord, State.resetFrom]
  have hf : (State.resetFrom d).flagsWord = 0#32 := by simp [State.flagsWord, State.resetFrom]
  exact ⟨fun _ => rfl, rfl, rfl, rfl, fun _ => rfl, rfl, rfl, rfl, rfl, rfl, rfl, hv, rfl, hs, hf,
    rfl, rfl, rfl, rfl, rfl, rfl, rfl, rfl, rfl, rfl, rfl, rfl, rfl⟩

/-- STATUS, bit by bit (R39). -/
theorem State.getLsbD_statusWord (s : State) (k : Nat) : s.statusWord.getLsbD k =
    ((k == 0 && s.busy) || (k == 1 && s.done) || (k == 2 && s.fault) || (k == 3 && s.aborted)) := by
  simp only [State.statusWord, BitVec.getLsbD_append, BitVec.getLsbD_ofBool, BitVec.getLsbD_zero]
  match k with
  | 0 | 1 | 2 | 3 => simp
  | k + 4 => simp

/-- FLAGS, bit by bit (R41). -/
theorem State.getLsbD_flagsWord (s : State) (k : Nat) : s.flagsWord.getLsbD k =
    ((k == 0 && s.crcOk) || (k == 1 && s.conv) || (k == 2 && s.malf)) := by
  simp only [State.flagsWord, BitVec.getLsbD_append, BitVec.getLsbD_ofBool, BitVec.getLsbD_zero]
  match k with
  | 0 | 1 | 2 => simp
  | k + 3 => simp

theorem toNat_bit_setWidth (b : Bool) : ((BitVec.ofBool b).setWidth 32).toNat = b.toNat := by
  cases b <;> rfl

/-- Settles O21: each value is the register's or the element's, extended. -/
theorem portReadValues : Obligations.PortReadValues := by
  intro s i k
  have wide {w : Nat} (x : BitVec w) (hw : w ≤ 32) : (x.setWidth 32).toNat = x.toNat :=
    BitVec.toNat_setWidth_of_le hw
  have signed {w : Nat} (x : BitVec w) (hw : w ≤ 32) : (x.signExtend 32).toInt = x.toInt :=
    BitVec.toInt_signExtend_of_le hw
  exact ⟨s.getLsbD_statusWord k, s.getLsbD_flagsWord k, wide _ (by decide), rfl, rfl, rfl, rfl, rfl,
    wide _ (by decide), rfl, rfl, rfl, rfl, rfl, rfl, rfl, rfl, rfl, rfl, rfl, rfl, rfl, rfl, rfl,
    rfl, rfl, rfl, toNat_bit_setWidth _, toNat_bit_setWidth _, toNat_bit_setWidth _,
    wide _ (by decide), rfl, signed _ (by decide), signed _ (by decide), wide _ (by decide), rfl,
    rfl⟩

/-! ### VSET and ABORT -/

theorem getLsbD_zero_of_even {v : Word} (h : v.toNat % 2 = 0) : v.getLsbD 0 = false := by
  rw [BitVec.getLsbD, Nat.testBit_zero, h]; rfl

/-- The bits a VSET write may not name: bit 0 and bits 31:8 (R37). -/
theorem vsetMask_bits : ∀ k < 32, (0xFFFFFF01#32).getLsbD k = decide (k = 0 ∨ 8 ≤ k) := by
  decide

theorem vsetMask_eq_zero_iff (v : Word) :
    v &&& 0xFFFFFF01#32 = 0#32 ↔ v.toNat % 2 = 0 ∧ v.toNat < 2 ^ 8 := by
  constructor
  · intro h
    have hbit : ∀ k < 32, k = 0 ∨ 8 ≤ k → v.getLsbD k = false := fun k hk hm => by
      have e := congrArg (fun x => x.getLsbD k) h
      simpa [vsetMask_bits k hk, hm] using e
    constructor
    · have h0 : v.toNat.testBit 0 = false := hbit 0 (by decide) (.inl rfl)
      rw [Nat.testBit_zero, decide_eq_false_iff_not] at h0
      omega
    · refine Nat.lt_pow_two_of_testBit _ fun k hk => ?_
      rcases Nat.lt_or_ge k 32 with hk' | hk'
      · exact hbit k hk' (.inr hk)
      · exact BitVec.getLsbD_of_ge v k hk'
  · rintro ⟨h0, h8⟩
    refine BitVec.eq_of_getLsbD_eq fun k hk => ?_
    rw [BitVec.getLsbD_and, vsetMask_bits k hk, BitVec.getLsbD_zero]
    by_cases hm : k = 0 ∨ 8 ≤ k
    · have hv : v.getLsbD k = false := by
        rcases hm with rfl | hm
        · exact getLsbD_zero_of_even h0
        · exact Nat.testBit_lt_two_pow (lt_of_lt_of_le h8 (Nat.pow_le_pow_right (by decide) hm))
      rw [hv, Bool.false_and]
    · rw [decide_eq_false hm, Bool.and_false]

/-- A VSET write to an idle block (R37, R67). -/
theorem hostWr_vset {c : Config} {run : Commands} {s : State} (v : Word) (hb : s.busy = false) :
    hostWr c run 0#4 0x0A#28 v s = .next (vsetWrite v s) := by
  have hr : s.outOfRange c 0#4 0x0A#28 = false := by simp [State.outOfRange, isRegister]
  have ho : readOnlyTarget 0#4 0x0A#28 = none := by decide
  simp [hostWr, hb, hr, ho]

/-- An ABORT write to a block that is not faulted sets ABORT_REQ when bit 0 is set, whether or not a
command runs (R48). -/
theorem hostWr_abort {c : Config} {run : Commands} {s : State} (v : Word) (hf : s.fault = false) :
    hostWr c run 0#4 0x0C#28 v s = .next { s with abortReq := s.abortReq || v.getLsbD 0 } := by
  have hr : s.outOfRange c 0#4 0x0C#28 = false := by simp [State.outOfRange, isRegister]
  have ho : readOnlyTarget 0#4 0x0C#28 = none := by decide
  have ha : abortWrite v s = { s with abortReq := s.abortReq || v.getLsbD 0 } := by
    rw [abortWrite, if_neg (by simp [hf])]
    cases v.getLsbD 0 <;> simp
  rw [← ha]
  simp [hostWr, hr, ho]

/-- Settles O25: the bits VSET may not name are those of a mask, which the numeric bounds
describe. -/
theorem vsetAndAbortWrites : Obligations.VsetAndAbortWrites := by
  intro s l v rest hb hf
  refine ⟨fun hp => ?_, fun hp => ?_⟩
  · have hs : step s = .next (vsetWrite v { s with port := rest }) := by
      rw [step_of_event hp (.inl hb)]
      exact hostWr_vset (s := { s with port := rest }) v hb
    refine ⟨fun hv => ?_, fun h0 h8 => ⟨s.valid ||| v.setWidth 12, ?_, fun k => ?_⟩⟩
    · have hm : v &&& 0xFFFFFF01#32 ≠ 0#32 := fun h => by
        obtain ⟨h0, h8⟩ := (vsetMask_eq_zero_iff v).1 h
        omega
      rw [hs, ← State.raise_of_idle (s := { s with port := rest }) _ hf hb]
      simp [vsetWrite, hf, hm]
    · rw [hs]
      simp [vsetWrite, hf, (vsetMask_eq_zero_iff v).2 ⟨h0, h8⟩]
    · rw [BitVec.getLsbD_or, BitVec.getLsbD_setWidth]
      by_cases hk : k < 12
      · simp [hk]
      · have hv : v.getLsbD k = false :=
          Nat.testBit_lt_two_pow (lt_of_lt_of_le h8 (Nat.pow_le_pow_right (by decide) (by omega)))
        simp [hk, hv]
  · rw [step_of_event hp (.inl hb)]
    exact hostWr_abort (s := { s with port := rest }) v hf

/-- A faulted block is not busy, read the other way round (R270). -/
theorem State.statusOk.fault_of_busy {s : State} (h : s.statusOk) (hb : s.busy = true) :
    s.fault = false :=
  Bool.eq_false_iff.2 fun hf => Bool.false_ne_true ((h.exclusive hf).symm.trans hb)

/-- STATUS while a command runs (R84). -/
theorem State.statusOk.statusWord_of_busy {s : State} (h : s.statusOk) (hb : s.busy = true) :
    s.statusWord = 1#32 := by
  obtain ⟨hd, ha⟩ := h.pending hb
  have hf := h.fault_of_busy hb
  simp [State.statusWord, hb, hd, ha, hf]

/-- A STATUS read never faults, also while a command runs (R66, R84). -/
theorem hostRd_status (c : Config) (s : State) :
    hostRd c 0#4 0x01#28 s = { s with rdata := s.statusWord } := by
  have hr : s.outOfRange c 0#4 0x01#28 = false := by simp [State.outOfRange, isRegister]
  rw [hostRd, hr, if_neg (by simp), if_neg Bool.false_ne_true]
  rfl

/-- Settles O26: both transactions pass the test for a busy block, whose status word is 1. -/
theorem statusReadAndAbortWhileBusy : Obligations.StatusReadAndAbortWhileBusy := by
  intro s e rest hs hb hp hl
  have hw := hs.statusWord_of_busy hb
  have hf := hs.fault_of_busy hb
  rw [step_of_event hp (.inr hl)]
  refine ⟨fun ht => ?_, fun v ht => ?_⟩
  · rw [ht, transact, hostRd_status]
    exact congrArg (fun w => Host.Outcome.next { s with port := rest, rdata := w }) hw
  · rw [ht]
    exact hostWr_abort (s := { s with port := rest }) v hf

end Sys2Proof.Machine
end

section
/-!
SUPPORT. The invariants of the status registers, the sequencer state and the counters as one
predicate with two modes: no command runs, or command `i` does (10_state.md rules R36 to R46). Every
internal step and every outside event keeps it.
-/

namespace Sys2Proof.Machine

/-! ### The counters, LASTERR and VALID bit 0 -/

/-- The greatest value of a memory's counter; NT's range is that of its word (R45). -/
def capacity (c : Config) : Space → Nat
  | .wave => c.maxSamples
  | .cand => c.maxCand
  | .res => c.maxRes
  | _ => 2 ^ 32

/-- The part of the two invariants that does not depend on what the sequencer does. -/
structure State.recordsOk (c : Config) (s : State) : Prop where
  counters : ∀ b n, s.counterOf b = some n →
    n.toNat ≤ capacity c b ∧ (s.isValid b = false → n = 0#32)
  outcome : ∃ o : Code, s.lastErr = o.num
  validBit0 : s.valid.getLsbD 0 = false

/-- The part of the state that `State.recordsOk` speaks of. -/
def State.records (s : State) := (s.valid, s.lastErr, s.ncand, s.nres, s.nt, s.nwave)

namespace State.recordsOk

variable {c : Config} {s t : State}

theorem congr (h : s.recordsOk c) (e : t.records = s.records) : t.recordsOk c := by
  simp only [State.records, Prod.mk.injEq] at e
  obtain ⟨ev, ee, e1, e2, e3, e4⟩ := e
  have hc : ∀ b, t.counterOf b = s.counterOf b := fun b => by
    cases b <;> simp only [State.counterOf, e1, e2, e3, e4]
  refine ⟨fun b n hn => ?_, ee ▸ h.outcome, ev ▸ h.validBit0⟩
  rw [State.isValid_congr ev b]
  exact h.counters b n (hc b ▸ hn)

/-- An operation on buffer `b` keeps the records when it leaves them right for `b`. -/
theorem of_framed {b : Space} (h : s.recordsOk c) (hf : s.framed [b] t)
    (hb : ∀ n, t.counterOf b = some n → n.toNat ≤ capacity c b ∧ (t.isValid b = false → n = 0#32))
    (he : t.lastErr = s.lastErr) (h0 : t.valid.getLsbD 0 = s.valid.getLsbD 0) : t.recordsOk c := by
  refine ⟨fun b' n hn => ?_, he ▸ h.outcome, h0 ▸ h.validBit0⟩
  by_cases hbb : b' = b
  · subst hbb
    exact hb n hn
  · obtain ⟨-, hval, hcnt⟩ := hf.buffers b' (by simpa using hbb)
    rw [hval]
    exact h.counters b' n (hcnt ▸ hn)

theorem setValid (h : s.recordsOk c) (b : Space) : (s.setValid b true).recordsOk c := by
  refine h.of_framed ((State.framed.refl [b] s).setValid List.mem_cons_self true)
    (fun n hn => ?_) rfl (s.setValid_bit0 b true)
  have hn : s.counterOf b = some n := by cases b <;> exact hn
  exact ⟨(h.counters b n hn).1, fun hv => absurd hv (by simp)⟩

theorem discard (h : s.recordsOk c) (b : Space) : (s.discard b).recordsOk c := by
  refine h.of_framed ((State.framed.refl [b] s).discard List.mem_cons_self)
    (fun n hn => ?_) (by simp) (s.discard_bit0 b)
  have hn : n = 0#32 := by cases b <;> simp_all [State.counterOf, State.discard, State.scramble]
  subst hn
  exact ⟨Nat.zero_le _, fun _ => rfl⟩

theorem discardAll (h : s.recordsOk c) (l : List Space) : (s.discardAll l).recordsOk c :=
  State.discardAll_induct (fun _ b hs => hs.discard b) l s h

theorem complete (h : s.recordsOk c) (o : Code) : (s.complete o).recordsOk c :=
  ⟨h.counters, ⟨o, rfl⟩, h.validBit0⟩

/-- Storing into a memory keeps the records when the number stored is in range. -/
theorem of_stored {b : Space} {n : Nat} (h : s.recordsOk c) (hf : s.framed [b] t)
    (hn : t.counterOf b = some (BitVec.ofNat 32 n)) (hc : n ≤ capacity c b)
    (hv : t.valid = (s.setValid b true).valid) (he : t.lastErr = s.lastErr) : t.recordsOk c := by
  refine h.of_framed hf (fun m hm => ?_) he (hv ▸ s.setValid_bit0 b true)
  obtain rfl : BitVec.ofNat 32 n = m := Option.some.inj (hn.symm.trans hm)
  refine ⟨le_trans ?_ hc, fun hi => ?_⟩
  · rw [BitVec.toNat_ofNat]; exact Nat.mod_le _ _
  · rw [State.isValid_congr hv, State.isValid_setValid_self] at hi
    exact absurd hi (by decide)

theorem putWave (h : s.recordsOk c) {n : Nat} (hn : n ≤ c.maxSamples) :
    (s.putWave c n).recordsOk c :=
  h.of_stored ((State.framed.refl _ s).putWave List.mem_cons_self c n) rfl hn rfl rfl

theorem buildSpec (h : s.recordsOk c) (n : Nat) : (s.buildSpec c n).recordsOk c := by
  refine h.of_stored ((State.framed.refl _ s).buildSpec List.mem_cons_self c n) rfl ?_ rfl rfl
  exact le_trans (Nat.div_le_self _ n) (le_of_lt s.cfg.nsamp.isLt)

theorem putCandidates (h : s.recordsOk c) {l : List Candidate} (hl : l.length ≤ c.maxCand) :
    (s.putCandidates l).recordsOk c :=
  h.of_stored ((State.framed.refl _ s).putCandidates List.mem_cons_self l) rfl hl rfl rfl

theorem putResults (h : s.recordsOk c) {l : List Accepted} (hl : l.length ≤ c.maxRes) :
    (s.putResults c l).recordsOk c :=
  h.of_stored ((State.framed.refl _ s).putResults List.mem_cons_self c l) rfl hl rfl rfl

theorem setPay (h : s.recordsOk c) (v : BitVec 77) : ({ s with pay := v } : State).recordsOk c :=
  h.congr rfl

theorem setCrc (h : s.recordsOk c) (v : BitVec 14) : ({ s with crc := v } : State).recordsOk c :=
  h.congr rfl

theorem setCw (h : s.recordsOk c) (v : BitVec 174) : ({ s with cw := v } : State).recordsOk c :=
  h.congr rfl

theorem discardEncode (h : s.recordsOk c) : s.discardEncode.recordsOk c :=
  (h.discardAll _).congr rfl

theorem discardDecode (h : s.recordsOk c) : s.discardDecode.recordsOk c :=
  (h.discardAll _).congr rfl

/-- A VSET write of legal bits (R37). -/
theorem vset (h : s.recordsOk c) {v : Word} (hv : v &&& 0xFFFFFF01#32 = 0#32) :
    ({ s with valid := s.valid ||| v.setWidth 12 } : State).recordsOk c := by
  refine ⟨fun b n hn => ?_, h.outcome, ?_⟩
  · obtain ⟨hle, hz⟩ := h.counters b n hn
    refine ⟨hle, fun hi => hz ?_⟩
    simp only [State.isValid, BitVec.getLsbD_or, Bool.or_eq_false_iff] at hi
    exact hi.1
  · have h0 := getLsbD_zero_of_even ((vsetMask_eq_zero_iff v).1 hv).1
    rw [BitVec.getLsbD_or, h.validBit0, BitVec.getLsbD_setWidth, h0]; rfl

end State.recordsOk

theorem searchResult_length_le (c : Config) (s : State) : (searchResult c s).length ≤ c.maxCand :=
  List.length_take_le _ _

theorem collect_length_le (c : Config) (l : List Accepted) : (collect c l).length ≤ c.maxRes :=
  List.length_take_le _ _

/-! ### The two modes -/

/-- No command runs: the block is idle, or faulted. -/
structure State.restingOk (c : Config) (s : State) : Prop where
  records : s.recordsOk c
  busy : s.busy = false
  run : s.run = none
  cidx : s.cidx = 0
  acc : s.acc = []
  mode : (s.fault = false ∧ s.phase = .idle ∧ s.faultInfo = 0#32) ∨
    (s.fault = true ∧ s.phase = .faulted ∧ ∃ p : Precond, s.faultInfo = p.word)

/-- Command `i` runs, and is in one of its phases. -/
structure State.runningOk (c : Config) (i : Instr) (s : State) : Prop where
  records : s.recordsOk c
  busy : s.busy = true
  fault : s.fault = false
  noInfo : s.faultInfo = 0#32
  run : s.run = some i
  pending : s.done = false ∧ s.aborted = false
  phase : s.phase ∈ phasesOf i
  cidx : s.cidx ≤ s.ncand.toNat
  candidate : i = .seqDecbuf → s.phase.ofCandidate → s.cidx < s.ncand.toNat
  start : i ≠ .seqDecbuf ∨ s.phase = .cfgchk ∨ s.phase = .build ∨ s.phase = .search →
    s.cidx = 0 ∧ s.acc = []
  iterating : s.phase = .fecdec → s.iterT < s.cfg.maxIter.toNat ∨ s.cfg.maxIter = 0#32

/-- The block is in one of the two modes. -/
def State.consistent (c : Config) (s : State) : Prop :=
  s.restingOk c ∨ ∃ i, s.runningOk c i

theorem phase_ne_of_mem {i : Instr} {p : Phase} (h : p ∈ phasesOf i) :
    p ≠ .idle ∧ p ≠ .faulted := by
  constructor <;> rintro rfl <;> cases i <;> simp [phasesOf] at h

section Modes

variable {c : Config} {s t u : State} {i : Instr}

theorem State.restingOk.statusOk (h : s.restingOk c) : s.statusOk := by
  rcases h.mode with ⟨hf, hp, hi⟩ | ⟨hf, hp, hi⟩
  all_goals exact
    { idle := by simp [hp, hf, h.busy]
      faulted := by simp [hp, hf]
      exclusive := fun _ => h.busy
      running := by simp [h.busy, h.run]
      notRunning := fun _ => h.run
      pending := by simp [h.busy]
      noInfo := by simp [hf, hi]
      info := by simp [hf, hi]
      outcome := h.records.outcome
      validBit0 := h.records.validBit0 }

theorem State.runningOk.statusOk (h : s.runningOk c i) : s.statusOk := by
  obtain ⟨hni, hnf⟩ := phase_ne_of_mem h.phase
  exact
    { idle := by simp [hni, h.busy]
      faulted := by simp [hnf, h.fault]
      exclusive := by simp [h.fault]
      running := by simp [h.busy, h.run, h.phase]
      notRunning := by simp [h.busy]
      pending := fun _ => h.pending
      noInfo := fun _ => h.noInfo
      info := by simp [h.fault]
      outcome := h.records.outcome
      validBit0 := h.records.validBit0 }

theorem State.restingOk.countersOk (h : s.restingOk c) : s.countersOk c where
  ncandMax := (h.records.counters .cand _ rfl).1
  nresMax := (h.records.counters .res _ rfl).1
  nwaveMax := (h.records.counters .wave _ rfl).1
  nwave := (h.records.counters .wave _ rfl).2
  nt := (h.records.counters .spec _ rfl).2
  ncand := (h.records.counters .cand _ rfl).2
  nres := (h.records.counters .res _ rfl).2
  cidx := h.cidx ▸ Nat.zero_le _
  candidate := by simp [h.run]
  start := fun _ => ⟨h.cidx, h.acc⟩
  iterating := by rcases h.mode with ⟨-, hp, -⟩ | ⟨-, hp, -⟩ <;> simp [hp]

theorem State.runningOk.countersOk (h : s.runningOk c i) : s.countersOk c where
  ncandMax := (h.records.counters .cand _ rfl).1
  nresMax := (h.records.counters .res _ rfl).1
  nwaveMax := (h.records.counters .wave _ rfl).1
  nwave := (h.records.counters .wave _ rfl).2
  nt := (h.records.counters .spec _ rfl).2
  ncand := (h.records.counters .cand _ rfl).2
  nres := (h.records.counters .res _ rfl).2
  cidx := h.cidx
  candidate hr := h.candidate (Option.some.inj (h.run.symm.trans hr))
  start hr := h.start (hr.imp_left fun hn hi => hn (h.run.trans (congrArg some hi)))
  iterating := h.iterating

theorem State.recordsOk_of_statusOk (hs : s.statusOk) (hc : s.countersOk c) : s.recordsOk c where
  counters b n hn := by
    cases b <;> cases hn
    · exact ⟨hc.nwaveMax, hc.nwave⟩
    · exact ⟨le_of_lt s.nt.isLt, hc.nt⟩
    · exact ⟨hc.ncandMax, hc.ncand⟩
    · exact ⟨hc.nresMax, hc.nres⟩
  outcome := hs.outcome
  validBit0 := hs.validBit0

/-- The two invariants together are the two modes. -/
theorem State.consistent_iff : s.consistent c ↔ s.statusOk ∧ s.countersOk c := by
  constructor
  · rintro (h | ⟨i, h⟩)
    · exact ⟨h.statusOk, h.countersOk⟩
    · exact ⟨h.statusOk, h.countersOk⟩
  · rintro ⟨hs, hc⟩
    have hrec := State.recordsOk_of_statusOk hs hc
    cases hb : s.busy with
    | true =>
      obtain ⟨i, hr, hp⟩ := hs.running.1 hb
      have hf := hs.fault_of_busy hb
      exact .inr ⟨i,
        { records := hrec, busy := hb, fault := hf, noInfo := hs.noInfo hf, run := hr
          pending := hs.pending hb, phase := hp, cidx := hc.cidx
          candidate := fun hi => hc.candidate (hr.trans (congrArg some hi))
          start := fun h => hc.start (h.imp_left fun hn e => hn (Option.some.inj (hr.symm.trans e)))
          iterating := hc.iterating }⟩
    | false =>
      have hr := hs.notRunning hb
      obtain ⟨h0, ha⟩ := hc.start (.inl (by simp [hr]))
      refine .inl ⟨hrec, hb, hr, h0, ha, ?_⟩
      cases hf : s.fault with
      | false => exact .inl ⟨rfl, hs.idle.2 ⟨hb, hf⟩, hs.noInfo hf⟩
      | true => exact .inr ⟨rfl, hs.faulted.2 hf, hs.info hf⟩

/-! ### Between commands -/

/-- The part of the state beside its records that `State.restingOk` speaks of. -/
def State.control (s : State) := (s.busy, s.run, s.cidx, s.acc, s.fault, s.phase, s.faultInfo)

theorem State.restingOk.congr (h : s.restingOk c) (hr : t.recordsOk c) (e : t.control = s.control) :
    t.restingOk c := by
  simp only [State.control, Prod.mk.injEq] at e
  obtain ⟨e1, e2, e3, e4, e5, e6, e7⟩ := e
  refine ⟨hr, e1.trans h.busy, e2.trans h.run, e3.trans h.cidx, e4.trans h.acc, ?_⟩
  rw [e5, e6, e7]
  exact h.mode

theorem State.restingOk.of_fault (h : s.restingOk c) (hf : s.fault = false) :
    s.phase = .idle ∧ s.faultInfo = 0#32 := by
  rcases h.mode with ⟨-, hp, hi⟩ | ⟨ht, -⟩
  · exact ⟨hp, hi⟩
  · rw [hf] at ht; exact absurd ht Bool.false_ne_true

/-- A block that is not busy is in the first mode. -/
theorem State.consistent.resting (h : s.consistent c) (hb : s.busy = false) : s.restingOk c :=
  h.resolve_right fun ⟨_, hr⟩ => Bool.false_ne_true (hb.symm.trans hr.busy)

/-- A block that runs command `i` is in the second mode. -/
theorem State.consistent.running (h : s.consistent c) (hb : s.busy = true) (hr : s.run = some i) :
    s.runningOk c i := by
  rcases h with h | ⟨j, h⟩
  · exact absurd (h.busy.symm.trans hb) Bool.false_ne_true
  · obtain rfl : i = j := Option.some.inj (hr.symm.trans h.run)
    exact h

theorem State.consistent.records (h : s.consistent c) : s.recordsOk c :=
  h.elim (·.records) fun ⟨_, hr⟩ => hr.records

/-- Neither the port and ABORT_REQ nor the count of internal steps concerns a running command's
consistency. -/
theorem State.runningOk.withHost (h : s.runningOk c i) (p : List PortEvent) (r : Word) (a : Bool)
    (k : Nat) :
    ({ s with port := p, rdata := r, abortReq := a, ticks := k } : State).runningOk c i :=
  ⟨h.records.congr rfl, h.busy, h.fault, h.noInfo, h.run, h.pending, h.phase, h.cidx, h.candidate,
    h.start, h.iterating⟩

theorem State.consistent.withHost (h : s.consistent c) (p : List PortEvent) (r : Word) (a : Bool)
    (k : Nat) :
    ({ s with port := p, rdata := r, abortReq := a, ticks := k } : State).consistent c := by
  rcases h with h | ⟨i, h⟩
  · exact .inl (h.congr (h.records.congr rfl) rfl)
  · exact .inr ⟨i, h.withHost p r a k⟩

/-- The block's reset values are those of an idle block (R51). -/
theorem State.resetFrom_restingOk (c : Config) (d : Nat) : (State.resetFrom d).restingOk c where
  records :=
    { counters := fun b n hn => by cases b <;> cases hn <;> exact ⟨Nat.zero_le _, fun _ => rfl⟩
      outcome := ⟨.ok, rfl⟩
      validBit0 := by simp [State.resetFrom] }
  busy := rfl
  run := rfl
  cidx := rfl
  acc := rfl
  mode := .inl ⟨rfl, rfl, rfl⟩

theorem State.resetBlock_restingOk (c : Config) (s : State) : s.resetBlock.restingOk c :=
  have h := State.resetFrom_restingOk c s.draws
  h.congr (h.records.congr rfl) rfl

theorem State.faulted_restingOk (h : s.recordsOk c) (h0 : s.cidx = 0) (ha : s.acc = [])
    (p : Precond) : (s.faulted p).restingOk c :=
  ⟨h.congr rfl, rfl, rfl, h0, ha, .inr ⟨rfl, rfl, p, rfl⟩⟩

/-- Fault entry leaves no command running (R270, R273). -/
theorem State.consistent.raise (h : s.consistent c) (p : Precond) : (s.raise p).restingOk c := by
  rcases s.raise_cases p with ⟨hf, e⟩ | ⟨-, hn, e⟩ | ⟨-, -, j, -, e⟩ <;> rw [e]
  · rcases h with h | ⟨i, h⟩
    · exact h
    · rw [h.fault] at hf; exact absurd hf Bool.false_ne_true
  · rcases h with h | ⟨i, h⟩
    · exact State.faulted_restingOk h.records h.cidx h.acc p
    · rw [h.busy, h.run] at hn; simp at hn
  · exact State.faulted_restingOk (s := s.abandon j) ((h.records.discardAll (touched j)).congr rfl)
      rfl rfl p

/-! ### The internal steps -/

/-- The part of the state that no internal step changes before the command completes. -/
def State.live (s : State) := (s.busy, s.fault, s.faultInfo, s.run, s.done, s.aborted)

/-- Completion leaves an idle block (R236). -/
theorem State.complete_restingOk (h : s.recordsOk c) (hf : s.fault = false)
    (hi : s.faultInfo = 0#32) (h0 : s.cidx = 0) (ha : s.acc = []) (o : Code) :
    (s.complete o).restingOk c :=
  ⟨h.complete o, rfl, rfl, h0, ha, .inl ⟨hf, rfl, hi⟩⟩

namespace State.runningOk

/-- A running command other than SEQ.DECBUF completes. -/
theorem complete (h : s.runningOk c i) (hi : i ≠ .seqDecbuf) (hr : u.recordsOk c)
    (e : u.control = s.control) (o : Code) : (u.complete o).restingOk c := by
  simp only [State.control, Prod.mk.injEq] at e
  obtain ⟨-, -, e0, ea, ef, -, ei⟩ := e
  obtain ⟨h0, ha⟩ := h.start (.inl hi)
  exact State.complete_restingOk hr (ef.trans h.fault) (ei.trans h.noInfo) (e0.trans h0)
    (ea.trans ha) o

/-- A running command goes on in one of its phases. -/
theorem next (h : s.runningOk c i) (hr : t.recordsOk c) (e : t.live = s.live)
    (hp : t.phase ∈ phasesOf i) (hc : t.cidx ≤ t.ncand.toNat)
    (hcand : i = .seqDecbuf → t.phase.ofCandidate → t.cidx < t.ncand.toNat)
    (hstart : i ≠ .seqDecbuf ∨ t.phase = .cfgchk ∨ t.phase = .build ∨ t.phase = .search →
      t.cidx = 0 ∧ t.acc = [])
    (hit : t.phase = .fecdec → t.iterT < t.cfg.maxIter.toNat ∨ t.cfg.maxIter = 0#32) :
    t.runningOk c i := by
  simp only [State.live, Prod.mk.injEq] at e
  obtain ⟨eb, ef, ei, er, ed, ea⟩ := e
  exact ⟨hr, eb.trans h.busy, ef.trans h.fault, ei.trans h.noInfo, er.trans h.run,
    ⟨ed.trans h.pending.1, ea.trans h.pending.2⟩, hp, hc, hcand, hstart, hit⟩

/-- A command other than SEQ.DECBUF goes on. -/
theorem nextPhase (h : s.runningOk c i) (hi : i ≠ .seqDecbuf) (hr : t.recordsOk c)
    (e : t.live = s.live) (hp : t.phase ∈ phasesOf i) (h0 : t.cidx = s.cidx) (ha : t.acc = s.acc)
    (hit : t.phase = .fecdec → t.iterT < t.cfg.maxIter.toNat ∨ t.cfg.maxIter = 0#32) :
    t.runningOk c i := by
  obtain ⟨g0, ga⟩ := h.start (.inl hi)
  exact h.next hr e hp (h0.trans g0 ▸ Nat.zero_le _) (fun hd => absurd hd hi)
    (fun _ => ⟨h0.trans g0, ha.trans ga⟩) hit

/-- SEQ.DECBUF goes on before its candidates. -/
theorem nextStart (h : s.runningOk c .seqDecbuf) (hr : t.recordsOk c) (e : t.live = s.live)
    (hp : t.phase = .build ∨ t.phase = .search) (h0 : t.cidx = 0) (ha : t.acc = []) :
    t.runningOk c .seqDecbuf := by
  refine h.next hr e ?_ (h0 ▸ Nat.zero_le _) (fun _ hc => ?_) (fun _ => ⟨h0, ha⟩) fun hd => ?_
  · rcases hp with hp | hp <;> rw [hp] <;> decide
  · rcases hp with hp | hp <;> simp [hp, Phase.ofCandidate] at hc
  · rcases hp with hp | hp <;> simp [hp] at hd

/-- SEQ.DECBUF goes on with the same candidate. -/
theorem nextWithin (h : s.runningOk c .seqDecbuf) (hr : t.recordsOk c) (e : t.live = s.live)
    (hp : t.phase.ofCandidate) (hlt : t.cidx < t.ncand.toNat)
    (hit : t.phase = .fecdec → t.iterT < t.cfg.maxIter.toNat ∨ t.cfg.maxIter = 0#32) :
    t.runningOk c .seqDecbuf := by
  refine h.next hr e ?_ (le_of_lt hlt) (fun _ _ => hlt) (fun hs => ?_) hit
  · rcases hp with hp | hp | hp | hp | hp <;> rw [hp] <;> decide
  · rcases hp with hp | hp | hp | hp | hp <;> simp [hp] at hs

theorem nextCollect (h : s.runningOk c .seqDecbuf) (hr : t.recordsOk c) (e : t.live = s.live)
    (hp : t.phase = .collect) (hle : t.cidx ≤ t.ncand.toNat) : t.runningOk c .seqDecbuf := by
  refine h.next hr e (hp ▸ by decide) hle (fun _ hc => ?_) (fun hs => ?_) fun hd => ?_
  · simp [hp, Phase.ofCandidate] at hc
  · simp [hp] at hs
  · simp [hp] at hd

/-- SEQ.DECBUF comes to a candidate boundary (R245). -/
theorem toBoundary (h : s.runningOk c .seqDecbuf) (hr : t.recordsOk c) (e : t.live = s.live)
    (hle : t.cidx ≤ t.ncand.toNat) : t.toBoundary.runningOk c .seqDecbuf := by
  have hr' : t.toBoundary.recordsOk c := hr.congr (by simp [State.records])
  have e' : t.toBoundary.live = s.live := Eq.trans (by simp [State.live]) e
  by_cases hlt : t.cidx < t.ncand.toNat
  · have hp : t.toBoundary.phase = .demod := by simp [State.toBoundary, hlt]
    exact h.nextWithin hr' e' (.inl hp) (by simpa using hlt) (by simp [hp])
  · have hp : t.toBoundary.phase = .collect := by simp [State.toBoundary, hlt]
    exact h.nextCollect hr' e' hp (by simpa using hle)

/-- SEQ.DECBUF has finished with its candidate (R247). -/
theorem nextCandidate (h : s.runningOk c .seqDecbuf) (hr : t.recordsOk c) (e : t.live = s.live)
    (hlt : t.cidx < t.ncand.toNat) : t.nextCandidate.runningOk c .seqDecbuf :=
  h.toBoundary (hr.congr rfl) e hlt

end State.runningOk

end Modes

/-- A decode that has made no iteration has iterations to come, or no budget at all. -/
theorem word_pos_or_zero (m : Word) : 0 < m.toNat ∨ m = 0#32 :=
  (Nat.eq_zero_or_pos m.toNat).symm.imp_right fun e => BitVec.eq_of_toNat_eq e

section Ticks

variable {c : Config} {s : State} {i : Instr}

/-- A unit command completes in its one internal step (R84). -/
theorem unitTick_restingOk (h : s.runningOk c i)
    (hi : i ∉ [.bpdDecode, .seqEncmsg, .seqDecbuf]) : (tickOf c i s).restingOk c := by
  have hd : i ≠ .seqDecbuf := fun e => hi (by simp [e])
  have hr := h.records
  cases i with
  | cksGen =>
    change (cksGenBody c s).restingOk c
    unfold cksGenBody
    generalize crc14 c s.pay = x
    exact h.complete hd ((hr.setCrc x).setValid .crc) rfl .ok
  | cksVfy =>
    change (cksVfyBody c s).restingOk c
    unfold cksVfyBody
    split
    · exact h.complete (u := s.withCrcOk true) hd (hr.congr rfl) rfl .ok
    · exact h.complete (u := s.withCrcOk false) hd (hr.congr rfl) rfl .checksumMismatch
  | pckPack => exact h.complete hd ((hr.setPay _).setValid .pay) rfl .ok
  | pckUnpack =>
    change (pckUnpackBody c s).restingOk c
    unfold pckUnpackBody
    split
    · have hw : (s.withMalf true).recordsOk c := hr.congr rfl
      exact h.complete hd (hw.discard .msg) (by simp [State.control]) .malformedPayload
    · rename_i m _
      have hw : (s.putMessage c m).recordsOk c := hr.congr rfl
      have hv : (((s.putMessage c m).setValid .msg true).withMalf false).recordsOk c :=
        (hw.setValid .msg).congr rfl
      exact h.complete hd hv rfl .ok
  | encEncode =>
    change (encEncodeBody c s).restingOk c
    unfold encEncodeBody
    generalize fecEncode c s.fecInput = x
    exact h.complete hd ((hr.setCw x).setValid .cw) rfl .ok
  | encXtr =>
    have hw : s.splitCodeword.recordsOk c := hr.congr rfl
    exact h.complete hd ((hw.setValid .pay).setValid .crc) rfl .ok
  | modMap =>
    have hw : (s.mapSymbols c).recordsOk c := hr.congr rfl
    exact h.complete hd (hw.setValid .sym) rfl .ok
  | modSynth =>
    change (modSynthBody c s).restingOk c
    unfold modSynthBody
    split
    · exact h.complete hd (hr.discard .wave) (by simp [State.control]) .config
    · rename_i n hn
      exact h.complete hd (hr.putWave (waveLength_le hn)) rfl .ok
  | synBuild =>
    have hw : s.dropSession.recordsOk c := hr.discardAll _
    change (synBuildBody c s).restingOk c
    unfold synBuildBody
    split
    · exact h.complete hd hw (by simp [State.control, State.dropSession]) .config
    · exact h.complete hd (hw.buildSpec _) (by simp [State.control, State.dropSession]) .ok
  | synSearch =>
    change (synSearchBody c s).restingOk c
    unfold synSearchBody
    split
    · exact h.complete hd (hr.discard .cand) (by simp [State.control]) .config
    · exact h.complete hd (hr.putCandidates (searchResult_length_le c s)) rfl .ok
  | demDemod k =>
    have hw : (s.putLlr c (s.candidate k)).recordsOk c := hr.congr rfl
    exact h.complete hd (hw.setValid .llr) rfl .ok
  | bpdDecode | seqEncmsg | seqDecbuf => simp at hi
  | sysNop | sysSrst => exact absurd h.phase List.not_mem_nil

theorem bpdTick_modes (h : s.runningOk c .bpdDecode) :
    (bpdTick c s).restingOk c ∨ (bpdTick c s).runningOk c .bpdDecode := by
  have hd : Instr.bpdDecode ≠ .seqDecbuf := by decide
  have hr := h.records
  have hit : (s.iterateBp c).recordsOk c := hr.congr rfl
  unfold bpdTick
  split
  · refine .inl ?_
    have hw : (s.withConv false).recordsOk c := hr.congr rfl
    unfold bpdConfig
    refine h.complete hd ?_ (by simp [State.control]) .config
    exact (hw.discard .cw).congr rfl
  · dsimp only
    split
    · refine .inl ?_
      unfold bpdConverged
      generalize hardDecision (s.iterateBp c).bp = x
      refine h.complete hd (.setValid ?_ .cw) (by simp [State.control]) .ok
      exact hit.congr rfl
    · split
      · refine .inl ?_
        have hw : ((s.iterateBp c).withConv false).scrambleBp.recordsOk c := hit.congr rfl
        unfold bpdExhausted
        refine h.complete hd ?_ (by simp [State.control]) .fecNotConverged
        exact (hw.discard .cw).congr rfl
      · rename_i hlt
        refine .inr (h.nextPhase hd hit rfl h.phase rfl rfl fun _ => .inl ?_)
        simpa using hlt

theorem encmsgConfig_restingOk (h : s.runningOk c .seqEncmsg) : (encmsgConfig s).restingOk c :=
  h.complete (by decide) (h.records.discard .wave).discardEncode
    (by simp [State.control, State.discardEncode]) .config

theorem encmsgTick_modes (h : s.runningOk c .seqEncmsg) :
    (encmsgTick c s).restingOk c ∨ (encmsgTick c s).runningOk c .seqEncmsg := by
  have hd : Instr.seqEncmsg ≠ .seqDecbuf := by decide
  have hr := h.records
  unfold encmsgTick
  split
  · -- CFGCHK
    split
    · exact .inl (encmsgConfig_restingOk h)
    · exact .inr (h.nextPhase hd (hr.congr rfl) rfl (by simp [phasesOf]) rfl rfl (by simp))
  · -- PACK
    exact .inr (h.nextPhase hd (hr.congr rfl) rfl (by simp [phasesOf]) rfl rfl (by simp))
  · -- CKSGEN
    exact .inr (h.nextPhase hd (hr.congr rfl) rfl (by simp [phasesOf]) rfl rfl (by simp))
  · -- FECENC
    exact .inr (h.nextPhase hd (hr.congr rfl) rfl (by simp [phasesOf]) rfl rfl (by simp))
  · -- MAP
    exact .inr (h.nextPhase hd (hr.congr rfl) rfl (by simp [phasesOf]) rfl rfl (by simp))
  · -- SYNTH
    split
    · exact .inl (encmsgConfig_restingOk h)
    · rename_i n hn
      exact .inl (h.complete hd (hr.putWave (waveLength_le hn)).discardEncode
        (by simp [State.control, State.discardEncode]) .ok)
  · -- no phase of this command
    exact .inr h

theorem decbufConfig_restingOk (h : s.runningOk c .seqDecbuf) : (decbufConfig s).restingOk c :=
  State.complete_restingOk (h.records.discard .res).discardDecode
    (by simp [State.discardDecode, h.fault]) (by simp [State.discardDecode, h.noInfo]) rfl rfl
    .config

theorem decbufCollect_restingOk (h : s.runningOk c .seqDecbuf) :
    (decbufCollect c s).restingOk c := by
  have hw : ({ s with aborted := decide (s.cidx < s.ncand.toNat) } : State).recordsOk c :=
    h.records.congr rfl
  exact State.complete_restingOk (hw.putResults (collect_length_le c s.acc)).discardDecode
    (by simp [State.discardDecode, h.fault]) (by simp [State.discardDecode, h.noInfo]) rfl rfl .ok

theorem decbufTick_modes (h : s.runningOk c .seqDecbuf) :
    (decbufTick c s).restingOk c ∨ (decbufTick c s).runningOk c .seqDecbuf := by
  have hr := h.records
  have hit : (s.iterateBp c).recordsOk c := hr.congr rfl
  unfold decbufTick
  split
  · -- CFGCHK
    rename_i hp
    obtain ⟨h0, ha⟩ := h.start (.inr (.inl hp))
    split
    · exact .inl (decbufConfig_restingOk h)
    · exact .inr (h.nextStart (hr.congr rfl) rfl (.inl rfl) h0 ha)
  · -- BUILD
    rename_i hp
    obtain ⟨h0, ha⟩ := h.start (.inr (.inr (.inl hp)))
    split
    · exact .inl (decbufConfig_restingOk h)
    · rename_i n _
      have hw : (s.dropSession.buildSpec c n).recordsOk c := (hr.discardAll _).buildSpec n
      exact .inr (h.nextStart (hw.congr rfl) (by simp [State.live, State.dropSession]) (.inr rfl)
        (by simp [State.dropSession, h0]) (by simp [State.dropSession, ha]))
  · -- SEARCH
    have hw := hr.putCandidates (searchResult_length_le c s)
    exact .inr (h.toBoundary (hw.congr rfl) rfl (Nat.zero_le _))
  · -- DEMOD: the candidate boundary
    rename_i hp
    have hlt := h.candidate rfl (.inl hp)
    split
    · exact .inr (h.nextCollect (hr.congr rfl) rfl rfl h.cidx)
    · exact .inr (h.nextWithin (hr.congr rfl) rfl (.inr (.inl rfl)) hlt fun _ =>
        word_pos_or_zero s.cfg.maxIter)
  · -- FECDEC: one iteration
    rename_i hp
    have hlt := h.candidate rfl (.inr (.inl hp))
    dsimp only
    split
    · generalize hardDecision (s.iterateBp c).bp = x
      exact .inr (h.nextWithin (hit.congr rfl) rfl (.inr (.inr (.inl rfl))) hlt (by simp))
    · split
      · exact .inr (h.nextCandidate hit rfl hlt)
      · rename_i hex
        exact .inr (h.nextWithin hit rfl (.inr (.inl hp)) hlt fun _ => .inl (by simpa using hex))
  · -- XTR
    rename_i hp
    have hlt := h.candidate rfl (.inr (.inr (.inl hp)))
    exact .inr (h.nextWithin (hr.congr rfl) rfl (.inr (.inr (.inr (.inl rfl)))) hlt (by simp))
  · -- CKSVFY
    rename_i hp
    have hlt := h.candidate rfl (.inr (.inr (.inr (.inl hp))))
    split
    · exact .inr (h.nextWithin (hr.congr rfl) rfl (.inr (.inr (.inr (.inr rfl)))) hlt (by simp))
    · exact .inr (h.nextCandidate hr rfl hlt)
  · -- UNPACK
    rename_i hp
    have hlt := h.candidate rfl (.inr (.inr (.inr (.inr hp))))
    split
    · exact .inr (h.nextCandidate hr rfl hlt)
    · exact .inr (h.nextCandidate (hr.congr rfl) rfl hlt)
  · -- COLLECT
    exact .inl (decbufCollect_restingOk h)
  · -- no phase of this command
    exact .inr h

/-- An internal step completes its command or leaves it running. -/
theorem tickOf_modes (h : s.runningOk c i) :
    (tickOf c i s).restingOk c ∨ (tickOf c i s).runningOk c i := by
  cases i with
  | bpdDecode => exact bpdTick_modes h
  | seqEncmsg => exact encmsgTick_modes h
  | seqDecbuf => exact decbufTick_modes h
  | _ => exact .inl (unitTick_restingOk h (by simp))

/-- A command that runs for a while keeps the invariants. -/
theorem drain_consistent (h : s.runningOk c i) (n : Nat) :
    (drain (tickOf c i) n s).consistent c := by
  have key := drain_induct (P := fun u => u.restingOk c ∨ u.runningOk c i) (tick := tickOf c i)
    (fun u hb hu => ?_) n s (.inr h)
  · exact key.imp_right fun hu => ⟨i, hu⟩
  · rcases hu with hu | hu
    · rw [hu.busy] at hb; exact absurd hb Bool.false_ne_true
    · exact tickOf_modes (hu.withHost u.port u.rdata u.abortReq (u.ticks + 1))

theorem firstPhase_of_fecdec (h : firstPhase i = .fecdec) : i = .bpdDecode := by
  cases i <;> simp_all [firstPhase, phasesOf]

theorem firstPhase_not_ofCandidate (h : i = .seqDecbuf) : ¬ (firstPhase i).ofCandidate := by
  subst h
  simp [firstPhase, phasesOf, Phase.ofCandidate]

/-- A state that differs from the accepted one at most in T is one of the running command. -/
theorem accepted_runningOk {t : State} (h : s.restingOk c) (hf : s.fault = false)
    (hn : i ≠ .sysNop) (hs : i ≠ .sysSrst) (hr : t.records = s.records)
    (hl : t.live = (s.accept i (firstPhase i)).live) (hp : t.phase = firstPhase i)
    (h0 : t.cidx = s.cidx) (ha : t.acc = s.acc)
    (hit : firstPhase i = .fecdec → t.iterT < t.cfg.maxIter.toNat ∨ t.cfg.maxIter = 0#32) :
    t.runningOk c i := by
  obtain ⟨-, hinfo⟩ := h.of_fault hf
  simp only [State.live, Prod.mk.injEq] at hl
  obtain ⟨eb, ef, ei, er, ed, ea⟩ := hl
  exact
    { records := h.records.congr hr, busy := eb, fault := ef.trans hf, noInfo := ei.trans hinfo
      run := er, pending := ⟨ed, ea⟩, phase := hp ▸ firstPhase_mem hn hs
      cidx := h0.trans h.cidx ▸ Nat.zero_le _
      candidate := fun hd hc => absurd (hp ▸ hc) (firstPhase_not_ofCandidate hd)
      start := fun _ => ⟨h0.trans h.cidx, ha.trans h.acc⟩
      iterating := fun hd => hit (hp.symm.trans hd) }

/-- Acceptance starts command `i` (R236). -/
theorem accept_runningOk (h : s.restingOk c) (hf : s.fault = false) (hn : i ≠ .sysNop)
    (hs : i ≠ .sysSrst) : (startOf c i (s.accept i (firstPhase i))).runningOk c i := by
  by_cases hi : i = .bpdDecode
  · subst hi
    change (bpdStart c _).runningOk c _
    unfold bpdStart
    split
    · rename_i hm
      exact accepted_runningOk h hf hn hs rfl rfl rfl rfl rfl fun _ => .inr hm
    · exact accepted_runningOk h hf hn hs rfl rfl rfl rfl rfl fun _ => word_pos_or_zero _
  · have e : startOf c i (s.accept i (firstPhase i)) = s.accept i (firstPhase i) := by
      cases i <;> first | rfl | exact absurd rfl hi
    rw [e]
    exact accepted_runningOk h hf hn hs rfl rfl rfl rfl rfl fun hp =>
      absurd (firstPhase_of_fecdec hp) hi

end Ticks

/-- Every command keeps the invariants. -/
theorem exec_consistent {i : Instr} {s t : State} (hs : s.consistent Config.block)
    (h : exec i s = .next t) : t.consistent Config.block := by
  by_cases hi : i = .sysSrst
  · subst hi
    rw [← Host.Outcome.next.inj h]
    unfold sysSrst
    split
    · exact .inl (hs.raise _)
    · exact .inl (State.resetBlock_restingOk _ s)
  rcases exec_cases hi h with ⟨p, rfl⟩ | ⟨hf, hb, hrun⟩
  · exact .inl (hs.raise p)
  have hrest := hs.resting hb
  rcases hrun with ⟨rfl, rfl⟩ | ⟨hn, n, rfl⟩
  · exact .inl (State.complete_restingOk (s := s.accept .sysNop .idle) (hrest.records.congr rfl) hf
      (hrest.of_fault hf).2 hrest.cidx hrest.acc .ok)
  · exact drain_consistent (accept_runningOk hrest hf hn hi) n

/-! ### Steps -/

/-- The issue of a command word to a block on which no command runs (R236). -/
theorem issue_consistent {w : Word} {s t : State} (hs : s.consistent Config.block)
    (h : issue exec w s = .next t) : t.consistent Config.block := by
  unfold issue at h
  split at h
  · split at h
    · exact exec_consistent hs h
    · rw [← Host.Outcome.next.inj h]; exact hs
  · split at h
    · rw [← Host.Outcome.next.inj h]; exact .inl (hs.raise _)
    · rw [← Host.Outcome.next.inj h]; exact .inl (hs.raise _)
    · exact exec_consistent hs h

theorem writeElem_restingOk {c : Config} {s : State} (h : s.restingOk c) (b : Space) (i : Nat)
    (v : Word) : (s.writeElem b i v).restingOk c :=
  h.congr (h.records.congr (by cases b <;> rfl)) (by cases b <;> rfl)

theorem hostRd_consistent {c : Config} {s : State} (h : s.consistent c) (space : BitVec 4)
    (index : BitVec 28) : (hostRd c space index s).consistent c := by
  rcases hostRd_cases c space index s with ⟨p, e⟩ | ⟨-, e⟩ <;> rw [e]
  · have hr : (s.raise p).consistent c := .inl (h.raise p)
    exact hr.withHost (s.raise p).port 0#32 (s.raise p).abortReq (s.raise p).ticks
  · exact h.withHost s.port _ s.abortReq s.ticks

theorem hostWr_consistent {s t : State} {space : BitVec 4} {index : BitVec 28} {v : Word}
    (hs : s.consistent Config.block)
    (h : hostWr Config.block exec space index v s = .next t) : t.consistent Config.block := by
  rcases hostWr_cases Config.block exec space index v s with ⟨p, e⟩ | ⟨-, -, -, e⟩ |
    ⟨hb, -, r, e, hr, hv⟩ | ⟨-, -, -, e⟩ | ⟨hb, -, -, e⟩ | ⟨hb, -, b, -, -, e⟩ | ⟨-, e⟩
  all_goals rw [e] at h
  · rw [← Host.Outcome.next.inj h]
    exact .inl (hs.raise p)
  · exact issue_consistent hs h
  · rw [← Host.Outcome.next.inj h, hr]
    exact .inl ((hs.resting hb).congr (hs.records.vset hv) rfl)
  · rw [← Host.Outcome.next.inj h]
    exact hs.withHost s.port s.rdata _ s.ticks
  · rw [← Host.Outcome.next.inj h]
    exact .inl ((hs.resting hb).congr (hs.records.congr rfl) rfl)
  · rw [← Host.Outcome.next.inj h]
    exact .inl (writeElem_restingOk (hs.resting hb) b _ v)
  · rw [← Host.Outcome.next.inj h]
    exact hs

theorem transact_consistent {s t : State} {x : Txn} (hs : s.consistent Config.block)
    (h : transact Config.block exec x s = .next t) : t.consistent Config.block := by
  cases x with
  | rd space index =>
    rw [← Host.Outcome.next.inj h]
    exact hostRd_consistent hs space index
  | wr space index v => exact hostWr_consistent hs h
  | reset =>
    rw [← Host.Outcome.next.inj h]
    exact .inl (State.resetBlock_restingOk _ s)

/-- Every step keeps the block in one of its two modes. -/
theorem step_consistent {s t : State} (hs : s.consistent Config.block) (h : step s = .next t) :
    t.consistent Config.block := by
  rcases step_cases h with rfl | ⟨i, hb, hr, rfl⟩ | ⟨e, rest, -, h⟩
  · exact hs
  · exact drain_consistent (hs.running hb hr) _
  · exact transact_consistent (hs.withHost rest s.rdata s.abortReq s.ticks) h

/-- Settles O13: the two invariants together are the two modes, and every step keeps these. -/
theorem statusStaysConsistent : Obligations.StatusStaysConsistent := fun _ _ hs hc h =>
  State.consistent_iff.1 (step_consistent (State.consistent_iff.2 ⟨hs, hc⟩) h)

/-- Settles O11: the block is idle after reset, its memories without listed elements. -/
theorem resetHoldsInvariants : Obligations.ResetHoldsInvariants :=
  have h := State.resetFrom_restingOk Config.block 0
  ⟨⟨rfl, rfl, rfl, rfl, rfl, rfl, rfl, rfl⟩, h.statusOk, h.countersOk⟩

end Sys2Proof.Machine
end

section
/-!
SUPPORT. The host port on a block that is not busy: which elements there are, what a read returns, and
what a write of an element stores or faults with (20_memory.md rules R61 to R73).
-/

namespace Sys2Proof.Machine

/-! ### Which elements there are -/

/-- The space ids are a numbering of the spaces (R61). -/
theorem spaceOf_eq_some_iff (n : Nat) (b : Space) : spaceOf n = some b ↔ n = b.id := by
  constructor
  · intro h
    unfold spaceOf at h
    split at h <;> cases h <;> rfl
  · rintro rfl
    cases b <;> rfl

theorem Space.id_lt (b : Space) : b.id < 2 ^ 4 := by cases b <;> decide

theorem spaceOf_toNat_eq_some_iff (space : BitVec 4) (b : Space) :
    spaceOf space.toNat = some b ↔ space = BitVec.ofNat 4 b.id := by
  rw [spaceOf_eq_some_iff, ← BitVec.toNat_inj, BitVec.toNat_ofNat, Nat.mod_eq_of_lt b.id_lt]

/-- The spaces 8 to 11 are the outputs (R72, R73). -/
theorem isOutput_eq_decide (b : Space) : isOutput b = decide (8 ≤ b.id) := by cases b <;> rfl

theorem exists_space_iff {P : Space → Prop} : (∃ b, P b) ↔
    P .msg ∨ P .pay ∨ P .crc ∨ P .cw ∨ P .sym ∨ P .llr ∨ P .samp ∨ P .wave ∨ P .spec ∨ P .cand ∨
      P .res := by
  constructor
  · rintro ⟨b, h⟩
    cases b <;> simp [h]
  · rintro (h | h | h | h | h | h | h | h | h | h | h) <;> exact ⟨_, h⟩

/-- An access has an element when it names a register, or is below its space's count (R65, R69). -/
theorem State.outOfRange_eq_false_iff (c : Config) (s : State) (space : BitVec 4)
    (index : BitVec 28) : s.outOfRange c space index = false ↔
      (space = 0#4 ∧ isRegister index.toNat = true) ∨
        ∃ b : Space, space = BitVec.ofNat 4 b.id ∧ index.toNat < s.elements c b := by
  simp only [← spaceOf_toNat_eq_some_iff]
  unfold State.outOfRange
  split
  · rename_i h0
    subst h0
    have hn (b : Space) : spaceOf 0 ≠ some b := (Option.some_ne_none b).symm
    simp [hn]
  · rename_i h0
    cases hs : spaceOf space.toNat <;> simp [h0]

/-- The number of elements depends on NT alone (R65). -/
theorem State.elements_congr {s t : State} (c : Config) (h : t.nt = s.nt) (b : Space) :
    t.elements c b = s.elements c b := by
  cases b <;> simp only [State.elements, h]

theorem State.outOfRange_of_lt {c : Config} {s : State} {b : Space} {i : BitVec 28}
    (h : i.toNat < s.elements c b) : s.outOfRange c (BitVec.ofNat 4 b.id) i = false :=
  (State.outOfRange_eq_false_iff ..).2 (.inr ⟨b, rfl, h⟩)

/-- A read of a data space is a read of the element (R66). -/
theorem State.readPort_space (s : State) (b : Space) (index : BitVec 28) :
    s.readPort (BitVec.ofNat 4 b.id) index = s.readElem b index.toNat := by
  rw [State.readPort, (spaceOf_toNat_eq_some_iff _ b).2 rfl]

/-! ### What a host transaction does on a block that is not busy -/

/-- A step that takes a HOST.RD (R66). -/
theorem step_of_read {s : State} {e : PortEvent} {rest : List PortEvent} {space : BitVec 4}
    {index : BitVec 28} (hb : s.busy = false) (hp : s.port = e :: rest)
    (ht : e.txn = .rd space index) : step s = .next
      (if s.outOfRange Config.block space index then
        { ({ s with port := rest } : State).raise ⟨.indexRange, space.setWidth 16⟩ with
          rdata := 0#32 }
      else { s with port := rest, rdata := s.readPort space index }) := by
  rw [step_of_event hp (.inl hb), ht, transact, hostRd, if_neg (by simp [hb])]
  rfl

/-- A step that takes a HOST.WR (R67). -/
theorem step_of_write {s : State} {e : PortEvent} {rest : List PortEvent} {space : BitVec 4}
    {index : BitVec 28} {v : Word} (hb : s.busy = false) (hp : s.port = e :: rest)
    (ht : e.txn = .wr space index v) :
    step s = hostWr Config.block exec space index v { s with port := rest } := by
  rw [step_of_event hp (.inl hb), ht, transact]

/-- A write that has no element (R65, R69). -/
theorem hostWr_indexRange {c : Config} {run : Commands} {s : State} {space : BitVec 4}
    {index : BitVec 28} (v : Word) (hb : s.busy = false)
    (hr : s.outOfRange c space index = true) :
    hostWr c run space index v s = .next (s.raise ⟨.indexRange, space.setWidth 16⟩) := by
  simp [hostWr, hb, hr]

/-- A write to an output space or to a read-only register (R67, R72, R73). -/
theorem hostWr_readOnly {c : Config} {run : Commands} {s : State} {space : BitVec 4}
    {index : BitVec 28} {info : BitVec 16} (v : Word) (hb : s.busy = false)
    (hr : s.outOfRange c space index = false) (ho : readOnlyTarget space index = some info) :
    hostWr c run space index v s = .next (s.raise ⟨.readOnly, info⟩) := by
  simp [hostWr, hb, hr, ho]

/-- A write to an element of a loadable buffer takes effect when the value fits the element's type
(R64, R67). -/
theorem hostWr_element {c : Config} {run : Commands} {s : State} {b : Space} {index : BitVec 28}
    (v : Word) (hb : s.busy = false) (hf : s.fault = false)
    (hr : s.outOfRange c (BitVec.ofNat 4 b.id) index = false) (ho : isOutput b = false) :
    hostWr c run (BitVec.ofNat 4 b.id) index v s =
      .next (if representable b v then s.writeElem b index.toNat v
        else s.raise ⟨.badValue, (BitVec.ofNat 4 b.id).setWidth 16⟩) := by
  have hs := (spaceOf_toNat_eq_some_iff _ b).2 rfl
  have h0 : BitVec.ofNat 4 b.id ≠ 0#4 := by cases b <;> decide
  have ht : readOnlyTarget (BitVec.ofNat 4 b.id) index = none := by
    simp only [readOnlyTarget, hs, ho, Bool.false_eq_true, if_false]
  have hd : dataWrite (BitVec.ofNat 4 b.id) index v s =
      if representable b v then s.writeElem b index.toNat v
        else s.raise ⟨.badValue, (BitVec.ofNat 4 b.id).setWidth 16⟩ := by
    simp only [dataWrite, hf, hs, Bool.false_eq_true, if_false]
  rw [hostWr, hr, ht, ← hd]
  simp [hb, h0]

/-! ### An element after a write -/

/-- Equal contents read the same. -/
theorem State.readElem_of_sameBuffer {b : Space} {s t : State} (h : sameBuffer b s t) (j : Nat) :
    t.readElem b j = s.readElem b j := by
  cases b <;> simp only [sameBuffer] at h <;> simp only [State.readElem, h]

/-- A write of an element changes one buffer, and neither CFG nor the port (R67). -/
theorem State.framed_writeElem (s : State) (b : Space) (i : Nat) (v : Word) :
    s.framed [b] (s.writeElem b i v) :=
  (State.framed.refl [b] s).write List.mem_cons_self (by cases b <;> rfl)

theorem State.sameBuffer_writeElem {b b' : Space} (h : b' ≠ b) (i : Nat) (v : Word) (s : State) :
    sameBuffer b' s (s.writeElem b i v) :=
  ((s.framed_writeElem b i v).buffers b' (by simpa using h)).1

/-- A write of one element leaves the buffer's others alone (R67). -/
theorem State.readElem_writeElem_ne (s : State) (b : Space) {i j : Nat} (v : Word) (h : j ≠ i) :
    (s.writeElem b i v).readElem b j = s.readElem b j := by
  cases b with
  | msg | sym | llr | samp => simp only [State.readElem, State.writeElem, Mem.rd_wr_ne _ _ h]
  | pay | crc | cw => simp only [State.readElem, State.writeElem, getMsbD_putBit, if_neg h]
  | wave | spec | cand | res => rfl

/-- A word that is a bit is its bit 0, extended. -/
theorem setWidth_bit_of_lt {v : Word} (h : v.toNat < 2) :
    (BitVec.ofBool (v.getLsbD 0)).setWidth 32 = v := by
  obtain rfl | rfl : v = 0#32 ∨ v = 1#32 := by bv_omega
  · rfl
  · rfl

/-- A word that fits in `w` bits is its low `w` bits, extended. -/
theorem setWidth_setWidth_of_lt {w : Nat} {v : Word} (h : v.toNat < 2 ^ w) :
    (v.setWidth w).setWidth 32 = v := by
  apply BitVec.eq_of_toNat_eq
  rw [BitVec.toNat_setWidth, BitVec.toNat_setWidth, Nat.mod_eq_of_lt h, Nat.mod_eq_of_lt v.isLt]

/-- A value that fits the element's type reads back from the element it was written to (R64, R67). -/
theorem State.readElem_writeElem_self {c : Config} {s : State} {b : Space} {i : Nat} {v : Word}
    (hm : s.memoriesOk) (hi : i < s.elements c b) (hv : representable b v = true) :
    (s.writeElem b i v).readElem b i = v := by
  cases b with
  | msg => exact Mem.rd_wr_self i v hm.msg
  | llr => exact Mem.rd_wr_self i v hm.llr
  | sym =>
    simp only [State.readElem, State.writeElem, Mem.rd_wr_self _ _ hm.sym]
    exact setWidth_setWidth_of_lt (of_decide_eq_true hv)
  | samp =>
    simp only [State.readElem, State.writeElem, Mem.rd_wr_self _ _ hm.samp]
    exact (eq_of_beq hv).symm
  | pay | crc | cw =>
    simp only [State.elements] at hi
    simp only [State.readElem, State.writeElem, getMsbD_putBit, hi, if_true, decide_true,
      Bool.true_and]
    exact setWidth_bit_of_lt (of_decide_eq_true hv)
  | wave | spec | cand | res => exact absurd hv Bool.false_ne_true

@[simp] theorem State.writeElem_busy (s : State) (b : Space) (i : Nat) (v : Word) :
    (s.writeElem b i v).busy = s.busy := by
  cases b <;> rfl

@[simp] theorem State.writeElem_nt (s : State) (b : Space) (i : Nat) (v : Word) :
    (s.writeElem b i v).nt = s.nt := by
  cases b <;> rfl

/-- A HOST.RD of an element of a data space (R66). -/
theorem step_of_element_read {s : State} {b : Space} {i : BitVec 28} {l : Option Nat}
    {rest : List PortEvent} (hb : s.busy = false)
    (hp : s.port = ⟨l, .rd (BitVec.ofNat 4 b.id) i⟩ :: rest)
    (hi : i.toNat < s.elements Config.block b) :
    step s = .next { s with port := rest, rdata := s.readElem b i.toNat } := by
  rw [step_of_read hb hp rfl, State.outOfRange_of_lt hi, if_neg Bool.false_ne_true,
    State.readPort_space]

/-- A HOST.WR of a value that fits to an element of a loadable buffer (R67). -/
theorem step_of_element_write {s : State} {b : Space} {i : BitVec 28} {v : Word} {l : Option Nat}
    {rest : List PortEvent} (hb : s.busy = false) (hf : s.fault = false)
    (hp : s.port = ⟨l, .wr (BitVec.ofNat 4 b.id) i v⟩ :: rest) (ho : isOutput b = false)
    (hi : i.toNat < s.elements Config.block b) (hv : representable b v = true) :
    step s = .next (State.writeElem b i.toNat v { s with port := rest }) := by
  rw [step_of_write hb hp rfl,
    hostWr_element (s := { s with port := rest }) v hb hf (State.outOfRange_of_lt hi) ho, if_pos hv]

/-- The read of an element just written finds the block idle, with the same counts (R66). -/
theorem step_of_written_element_read {s : State} {b : Space} {i : BitVec 28} {v : Word}
    {l : Option Nat} {rest : List PortEvent} (hb : s.busy = false)
    (hp : s.port = ⟨l, .rd (BitVec.ofNat 4 b.id) i⟩ :: rest) (hm : s.memoriesOk)
    (hi : i.toNat < s.elements Config.block b) (hv : representable b v = true) :
    step (s.writeElem b i.toNat v) =
      .next { s.writeElem b i.toNat v with port := rest, rdata := v } := by
  have hb' := (s.writeElem_busy b i.toNat v).trans hb
  have hp' := (s.framed_writeElem b i.toNat v).port.trans hp
  have hn := State.elements_congr Config.block (s.writeElem_nt b i.toNat v) b
  rw [step_of_element_read hb' hp' (hn ▸ hi), State.readElem_writeElem_self hm hi hv]

/-! ### Writes that fault -/

/-- A write to a space 8 or above is a write to an output (R72, R73). -/
theorem readOnlyTarget_of_output {space : BitVec 4} {b : Space} {index : BitVec 28}
    (hs : space = BitVec.ofNat 4 b.id) (h : 8 ≤ space.toNat) :
    readOnlyTarget space index = some (space.setWidth 16) := by
  have hs := (spaceOf_toNat_eq_some_iff space b).2 hs
  have ho : isOutput b = true := by
    rw [isOutput_eq_decide, ← (spaceOf_eq_some_iff _ b).1 hs]
    exact decide_eq_true h
  rw [readOnlyTarget, hs]
  exact if_pos ho

/-- The read-only registers (R38). -/
theorem isReadOnly_of_mem : ∀ i ∈ [1, 2, 3, 4, 5, 6, 7, 8, 9, 11, 13, 14], isReadOnly i = true := by
  decide

theorem isRegister_of_isReadOnly {i : Nat} (h : isReadOnly i = true) : isRegister i = true := by
  simp only [isReadOnly, Bool.and_eq_true] at h
  obtain ⟨⟨hr, -⟩, -⟩ := h
  exact hr

/-- A word with a bit set above its low `k` bits is at least `2 ^ k`. -/
theorem two_pow_le_of_ushiftRight_ne_zero {v : Word} {k : Nat} (h : v >>> k ≠ 0#32) :
    2 ^ k ≤ v.toNat := by
  by_contra hlt
  apply h
  apply BitVec.eq_of_toNat_eq
  rw [BitVec.toNat_ushiftRight, Nat.shiftRight_eq_div_pow, Nat.div_eq_of_lt (not_le.1 hlt)]
  rfl

/-- The values the narrow element types cannot hold (R64). -/
theorem exists_not_representable {space : BitVec 4} {v : Word}
    (h : (space ∈ [2#4, 3#4, 4#4] ∧ v >>> 1 ≠ 0#32) ∨ (space = 5#4 ∧ v >>> 3 ≠ 0#32) ∨
      (space = 7#4 ∧ v ≠ (v.setWidth 16).signExtend 32)) :
    ∃ b : Space, space = BitVec.ofNat 4 b.id ∧ isOutput b = false ∧ representable b v = false := by
  rcases h with ⟨hs, hv⟩ | ⟨rfl, hv⟩ | ⟨rfl, hv⟩
  · have hbit : decide (v.toNat < 2) = false :=
      decide_eq_false (not_lt.2 (two_pow_le_of_ushiftRight_ne_zero hv))
    simp only [List.mem_cons, List.not_mem_nil, or_false] at hs
    rcases hs with rfl | rfl | rfl
    · exact ⟨.pay, rfl, rfl, hbit⟩
    · exact ⟨.crc, rfl, rfl, hbit⟩
    · exact ⟨.cw, rfl, rfl, hbit⟩
  · exact ⟨.sym, rfl, rfl,
      decide_eq_false (not_lt.2 (two_pow_le_of_ushiftRight_ne_zero hv))⟩
  · exact ⟨.samp, rfl, rfl, beq_eq_false_iff_ne.2 hv⟩

/-! ### The statements -/

/-- Settles O9: the fault entry of a faulted block is the identity, and so is every other effect of a
write. -/
theorem faultedBlockIsInert : Obligations.FaultedBlockIsInert := by
  intro s e rest hf hb hp
  refine ⟨fun space index ht => ?_, fun space index v ht hne => ⟨{ s with port := rest }, ?_, rfl⟩⟩
  · rw [step_of_read hb hp ht, State.raise_of_fault (s := { s with port := rest }) _ hf]
    cases hr : s.outOfRange Config.block space index with
    | true => exact ⟨_, rfl, rfl, fun h => absurd h.symm Bool.false_ne_true⟩
    | false => exact ⟨_, rfl, rfl, fun _ => rfl⟩
  · rw [step_of_write hb hp ht]
    have hf' : ({ s with port := rest } : State).fault ≠ false := by simp [hf]
    rcases hostWr_cases Config.block exec space index v { s with port := rest } with ⟨p, h⟩ |
      ⟨-, hs, hi, h⟩ | ⟨-, h, -⟩ | ⟨h, -⟩ | ⟨-, h, -⟩ | ⟨-, h, -⟩ | ⟨-, h⟩
    · rw [h, State.raise_of_fault (s := { s with port := rest }) p hf]
    · have hv : v ≠ 0x21000000#32 := fun hv => hne ⟨hs, hi, hv⟩
      rw [h, issue, if_pos hf, if_neg hv]
    · exact absurd h hf'
    · exact absurd h hf'
    · exact absurd h hf'
    · exact absurd h hf'
    · exact h

/-- Settles O20: the range test space by space, then the two outcomes of the read. -/
theorem hostReadReturnsElement : Obligations.HostReadReturnsElement := by
  refine ⟨fun s space index => ?_, fun s l space index rest hb hf hp => ?_⟩
  · rw [State.outOfRange_eq_false_iff, exists_space_iff, isRegister, decide_eq_true_iff]
    exact Iff.rfl
  · rw [step_of_read hb hp rfl, State.raise_of_idle (s := { s with port := rest }) _ hf hb]

/-- Settles O22: the read finds the block as the write left it, idle and with the same counts. -/
theorem writtenElementReadsBack : Obligations.WrittenElementReadsBack := by
  intro s b i v l l' rest hb hf hm _ hid hi hv hp
  have ho : isOutput b = false := by rw [isOutput_eq_decide]; exact decide_eq_false (by omega)
  refine ⟨_, step_of_element_write hb hf hp ho hi hv,
    step_of_written_element_read (s := { s with port := _ }) hb rfl { hm with } hi hv,
    fun b' j hne => ?_, fun b' hne => ?_, by cases b <;> rfl⟩
  · by_cases hb' : b' = b
    · subst hb'
      exact State.readElem_writeElem_ne _ b' v fun hj => hne ⟨rfl, hj⟩
    · exact State.readElem_of_sameBuffer (State.sameBuffer_writeElem hb' ..) j
  · exact State.sameBuffer_writeElem hne ..

/-- Settles O24: the tests of a host write in the order of its rule. -/
theorem forbiddenWritesFault : Obligations.ForbiddenWritesFault := by
  intro s l space i v rest hb hf hp
  rw [step_of_write hb hp rfl]
  simp only [← State.raise_of_idle (s := { s with port := rest }) _ hf hb]
  refine ⟨hostWr_indexRange (s := { s with port := rest }) v hb, fun hr h8 => ?_, ?_,
    fun hr hv => ?_⟩
  · obtain ⟨rfl, -⟩ | ⟨b, hs, -⟩ := (State.outOfRange_eq_false_iff ..).1 hr
    · exact absurd h8 (by decide)
    · exact hostWr_readOnly (s := { s with port := rest }) v hb hr (readOnlyTarget_of_output hs h8)
  · rintro rfl hi
    have hro := isReadOnly_of_mem _ hi
    have hr := (State.outOfRange_eq_false_iff Config.block s 0#4 i).2
      (.inl ⟨rfl, isRegister_of_isReadOnly hro⟩)
    exact hostWr_readOnly (s := { s with port := rest }) v hb hr (if_pos hro)
  · obtain ⟨b, rfl, ho, hu⟩ := exists_not_representable hv
    rw [hostWr_element (s := { s with port := rest }) v hb hf hr ho, hu, if_neg Bool.false_ne_true]

end Sys2Proof.Machine
end

section
/-!
The command word (30_encoding.md rules R92 to R97): its three fields determine it, each field of a
command's word is known, and so each of the decoder's three answers has its own condition on the fields.
With the statements about the encoding.
-/

namespace Sys2Proof

/-! ### The fields of a word -/

/-- The three fields leave out no bit of the word (R92). -/
theorem fields_append (w : Word) : opField w ++ rsvField w ++ argField w = w := by
  rw [opField, rsvField, argField,
    BitVec.extractLsb'_append_extractLsb'_eq_extractLsb' (by rfl),
    BitVec.extractLsb'_append_extractLsb'_eq_extractLsb' (by rfl)]
  exact BitVec.extractLsb'_eq_self

theorem eq_of_fields_eq {v w : Word} (ho : opField v = opField w) (hr : rsvField v = rsvField w)
    (ha : argField v = argField w) : v = w := by
  rw [← fields_append v, ho, hr, ha, fields_append]

theorem opField_toNat (w : Word) : (opField w).toNat = w.toNat / 2 ^ 24 := by
  rw [opField, BitVec.extractLsb'_toNat, Nat.shiftRight_eq_div_pow]
  exact Nat.mod_eq_of_lt (by omega)

theorem rsvField_toNat (w : Word) : (rsvField w).toNat = w.toNat / 2 ^ 16 % 2 ^ 8 := by
  rw [rsvField, BitVec.extractLsb'_toNat, Nat.shiftRight_eq_div_pow]

theorem argField_toNat (w : Word) : (argField w).toNat = w.toNat % 2 ^ 16 := by
  rw [argField, BitVec.extractLsb'_toNat, Nat.shiftRight_zero]

/-! ### The fields of a command's word -/

/-- The commands of format N: all but DEM.DEMOD (R93). -/
def Instr.isFormatN (i : Instr) : Prop := ∀ k, i ≠ .demDemod k

theorem encode_fields (i : Instr) : Laws.EncodeFields.Statement i :=
  match i with
  | .cksGen => Laws.EncodeFields.cksGen
  | .cksVfy => Laws.EncodeFields.cksVfy
  | .pckPack => Laws.EncodeFields.pckPack
  | .pckUnpack => Laws.EncodeFields.pckUnpack
  | .encEncode => Laws.EncodeFields.encEncode
  | .encXtr => Laws.EncodeFields.encXtr
  | .bpdDecode => Laws.EncodeFields.bpdDecode
  | .modMap => Laws.EncodeFields.modMap
  | .modSynth => Laws.EncodeFields.modSynth
  | .synBuild => Laws.EncodeFields.synBuild
  | .synSearch => Laws.EncodeFields.synSearch
  | .demDemod k => Laws.EncodeFields.demDemod k
  | .seqEncmsg => Laws.EncodeFields.seqEncmsg
  | .seqDecbuf => Laws.EncodeFields.seqDecbuf
  | .sysNop => Laws.EncodeFields.sysNop
  | .sysSrst => Laws.EncodeFields.sysSrst

@[simp] theorem rsvField_encode (i : Instr) : rsvField (encode i) = 0#8 := by
  obtain ⟨hr, -, -⟩ := encode_fields i
  exact hr

/-- The word of DEM.DEMOD (R94). -/
theorem demDemod_fields (k : Nat) : opField (encode (.demDemod k)) = 0x0C#8 ∧
    argField (encode (.demDemod k)) = BitVec.ofNat 16 k := by
  obtain ⟨-, hI, -⟩ := encode_fields (.demDemod k)
  exact hI k rfl

/-- A word of format N (R93). -/
theorem formatN_fields {i : Instr} (h : i.isFormatN) :
    formatN (opField (encode i)) = some i ∧ argField (encode i) = 0#16 := by
  obtain ⟨-, -, hN⟩ := encode_fields i
  exact hN h

/-! ### The opcode map -/

/-- A row of the opcode map is of format N, and no other row has its opcode (R95). -/
theorem eq_opField_encode_of_formatN {op : BitVec 8} {i : Instr} (h : formatN op = some i) :
    i.isFormatN ∧ op = opField (encode i) := by
  unfold formatN at h
  split at h
  case h_16 => exact absurd h (Option.some_ne_none i).symm
  all_goals
    cases h
    exact ⟨fun _ h => Instr.noConfusion h, BitVec.eq_of_toNat_eq ‹_›⟩

/-- Format N does not use DEM.DEMOD's opcode (R94). -/
theorem formatN_demDemod : formatN 0x0C#8 = none := rfl

/-- The sixteen opcodes (R95). -/
def opcodes : List Nat := [1, 2, 3, 4, 5, 6, 7, 8, 9, 10, 11, 12, 16, 17, 32, 33]

/-- Every opcode is DEM.DEMOD's or a row of format N. -/
theorem mem_opcodes_iff (op : BitVec 8) :
    op.toNat ∈ opcodes ↔ op = 0x0C#8 ∨ ∃ i, formatN op = some i := by
  rw [← BitVec.toNat_inj]
  unfold formatN
  split
  case h_16 => simp_all [opcodes]
  all_goals simp [opcodes, *]

/-! ### The decoder, format by format -/

theorem decode_formatI {w : Word} (ho : opField w = 0x0C#8) :
    decode w = if rsvField w ≠ 0#8 then .error .reservedField
      else .ok (.demDemod (argField w).toNat) := by
  rw [decode, if_pos ho]

theorem decode_formatN {w : Word} {i : Instr} (ho : formatN (opField w) = some i) :
    decode w = if rsvField w ≠ 0#8 ∨ argField w ≠ 0#16 then .error .reservedField else .ok i := by
  have hne : opField w ≠ 0x0C#8 := fun h => by rw [h, formatN_demDemod] at ho; cases ho
  rw [decode, if_neg hne, ho]

theorem decode_reservedOpcode {w : Word} (h : (opField w).toNat ∉ opcodes) :
    decode w = .error .reservedOpcode := by
  rw [mem_opcodes_iff, not_or, not_exists] at h
  obtain ⟨hne, hN⟩ := h
  rw [decode, if_neg hne, Option.eq_none_iff_forall_ne_some.2 hN]

theorem decode_reservedField {w : Word} (ho : (opField w).toNat ∈ opcodes)
    (h : rsvField w ≠ 0#8 ∨ (opField w ≠ 0x0C#8 ∧ argField w ≠ 0#16)) :
    decode w = .error .reservedField := by
  rcases (mem_opcodes_iff _).1 ho with hI | ⟨i, hN⟩
  · rw [decode_formatI hI, if_pos (h.resolve_right fun ⟨hne, _⟩ => hne hI)]
  · rw [decode_formatN hN, if_pos (h.imp_right And.right)]

/-- A word whose opcode is not in the map is no command. -/
theorem opField_mem_opcodes_of_decode {w : Word} {i : Instr} (h : decode w = .ok i) :
    (opField w).toNat ∈ opcodes := by
  by_contra ho
  rw [decode_reservedOpcode ho] at h
  cases h

/-! ### Decoding and encoding -/

/-- Only DEM.DEMOD's operand can be ill formed (R93, R94). -/
theorem Instr.wf_of_isFormatN {i : Instr} (h : i.isFormatN) : i.wf = true := by
  cases i with
  | demDemod k => exact absurd rfl (h k)
  | _ => rfl

theorem decode_encode {i : Instr} (h : i.wf = true) : decode (encode i) = .ok i := by
  by_cases hi : i.isFormatN
  · obtain ⟨ho, ha⟩ := formatN_fields hi
    rw [decode_formatN ho, rsvField_encode, ha, if_neg (by simp)]
  · obtain ⟨k, rfl⟩ : ∃ k, i = .demDemod k := by simpa [Instr.isFormatN] using hi
    have hk : k < 2 ^ 16 := of_decide_eq_true h
    obtain ⟨ho, ha⟩ := demDemod_fields k
    rw [decode_formatI ho, rsvField_encode, if_neg (by simp), ha, BitVec.toNat_ofNat,
      Nat.mod_eq_of_lt hk]

theorem wf_and_eq_encode_of_decode {w : Word} {i : Instr} (h : decode w = .ok i) :
    i.wf = true ∧ w = encode i := by
  rcases (mem_opcodes_iff _).1 (opField_mem_opcodes_of_decode h) with hI | ⟨j, hN⟩
  · rw [decode_formatI hI] at h
    split at h
    · cases h
    · rename_i hr
      cases h
      obtain ⟨ho, ha⟩ := demDemod_fields (argField w).toNat
      refine ⟨decide_eq_true (argField w).isLt, eq_of_fields_eq (hI.trans ho.symm) ?_ ?_⟩
      · rw [not_not.1 hr, rsvField_encode]
      · rw [ha, BitVec.ofNat_toNat, BitVec.setWidth_eq]
  · rw [decode_formatN hN] at h
    split at h
    · cases h
    · rename_i hra
      cases h
      rw [not_or, not_not, not_not] at hra
      obtain ⟨hr, ha⟩ := hra
      obtain ⟨hi, ho⟩ := eq_opField_encode_of_formatN hN
      obtain ⟨-, ha'⟩ := formatN_fields hi
      refine ⟨Instr.wf_of_isFormatN hi, eq_of_fields_eq ho ?_ (ha.trans ha'.symm)⟩
      rw [hr, rsvField_encode]

/-- Settles O2: what decodes has the fields of its instruction's word, and these determine it. -/
theorem decodeInvertsEncode : Obligations.DecodeInvertsEncode := by
  intro w i
  refine ⟨wf_and_eq_encode_of_decode, ?_⟩
  rintro ⟨hwf, rfl⟩
  exact decode_encode hwf

end Sys2Proof

namespace Sys2Proof.Machine

/-- A command word written to CMD of a block that is not busy is issued (R236). -/
theorem step_of_cmd {s : State} {w : Word} {l : Option Nat} {rest : List PortEvent}
    (hb : s.busy = false) (hp : s.port = ⟨l, .wr 0#4 0x00#28 w⟩ :: rest) :
    step s = issue exec w { s with port := rest } :=
  (step_of_write hb hp rfl).trans (hostWr_cmd (s := { s with port := rest }) w hb)

/-- The sub-code of the fault that an illegal word raises (R97, R271). -/
def subCodeOf : DecodeError → SubCode
  | .reservedOpcode => .reservedOpcode
  | .reservedField => .reservedField

theorem issue_of_illegal {s : State} {w : Word} {e : DecodeError} (hb : s.busy = false)
    (hf : s.fault = false) (hd : decode w = .error e) :
    issue exec w s = .next (s.faulted ⟨subCodeOf e, w.extractLsb' 16 16⟩) := by
  rw [issue_of_error hf hd, State.raise_of_idle _ hf hb]
  cases e <;> rfl

/-- An illegal word written to CMD of an idle block sets the fault, PHASE and FAULTINFO, and nothing
else but the model's own fields (R97, R270). -/
theorem illegal_cmd_faults {s : State} {w : Word} {l : Option Nat} {rest : List PortEvent}
    {e : DecodeError} (hb : s.busy = false) (hf : s.fault = false)
    (hp : s.port = ⟨l, .wr 0#4 0x00#28 w⟩ :: rest) (hd : decode w = .error e) :
    ∃ t, step s = .next t ∧
      { t with port := s.port, ticks := s.ticks, run := s.run, rdata := s.rdata } =
        { s with fault := true, phase := .faulted,
                 faultInfo := w.extractLsb' 16 16 ++ (subCodeOf e).code ++ 1#8 } := by
  have hi := issue_of_illegal (s := { s with port := rest }) hb hf hd
  refine ⟨_, (step_of_cmd hb hp).trans hi, ?_⟩
  rw [State.faulted, ← hb]
  rfl

/-- Settles O4: the decoder's three answers, by the fields of the word, and what a step makes of an
error. -/
theorem illegalWordsFault : Obligations.IllegalWordsFault := by
  intro s w l rest hb hf hp
  rw [← opField_toNat, ← rsvField_toNat, ← argField_toNat]
  refine ⟨fun ho => ?_, fun ho hr => ?_, fun i hd => ?_⟩
  · exact illegal_cmd_faults (e := .reservedOpcode) hb hf hp (decode_reservedOpcode ho)
  · have hr' : rsvField w ≠ 0#8 ∨ (opField w ≠ 0x0C#8 ∧ argField w ≠ 0#16) := by
      simp only [ne_eq, ← BitVec.toNat_inj]
      exact hr
    exact illegal_cmd_faults (e := .reservedField) hb hf hp (decode_reservedField ho hr')
  · obtain ⟨-, hw⟩ := wf_and_eq_encode_of_decode hd
    exact ⟨hw, opField_mem_opcodes_of_decode hd⟩

end Sys2Proof.Machine

namespace Sys2Proof

/-- Settles O1: each word of the map is its command's encoding; the last three are illegal. -/
theorem decodesWrittenWords : Obligations.DecodesWrittenWords :=
  ⟨decode_encode (i := .cksGen) rfl, decode_encode (i := .cksVfy) rfl,
    decode_encode (i := .pckPack) rfl, decode_encode (i := .pckUnpack) rfl,
    decode_encode (i := .encEncode) rfl, decode_encode (i := .encXtr) rfl,
    decode_encode (i := .bpdDecode) rfl, decode_encode (i := .modMap) rfl,
    decode_encode (i := .modSynth) rfl, decode_encode (i := .synBuild) rfl,
    decode_encode (i := .synSearch) rfl, decode_encode (i := .demDemod 0xABCD) rfl,
    decode_encode (i := .seqEncmsg) rfl, decode_encode (i := .seqDecbuf) rfl,
    decode_encode (i := .sysNop) rfl, decode_encode (i := .sysSrst) rfl,
    decode_reservedOpcode (by decide), decode_reservedField (by decide) (by decide),
    decode_reservedField (by decide) (by decide)⟩

end Sys2Proof
end

section
/-!
PROOFS. The checksum (40_checksum.md): `crc14` as a polynomial remainder, what follows from that,
and what CKS.GEN and CKS.VFY do.
-/

namespace Sys2Proof.Machine

open Polynomial

/-! ### Bit sequences as polynomials over GF(2) -/

/-- A bit as an element of GF(2). -/
def bitCoeff (b : Bool) : ZMod 2 := if b then 1 else 0

@[simp] theorem bitCoeff_false : bitCoeff false = 0 := rfl

@[simp] theorem bitCoeff_true : bitCoeff true = 1 := rfl

theorem bitCoeff_xor (a b : Bool) : bitCoeff (a ^^ b) = bitCoeff a + bitCoeff b := by
  revert a b; decide

theorem bitCoeff_injective : Function.Injective bitCoeff := by decide

/-- The polynomial of a bit sequence: the first bit goes with the highest power (R121). -/
noncomputable def bitsPoly {n : Nat} (x : BitVec n) : (ZMod 2)[X] :=
  ∑ i ∈ Finset.range n, if x.getMsbD i then X ^ (n - 1 - i) else 0

theorem bitsPoly_eq_sum_getLsbD {n : Nat} (x : BitVec n) :
    bitsPoly x = ∑ k ∈ Finset.range n, if x.getLsbD k then X ^ k else 0 := by
  rw [← Finset.sum_range_reflect]
  refine Finset.sum_congr rfl fun i hi => ?_
  rw [BitVec.getMsbD_eq_getLsbD]
  simp [Finset.mem_range.1 hi]

@[simp] theorem coeff_bitsPoly {n : Nat} (x : BitVec n) (k : Nat) :
    (bitsPoly x).coeff k = bitCoeff (x.getLsbD k) := by
  have hterm (j : Nat) : (if x.getLsbD j then X ^ j else 0 : (ZMod 2)[X]).coeff k =
      if k = j then bitCoeff (x.getLsbD j) else 0 := by
    cases x.getLsbD j <;> simp [coeff_X_pow]
  rw [bitsPoly_eq_sum_getLsbD, finsetSum_coeff, Finset.sum_congr rfl fun j _ => hterm j,
    Finset.sum_ite_eq]
  split
  · rfl
  · rename_i hk
    rw [BitVec.getLsbD_of_ge x k (by simpa using hk), bitCoeff_false]

theorem bitsPoly_injective {n : Nat} : Function.Injective (bitsPoly (n := n)) := fun x y h =>
  BitVec.eq_of_getLsbD_eq fun k _ => bitCoeff_injective (by
    rw [← coeff_bitsPoly, h, coeff_bitsPoly])

@[simp] theorem bitsPoly_zero (n : Nat) : bitsPoly 0#n = 0 := by ext k; simp

theorem bitsPoly_xor {n : Nat} (x y : BitVec n) :
    bitsPoly (x ^^^ y) = bitsPoly x + bitsPoly y := by
  ext k; simp [bitCoeff_xor]

theorem degree_bitsPoly_lt {n : Nat} (x : BitVec n) : (bitsPoly x).degree < n :=
  (degree_lt_iff_coeff_zero _ _).2 fun k hk => by
    rw [coeff_bitsPoly, BitVec.getLsbD_of_ge x k hk, bitCoeff_false]

theorem bitsPoly_twoPow {n i : Nat} (hi : i < n) : bitsPoly (BitVec.twoPow n i) = X ^ i := by
  ext k
  rw [coeff_bitsPoly, BitVec.getLsbD_twoPow, coeff_X_pow]
  by_cases h : k = i
  · simp [h, hi]
  · simp [h, Ne.symm h]

theorem putBit_flip {n : Nat} (x : BitVec n) {i : Nat} (hi : i < n) :
    putBit x i (!x.getMsbD i) = x ^^^ BitVec.twoPow n (n - 1 - i) := by
  refine ext_msb fun k hk => ?_
  have hbit : (BitVec.twoPow n (n - 1 - i)).getMsbD k = decide (k = i) := by
    rw [BitVec.getMsbD_twoPow, Bool.eq_iff_iff]
    simp only [Bool.and_eq_true, decide_eq_true_eq]
    omega
  rw [getMsbD_putBit, BitVec.getMsbD_xor, hbit]
  by_cases h : k = i <;> simp [h, hi]

/-- Flipping bit `i` adds that bit's power. -/
theorem bitsPoly_flip {n : Nat} (x : BitVec n) {i : Nat} (hi : i < n) :
    bitsPoly (putBit x i !x.getMsbD i) = bitsPoly x + X ^ (n - 1 - i) := by
  rw [putBit_flip x hi, bitsPoly_xor, bitsPoly_twoPow (by omega)]

/-! ### The generator polynomial -/

/-- `g(x)`, the generator: x^14 and the terms that ROM.POLY lists (R121). -/
noncomputable def crcGenerator (c : Config) : (ZMod 2)[X] := X ^ 14 + bitsPoly c.poly

theorem crcGenerator_monic (c : Config) : (crcGenerator c).Monic :=
  monic_X_pow_add (degree_bitsPoly_lt c.poly)

theorem degree_crcGenerator (c : Config) : (crcGenerator c).degree = 14 :=
  by
  have hlt : (bitsPoly c.poly).degree < (X ^ 14 : (ZMod 2)[X]).degree := by
    rw [degree_X_pow]; exact degree_bitsPoly_lt c.poly
  rw [crcGenerator, degree_add_eq_left_of_degree_lt hlt, degree_X_pow]
  rfl

/-- With constant term 1 the generator divides no power of x. -/
theorem not_crcGenerator_dvd_X_pow {c : Config} (hc : c.poly.getLsbD 0 = true) (k : Nat) :
    ¬ crcGenerator c ∣ X ^ k := by
  intro h
  obtain ⟨j, -, hj⟩ := (dvd_prime_pow prime_X k).1 h
  cases j with
  | zero =>
    have hdeg := degree_eq_zero_of_isUnit (associated_one_iff_isUnit.1 (by simpa using hj))
    rw [degree_crcGenerator] at hdeg
    exact absurd hdeg (by decide)
  | succ j =>
    have hX : X ∣ crcGenerator c := (dvd_pow_self X j.succ_ne_zero).trans hj.symm.dvd
    rw [X_dvd_iff, crcGenerator, coeff_add, coeff_bitsPoly, hc] at hX
    simp at hX

/-! ### The shift register divides -/

/-- The polynomial of a stream of bits, read by Horner's rule. -/
noncomputable def streamPoly (l : List Bool) : (ZMod 2)[X] :=
  l.foldl (fun a d => a * X + C (bitCoeff d)) 0

theorem streamPoly_concat (l : List Bool) (d : Bool) :
    streamPoly (l ++ [d]) = streamPoly l * X + C (bitCoeff d) := by
  simp [streamPoly]

theorem streamPoly_range_map (n : Nat) (f : Nat → Bool) :
    streamPoly ((List.range n).map f) =
      ∑ i ∈ Finset.range n, if f i then X ^ (n - 1 - i) else 0 := by
  induction n with
  | zero => rfl
  | succ n ih =>
    rw [List.range_succ, List.map_append, List.map_singleton, streamPoly_concat, ih,
      Finset.sum_range_succ, Finset.sum_mul]
    congr 1
    · refine Finset.sum_congr rfl fun i hi => ?_
      have hi := Finset.mem_range.1 hi
      rw [ite_mul, zero_mul, ← pow_succ, show n - 1 - i + 1 = n + 1 - 1 - i by omega]
    · cases f n <;> simp

/-- Each trailing zero multiplies by x. -/
theorem streamPoly_append_zeros (l : List Bool) (m : Nat) :
    streamPoly (l ++ List.replicate m false) = streamPoly l * X ^ m := by
  induction m with
  | zero => simp
  | succ m ih =>
    rw [List.replicate_succ', ← List.append_assoc, streamPoly_concat, ih]
    simp [pow_succ, mul_assoc]

theorem streamPoly_crcInput (c : Config) (p : BitVec 77) :
    streamPoly (crcInput c p) = bitsPoly p * X ^ (c.crcPad + 14) := by
  rw [crcInput, streamPoly_append_zeros, streamPoly_range_map, bitsPoly]

/-- The register moved up by one place, bit `d` entering at the bottom: the bit that falls out at
the top is that of x^14. -/
theorem bitsPoly_shiftLeft_or (r : BitVec 14) (d : Bool) :
    bitsPoly ((r <<< 1) ||| (BitVec.ofBool d).setWidth 14) + C (bitCoeff (r.getMsbD 0)) * X ^ 14 =
      bitsPoly r * X + C (bitCoeff d) := by
  ext k
  cases k with
  | zero => simp
  | succ k =>
    rcases Nat.lt_trichotomy k 13 with h | rfl | h
    · have hk : k + 1 < 14 := by omega
      simp [coeff_X_pow, h.ne, hk, BitVec.getLsbD_eq_getElem (Nat.lt_of_succ_lt hk)]
    · simp [coeff_X_pow, BitVec.getMsbD_eq_getLsbD]
    · simp [coeff_X_pow, h.ne', BitVec.getLsbD_of_ge r k h]

/-- One shift is a multiplication by x, an addition of the bit and, when the result has a term x^14,
a subtraction of the generator. -/
theorem bitsPoly_crcShift (c : Config) (r : BitVec 14) (d : Bool) :
    bitsPoly (crcShift c.poly r d) =
      bitsPoly r * X + C (bitCoeff d) - C (bitCoeff (r.getMsbD 0)) * crcGenerator c := by
  rw [← bitsPoly_shiftLeft_or, crcShift, crcGenerator]
  cases r.getMsbD 0
  · simp
  · rw [if_pos rfl, bitsPoly_xor, ← CharTwo.sub_eq_add, bitCoeff_true, C_1]
    ring

/-- The register holds the stream's polynomial up to a multiple of the generator. -/
theorem crcGenerator_dvd_streamPoly_sub (c : Config) (l : List Bool) :
    crcGenerator c ∣ streamPoly l - bitsPoly (l.foldl (crcShift c.poly) 0#14) := by
  induction l using List.reverseRecOn with
  | nil => simp [streamPoly]
  | append_singleton l d ih =>
    rw [streamPoly_concat, List.foldl_append, List.foldl_cons, List.foldl_nil, bitsPoly_crcShift]
    generalize l.foldl (crcShift c.poly) 0#14 = r at ih
    have hsplit : streamPoly l * X + C (bitCoeff d) -
        (bitsPoly r * X + C (bitCoeff d) - C (bitCoeff (r.getMsbD 0)) * crcGenerator c) =
        (streamPoly l - bitsPoly r) * X + C (bitCoeff (r.getMsbD 0)) * crcGenerator c := by ring
    rw [hsplit]
    exact dvd_add (ih.mul_right X) (dvd_mul_left _ _)

/-- `crc14` in one equation (R121). -/
theorem bitsPoly_crc14 (c : Config) (p : BitVec 77) :
    bitsPoly (crc14 c p) = bitsPoly p * X ^ (c.crcPad + 14) %ₘ crcGenerator c := by
  have hself : bitsPoly (crc14 c p) %ₘ crcGenerator c = bitsPoly (crc14 c p) :=
    (modByMonic_eq_self_iff (crcGenerator_monic c)).2
      (by rw [degree_crcGenerator]; exact degree_bitsPoly_lt _)
  rw [← hself, ← streamPoly_crcInput]
  exact (modByMonic_eq_of_dvd_sub (crcGenerator_monic c)
    (crcGenerator_dvd_streamPoly_sub c (crcInput c p))).symm

/-- Settles O37: the register holds the remainder, and the generator's constant term is a law of the
block's parameters. -/
theorem crcIsPolynomialRemainder : Obligations.CrcIsPolynomialRemainder := by
  refine ⟨Config.block_lawful.polyBit0, fun c p => ?_⟩
  rw [← bitsPoly_eq_sum_getLsbD]
  exact bitsPoly_crc14 c p

/-! ### What the remainder gives -/

theorem crc14_xor (c : Config) (p q : BitVec 77) : crc14 c (p ^^^ q) = crc14 c p ^^^ crc14 c q :=
  bitsPoly_injective (by
    simp only [bitsPoly_crc14, bitsPoly_xor, add_mul, add_modByMonic])

theorem crc14_zero (c : Config) : crc14 c 0#77 = 0#14 :=
  bitsPoly_injective (by simp [bitsPoly_crc14])

/-- Settles O38: the remainder of a sum is the sum of the remainders. -/
theorem crcIsLinear : Obligations.CrcIsLinear := fun c => ⟨crc14_xor c, crc14_zero c⟩

/-- The checksums of two payloads that differ in one bit differ by a power of x modulo the
generator, which is not 0. -/
theorem crc14_flip_ne {c : Config} (hc : c.poly.getLsbD 0 = true) (p : BitVec 77) {i : Nat}
    (hi : i < 77) : crc14 c (putBit p i !p.getMsbD i) ≠ crc14 c p := by
  intro h
  have hmod := congrArg bitsPoly h
  rw [bitsPoly_crc14, bitsPoly_crc14, bitsPoly_flip p hi, add_mul, add_modByMonic, add_eq_left,
    ← pow_add, modByMonic_eq_zero_iff_dvd (crcGenerator_monic c)] at hmod
  exact not_crcGenerator_dvd_X_pow hc _ hmod

/-! ### The two commands -/

/-- CKS.GEN on a ready block with a payload (R122). -/
theorem exec_cksGen {s : State} (hs : s.ready = true) (hp : s.isValid .pay = true) :
    exec .cksGen s = .next
      ((({ s with crc := crc14 Config.block s.pay } : State).setValid .crc
        true).completed .ok) := by
  have hc : cksGenCheck s = none := (s.firstInvalid_eq_none _).2 (by simpa using hp)
  exact congrArg Host.Outcome.next (runUnit_of_ready hs hc)

/-- CKS.VFY on a ready block with a payload and a checksum (R123). -/
theorem exec_cksVfy {s : State} (hs : s.ready = true) (hp : s.isValid .pay = true)
    (hv : s.isValid .crc = true) :
    exec .cksVfy s = .next
      (if crc14 Config.block s.pay = s.crc then ({ s with crcOk := true } : State).completed .ok
      else ({ s with crcOk := false } : State).completed .checksumMismatch) := by
  have hc : cksVfyCheck s = none := (s.firstInvalid_eq_none _).2 (by simpa using ⟨hp, hv⟩)
  exact congrArg Host.Outcome.next (runUnit_of_ready hs hc)

/-- Settles O27: each of the two makes its one internal step. -/
theorem checksumCommandsComplete : Obligations.ChecksumCommandsComplete :=
  fun _ hs hp => ⟨exec_cksGen hs hp, exec_cksVfy hs hp⟩

/-- CKS.VFY confirms a checksum that is the payload's (R123). -/
theorem exec_cksVfy_match {s : State} (hs : s.ready = true) (hp : s.isValid .pay = true)
    (hv : s.isValid .crc = true) (h : crc14 Config.block s.pay = s.crc) :
    ∃ t, exec .cksVfy s = .next t ∧ t.crcOk = true :=
  ⟨_, by rw [exec_cksVfy hs hp hv, if_pos h], rfl⟩

/-- CKS.VFY reports a checksum that is not the payload's (R123). -/
theorem exec_cksVfy_mismatch {s : State} (hs : s.ready = true) (hp : s.isValid .pay = true)
    (hv : s.isValid .crc = true) (hne : crc14 Config.block s.pay ≠ s.crc) :
    ∃ t, exec .cksVfy s = .next t ∧ t.crcOk = false ∧ t.lastErr = 4#8 :=
  ⟨_, by rw [exec_cksVfy hs hp hv, if_neg hne], rfl, rfl⟩

theorem putBit_flip_ne {n : Nat} (x : BitVec n) {i : Nat} (hi : i < n) :
    putBit x i (!x.getMsbD i) ≠ x := by
  intro h
  have hbit := congrArg (·.getMsbD i) h
  simp [getMsbD_putBit, hi] at hbit

/-- Settles O39: a flipped payload bit changes the checksum, a flipped checksum bit is no longer the
payload's, and CKS.VFY reports either. -/
theorem singleBitErrorsAreDetected : Obligations.SingleBitErrorsAreDetected := by
  have hflip (p : BitVec 77) (i : Nat) (hi : i < 77) :=
    crc14_flip_ne Config.block_lawful.polyBit0 p hi
  refine ⟨hflip, fun s i hs hp hv hcrc => ⟨fun hi => ?_, fun hi => ?_⟩⟩
  · exact exec_cksVfy_mismatch (s := { s with pay := putBit s.pay i !s.pay.getMsbD i }) hs hp hv
      (hcrc ▸ hflip s.pay i hi)
  · exact exec_cksVfy_mismatch (s := { s with crc := putBit s.crc i !s.crc.getMsbD i }) hs hp hv
      (hcrc ▸ (putBit_flip_ne s.crc hi).symm)

/-- A completed command leaves the block ready, when no event can land on the next one either. -/
theorem State.ready_completed {s : State} (o : Code) (hf : s.fault = false)
    (hq : s.quiet = true) : (s.completed o).ready = true :=
  (State.ready_iff _).2 ⟨rfl, hf, hq⟩

@[simp] theorem State.isValid_completed (s : State) (o : Code) (b : Space) :
    (s.completed o).isValid b = s.isValid b := rfl

/-- Settles O40: CKS.GEN leaves a ready block whose checksum is that of its payload. -/
theorem generateThenVerifySucceeds : Obligations.GenerateThenVerifySucceeds := by
  intro s p hs hp
  obtain ⟨-, hf, hq⟩ := (State.ready_iff s).1 hs
  have hgen := exec_cksGen (s := { s with pay := p }) hs hp
  obtain ⟨u, hvfy, hok⟩ := exec_cksVfy_match
    (s := (({ s with pay := p, crc := crc14 Config.block p } : State).setValid .crc
      true).completed .ok)
    (State.ready_completed _ hf hq)
    (by rw [State.isValid_completed, State.isValid_setValid, if_neg (by decide)]; exact hp)
    (by rw [State.isValid_completed, State.isValid_setValid_self]) (by simp)
  exact ⟨_, u, hgen, hvfy, hok⟩

end Sys2Proof.Machine
end

section
/-!
PROOFS. The packer (41_packer.md): what PCK.PACK and PCK.UNPACK do on a ready block, and that each
undoes the other.
-/

namespace Sys2Proof.Machine

/-! ### The two commands -/

/-- A valid MSG that holds a well-formed message passes PCK.PACK's checks (R136). -/
theorem messageCheck_eq_none {c : Config} {s : State} (hv : s.isValid .msg = true)
    (hm : c.packFmt.validMsg (s.message c) = true) : messageCheck c s = none := by
  have hsrc : s.firstInvalid [.msg] = none := (s.firstInvalid_eq_none _).2 (by simpa using hv)
  rw [messageCheck, hsrc]
  exact if_pos hm

/-- PCK.PACK on a ready block with a well-formed message (R136). -/
theorem exec_pckPack {s : State} (hs : s.ready = true) (hv : s.isValid .msg = true)
    (hm : Config.block.packFmt.validMsg (s.message Config.block) = true) :
    exec .pckPack s = .next
      ((({ s with pay := Config.block.packFmt.pack (s.message Config.block) } :
        State).setValid .pay true).completed .ok) :=
  congrArg Host.Outcome.next (runUnit_of_ready hs (messageCheck_eq_none hv hm))

/-- PCK.UNPACK on a ready block with a payload comes to its body (R137). -/
theorem exec_pckUnpack {s : State} (hs : s.ready = true) (hp : s.isValid .pay = true) :
    exec .pckUnpack s = .next (pckUnpackBody Config.block (s.started .pckUnpack .unpack)) := by
  have hc : pckUnpackCheck s = none := (s.firstInvalid_eq_none _).2 (by simpa using hp)
  exact congrArg Host.Outcome.next (runUnit_of_ready hs hc)

theorem pckUnpackBody_of_none {c : Config} {s : State} (h : c.packFmt.unpack s.pay = none) :
    pckUnpackBody c s = ((s.withMalf true).discard .msg).complete .malformedPayload := by
  rw [pckUnpackBody, h]

theorem pckUnpackBody_of_some {c : Config} {s : State} {m : List Word}
    (h : c.packFmt.unpack s.pay = some m) :
    pckUnpackBody c s =
      (((s.putMessage c m).setValid .msg true).withMalf false).complete .ok := by
  rw [pckUnpackBody, h]

/-- PCK.UNPACK discards MSG where the payload has no message (R137). -/
theorem exec_pckUnpack_malformed {s : State} (hs : s.ready = true) (hp : s.isValid .pay = true)
    (h : Config.block.packFmt.unpack s.pay = none) :
    exec .pckUnpack s = .next
      ((({ s with malf := true } : State).discard .msg).completed .malformedPayload) :=
  (exec_pckUnpack hs hp).trans
    (congrArg Host.Outcome.next (pckUnpackBody_of_none (s := s.started .pckUnpack .unpack) h))

/-- PCK.UNPACK stores the payload's message in MSG (R137). -/
theorem exec_pckUnpack_message {s : State} {m : List Word} (hs : s.ready = true)
    (hp : s.isValid .pay = true) (h : Config.block.packFmt.unpack s.pay = some m) :
    exec .pckUnpack s = .next
      ((({ s.putMessage Config.block m with malf := false } :
        State).setValid .msg true).completed .ok) :=
  (exec_pckUnpack hs hp).trans
    (congrArg Host.Outcome.next (pckUnpackBody_of_some (s := s.started .pckUnpack .unpack) h))

@[simp] theorem State.message_completed (c : Config) (s : State) (o : Code) :
    (s.completed o).message c = s.message c := rfl

@[simp] theorem State.message_setValid (c : Config) (s : State) (b : Space) (v : Bool) :
    (s.setValid b v).message c = s.message c := rfl

/-- What PCK.UNPACK leaves in MSG reads back as the payload's message (R137): the message is
well-formed by law PF2, so it has all MSG_WORDS words. -/
theorem message_of_unpack {m : List Word} {b : BitVec 77} (s : State)
    (h : Config.block.packFmt.unpack b = some m) :
    ((({ s.putMessage Config.block m with malf := false } :
      State).setValid .msg true).completed .ok).message Config.block = m := by
  have hvalid := (Config.block_lawful.pack.exactInverse b m h).1
  have hlength := (Config.block_lawful.pack.validShape m hvalid).1
  rw [State.message_completed, State.message_setValid]
  exact State.message_putMessage Config.block m s hlength

/-- Settles O28: each of the two makes its one internal step; PCK.UNPACK has one outcome for a payload
with a message and one for a payload without. -/
theorem packerCommandsComplete : Obligations.PackerCommandsComplete := by
  refine fun s hs => ⟨exec_pckPack hs, fun hp => ?_⟩
  cases h : Config.block.packFmt.unpack s.pay with
  | none => exact ⟨_, exec_pckUnpack_malformed hs hp h, rfl⟩
  | some m => exact ⟨_, exec_pckUnpack_message hs hp h, message_of_unpack s h, rfl⟩

/-! ### One command after the other -/

/-- A command that completes after writing a buffer leaves a ready block in which that buffer is
valid. -/
theorem State.ready_of_written {s : State} (hs : s.ready = true) (b : Space) (o : Code) :
    ((s.setValid b true).completed o).ready = true ∧
      ((s.setValid b true).completed o).isValid b = true := by
  obtain ⟨-, hf, hq⟩ := (State.ready_iff s).1 hs
  exact ⟨State.ready_completed o hf hq, by rw [State.isValid_completed, State.isValid_setValid_self]⟩

/-- Settles O41: the payload of a valid message unpacks to it by law PF1. -/
theorem packThenUnpackRestoresMessage : Obligations.PackThenUnpackRestoresMessage := by
  intro s hs hv hm
  have hround := Config.block_lawful.pack.roundTrip _ hm
  obtain ⟨hready, hpay⟩ := State.ready_of_written
    (s := { s with pay := Config.block.packFmt.pack (s.message Config.block) }) hs .pay .ok
  exact ⟨_, _, exec_pckPack hs hv hm, exec_pckUnpack_message hready hpay hround, rfl,
    message_of_unpack _ hround⟩

/-- Settles O42: what a payload unpacks to is a valid message that packs to it, by law PF2. -/
theorem unpackThenPackRestoresPayload : Obligations.UnpackThenPackRestoresPayload := by
  intro s hs hp hne
  obtain ⟨m, h⟩ := Option.ne_none_iff_exists'.1 hne
  obtain ⟨-, hf, -⟩ := (State.ready_iff s).1 hs
  obtain ⟨hvalid, hpack⟩ := Config.block_lawful.pack.exactInverse _ m h
  have hmsg := message_of_unpack s h
  obtain ⟨hready, hv⟩ := State.ready_of_written
    (s := { s.putMessage Config.block m with malf := false }) hs .msg .ok
  refine ⟨_, _, exec_pckUnpack_message hs hp h,
    exec_pckPack hready hv (by rw [hmsg]; exact hvalid), ?_, hf⟩
  exact (congrArg Config.block.packFmt.pack hmsg).trans hpack

end Sys2Proof.Machine
end

section
/-!
PROOFS. The FEC encoder (42_fec_encoder.md): what ENC.ENCODE and ENC.XTR do on a ready block, and the
code that `fecEncode` generates: systematic, linear, and exactly the zeros of the syndrome.
-/

namespace Sys2Proof.Machine

/-! ### Slices, and matrix products over GF(2) -/

/-- A slice of the first `m` elements is a slice of the whole. -/
theorem slice_slice_zero {n m : Nat} (x : BitVec n) (start len : Nat) (hm : m ≤ n)
    (h : start + len ≤ m) : slice (slice x 0 m) start len = slice x start len := by
  refine ext_msb fun i hi => ?_
  rw [getMsbD_slice _ _ _ _ h, getMsbD_slice _ _ _ _ (by omega), getMsbD_slice _ _ _ _ (by omega)]
  simp [show start + i < m by omega]

/-- The product of a row vector, a matrix and a column vector is associative. -/
theorem xorSum_and_assoc (l m : List Nat) (f : Nat → Bool) (g : Nat → Nat → Bool)
    (h : Nat → Bool) :
    (xorSum l fun i => f i && xorSum m fun k => g i k && h k) =
      xorSum m fun k => (xorSum l fun i => f i && g i k) && h k := by
  simp only [← xorSum_and_left, ← xorSum_and_right, Bool.and_assoc]
  exact xorSum_comm l m _

theorem bitCoeff_and (a b : Bool) : bitCoeff (a && b) = bitCoeff a * bitCoeff b := by
  revert a b; decide

@[simp] theorem bitCoeff_eq_zero (b : Bool) : bitCoeff b = 0 ↔ b = false := by
  revert b; decide

@[simp] theorem bitCoeff_decide (a : ZMod 2) : bitCoeff (decide (a = 1)) = a := by
  revert a; decide

theorem bitCoeff_xorSum_range (n : Nat) (f : Nat → Bool) :
    bitCoeff (xorSum (List.range n) f) = ∑ i : Fin n, bitCoeff (f i) := by
  induction n with
  | zero => rfl
  | succ n ih =>
    rw [List.range_succ, xorSum_append, bitCoeff_xor, ih, Fin.sum_univ_castSucc]
    simp

/-- The `n` by `n` matrix of a table of bits, over GF(2). -/
def bitMatrix (n : Nat) (f : Nat → Nat → Bool) : Matrix (Fin n) (Fin n) (ZMod 2) :=
  .of fun j r => bitCoeff (f j r)

theorem bitMatrix_mulVec_apply {n : Nat} (f : Nat → Nat → Bool) (e : Nat → Bool) (j : Fin n) :
    ((bitMatrix n f).mulVec fun r => bitCoeff (e r)) j =
      bitCoeff (xorSum (List.range n) fun r => f j r && e r) := by
  simp only [bitCoeff_xorSum_range, bitCoeff_and]
  rfl

theorem vecMul_bitMatrix_apply {n : Nat} (sel : Nat → Bool) (f : Nat → Nat → Bool) (r : Fin n) :
    Matrix.vecMul (fun j : Fin n => bitCoeff (sel j)) (bitMatrix n f) r =
      bitCoeff (xorSum (List.range n) fun j => sel j && f j r) := by
  simp only [bitCoeff_xorSum_range, bitCoeff_and]
  rfl

/-- Every vector over GF(2) is the vector of some bits. -/
theorem exists_bitCoeff_eq {n : Nat} (v : Fin n → ZMod 2) :
    ∃ sel : Nat → Bool, v = fun j : Fin n => bitCoeff (sel j) :=
  ⟨fun j => if h : j < n then decide (v ⟨j, h⟩ = 1) else false, by funext j; simp⟩

/-- A square matrix over GF(2) with independent rows has independent columns. -/
theorem columns_independent_of_rows {n : Nat} {f : Nat → Nat → Bool}
    (hrows : ∀ sel : Nat → Bool,
      (∀ r < n, (xorSum (List.range n) fun j => sel j && f j r) = false) → ∀ j < n, sel j = false)
    {e : Nat → Bool} (he : ∀ j < n, (xorSum (List.range n) fun r => f j r && e r) = false)
    {r : Nat} (hr : r < n) : e r = false := by
  have hdet : (bitMatrix n f).det ≠ 0 := by
    rw [Ne, ← Matrix.exists_vecMul_eq_zero_iff]
    rintro ⟨v, hv, hmul⟩
    obtain ⟨sel, rfl⟩ := exists_bitCoeff_eq v
    have hsel := hrows sel fun r hr => by
      rw [← bitCoeff_eq_zero, ← vecMul_bitMatrix_apply sel f ⟨r, hr⟩, hmul, Pi.zero_apply]
    exact hv (funext fun j => (bitCoeff_eq_zero _).2 (hsel j j.isLt))
  have hzero := Matrix.eq_zero_of_mulVec_eq_zero hdet (funext fun j => by
    rw [bitMatrix_mulVec_apply f e, he j j.isLt]
    rfl)
  exact (bitCoeff_eq_zero _).1 (congrFun hzero ⟨r, hr⟩)

/-! ### The encoder is systematic -/

@[simp] theorem slice_fecEncode (c : Config) (m : BitVec 91) : slice (fecEncode c m) 0 91 = m :=
  slice_append_left _ _

theorem fecEncode_injective (c : Config) : Function.Injective (fecEncode c) :=
  Function.LeftInverse.injective (g := fun x => slice x 0 91) (slice_fecEncode c)

theorem getMsbD_fecEncode (c : Config) (m : BitVec 91) {k : Nat} (hk : k < 91) :
    (fecEncode c m).getMsbD k = m.getMsbD k := by
  rw [fecEncode, getMsbD_append', if_pos hk]

theorem getMsbD_fecEncode_parity (c : Config) (m : BitVec 91) {r : Nat} (hr : r < 83) :
    (fecEncode c m).getMsbD (91 + r) = parityBit c m r := by
  rw [fecEncode, getMsbD_append', if_neg (by omega), getMsbD_bitsOfFn]
  simp [hr]

/-- Two codewords agree when they agree on the 91 bits of the input and on the 83 parity bits
(R151). -/
theorem codeword_ext {x y : BitVec 174} (hin : ∀ k < 91, x.getMsbD k = y.getMsbD k)
    (hpar : ∀ r < 83, x.getMsbD (91 + r) = y.getMsbD (91 + r)) : x = y := by
  refine ext_msb fun i hi => ?_
  by_cases h : i < 91
  · exact hin i h
  · simpa [show 91 + (i - 91) = i by omega] using hpar (i - 91) (by omega)

/-! ### The encoder is linear -/

theorem parityBit_xor (c : Config) (m m' : BitVec 91) (r : Nat) :
    parityBit c (m ^^^ m') r = (parityBit c m r ^^ parityBit c m' r) := by
  simp only [parityBit, BitVec.getMsbD_xor, Bool.and_xor_distrib_left, xorSum_xor]

theorem fecEncode_xor (c : Config) (m m' : BitVec 91) :
    fecEncode c (m ^^^ m') = fecEncode c m ^^^ fecEncode c m' := by
  refine codeword_ext (fun k hk => ?_) fun r hr => ?_
  · simp only [BitVec.getMsbD_xor, getMsbD_fecEncode _ _ hk]
  · simp only [BitVec.getMsbD_xor, getMsbD_fecEncode_parity _ _ hr, parityBit_xor]

theorem fecEncode_zero (c : Config) : fecEncode c 0#91 = 0#174 := by
  have h := fecEncode_xor c 0#91 0#91
  rwa [BitVec.xor_self, BitVec.xor_self] at h

/-- Settles O44: each parity bit is a GF(2) dot product with the input, and the input is part of the
output. -/
theorem encoderIsLinear : Obligations.EncoderIsLinear := fun m m' =>
  ⟨fecEncode_xor _ m m', fecEncode_zero _, fun h => fecEncode_injective _ h⟩

/-! ### The checks and the parity bits -/

/-- How parity bit `r` of `x` differs from the one that the encoder appends to the first 91 bits. -/
def parityError (c : Config) (x : BitVec 174) (r : Nat) : Bool :=
  x.getMsbD (91 + r) ^^ parityBit c (slice x 0 91) r

/-- The encoder's outputs are the sequences without a parity error. -/
theorem fecEncode_slice_eq_iff (c : Config) (x : BitVec 174) :
    fecEncode c (slice x 0 91) = x ↔ ∀ r < 83, parityError c x r = false := by
  have herror {r : Nat} : parityError c x r = false ↔
      x.getMsbD (91 + r) = parityBit c (slice x 0 91) r := by simp [parityError]
  constructor
  · intro h r hr
    rw [herror, ← getMsbD_fecEncode_parity c _ hr, h]
  · refine fun h => codeword_ext (fun k hk => ?_) fun r hr => ?_
    · rw [getMsbD_fecEncode _ _ hk, getMsbD_slice _ _ _ _ (by decide)]
      simp [hk]
    · rw [getMsbD_fecEncode_parity _ _ hr, herror.1 (h r hr)]

theorem isCodeword_iff (c : Config) (x : BitVec 174) :
    isCodeword c x = true ↔ ∀ j < 83, syndromeBit c x j = false := by
  simp [isCodeword]

section Lawful

variable {c : Config}

/-- What the input adds to a check is, by law GH1, what the appended parity bits add to it. -/
theorem check_input_eq (hc : c.Lawful) (x : BitVec 174) {j : Nat} (hj : j < 83) :
    (xorSum (List.range 91) fun k => c.checkMatrix j k && x.getMsbD k) =
      xorSum (List.range 83) fun r =>
        c.checkMatrix j (91 + r) && parityBit c (slice x 0 91) r := by
  have hbit {k : Nat} (hk : k ∈ List.range 91) : (slice x 0 91).getMsbD k = x.getMsbD k := by
    rw [getMsbD_slice _ _ _ _ (by decide)]
    simp [List.mem_range.1 hk]
  simp only [parityBit, xorSum_and_assoc]
  exact xorSum_congr fun k hk => by rw [hc.gh1 j hj k (List.mem_range.1 hk), hbit hk]

/-- A check sees the parity errors alone: with ROM.H = [A | B] the syndrome is B times them
(R152). -/
theorem syndromeBit_eq (hc : c.Lawful) (x : BitVec 174) {j : Nat} (hj : j < 83) :
    syndromeBit c x j =
      xorSum (List.range 83) fun r => c.checkMatrix j (91 + r) && parityError c x r := by
  simp only [parityError, Bool.and_xor_distrib_left, xorSum_xor, ← check_input_eq hc x hj]
  rw [syndromeBit, Config.checkBits, xorSum_filter, xorSum_range_add 91 83, Bool.xor_comm]

/-- The rows of B are independent: a sum of rows of ROM.H that is 0 in the last 83 columns is 0 in the
first 91 too by law GH1, and law H2 rules that out. -/
theorem parityPart_rows_independent (hc : c.Lawful) (sel : Nat → Bool)
    (h : ∀ r < 83, (xorSum (List.range 83) fun j => sel j && c.checkMatrix j (91 + r)) = false) :
    ∀ j < 83, sel j = false := by
  refine hc.fullRank sel fun n hn => ?_
  by_cases hk : n < 91
  · calc (xorSum (List.range 83) fun j => sel j && c.checkMatrix j n)
        = xorSum (List.range 83) fun j => sel j &&
            xorSum (List.range 83) fun r => c.checkMatrix j (91 + r) && c.genMatrix r n :=
          xorSum_congr fun j hj => by rw [hc.gh1 j (List.mem_range.1 hj) n hk]
      _ = xorSum (List.range 83) fun r =>
            (xorSum (List.range 83) fun j => sel j && c.checkMatrix j (91 + r)) &&
              c.genMatrix r n := xorSum_and_assoc ..
      _ = xorSum (List.range 83) fun _ => false :=
          xorSum_congr fun r hr => by rw [h r (List.mem_range.1 hr), Bool.false_and]
      _ = false := xorSum_false _
  · simpa [show 91 + (n - 91) = n by omega] using h (n - 91) (by omega)

/-- Codewords are exactly the encoder's outputs (R159): B is square with independent rows, so only a
sequence without parity errors has syndrome 0. -/
theorem isCodeword_iff_fecEncode (hc : c.Lawful) (x : BitVec 174) :
    isCodeword c x = true ↔ fecEncode c (slice x 0 91) = x := by
  rw [isCodeword_iff, fecEncode_slice_eq_iff]
  constructor
  · intro h r hr
    exact columns_independent_of_rows (f := fun j r => c.checkMatrix j (91 + r))
      (parityPart_rows_independent hc) (fun j hj => by rw [← syndromeBit_eq hc x hj, h j hj]) hr
  · intro h j hj
    rw [syndromeBit_eq hc x hj, xorSum_congr (g := fun _ => false), xorSum_false]
    exact fun r hr => by rw [h r (List.mem_range.1 hr), Bool.and_false]

theorem isCodeword_fecEncode (hc : c.Lawful) (m : BitVec 91) :
    isCodeword c (fecEncode c m) = true := by
  rw [isCodeword_iff_fecEncode hc, slice_fecEncode]

end Lawful

/-- Settles O43: the encoder's outputs have no parity error, and the checks see nothing else. -/
theorem encoderOutputIsCodeword : Obligations.EncoderOutputIsCodeword := fun m =>
  (isCodeword_iff _ _).1 (isCodeword_fecEncode Config.block_lawful m)

/-! ### The two commands -/

/-- ENC.ENCODE on a ready block with a payload and a checksum (R155). -/
theorem exec_encEncode {s : State} (hs : s.ready = true) (hp : s.isValid .pay = true)
    (hv : s.isValid .crc = true) :
    exec .encEncode s = .next
      ((({ s with cw := fecEncode Config.block (s.pay ++ s.crc) } : State).setValid .cw
        true).completed .ok) := by
  have hc : encEncodeCheck s = none := (s.firstInvalid_eq_none _).2 (by simpa using ⟨hp, hv⟩)
  exact congrArg Host.Outcome.next (runUnit_of_ready hs hc)

/-- ENC.XTR on a ready block with a codeword (R160). -/
theorem exec_encXtr {s : State} (hs : s.ready = true) (hv : s.isValid .cw = true) :
    exec .encXtr s = .next (((s.splitCodeword.setValid .pay true).setValid .crc
      true).completed .ok) := by
  have hc : encXtrCheck s = none := (s.firstInvalid_eq_none _).2 (by simpa using hv)
  exact congrArg Host.Outcome.next (runUnit_of_ready hs hc)

/-- Settles O29: each of the two makes its one internal step, and ENC.XTR copies slices of CW. -/
theorem encoderCommandsComplete : Obligations.EncoderCommandsComplete := by
  refine fun s hs => ⟨exec_encEncode hs, fun hv => ⟨_, exec_encXtr hs hv, ?_, ?_, rfl⟩⟩
  · intro k hk
    simp [getMsbD_slice, hk]
  · intro k hk
    simp [getMsbD_slice, hk]

/-! ### One command after the other -/

/-- ENC.XTR takes an encoder output apart into the payload and the checksum it was made from. -/
theorem slices_fecEncode (c : Config) (p : BitVec 77) (q : BitVec 14) :
    slice (fecEncode c (p ++ q)) 0 77 = p ∧ slice (fecEncode c (p ++ q)) 77 14 = q := by
  have hslice (start len : Nat) (h : start + len ≤ 91) :
      slice (fecEncode c (p ++ q)) start len = slice (p ++ q) start len := by
    rw [← slice_slice_zero _ start len (by decide) h, slice_fecEncode]
  refine ⟨(hslice 0 77 (by decide)).trans (slice_append_left p q), ?_⟩
  rw [hslice 77 14 (by decide), slice_append_right p q 0 14 (by decide), slice_self]

/-- Settles O45: the code is systematic, and ENC.ENCODE leaves a ready block whose CW is an encoder
output. -/
theorem extractUndoesEncode : Obligations.ExtractUndoesEncode := by
  refine ⟨fun m k hk => getMsbD_fecEncode _ m hk, fun m m' => (fecEncode_injective _).ne,
    fun s hs hp hv => ?_⟩
  obtain ⟨hready, hcw⟩ := State.ready_of_written
    (s := { s with cw := fecEncode Config.block (s.pay ++ s.crc) }) hs .cw .ok
  obtain ⟨hpay, hcrc⟩ := slices_fecEncode Config.block s.pay s.crc
  exact ⟨_, _, exec_encEncode hs hp hv, exec_encXtr hready hcw, hpay, hcrc⟩

/-- Settles O46: ENC.XTR leaves the first 91 bits of CW in PAY and CRC, and of a codeword the encoder
makes the rest again. -/
theorem codewordsAreEncoderOutputs : Obligations.CodewordsAreEncoderOutputs := by
  refine ⟨isCodeword_iff_fecEncode Config.block_lawful, fun s hs hv hcw => ?_⟩
  obtain ⟨hready, hcrc⟩ := State.ready_of_written
    (s := s.splitCodeword.setValid .pay true) hs .crc .ok
  have hpay : (((s.splitCodeword.setValid .pay true).setValid .crc
      true).completed .ok).isValid .pay = true := by
    rw [State.isValid_completed, State.isValid_setValid, if_neg (by decide),
      State.isValid_setValid_self]
  have hjoin : slice s.cw 0 77 ++ slice s.cw 77 14 = slice s.cw 0 91 :=
    split_at s.cw 77 14 0 (by decide)
  refine ⟨_, _, exec_encXtr hs hv, exec_encEncode hready hpay hcrc, ?_⟩
  exact (congrArg _ hjoin).trans ((isCodeword_iff_fecEncode Config.block_lawful _).1 hcw)

end Sys2Proof.Machine
end

section
/-!
SUPPORT. `bp_decode` as a function (43_bp_decoder.md rule R174): what an iteration leaves on each edge of
the graph and in each posterior, that a hard decision which already is a codeword stays and converges at
once, that convergence is on a codeword, and that scaling the reliabilities scales every message.
-/

namespace Sys2Proof.Machine

/-! ### Reading the message memory -/

section Reads

variable {c : Config} {llr : Nat → Int} {b : BpMem} {m n : Nat}

/-- A check of a bit's is a check, and has the bit. -/
theorem mem_checkBits_of_mem_bitChecks (hn : n < 174) (hm : m ∈ c.bitChecks n) :
    m < 83 ∧ n ∈ c.checkBits m := by
  obtain ⟨hm83, hedge⟩ := mem_bitChecks.1 hm
  exact ⟨hm83, mem_checkBits.2 ⟨hn, hedge⟩⟩

/-- A bit of a check's is a bit, and has the check. -/
theorem mem_bitChecks_of_mem_checkBits (hm : m < 83) (hn : n ∈ c.checkBits m) :
    n < 174 ∧ m ∈ c.bitChecks n := by
  obtain ⟨hn174, hedge⟩ := mem_checkBits.1 hn
  exact ⟨hn174, mem_bitChecks.2 ⟨hm, hedge⟩⟩

/-- A table with a message for every index of `l i` in row `i` reads as that message there. -/
theorem bpMessage_rows {N i j : Nat} {l : Nat → List Nat} (f : Nat → Nat → Int) (v : Int)
    (hi : i < N) (h : j ∈ l i) :
    bpMessage v ((List.range N).map fun i => (l i).map fun j => (j, f i j)) i j = f i j := by
  rw [bpMessage, findCell_rows hi h]

theorem c2vAt_init (hm : m < 83) (hn : n ∈ c.checkBits m) : (BpMem.init c b).c2vAt m n = 0 :=
  bpMessage_rows (fun _ _ => 0) _ hm hn

theorem v2cAt_stepV2c (hm : m < 83) (hn : n ∈ c.checkBits m) :
    (b.stepV2c c llr).v2cAt n m = variableToCheck c llr b n m := by
  obtain ⟨hn174, hm'⟩ := mem_bitChecks_of_mem_checkBits hm hn
  exact bpMessage_rows (variableToCheck c llr b) _ hn174 hm'

theorem c2vAt_bpIterate (hm : m < 83) (hn : n ∈ c.checkBits m) :
    (bpIterate c llr b).c2vAt m n = checkToVariable c (b.stepV2c c llr) m n :=
  bpMessage_rows (checkToVariable c (b.stepV2c c llr)) _ hm hn

/-- The posteriors are taken from the iteration's own check-to-variable messages. -/
theorem postAt_bpIterate (hn : n < 174) :
    (bpIterate c llr b).postAt n = posterior c llr (bpIterate c llr b) n := by
  simp [BpMem.postAt, bpIterate, BpMem.stepPost, List.getElem?_range hn, posterior, BpMem.c2vAt]

theorem getMsbD_hardDecision (hn : n < 174) :
    (hardDecision b).getMsbD n = decide (b.postAt n < 0) := by
  rw [hardDecision, getMsbD_bitsOfFn, decide_eq_true hn, Bool.true_and]

end Reads

/-- The min-sum rule on the messages `l` of the other bits. -/
def minSum (l : List Int) : Int := (l.map sgn).prod * (minOf (l.map Int.natAbs) : Int)

theorem checkToVariable_eq_minSum (c : Config) (b : BpMem) (m n : Nat) :
    checkToVariable c b m n =
      minSum (((c.checkBits m).filter fun n' => n' != n).map fun n' => b.v2cAt n' m) := rfl

/-! ### Convergence -/

/-- What `bp_decode` converges to is a codeword, found within the budget. -/
theorem bpLoop_eq_some {c : Config} {llr : Nat → Int} {fuel t : Nat} {b : BpMem} {x : BitVec 174}
    {n : Nat} (h : bpLoop c llr fuel t b = some (x, n)) :
    isCodeword c x = true ∧ t + 1 ≤ n ∧ n ≤ t + fuel := by
  induction fuel generalizing t b with
  | zero => cases h
  | succ fuel ih =>
    rw [bpLoop] at h
    split at h
    · rename_i hcw
      cases h
      exact ⟨hcw, by omega, by omega⟩
    · obtain ⟨hcw, hlo, hhi⟩ := ih h
      exact ⟨hcw, by omega, by omega⟩

theorem bpDecode_eq_some {c : Config} {llr : Nat → Int} {maxIter n : Nat} {x : BitVec 174}
    (h : bpDecode c llr maxIter = some (x, n)) :
    isCodeword c x = true ∧ 1 ≤ n ∧ n ≤ maxIter := by
  simpa using bpLoop_eq_some h

/-- `bp_decode` ends in iteration 1 when that iteration's hard decision is a codeword. -/
theorem bpDecode_of_first_iteration {c : Config} {llr : Nat → Int} {maxIter : Nat} {x : BitVec 174}
    (hmax : 1 ≤ maxIter) (hx : isCodeword c x = true)
    (h : hardDecision (bpIterate c llr (BpMem.init c ⟨0, [], [], []⟩)) = x) :
    bpDecode c llr maxIter = some (x, 1) := by
  obtain ⟨k, rfl⟩ := Nat.exists_eq_add_of_le' hmax
  rw [bpDecode, bpLoop, h, if_pos hx]

/-! ### A codeword's signs -/

/-- The sign of a reliability whose hard decision is `b`. -/
def bitSign (b : Bool) : Int := if b then -1 else 1

theorem sgn_eq_bitSign (v : Int) : sgn v = bitSign (decide (v < 0)) := by
  simp [sgn, bitSign]

theorem bitSign_xor (a b : Bool) : bitSign (a ^^ b) = bitSign a * bitSign b := by
  cases a <;> cases b <;> rfl

theorem bitSign_mul_self (b : Bool) : bitSign b * bitSign b = 1 := by cases b <;> rfl

theorem prod_bitSign (l : List Nat) (f : Nat → Bool) :
    (l.map fun i => bitSign (f i)).prod = bitSign (xorSum l f) := by
  induction l with
  | nil => rfl
  | cons a l ih => rw [List.map_cons, List.prod_cons, ih, xorSum_cons, bitSign_xor]

/-- In a check that holds, the signs of a bit's companions multiply to the bit's own sign. -/
theorem prod_bitSign_others {c : Config} {x : BitVec 174} {m n : Nat} (hx : isCodeword c x = true)
    (hm : m < 83) (hn : n ∈ c.checkBits m) :
    (((c.checkBits m).filter fun n' => n' != n).map fun n' => bitSign (x.getMsbD n')).prod =
      bitSign (x.getMsbD n) := by
  have hnodup : (c.checkBits m).Nodup := List.nodup_range.filter _
  have hcheck : xorSum (c.checkBits m) x.getMsbD = false := (isCodeword_iff c x).1 hx m hm
  have hall := List.prod_map_erase (fun n' => bitSign (x.getMsbD n')) hn
  rw [prod_bitSign (c.checkBits m), hcheck, hnodup.erase_eq_filter] at hall
  calc _ = bitSign (x.getMsbD n) * (bitSign (x.getMsbD n) * _) := by
        rw [← mul_assoc, bitSign_mul_self, one_mul]
    _ = bitSign (x.getMsbD n) := by rw [hall]; exact mul_one _

/-! ### Reliabilities whose hard decision is a codeword -/

section Clean

variable {c : Config} {llr : Nat → Int} {x : BitVec 174} {b : BpMem}

/-- Before the first iteration a bit believes its own reliability. -/
theorem variableToCheck_init {m n : Nat} (hn : n < 174) :
    variableToCheck c llr (BpMem.init c b) n m = llr n := by
  have hzero : ((c.bitChecks n).filter fun m' => m' != m).map
      (fun m' => (BpMem.init c b).c2vAt m' n) =
      ((c.bitChecks n).filter fun m' => m' != m).map fun _ => 0 :=
    List.map_congr_left fun m' hm' => by
      obtain ⟨h83, hedge⟩ := mem_checkBits_of_mem_bitChecks hn (List.mem_of_mem_filter hm')
      exact c2vAt_init h83 hedge
  rw [variableToCheck, hzero, List.sum_map_zero, add_zero]

/-- Every check tells every one of its bits what the bit's own reliability says. -/
theorem bitSign_mul_c2vAt_nonneg (hx : isCodeword c x = true)
    (hllr : ∀ n < 174, decide (llr n < 0) = x.getMsbD n) {m n : Nat} (hm : m < 83)
    (hn : n ∈ c.checkBits m) :
    0 ≤ bitSign (x.getMsbD n) * (bpIterate c llr (BpMem.init c b)).c2vAt m n := by
  have hsigns : ((((c.checkBits m).filter fun n' => n' != n).map fun n' =>
      ((BpMem.init c b).stepV2c c llr).v2cAt n' m).map sgn).prod = bitSign (x.getMsbD n) := by
    rw [← prod_bitSign_others hx hm hn, List.map_map]
    congr 1
    refine List.map_congr_left fun n' hn' => ?_
    have hn' := List.mem_of_mem_filter hn'
    have h174 := (mem_bitChecks_of_mem_checkBits hm hn').1
    rw [Function.comp_apply, v2cAt_stepV2c hm hn', variableToCheck_init h174, sgn_eq_bitSign,
      hllr n' h174]
  rw [c2vAt_bpIterate hm hn, checkToVariable_eq_minSum, minSum, hsigns, ← mul_assoc,
    bitSign_mul_self, one_mul]
  exact Int.natCast_nonneg _

/-- What agrees with a reliability leaves its hard decision. -/
theorem decide_add_neg_of_agree {v w : Int} (h : 0 ≤ bitSign (decide (v < 0)) * w) :
    decide (v + w < 0) = decide (v < 0) := by
  rw [decide_eq_decide]
  by_cases hv : v < 0 <;> simp [bitSign, hv] at h <;> omega

/-- The first iteration confirms a codeword. -/
theorem hardDecision_first_iteration (hx : isCodeword c x = true)
    (hllr : ∀ n < 174, decide (llr n < 0) = x.getMsbD n) :
    hardDecision (bpIterate c llr (BpMem.init c b)) = x := by
  refine ext_msb fun n hn => ?_
  rw [getMsbD_hardDecision hn, postAt_bpIterate hn, posterior, ← hllr n hn]
  apply decide_add_neg_of_agree
  rw [hllr n hn, ← List.sum_map_mul_left]
  refine List.sum_nonneg fun v hv => ?_
  obtain ⟨m, hm, rfl⟩ := List.mem_map.1 hv
  obtain ⟨h83, hedge⟩ := mem_checkBits_of_mem_bitChecks hn hm
  exact bitSign_mul_c2vAt_nonneg hx hllr h83 hedge

/-- Reliabilities whose hard decision is a codeword decode to it in iteration 1, whatever their
magnitudes. -/
theorem bpDecode_of_hard_codeword {maxIter : Nat} (hx : isCodeword c x = true)
    (hllr : ∀ n < 174, decide (llr n < 0) = x.getMsbD n) (hmax : 1 ≤ maxIter) :
    bpDecode c llr maxIter = some (x, 1) :=
  bpDecode_of_first_iteration hmax hx (hardDecision_first_iteration hx hllr)

/-- The reliabilities of `x` without noise have the hard decision `x`. -/
theorem decide_noiseless {amp : Int} (hamp : 1 ≤ amp)
    (hllr : ∀ n < 174, llr n = if x.getMsbD n then -amp else amp) (n : Nat) (hn : n < 174) :
    decide (llr n < 0) = x.getMsbD n := by
  rw [hllr n hn]
  cases x.getMsbD n <;> simp <;> omega

end Clean

/-- Settles O49: no reliability is negative, so the hard decision is the zero codeword. -/
theorem zeroLlrDecodesToZero : Obligations.ZeroLlrDecodesToZero := by
  refine ⟨fun llr maxIter hmax hllr => ?_, crc14_zero _⟩
  have hzero : isCodeword Config.block 0#174 = true :=
    fecEncode_zero Config.block ▸ isCodeword_fecEncode Config.block_lawful 0#91
  exact bpDecode_of_hard_codeword hzero (fun n hn => by simp [hllr n hn]) hmax

/-! ### Scaling -/

theorem scaled_neg_iff {k : Int} (hk : 0 < k) (v : Int) : k * v < 0 ↔ v < 0 := by
  simp [mul_neg_iff, hk, hk.not_gt]

theorem sgn_mul_of_pos {k : Int} (hk : 0 < k) (v : Int) : sgn (k * v) = sgn v := by
  simp only [sgn, scaled_neg_iff hk]

theorem minOf_map_mul (k : Nat) (l : List Nat) : minOf (l.map (k * ·)) = k * minOf l := by
  cases l with
  | nil => rfl
  | cons a l =>
    simp only [List.map_cons, minOf]
    induction l generalizing a with
    | nil => rfl
    | cons d l ih => rw [List.map_cons, List.foldl_cons, List.foldl_cons, ← ih, Nat.mul_min_mul_left]

theorem minSum_map_mul {k : Int} (hk : 0 < k) (l : List Int) :
    minSum (l.map (k * ·)) = k * minSum l := by
  have hsgn : (l.map (k * ·)).map sgn = l.map sgn := by
    rw [List.map_map]
    exact List.map_congr_left fun v _ => sgn_mul_of_pos hk v
  have habs : (l.map (k * ·)).map Int.natAbs = (l.map Int.natAbs).map (k.natAbs * ·) := by
    rw [List.map_map, List.map_map]
    exact List.map_congr_left fun v _ => Int.natAbs_mul k v
  rw [minSum, minSum, hsgn, habs, minOf_map_mul, Nat.cast_mul, Int.natAbs_of_nonneg hk.le]
  exact mul_left_comm ..

/-- Every check-to-variable message of `b'` is `k` times that of `b`. -/
def BpMem.scaledBy (c : Config) (k : Int) (b b' : BpMem) : Prop :=
  ∀ m < 83, ∀ n ∈ c.checkBits m, b'.c2vAt m n = k * b.c2vAt m n

section Scaling

variable {c : Config} {k : Int} {llr : Nat → Int} {b b' : BpMem}

/-- Messages to a bit that are all scaled have a scaled sum. -/
theorem sum_c2vAt_scaled (h : b.scaledBy c k b') {l : List Nat} {n : Nat} (hn : n < 174)
    (hl : l ⊆ c.bitChecks n) :
    (l.map fun m => b'.c2vAt m n).sum = k * (l.map fun m => b.c2vAt m n).sum := by
  rw [← List.sum_map_mul_left]
  congr 1
  refine List.map_congr_left fun m hm => ?_
  obtain ⟨h83, hedge⟩ := mem_checkBits_of_mem_bitChecks hn (hl hm)
  exact h m h83 n hedge

theorem variableToCheck_scaled (h : b.scaledBy c k b') {m n : Nat} (hn : n < 174) :
    variableToCheck c (fun n => k * llr n) b' n m = k * variableToCheck c llr b n m := by
  rw [variableToCheck, variableToCheck, sum_c2vAt_scaled h hn (List.filter_subset_self _), mul_add]

theorem posterior_scaled (h : b.scaledBy c k b') {n : Nat} (hn : n < 174) :
    posterior c (fun n => k * llr n) b' n = k * posterior c llr b n := by
  rw [posterior, posterior, sum_c2vAt_scaled h hn (List.Subset.refl _), mul_add]

/-- An iteration on scaled reliabilities keeps the messages scaled. -/
theorem bpIterate_scaled (hk : 0 < k) (h : b.scaledBy c k b') :
    (bpIterate c llr b).scaledBy c k (bpIterate c (fun n => k * llr n) b') := by
  intro m hm n hn
  have hmessages : ∀ n' ∈ (c.checkBits m).filter fun n' => n' != n,
      (b'.stepV2c c fun n => k * llr n).v2cAt n' m = k * (b.stepV2c c llr).v2cAt n' m := by
    intro n' hn'
    have hn' := List.mem_of_mem_filter hn'
    rw [v2cAt_stepV2c hm hn', v2cAt_stepV2c hm hn',
      variableToCheck_scaled h (mem_bitChecks_of_mem_checkBits hm hn').1]
  rw [c2vAt_bpIterate hm hn, c2vAt_bpIterate hm hn, checkToVariable_eq_minSum,
    checkToVariable_eq_minSum, ← minSum_map_mul hk, List.map_map,
    List.map_congr_left hmessages]
  rfl

/-- A scaled iteration has the same hard decision. -/
theorem hardDecision_scaled (hk : 0 < k) (h : b.scaledBy c k b') :
    hardDecision (bpIterate c (fun n => k * llr n) b') = hardDecision (bpIterate c llr b) := by
  refine ext_msb fun n hn => ?_
  rw [getMsbD_hardDecision hn, getMsbD_hardDecision hn, postAt_bpIterate hn, postAt_bpIterate hn,
    posterior_scaled (bpIterate_scaled hk h) hn, decide_eq_decide]
  exact scaled_neg_iff hk _

/-- `bp_decode` from scaled messages on scaled reliabilities has the same outcome. -/
theorem bpLoop_scaled (hk : 0 < k) (fuel t : Nat) (h : b.scaledBy c k b') :
    bpLoop c (fun n => k * llr n) fuel t b' = bpLoop c llr fuel t b := by
  induction fuel generalizing t b b' with
  | zero => rfl
  | succ fuel ih =>
    rw [bpLoop, bpLoop, hardDecision_scaled hk h, ih (t + 1) (bpIterate_scaled hk h)]

theorem init_scaledBy (c : Config) (k : Int) (b : BpMem) :
    (BpMem.init c b).scaledBy c k (BpMem.init c b) := fun m hm n hn => by
  rw [c2vAt_init hm hn, mul_zero]

end Scaling

/-- Settles O50: all messages and posteriors scale, which changes no sign. -/
theorem decodingIsScaleInvariant : Obligations.DecodingIsScaleInvariant :=
  fun c _ k maxIter hk => bpLoop_scaled (by omega) maxIter 0 (init_scaledBy c k _)

end Sys2Proof.Machine
end

section
/-!
SUPPORT. BPD.DECODE as a command: its internal steps are the iterations of `bp_decode` on the machine's
message memory, so it ends as `bp_decode` does (43_bp_decoder.md rules R174, R175 and R177).
-/

namespace Sys2Proof.Machine

/-! ### The internal steps -/

/-- BPD.DECODE's end when `bp_decode` has answered `r` (R175). -/
def bpdEnd (r : Option (BitVec 174 × Nat)) (s : State) : State :=
  match r with
  | some (hard, t) => bpdConverged hard { s with iterT := t }
  | none => bpdExhausted { s with iterT := s.cfg.maxIter.toNat }

/-- The end depends on no message, nor on how many steps came before. -/
theorem bpdEnd_congr (r : Option (BitVec 174 × Nat)) (s : State) (b : BpMem) (t k : Nat) :
    bpdEnd r { s with bp := b, iterT := t, ticks := k } = bpdEnd r s := by
  cases r <;> rfl

section Iterations

variable {c : Config} {s : State}

/-- An iteration whose hard decision is a codeword is the last. -/
theorem bpdTick_of_codeword (hm : s.cfg.maxIter ≠ 0#32)
    (hcw : isCodeword c (hardDecision (bpIterate c s.llrAt s.bp)) = true) :
    bpdTick c s = bpdConverged (hardDecision (bpIterate c s.llrAt s.bp)) (s.iterateBp c) := by
  rw [bpdTick, if_neg hm]
  exact if_pos hcw

/-- Without a codeword BPD.DECODE gives up after the last iteration of the budget, and goes on before
it. -/
theorem bpdTick_of_not_codeword (hm : s.cfg.maxIter ≠ 0#32)
    (hcw : ¬ isCodeword c (hardDecision (bpIterate c s.llrAt s.bp)) = true) :
    bpdTick c s = if s.cfg.maxIter.toNat ≤ s.iterT + 1 then bpdExhausted (s.iterateBp c)
      else s.iterateBp c := by
  rw [bpdTick, if_neg hm]
  exact if_neg hcw

/-- The running BPD.DECODE, with `k + 1` iterations to go, ends as the rest of `bp_decode` does. -/
theorem drain_bpdTick {n k : Nat} (hb : s.busy = true) (hq : s.quiet = true)
    (hk : s.cfg.maxIter.toNat = s.iterT + (k + 1)) (hn : k < n) :
    drain (bpdTick c) n s = bpdEnd (bpLoop c s.llrAt (k + 1) s.iterT s.bp) s := by
  induction n generalizing k s with
  | zero => omega
  | succ n ih =>
    have hm : s.cfg.maxIter ≠ 0#32 := fun h => by simp [h] at hk
    rw [drain_succ n hb hq, bpLoop]
    by_cases hcw : isCodeword c (hardDecision (bpIterate c s.llrAt s.bp)) = true
    · rw [if_pos hcw, bpdTick_of_codeword (s := { s with ticks := s.ticks + 1 }) hm hcw,
        drain_of_idle n rfl]
      rfl
    · rw [if_neg hcw, bpdTick_of_not_codeword (s := { s with ticks := s.ticks + 1 }) hm hcw]
      cases k with
      | zero =>
        rw [if_pos hk.le, drain_of_idle n rfl]
        change _ = bpdExhausted { s with iterT := s.cfg.maxIter.toNat }
        rw [hk]
        rfl
      | succ k =>
        have hmore : ¬ s.cfg.maxIter.toNat ≤ s.iterT + 1 := by omega
        have hk' : s.cfg.maxIter.toNat = s.iterT + 1 + (k + 1) := by omega
        rw [if_neg hmore, ih (s := ({ s with ticks := s.ticks + 1 } : State).iterateBp c) hb hq hk'
          (by omega)]
        exact bpdEnd_congr _ s _ _ _

end Iterations

/-! ### The command -/

section Command

variable {s : State}

/-- BPD.DECODE on a ready block with reliabilities is accepted and runs (R175, R236). -/
theorem exec_bpdDecode_eq_drain (hs : s.ready = true) (hv : s.isValid .llr = true) :
    exec .bpdDecode s = .next (drain (bpdTick Config.block) (s.cfg.maxIter.toNat + 1)
      (bpdStart Config.block (s.accept .bpdDecode .fecdec))) := by
  obtain ⟨hb, hf, -⟩ := (State.ready_iff s).1 hs
  have hc : bpdDecodeCheck s = none := (s.firstInvalid_eq_none _).2 (by simpa using hv)
  exact congrArg Host.Outcome.next (runCommand_of_accept hf hb hc)

/-- With a budget of 0 it ends at its first internal step (R175). -/
theorem exec_bpdDecode_config (hs : s.ready = true) (hv : s.isValid .llr = true)
    (hm : s.cfg.maxIter = 0#32) :
    exec .bpdDecode s = .next (bpdConfig (s.started .bpdDecode .fecdec)) := by
  obtain ⟨-, -, hq⟩ := (State.ready_iff s).1 hs
  have hstart : bpdStart Config.block (s.accept .bpdDecode .fecdec) = s.accept .bpdDecode .fecdec :=
    if_pos hm
  have htick : bpdTick Config.block (s.started .bpdDecode .fecdec) =
      bpdConfig (s.started .bpdDecode .fecdec) := if_pos hm
  rw [exec_bpdDecode_eq_drain hs hv, hstart, drain_succ (s := s.accept .bpdDecode .fecdec) _ rfl hq]
  exact congrArg Host.Outcome.next ((congrArg _ htick).trans (drain_of_idle _ rfl))

/-- With a budget it ends as `bp_decode` does (R174, R175). -/
theorem exec_bpdDecode (hs : s.ready = true) (hv : s.isValid .llr = true)
    (hm : s.cfg.maxIter ≠ 0#32) :
    exec .bpdDecode s = .next (bpdEnd (bpDecode Config.block s.llrAt s.cfg.maxIter.toNat)
      (s.accept .bpdDecode .fecdec)) := by
  obtain ⟨-, -, hq⟩ := (State.ready_iff s).1 hs
  have hstart : bpdStart Config.block (s.accept .bpdDecode .fecdec) =
      (s.accept .bpdDecode .fecdec).startBp Config.block := if_neg hm
  obtain ⟨k, hk⟩ : ∃ k, s.cfg.maxIter.toNat = k + 1 :=
    Nat.exists_eq_succ_of_ne_zero fun h => hm (BitVec.eq_of_toNat_eq h)
  have hk' : s.cfg.maxIter.toNat = 0 + (k + 1) := by omega
  rw [exec_bpdDecode_eq_drain hs hv, hstart,
    drain_bpdTick (s := (s.accept .bpdDecode .fecdec).startBp Config.block) rfl hq hk' (by omega),
    ← bpLoop_init, hk]
  exact congrArg Host.Outcome.next (bpdEnd_congr _ _ _ _ _)

variable {t : State} (hs : s.ready = true) (hv : s.isValid .llr = true)
  (ht : exec .bpdDecode s = .next t)
include hs hv ht

/-- What BPD.DECODE leaves in the status registers and the sequencer does not depend on how it ends
(R236). -/
theorem exec_bpdDecode_status :
    t.busy = false ∧ t.done = true ∧ t.fault = false ∧ t.aborted = false ∧ t.abortReq = false ∧
      t.phase = .idle ∧ t.cidx = s.cidx ∧ t.faultInfo = s.faultInfo := by
  obtain ⟨-, hf, -⟩ := (State.ready_iff s).1 hs
  by_cases hm : s.cfg.maxIter = 0#32
  · obtain rfl := Host.Outcome.next.inj ((exec_bpdDecode_config hs hv hm).symm.trans ht)
    simp [bpdConfig, State.started, State.accept, hf]
  · obtain rfl := Host.Outcome.next.inj ((exec_bpdDecode hs hv hm).symm.trans ht)
    cases bpDecode Config.block s.llrAt s.cfg.maxIter.toNat with
    | none => simp [bpdEnd, bpdExhausted, State.accept, hf]
    | some r => simp [bpdEnd, bpdConverged, State.accept, hf]

/-- With a budget of 0 BPD.DECODE ends in the configuration error (R175). -/
theorem exec_bpdDecode_zero_budget (hm : s.cfg.maxIter = 0#32) :
    t.lastErr = 2#8 ∧ t.isValid .cw = false ∧ t.conv = false ∧ t.iter = 0#32 ∧ t.conf = 0#32 := by
  obtain rfl := Host.Outcome.next.inj ((exec_bpdDecode_config hs hv hm).symm.trans ht)
  exact ⟨rfl, State.isValid_setValid_self .., rfl, rfl, rfl⟩

/-- With the budget exhausted BPD.DECODE ends without a codeword (R175, R177, R267). -/
theorem exec_bpdDecode_exhausted (hm : s.cfg.maxIter ≠ 0#32)
    (h : bpDecode Config.block s.llrAt s.cfg.maxIter.toNat = none) :
    t.lastErr = 3#8 ∧ t.isValid .cw = false ∧ t.conv = false ∧ t.iter = s.cfg.maxIter ∧
      t.conf = 0#32 := by
  obtain rfl := Host.Outcome.next.inj ((exec_bpdDecode hs hv hm).symm.trans ht)
  rw [h]
  exact ⟨rfl, State.isValid_setValid_self .., rfl, rfl, rfl⟩

/-- On convergence BPD.DECODE ends with the codeword and the iteration it was found in (R175, R177). -/
theorem exec_bpdDecode_converged {hard : BitVec 174} {n : Nat} (hm : s.cfg.maxIter ≠ 0#32)
    (h : bpDecode Config.block s.llrAt s.cfg.maxIter.toNat = some (hard, n)) :
    t.lastErr = 0#8 ∧ t.isValid .cw = true ∧ t.cw = hard ∧ t.conv = true ∧
      t.iter = BitVec.ofNat 32 n ∧ t.conf = confidence s.cfg.maxIter n := by
  obtain rfl := Host.Outcome.next.inj ((exec_bpdDecode hs hv hm).symm.trans ht)
  rw [h]
  exact ⟨rfl, State.isValid_setValid_self .., rfl, rfl, rfl, rfl⟩

end Command

/-- ITER and CONF after convergence at an iteration of the budget (R177). -/
theorem toNat_iter_and_confidence {maxIter : Word} {n : Nat} (h1 : 1 ≤ n) (h : n ≤ maxIter.toNat) :
    (BitVec.ofNat 32 n).toNat = n ∧ (confidence maxIter n).toNat + n = maxIter.toNat + 1 := by
  have hlt := maxIter.isLt
  rw [confidence, BitVec.toNat_ofNat, BitVec.toNat_ofNat, Nat.mod_eq_of_lt (by omega),
    Nat.mod_eq_of_lt (by omega)]
  omega

/-- Settles O30: the ends of BPD.DECODE are the answers of `bp_decode`; what it leaves alone, a command
of its row and its flags leaves alone. -/
theorem bpDecodeCompletes : Obligations.BpDecodeCompletes := by
  intro s hs hv
  obtain ⟨t, ht⟩ : ∃ t, exec .bpdDecode s = .next t := ⟨_, exec_bpdDecode_eq_drain hs hv⟩
  obtain ⟨hbusy, hdone, hfault, haborted, habort, hphase, hcidx, hinfo⟩ :=
    exec_bpdDecode_status hs hv ht
  obtain ⟨hidle, -, -⟩ := (State.ready_iff s).1 hs
  have hne : Instr.bpdDecode ≠ .sysSrst := by decide
  have hframe := exec_framed hidle hne ht
  have hflags := exec_flagsFramed hidle hne ht
  have hbuffers (b : Space) (hb : b ≠ .cw) : sameBuffer b s t ∧ t.isValid b = s.isValid b := by
    obtain ⟨hsame, hvalid, -⟩ := hframe.buffers b (by simpa [touched] using hb)
    exact ⟨hsame, hvalid⟩
  have hcount (b : Space) (hb : b ∉ touched .bpdDecode) := exec_counterOf hidle hne ht hb
  refine ⟨t, ht, hbusy, hdone, hfault, hbuffers, hframe.cfg, hflags.crcOk (by decide),
    hflags.malf (by decide), haborted, habort, hphase, hcidx, hinfo,
    Option.some.inj (hcount .wave (by decide)), Option.some.inj (hcount .spec (by decide)),
    Option.some.inj (hcount .cand (by decide)), Option.some.inj (hcount .res (by decide)),
    exec_bpdDecode_zero_budget hs hv ht, fun hm => ?_⟩
  cases h : bpDecode Config.block s.llrAt s.cfg.maxIter.toNat with
  | none => exact exec_bpdDecode_exhausted hs hv ht hm h
  | some r =>
    obtain ⟨hard, n⟩ := r
    obtain ⟨herr, hvalid, hcw, hconv, hiter, hconf⟩ := exec_bpdDecode_converged hs hv ht hm h
    obtain ⟨-, h1, hmax⟩ := bpDecode_eq_some h
    obtain ⟨hn, hsum⟩ := toNat_iter_and_confidence h1 hmax
    exact ⟨herr, hvalid, hcw, hconv, h1, hmax, hiter ▸ hn, hconf ▸ hsum⟩

/-- Settles O47: `bp_decode` answers a hard decision only when it is a codeword, and BPD.DECODE sets
FLAGS.CONV only on such an answer. -/
theorem convergedResultIsCodeword : Obligations.ConvergedResultIsCodeword := by
  have hcodeword {c : Config} (hc : c.Lawful) {llr : Nat → Int} {maxIter n : Nat} {x : BitVec 174}
      (h : bpDecode c llr maxIter = some (x, n)) :
      isCodeword c x = true ∧ fecEncode c (slice x 0 91) = x := by
    obtain ⟨hx, -, -⟩ := bpDecode_eq_some h
    exact ⟨hx, (isCodeword_iff_fecEncode hc x).1 hx⟩
  refine ⟨fun c hc llr maxIter n x => hcodeword hc, fun s hs hv => ?_⟩
  obtain ⟨t, ht⟩ : ∃ t, exec .bpdDecode s = .next t := ⟨_, exec_bpdDecode_eq_drain hs hv⟩
  refine ⟨t, ht, fun hconv => ?_⟩
  by_cases hm : s.cfg.maxIter = 0#32
  · obtain ⟨-, -, hnot, -⟩ := exec_bpdDecode_zero_budget hs hv ht hm
    simp [hnot] at hconv
  cases h : bpDecode Config.block s.llrAt s.cfg.maxIter.toNat with
  | none =>
    obtain ⟨-, -, hnot, -⟩ := exec_bpdDecode_exhausted hs hv ht hm h
    simp [hnot] at hconv
  | some r =>
    obtain ⟨-, hvalid, hcw, -⟩ := exec_bpdDecode_converged hs hv ht hm h
    exact ⟨hvalid, hcw ▸ hcodeword Config.block_lawful h⟩

/-- Settles O48: the hard decision of noiseless reliabilities is the codeword itself. -/
theorem noiselessDecodeConvergesAtOnce : Obligations.NoiselessDecodeConvergesAtOnce := by
  intro x amp hx hamp
  have hdecode (llr : Nat → Int) (maxIter : Nat) (hmax : 1 ≤ maxIter)
      (hllr : ∀ n < 174, llr n = if x.getMsbD n then -amp else amp) :
      bpDecode Config.block llr maxIter = some (x, 1) :=
    bpDecode_of_hard_codeword hx (decide_noiseless hamp hllr) hmax
  refine ⟨hdecode, fun s hs hv hm hllr => ?_⟩
  obtain ⟨t, ht⟩ : ∃ t, exec .bpdDecode s = .next t := ⟨_, exec_bpdDecode_eq_drain hs hv⟩
  have hmax : 1 ≤ s.cfg.maxIter.toNat :=
    Nat.one_le_iff_ne_zero.2 fun h => hm (BitVec.eq_of_toNat_eq h)
  obtain ⟨-, -, hcw, hconv, hiter, hconf⟩ :=
    exec_bpdDecode_converged hs hv ht hm (hdecode _ _ hmax hllr)
  obtain ⟨-, hsum⟩ := toNat_iter_and_confidence le_rfl hmax
  exact ⟨t, ht, hconv, hcw, hiter, hconf.trans (BitVec.eq_of_toNat_eq (by omega))⟩

end Sys2Proof.Machine
end

section
/-!
PROOFS. The modulator (44_modulator.md): the 58 data positions that the synchronization blocks leave
free, the codeword read back from the symbols at them, and what MOD.MAP and MOD.SYNTH do on a ready
block.
-/

namespace Sys2Proof.Machine

/-! ### Synchronization positions and data positions -/

/-- The indices that some synchronization block covers (R192). -/
def syncPositions (c : Config) : Finset Nat :=
  (Finset.range 3).biUnion fun b => Finset.Ico (c.syncPos b) (c.syncPos b + 7)

theorem mem_syncPositions {c : Config} {p : Nat} :
    p ∈ syncPositions c ↔ ∃ b < 3, c.syncPos b ≤ p ∧ p < c.syncPos b + 7 := by
  simp [syncPositions]

theorem syncBlockAt_eq_none_iff {c : Config} {p : Nat} :
    syncBlockAt c p = none ↔ p ∉ syncPositions c := by
  simp [syncBlockAt, mem_syncPositions]

theorem mem_dataPositions {c : Config} {p : Nat} :
    p ∈ dataPositions c ↔ p < 79 ∧ syncBlockAt c p = none := by
  simp [dataPositions]

theorem nodup_dataPositions (c : Config) : (dataPositions c).Nodup := List.nodup_range.filter _

theorem toFinset_dataPositions (c : Config) :
    (dataPositions c).toFinset = Finset.range 79 \ syncPositions c := by
  ext p
  rw [List.mem_toFinset, mem_dataPositions, syncBlockAt_eq_none_iff, Finset.mem_sdiff,
    Finset.mem_range]

section Lawful

variable {c : Config} (hc : c.Lawful)
include hc

/-- A block begins after the blocks before it have ended (R192). -/
theorem syncPos_add_le {a b : Nat} (hab : a < b) (hb : b < 3) :
    c.syncPos a + 7 ≤ c.syncPos b := by
  obtain ⟨h01, h12, -⟩ := hc.syncOrder
  obtain ⟨rfl, rfl⟩ | ⟨rfl, rfl⟩ | ⟨rfl, rfl⟩ :
      (a = 0 ∧ b = 1) ∨ (a = 0 ∧ b = 2) ∨ (a = 1 ∧ b = 2) := by omega
  · exact h01
  · omega
  · exact h12

/-- Each block ends inside the 79 symbols (R192). -/
theorem syncPos_add_le_length {b : Nat} (hb : b < 3) : c.syncPos b + 7 ≤ 79 := by
  obtain ⟨-, -, hend⟩ := hc.syncOrder
  rcases Nat.lt_or_eq_of_le (Nat.le_of_lt_succ hb) with h | rfl
  · have := syncPos_add_le hc h (by decide)
    omega
  · exact hend

/-- A block covers its own positions and no earlier block does (R192). -/
theorem syncBlockAt_syncPos_add {b k : Nat} (hb : b < 3) (hk : k < 7) :
    syncBlockAt c (c.syncPos b + k) = some b := by
  refine List.find?_range_eq_some.2 ⟨by simp [hk], List.mem_range.2 hb, fun a ha => ?_⟩
  have := syncPos_add_le hc ha hb
  simp only [Bool.not_eq_true', decide_eq_false_iff_not]
  omega

theorem syncPositions_subset : syncPositions c ⊆ Finset.range 79 := by
  intro p hp
  obtain ⟨b, hb, -, hlt⟩ := mem_syncPositions.1 hp
  exact Finset.mem_range.2 (hlt.trans_le (syncPos_add_le_length hc hb))

/-- The three blocks of seven do not overlap, so they cover 21 positions (R192). -/
theorem card_syncPositions : (syncPositions c).card = 21 := by
  rw [syncPositions, Finset.card_biUnion]
  · simp
  · intro a ha b hb hne
    simp only [Finset.coe_range, Set.mem_Iio] at ha hb
    refine Finset.disjoint_left.2 fun p hpa hpb => ?_
    rw [Finset.mem_Ico] at hpa hpb
    rcases Nat.lt_or_gt_of_ne hne with h | h
    · have := syncPos_add_le hc h hb
      omega
    · have := syncPos_add_le hc h ha
      omega

/-- There are 58 data positions (R194). -/
theorem length_dataPositions : (dataPositions c).length = 58 := by
  rw [← List.toFinset_card_of_nodup (nodup_dataPositions c), toFinset_dataPositions,
    Finset.card_sdiff_of_subset (syncPositions_subset hc), card_syncPositions hc, Finset.card_range]

theorem dataPos_eq_getElem {d : Nat} (hd : d < 58) :
    dataPos c d = (dataPositions c)[d]'(by rwa [length_dataPositions hc]) :=
  List.getD_eq_getElem _ _ _

theorem syncBlockAt_dataPos {d : Nat} (hd : d < 58) : syncBlockAt c (dataPos c d) = none := by
  rw [dataPos_eq_getElem hc hd]
  exact (mem_dataPositions.1 (List.getElem_mem _)).2

/-- The data symbol that sits at `DATAPOS[d]` is number `d` (R194). -/
theorem idxOf_dataPos {d : Nat} (hd : d < 58) : (dataPositions c).idxOf (dataPos c d) = d := by
  rw [dataPos_eq_getElem hc hd]
  exact (nodup_dataPositions c).idxOf_getElem _ _

/-! ### The symbols -/

/-- At a synchronization position the symbol is the block's tone, whatever the codeword (R195). -/
theorem symbolAt_syncPos_add (x : BitVec 174) {b k : Nat} (hb : b < 3) (hk : k < 7) :
    symbolAt c x (c.syncPos b + k) = c.sync b k := by
  rw [symbolAt, syncBlockAt_syncPos_add hc hb hk]
  exact congrArg (c.sync b) (Nat.add_sub_cancel_left _ _)

/-- At a data position the symbol is the Gray tone of the codeword's group (R195). -/
theorem symbolAt_dataPos (x : BitVec 174) {d : Nat} (hd : d < 58) :
    symbolAt c x (dataPos c d) = c.gray (symbolGroup x d) := by
  rw [symbolAt, syncBlockAt_dataPos hc hd]
  exact congrArg (fun n => c.gray (symbolGroup x n)) (idxOf_dataPos hc hd)

/-- GRAYINV undoes ROM.GRAY, which is a permutation (R193). -/
theorem grayInv_gray (v : Tone) : c.grayInv (c.gray v) = v := by
  rw [Config.grayInv]
  cases h : ((List.range 8).map (BitVec.ofNat 3)).find? fun w => c.gray w == c.gray v with
  | none =>
    have hv : v ∈ (List.range 8).map (BitVec.ofNat 3) :=
      List.mem_map.2 ⟨v.toNat, List.mem_range.2 v.isLt, BitVec.ofNat_toNat _ v⟩
    simpa using List.find?_eq_none.1 h v hv
  | some w => exact hc.grayInjective w v (by simpa using List.find?_some h)

/-- GRAYINV of a data symbol is the codeword's group (R196). -/
theorem grayInv_symbolAt_dataPos (x : BitVec 174) {d : Nat} (hd : d < 58) :
    c.grayInv (symbolAt c x (dataPos c d)) = symbolGroup x d := by
  rw [symbolAt_dataPos hc x hd, grayInv_gray hc]

end Lawful

/-- The 58 groups make up the codeword: bit `i` is bit `i % 3` of group `i / 3` (R195). -/
theorem eq_of_symbolGroups {x y : BitVec 174}
    (h : ∀ d < 58, symbolGroup x d = symbolGroup y d) : x = y := by
  have hbit (z : BitVec 174) {i : Nat} (hi : i < 174) :
      (symbolGroup z (i / 3)).getMsbD (i % 3) = z.getMsbD i := by
    rw [symbolGroup, getMsbD_slice _ _ _ _ (by omega), Nat.div_add_mod]
    simp [Nat.mod_lt]
  refine ext_msb fun i hi => ?_
  rw [← hbit x hi, ← hbit y hi, h (i / 3) (by omega)]

/-- Settles O51: GRAYINV gives each group of the codeword back, and the groups are the codeword. -/
theorem symbolsRecoverCodeword : Obligations.SymbolsRecoverCodeword := by
  have hc := Config.block_lawful
  refine ⟨fun x d hd => (grayInv_symbolAt_dataPos hc x hd).symm, fun x y hne => ?_,
    fun x y b k hb hk => ?_⟩
  · by_contra! hsame
    refine hne (eq_of_symbolGroups fun d hd => ?_)
    rw [← grayInv_symbolAt_dataPos hc x hd, hsame d hd, grayInv_symbolAt_dataPos hc y hd]
  · have hsync (z : BitVec 174) := symbolAt_syncPos_add hc z hb hk
    exact ⟨hsync x, (hsync x).trans (hsync y).symm⟩

/-! ### The two commands -/

/-- MOD.MAP on a ready block with a codeword (R195). -/
theorem exec_modMap {s : State} (hs : s.ready = true) (hv : s.isValid .cw = true) :
    exec .modMap s = .next (((s.mapSymbols Config.block).setValid .sym true).completed .ok) := by
  have hcheck : modMapCheck s = none := (s.firstInvalid_eq_none _).2 (by simpa using hv)
  exact congrArg Host.Outcome.next (runUnit_of_ready hs hcheck)

/-- MOD.SYNTH on a ready block with symbols comes to its body (R198). -/
theorem exec_modSynth {s : State} (hs : s.ready = true) (hv : s.isValid .sym = true) :
    exec .modSynth s = .next (modSynthBody Config.block (s.started .modSynth .synth)) := by
  have hcheck : modSynthCheck s = none := (s.firstInvalid_eq_none _).2 (by simpa using hv)
  exact congrArg Host.Outcome.next (runUnit_of_ready hs hcheck)

theorem modSynthBody_of_none {c : Config} {s : State} (h : waveLength c s.cfg.fs = none) :
    modSynthBody c s = (s.discard .wave).complete .config := by
  rw [modSynthBody, h]

theorem modSynthBody_of_some {c : Config} {s : State} {n : Nat}
    (h : waveLength c s.cfg.fs = some n) : modSynthBody c s = (s.putWave c n).complete .ok := by
  rw [modSynthBody, h]

/-- MOD.SYNTH discards WAVE where the sample rate gives no waveform that fits (R198). -/
theorem exec_modSynth_config {s : State} (hs : s.ready = true) (hv : s.isValid .sym = true)
    (h : waveLength Config.block s.cfg.fs = none) :
    exec .modSynth s = .next ((s.discard .wave).completed .config) :=
  (exec_modSynth hs hv).trans
    (congrArg Host.Outcome.next (modSynthBody_of_none (s := s.started .modSynth .synth) h))

/-- MOD.SYNTH stores the waveform of the symbols in WAVE (R198). -/
theorem exec_modSynth_waveform {s : State} {n : Nat} (hs : s.ready = true)
    (hv : s.isValid .sym = true) (h : waveLength Config.block s.cfg.fs = some n) :
    exec .modSynth s = .next ((s.putWave Config.block n).completed .ok) :=
  (exec_modSynth hs hv).trans
    (congrArg Host.Outcome.next (modSynthBody_of_some (s := s.started .modSynth .synth) h))

/-- Settles O31: each of the two makes its one internal step; MOD.SYNTH has one outcome for a sample
rate with a waveform that fits and one for a sample rate without. -/
theorem modulatorCommandsComplete : Obligations.ModulatorCommandsComplete := by
  refine fun s hs => ⟨fun hv => ?_, fun hv => ?_⟩
  · exact ⟨_, exec_modMap hs hv, fun p hp => s.mapSymbols_rd Config.block hp, rfl⟩
  · cases h : waveLength Config.block s.cfg.fs with
    | none => exact ⟨_, exec_modSynth_config hs hv h, rfl⟩
    | some n =>
      exact ⟨_, exec_modSynth_waveform hs hv h, waveLength_toNat Config.block_lawful h,
        fun i hi => s.putWave_rd Config.block n hi, rfl⟩

end Sys2Proof.Machine
end

section
/-!
PROOFS. The synchronizer (45_synchronizer.md): the list of kept elements that a greedy walk leaves,
the ranked and merged candidates as such a list, and what SYN.BUILD and SYN.SEARCH do on a ready
block.
-/

namespace Sys2Proof.Machine

/-! ### A greedy walk over a list -/

section Greedy

variable {α : Type} {dup : α → α → Bool} {l : List α} {a : α}

/-- The walk of R215 over any list: an element is kept unless a kept one makes it a duplicate. -/
def greedyKeep (dup : α → α → Bool) (l : List α) : List α :=
  l.foldl (fun kept a => if kept.any (dup a) then kept else kept ++ [a]) []

theorem greedyKeep_append_singleton (dup : α → α → Bool) (l : List α) (a : α) :
    greedyKeep dup (l ++ [a]) =
      if (greedyKeep dup l).any (dup a) then greedyKeep dup l else greedyKeep dup l ++ [a] := by
  simp [greedyKeep, List.foldl_append]

theorem greedyKeep_sublist (dup : α → α → Bool) (l : List α) : (greedyKeep dup l).Sublist l := by
  induction l using List.reverseRecOn with
  | nil => exact List.Sublist.refl _
  | append_singleton l a ih =>
    rw [greedyKeep_append_singleton]
    split
    · exact ih.trans (List.sublist_append_left _ _)
    · exact ih.append_right _

/-- No kept element is a duplicate of one kept before it. -/
theorem greedyKeep_pairwise (dup : α → α → Bool) (l : List α) :
    (greedyKeep dup l).Pairwise fun x y => dup y x = false := by
  induction l using List.reverseRecOn with
  | nil => exact List.Pairwise.nil
  | append_singleton l a ih =>
    rw [greedyKeep_append_singleton]
    split
    · exact ih
    · rename_i hnone
      refine List.pairwise_append.2 ⟨ih, List.pairwise_singleton _ _, fun x hx y hy => ?_⟩
      rw [List.mem_singleton.1 hy]
      simpa using fun h => hnone (List.any_eq_true.2 ⟨x, hx, h⟩)

/-- What is dropped is a duplicate of an element kept before it. -/
theorem exists_mem_greedyKeep {R : α → α → Prop} (hl : l.Pairwise R) (ha : a ∈ l) :
    ∃ x ∈ greedyKeep dup l, x = a ∨ (R x a ∧ dup a x = true) := by
  induction l using List.reverseRecOn with
  | nil => simp at ha
  | append_singleton l b ih =>
    obtain ⟨hl, -, hb⟩ := List.pairwise_append.1 hl
    rw [greedyKeep_append_singleton]
    rcases List.mem_append.1 ha with ha | ha
    · obtain ⟨x, hx, h⟩ := ih hl ha
      refine ⟨x, ?_, h⟩
      split
      · exact hx
      · exact List.mem_append_left _ hx
    · obtain rfl := List.mem_singleton.1 ha
      split
      · rename_i hany
        obtain ⟨x, hx, hdup⟩ := List.any_eq_true.1 hany
        have hxl : x ∈ l := (greedyKeep_sublist dup l).subset hx
        exact ⟨x, hx, .inr ⟨hb x hxl a (List.mem_singleton_self a), hdup⟩⟩
      · exact ⟨a, by simp, .inl rfl⟩

/-- What a limit of `n` elements cuts off comes after `n` others. -/
theorem mem_take_or_forall_mem_take {R : α → α → Prop} (hl : l.Pairwise R) (ha : a ∈ l) (n : Nat) :
    a ∈ l.take n ∨ ((l.take n).length = n ∧ ∀ x ∈ l.take n, R x a) := by
  rw [← List.take_append_drop n l] at hl ha
  rcases List.mem_append.1 ha with h | h
  · exact .inl h
  · refine .inr ⟨?_, fun x hx => (List.pairwise_append.1 hl).2.2 x hx a h⟩
    have hpos := List.length_pos_of_mem h
    rw [List.length_drop] at hpos
    rw [List.length_take]
    omega

end Greedy

/-! ### Rank order and near-duplicates -/

section Rank

variable {r : CfgRegs} {x y z : Candidate}

/-- Strictly before in rank order (R214). -/
def Candidate.before (x y : Candidate) : Prop :=
  y.score < x.score ∨ (x.score = y.score ∧ (x.t < y.t ∨ (x.t = y.t ∧ x.f < y.f)))

theorem Candidate.before_trans (hxy : x.before y) (hyz : y.before z) : x.before z := by
  unfold Candidate.before at *
  omega

theorem Candidate.before_trichotomy (x y : Candidate) : x.before y ∨ x = y ∨ y.before x := by
  rcases x with ⟨t, f, score⟩
  rcases y with ⟨t', f', score'⟩
  simp only [Candidate.before, Candidate.mk.injEq]
  omega

/-- The sort's order is the strict one or equality: no two positions tie (R214). -/
theorem rankBefore_iff : rankBefore x y = true ↔ x = y ∨ x.before y := by
  rcases x with ⟨t, f, score⟩
  rcases y with ⟨t', f', score'⟩
  simp only [rankBefore, Candidate.before, decide_eq_true_eq, Candidate.mk.injEq]
  omega

theorem rankBefore_total : Std.Total fun x y : Candidate => rankBefore x y = true where
  total x y := by
    simp only [rankBefore_iff]
    rcases x.before_trichotomy y with h | h | h
    · exact .inl (.inr h)
    · exact .inl (.inl h)
    · exact .inr (.inr h)

theorem rankBefore_trans : IsTrans Candidate fun x y => rankBefore x y = true where
  trans x y z := by
    simp only [rankBefore_iff]
    rintro (rfl | hxy) (rfl | hyz)
    · exact .inl rfl
    · exact .inr hyz
    · exact .inr hxy
    · exact .inr (Candidate.before_trans hxy hyz)

theorem nearDuplicate_iff : nearDuplicate r x y = true ↔
    distance x.t y.t ≤ r.mergeDt.toNat ∧ distance x.f y.f ≤ r.mergeDf.toNat := decide_eq_true_iff

theorem distance_comm (a b : Nat) : distance a b = distance b a := Nat.add_comm _ _

theorem nearDuplicate_comm (r : CfgRegs) (x y : Candidate) :
    nearDuplicate r x y = nearDuplicate r y x := by
  rw [nearDuplicate, nearDuplicate, distance_comm x.t, distance_comm x.f]

theorem nearDuplicate_self (r : CfgRegs) (x : Candidate) : nearDuplicate r x x = true := by
  simp [nearDuplicate_iff, distance]

theorem mergeRanked_eq_greedyKeep (r : CfgRegs) : mergeRanked r = greedyKeep (nearDuplicate r) :=
  rfl

end Rank

/-! ### The positions searched and their scores -/

section Search

variable {c : Config} {s s' : State} {k : Candidate}

theorem mem_range'_iff {a b n : Nat} : n ∈ List.range' a (b + 1 - a) ↔ a ≤ n ∧ n ≤ b := by
  rw [List.mem_range'_1]
  omega

/-- The search runs over a rectangle (R211). -/
theorem mem_searchPositions {r : CfgRegs} {nt t f : Nat} : (t, f) ∈ searchPositions c r nt ↔
    (r.tmin.toNat ≤ t ∧ t ≤ searchTHi r nt) ∧ r.fmin.toNat ≤ f ∧ f ≤ searchFHi c r := by
  simp only [searchPositions, List.mem_flatMap, List.mem_map, mem_range'_iff, Prod.mk.injEq]
  constructor
  · rintro ⟨t, ht, f, hf, rfl, rfl⟩
    exact ⟨ht, hf⟩
  · rintro ⟨ht, hf⟩
    exact ⟨t, ht, f, hf, rfl, rfl⟩

/-- The list L holds one record for each position above the threshold (R212). -/
theorem mem_aboveThreshold : k ∈ aboveThreshold c s ↔
    (k.t, k.f) ∈ searchPositions c s.cfg s.nt.toNat ∧ k.score = syncScore c s k.t k.f ∧
      s.cfg.thresh.toNat < k.score := by
  simp only [aboveThreshold, List.mem_filter, List.mem_map, decide_eq_true_eq, Prod.exists]
  constructor
  · rintro ⟨⟨t, f, hpos, rfl⟩, hthresh⟩
    exact ⟨hpos, rfl, hthresh⟩
  · rintro ⟨hpos, hscore, hthresh⟩
    exact ⟨⟨k.t, k.f, hpos, by rw [← hscore]⟩, hthresh⟩

/-- The greatest score is that of 21 magnitudes of 65535 (R210). -/
theorem syncScore_le (c : Config) (s : State) (t f : Nat) : syncScore c s t f ≤ 21 * 65535 := by
  have hblock (b : Nat) : ((List.range 7).map fun j =>
      (s.specAt c (t + c.syncPos b + j) (f + (c.sync b j).toNat)).toNat).sum ≤ 7 * 65535 := by
    refine (List.sum_le_card_nsmul _ 65535 fun v hv => ?_).trans_eq (by simp)
    obtain ⟨j, -, rfl⟩ := List.mem_map.1 hv
    exact Nat.le_of_lt_succ (BitVec.isLt _)
  refine (List.sum_le_card_nsmul _ (7 * 65535) fun v hv => ?_).trans_eq (by simp)
  obtain ⟨b, -, rfl⟩ := List.mem_map.1 hv
  exact hblock b

/-- Time offset, frequency offset and score of a candidate fit the words of its record (R104). -/
theorem fields_lt_of_mem_aboveThreshold (hk : k ∈ aboveThreshold c s) :
    k.t < 2 ^ 32 ∧ k.f < 2 ^ 32 ∧ k.score < 2 ^ 32 := by
  obtain ⟨hpos, hscore, -⟩ := mem_aboveThreshold.1 hk
  obtain ⟨⟨-, ht⟩, -, hf⟩ := mem_searchPositions.1 hpos
  have htmax := ht.trans (Nat.min_le_left _ _)
  have hfmax := hf.trans (Nat.min_le_left _ _)
  have hmax := syncScore_le c s k.t k.f
  omega

/-! ### The ranked, merged, limited list -/

/-- The list L in rank order (R214). -/
def rankedCandidates (c : Config) (s : State) : List Candidate :=
  (aboveThreshold c s).insertionSort fun x y => rankBefore x y = true

theorem searchResult_eq_take (c : Config) (s : State) : searchResult c s =
    (greedyKeep (nearDuplicate s.cfg) (rankedCandidates c s)).take c.maxCand := by
  rw [searchResult, mergeRanked_eq_greedyKeep, rankedCandidates]

theorem mem_rankedCandidates : k ∈ rankedCandidates c s ↔ k ∈ aboveThreshold c s :=
  List.mem_insertionSort _

theorem rankedCandidates_pairwise (c : Config) (s : State) :
    (rankedCandidates c s).Pairwise fun x y => x = y ∨ x.before y := by
  have := rankBefore_total
  have := rankBefore_trans
  exact (List.pairwise_insertionSort _ (aboveThreshold c s)).imp rankBefore_iff.1

/-- The merged list is strictly ranked, and no two of its candidates are near-duplicates: a
candidate is near itself, so none is kept twice (R214, R215). -/
theorem merged_pairwise (c : Config) (s : State) :
    (greedyKeep (nearDuplicate s.cfg) (rankedCandidates c s)).Pairwise
      fun x y => x.before y ∧ nearDuplicate s.cfg x y = false := by
  refine (((rankedCandidates_pairwise c s).sublist (greedyKeep_sublist _ _)).and
    (greedyKeep_pairwise _ _)).imp ?_
  rintro x y ⟨rfl | hbefore, hnear⟩
  · rw [nearDuplicate_self] at hnear
    exact absurd hnear (by decide)
  · exact ⟨hbefore, (nearDuplicate_comm _ _ _).trans hnear⟩

theorem searchResult_pairwise (c : Config) (s : State) : (searchResult c s).Pairwise
    fun x y => x.before y ∧ nearDuplicate s.cfg x y = false :=
  (merged_pairwise c s).sublist (List.take_sublist _ _)

theorem mem_aboveThreshold_of_mem_searchResult (hk : k ∈ searchResult c s) :
    k ∈ aboveThreshold c s :=
  mem_rankedCandidates.1 ((greedyKeep_sublist _ _).subset (List.mem_of_mem_take hk))

/-- A candidate is stored, or near a stored one that ranks before it, or comes after a full list
(R215, R216). -/
theorem searchResult_covers (hk : k ∈ aboveThreshold c s) :
    (∃ x ∈ searchResult c s, x = k ∨ (x.before k ∧ nearDuplicate s.cfg k x = true)) ∨
      ((searchResult c s).length = c.maxCand ∧ ∀ x ∈ searchResult c s, x.before k) := by
  obtain ⟨y, hy, hyk⟩ := exists_mem_greedyKeep (dup := nearDuplicate s.cfg)
    (rankedCandidates_pairwise c s) (mem_rankedCandidates.2 hk)
  have hyk : y = k ∨ (y.before k ∧ nearDuplicate s.cfg k y = true) := by
    rcases hyk with rfl | ⟨rfl | hbefore, hnear⟩
    · exact .inl rfl
    · exact .inl rfl
    · exact .inr ⟨hbefore, hnear⟩
  rw [searchResult_eq_take]
  rcases mem_take_or_forall_mem_take (merged_pairwise c s) hy c.maxCand with hmem | ⟨hfull, hall⟩
  · exact .inl ⟨y, hmem, hyk⟩
  · refine .inr ⟨hfull, fun x hx => ?_⟩
    obtain ⟨hxy, -⟩ := hall x hx
    rcases hyk with rfl | ⟨hyk, -⟩
    · exact hxy
    · exact Candidate.before_trans hxy hyk

/-! ### What the search reads -/

/-- A position searched, with the 79 symbols and the 8 tones from it on, lies in the spectrogram
(R211). -/
theorem mem_searchPositions_iff_of_le {r : CfgRegs} {nt t f : Nat} (hnt : 79 ≤ nt)
    (hnf : 8 ≤ c.nf) :
    (t, f) ∈ searchPositions c r nt ↔ r.tmin.toNat ≤ t ∧ t ≤ r.tmax.toNat ∧ t + 79 ≤ nt ∧
      r.fmin.toNat ≤ f ∧ f ≤ r.fmax.toNat ∧ f + 8 ≤ c.nf := by
  rw [mem_searchPositions, searchTHi, searchFHi]
  omega

/-- The score of a position reads the spectrogram inside its NT × NF magnitudes (R209, R210). -/
theorem syncScore_congr (hc : c.Lawful) {nt t f : Nat} (ht : t + 79 ≤ nt) (hf : f + 8 ≤ c.nf)
    (hspec : ∀ i < nt * c.nf, s'.spec.rd i = s.spec.rd i) :
    syncScore c s' t f = syncScore c s t f := by
  refine congrArg List.sum (List.map_congr_left fun b hb => congrArg List.sum
    (List.map_congr_left fun j hj => congrArg BitVec.toNat (hspec _ (mul_add_lt ?_ ?_))))
  · have hend := syncPos_add_le_length hc (List.mem_range.1 hb)
    have hj := List.mem_range.1 hj
    omega
  · have htone := (c.sync b j).isLt
    omega

/-- Two states agree on all that the search reads: the spectrogram, NT and the seven configuration
registers of R217. -/
structure State.sameSearch (c : Config) (s s' : State) : Prop where
  nt : s'.nt = s.nt
  spec : ∀ i < s.nt.toNat * c.nf, s'.spec.rd i = s.spec.rd i
  tmin : s'.cfg.tmin = s.cfg.tmin
  tmax : s'.cfg.tmax = s.cfg.tmax
  fmin : s'.cfg.fmin = s.cfg.fmin
  fmax : s'.cfg.fmax = s.cfg.fmax
  thresh : s'.cfg.thresh = s.cfg.thresh
  mergeDt : s'.cfg.mergeDt = s.cfg.mergeDt
  mergeDf : s'.cfg.mergeDf = s.cfg.mergeDf

theorem State.sameSearch.searchCfgBad_eq (h : s.sameSearch c s') :
    searchCfgBad c s'.cfg s'.nt.toNat = searchCfgBad c s.cfg s.nt.toNat := by
  rw [searchCfgBad, searchCfgBad, decide_eq_decide]
  simp only [searchTHi, searchFHi, h.nt, h.tmin, h.tmax, h.fmin, h.fmax, h.thresh]

theorem State.sameSearch.searchPositions_eq (h : s.sameSearch c s') :
    searchPositions c s'.cfg s'.nt.toNat = searchPositions c s.cfg s.nt.toNat := by
  simp only [searchPositions, searchTHi, searchFHi, h.nt, h.tmin, h.tmax, h.fmin, h.fmax]

theorem State.sameSearch.nearDuplicate_eq (h : s.sameSearch c s') :
    nearDuplicate s'.cfg = nearDuplicate s.cfg := by
  funext x y
  rw [nearDuplicate, nearDuplicate, h.mergeDt, h.mergeDf]

theorem State.sameSearch.aboveThreshold_eq (h : s.sameSearch c s') (hc : c.Lawful)
    (hnt : 79 ≤ s.nt.toNat) : aboveThreshold c s' = aboveThreshold c s := by
  rw [aboveThreshold, aboveThreshold, h.searchPositions_eq, h.thresh]
  congr 1
  refine List.map_congr_left fun ⟨t, f⟩ hpos => ?_
  obtain ⟨-, -, ht, -, -, hf⟩ := (mem_searchPositions_iff_of_le hnt hc.binsCap).1 hpos
  rw [syncScore_congr hc ht hf h.spec]

theorem State.sameSearch.searchResult_eq (h : s.sameSearch c s') (hc : c.Lawful)
    (hnt : 79 ≤ s.nt.toNat) : searchResult c s' = searchResult c s := by
  rw [searchResult_eq_take, searchResult_eq_take, rankedCandidates, rankedCandidates,
    h.aboveThreshold_eq hc hnt, h.nearDuplicate_eq]

theorem searchCfgBad_eq_false_iff {r : CfgRegs} {nt : Nat} : searchCfgBad c r nt = false ↔
    79 ≤ nt ∧ r.tmin.toNat ≤ searchTHi r nt ∧ r.fmin.toNat ≤ searchFHi c r ∧
      r.thresh.toNat < 21 * 65535 := by
  simp [searchCfgBad]

/-! ### The stored records -/

theorem toNat_ncand_searchResult (hc : c.Lawful) (u : State) :
    (u.putCandidates (searchResult c s)).ncand.toNat = (searchResult c s).length := by
  obtain ⟨-, -, hcap⟩ := hc.candCap
  have hlen := searchResult_length_le c s
  rw [State.putCandidates_ncand, BitVec.toNat_ofNat]
  exact Nat.mod_eq_of_lt (by omega)

/-- CAND reads back as the list of the search (R104, R212). -/
theorem candidate_searchResult (u : State) {i : Nat} (hi : i < (searchResult c s).length) :
    (u.putCandidates (searchResult c s)).candidate i = (searchResult c s)[i] := by
  obtain ⟨ht, hf, hscore⟩ := fields_lt_of_mem_aboveThreshold
    (mem_aboveThreshold_of_mem_searchResult (List.getElem_mem hi))
  exact State.candidate_putCandidates _ u hi ht hf hscore

/-- The records of the same list hold the same words, whatever else the states hold (R104). -/
theorem putCandidates_rd_congr (l : List Candidate) (u u' : State) {i : Nat}
    (hi : i < 4 * l.length) :
    (u.putCandidates l).cand.rd i = (u'.putCandidates l).cand.rd i := by
  have hdiv : i / 4 < l.length := by omega
  have hmod : i % 4 < 4 := by omega
  rw [← Nat.div_add_mod i 4, State.putCandidates_rd l u hdiv hmod,
    State.putCandidates_rd l u' hdiv hmod]

end Search

/-! ### The two commands -/

section Commands

variable {s : State}

/-- Valid samples of a length that fits pass SYN.BUILD's checks (R208). -/
theorem samplesCheck_eq_none {c : Config} (hv : s.isValid .samp = true)
    (h1 : 1 ≤ s.cfg.nsamp.toNat) (hmax : s.cfg.nsamp.toNat ≤ c.maxSamples) :
    samplesCheck c s = none := by
  have hsrc : s.firstInvalid [.samp] = none := (s.firstInvalid_eq_none _).2 (by simpa using hv)
  rw [samplesCheck, hsrc]
  exact if_neg (by omega)

/-- SYN.BUILD on a ready block with samples comes to its body (R208). -/
theorem exec_synBuild (hs : s.ready = true) (hv : s.isValid .samp = true)
    (h1 : 1 ≤ s.cfg.nsamp.toNat) (hmax : s.cfg.nsamp.toNat ≤ Config.block.maxSamples) :
    exec .synBuild s = .next (synBuildBody Config.block (s.started .synBuild .build)) :=
  congrArg Host.Outcome.next (runUnit_of_ready hs (samplesCheck_eq_none hv h1 hmax))

theorem synBuildBody_of_none {c : Config} (h : sps c s.cfg.fs = none) :
    synBuildBody c s = s.dropSession.complete .config := by
  rw [synBuildBody, h]

theorem synBuildBody_of_some {c : Config} {n : Nat} (h : sps c s.cfg.fs = some n) :
    synBuildBody c s = (s.dropSession.buildSpec c n).complete .ok := by
  rw [synBuildBody, h]

/-- SYN.BUILD only drops the old session where a symbol is not a whole number of samples (R208). -/
theorem exec_synBuild_config (hs : s.ready = true) (hv : s.isValid .samp = true)
    (h1 : 1 ≤ s.cfg.nsamp.toNat) (hmax : s.cfg.nsamp.toNat ≤ Config.block.maxSamples)
    (h : sps Config.block s.cfg.fs = none) :
    exec .synBuild s = .next (s.dropSession.completed .config) :=
  (exec_synBuild hs hv h1 hmax).trans
    (congrArg Host.Outcome.next (synBuildBody_of_none (s := s.started .synBuild .build) h))

/-- SYN.BUILD begins a session with the spectrogram of the samples (R208). -/
theorem exec_synBuild_spectrogram {n : Nat} (hs : s.ready = true) (hv : s.isValid .samp = true)
    (h1 : 1 ≤ s.cfg.nsamp.toNat) (hmax : s.cfg.nsamp.toNat ≤ Config.block.maxSamples)
    (h : sps Config.block s.cfg.fs = some n) :
    exec .synBuild s = .next ((s.dropSession.buildSpec Config.block n).completed .ok) :=
  (exec_synBuild hs hv h1 hmax).trans
    (congrArg Host.Outcome.next (synBuildBody_of_some (s := s.started .synBuild .build) h))

/-- A new session's spectrogram is that of the samples, which the session began with (R208). -/
theorem buildSpec_dropSession_rd (c : Config) (n : Nat) (s : State) {x f : Nat}
    (hx : x < s.cfg.nsamp.toNat / n) (hf : f < c.nf) :
    (s.dropSession.buildSpec c n).spec.rd (x * c.nf + f) =
      c.stft (s.samples s.cfg.nsamp.toNat) s.cfg.fs x f := by
  have hcfg : s.dropSession.cfg = s.cfg := State.discardAll_cfg s _
  have hsamples : s.dropSession.samples = s.samples := by
    funext n
    rw [State.samples, State.samples, State.dropSession,
      State.discardAll_samp_of_not_mem _ _ (by decide)]
  rw [State.buildSpec_rd c n s.dropSession (by rwa [hcfg]) hf, hcfg, hsamples]

/-- A new session has a valid spectrogram and no valid candidates or reliabilities (R208, R304). -/
theorem isValid_buildSpec_dropSession (c : Config) (n : Nat) (s : State) (b : Space) :
    (s.dropSession.buildSpec c n).isValid b =
      if b = .spec then true else s.isValid b && !([.spec, .cand, .llr].contains b) :=
  (State.isValid_setValid _ _ _ _).trans
    (congrArg (ite _ _) (State.isValid_discardAll s [.spec, .cand, .llr] b))

/-- SYN.SEARCH on a ready block with a spectrogram comes to its body (R212). -/
theorem exec_synSearch (hs : s.ready = true) (hv : s.isValid .spec = true) :
    exec .synSearch s = .next (synSearchBody Config.block (s.started .synSearch .search)) := by
  have hcheck : synSearchCheck s = none := (s.firstInvalid_eq_none _).2 (by simpa using hv)
  exact congrArg Host.Outcome.next (runUnit_of_ready hs hcheck)

/-- SYN.SEARCH discards CAND where nothing can be found (R211, R212). -/
theorem exec_synSearch_config (hs : s.ready = true) (hv : s.isValid .spec = true)
    (h : searchCfgBad Config.block s.cfg s.nt.toNat = true) :
    exec .synSearch s = .next ((s.discard .cand).completed .config) :=
  (exec_synSearch hs hv).trans (congrArg Host.Outcome.next (if_pos h))

/-- SYN.SEARCH stores the candidates of the search in CAND (R212). -/
theorem exec_synSearch_candidates (hs : s.ready = true) (hv : s.isValid .spec = true)
    (h : searchCfgBad Config.block s.cfg s.nt.toNat = false) : exec .synSearch s =
      .next ((s.putCandidates (searchResult Config.block s)).completed .ok) :=
  (exec_synSearch hs hv).trans
    (congrArg Host.Outcome.next (if_neg (by simpa using h)))

end Commands

/-- Settles O32: SYN.BUILD has one outcome for a sample rate with whole symbols and one for a sample
rate without, SYN.SEARCH one for a search with positions and one for a search without. -/
theorem synchronizerCommandsComplete : Obligations.SynchronizerCommandsComplete := by
  refine fun s hs => ⟨fun hv h1 hmax => ?_, exec_synSearch_config hs,
    fun hv hgood => ⟨_, exec_synSearch_candidates hs hv hgood, rfl⟩⟩
  cases h : sps Config.block s.cfg.fs with
  | none => exact ⟨_, exec_synBuild_config hs hv h1 hmax h, rfl⟩
  | some n =>
    have hnt : ((s.dropSession.buildSpec Config.block n).completed .ok).nt.toNat =
        s.cfg.nsamp.toNat / n := State.buildSpec_nt Config.block n s.dropSession
    have hvalid := isValid_buildSpec_dropSession Config.block n s
    exact ⟨_, exec_synBuild_spectrogram hs hv h1 hmax h, hnt,
      fun x f hx hf => buildSpec_dropSession_rd Config.block n s (hnt ▸ hx) hf, hvalid .spec,
      (hvalid .cand).trans (Bool.and_false _), (hvalid .llr).trans (Bool.and_false _), rfl, rfl⟩

/-- Settles O54: the list of the search has the properties, and CAND reads back as that list. -/
theorem searchFindsRankedCandidates : Obligations.SearchFindsRankedCandidates := by
  intro s hs hv hnt htmin hfmin hthresh before near
  have hc := Config.block_lawful
  have hgood : searchCfgBad Config.block s.cfg s.nt.toNat = false :=
    searchCfgBad_eq_false_iff.2 ⟨hnt, htmin, hfmin, hthresh⟩
  have hpos {t f : Nat} :=
    mem_searchPositions_iff_of_le (r := s.cfg) (t := t) (f := f) hnt hc.binsCap
  let l := searchResult Config.block s
  let t := (s.putCandidates l).completed .ok
  have hlen : t.ncand.toNat = l.length := toNat_ncand_searchResult hc s
  have hrec (i : Nat) (hi : i < l.length) : t.candidate i = l[i] := candidate_searchResult s hi
  refine ⟨t, exec_synSearch_candidates hs hv hgood, State.isValid_setValid_self _ _ _, rfl, ?_⟩
  rw [hlen]
  refine ⟨searchResult_length_le _ _, fun i hi => ?_, fun i j hij hj => ?_,
    fun x f htmin htmax htnt hfmin hfmax hfnf hscore => ?_⟩
  · rw [hrec i hi]
    obtain ⟨hmem, hscore, habove⟩ :=
      mem_aboveThreshold.1 (mem_aboveThreshold_of_mem_searchResult (List.getElem_mem hi))
    obtain ⟨htmin, htmax, htnt, hfmin, hfmax, hfnf⟩ := hpos.1 hmem
    exact ⟨htmin, htmax, htnt, hfmin, hfmax, hfnf, hscore, habove,
      State.putCandidates_rd l s hi (by decide)⟩
  · rw [hrec i (hij.trans hj), hrec j hj]
    obtain ⟨hbefore, hfar⟩ :=
      List.pairwise_iff_getElem.1 (searchResult_pairwise Config.block s) i j (hij.trans hj) hj hij
    exact ⟨hbefore, fun hnear => Bool.false_ne_true (hfar.symm.trans (nearDuplicate_iff.2 hnear))⟩
  · have hmem : ⟨x, f, syncScore Config.block s x f⟩ ∈ aboveThreshold Config.block s :=
      mem_aboveThreshold.2 ⟨hpos.2 ⟨htmin, htmax, htnt, hfmin, hfmax, hfnf⟩, rfl, hscore⟩
    rcases searchResult_covers hmem with ⟨y, hy, hyk⟩ | ⟨hfull, hall⟩
    · obtain ⟨i, hi, rfl⟩ := List.mem_iff_getElem.1 hy
      refine .inl ⟨i, hi, ?_⟩
      rw [hrec i hi]
      exact hyk.imp_right (And.imp_right nearDuplicate_iff.1)
    · refine .inr ⟨hfull, fun i hi => ?_⟩
      rw [hrec i hi]
      exact hall _ (List.getElem_mem hi)

/-- Settles O55: the two searches end alike, and where they store candidates they store one list. -/
theorem searchDependsOnItsInputsOnly : Obligations.SearchDependsOnItsInputsOnly := by
  intro s s' t t' hs hs' hv hv' hnt hspec htmin htmax hfmin hfmax hthresh hdt hdf ht ht'
  have hsame : s.sameSearch Config.block s' :=
    ⟨hnt, hspec, htmin, htmax, hfmin, hfmax, hthresh, hdt, hdf⟩
  have hbad' := hsame.searchCfgBad_eq
  cases hbad : searchCfgBad Config.block s.cfg s.nt.toNat with
  | true =>
    rw [exec_synSearch_config hs hv hbad, Host.Outcome.next.injEq] at ht
    rw [exec_synSearch_config hs' hv' (hbad'.trans hbad), Host.Outcome.next.injEq] at ht'
    subst ht ht'
    exact ⟨rfl, fun i hi => absurd hi (Nat.not_lt_zero i)⟩
  | false =>
    have hlist := hsame.searchResult_eq Config.block_lawful (searchCfgBad_eq_false_iff.1 hbad).1
    rw [exec_synSearch_candidates hs hv hbad, Host.Outcome.next.injEq] at ht
    rw [exec_synSearch_candidates hs' hv' (hbad'.trans hbad), hlist, Host.Outcome.next.injEq] at ht'
    subst ht ht'
    refine ⟨rfl, fun i hi => putCandidates_rd_congr _ s' s ?_⟩
    rwa [State.completed_ncand, toNat_ncand_searchResult Config.block_lawful] at hi

end Sys2Proof.Machine
end

section
/-!
PROOFS. The demodulator (46_demodulator.md): the strongest tone of each value of a Gray bit, what
follows for the LLR of that bit, and what DEM.DEMOD does on a ready block.
-/

namespace Sys2Proof.Machine

/-- The largest element of a non-empty list is an element that no other exceeds. -/
theorem isGreatest_maxOf {l : List Int} (h : l ≠ []) : IsGreatest {x | x ∈ l} (maxOf l) := by
  cases l with
  | nil => exact absurd rfl h
  | cons x xs => exact List.max?_eq_some_iff.1 List.max?_cons'

section Lawful

variable {c : Config} (hc : c.Lawful)
include hc

/-- The tone of a group carries the group's bits (R227). -/
theorem gbit_gray (v : Tone) (k : Nat) : gbit c (c.gray v).toNat k = v.getMsbD k := by
  rw [gbit, BitVec.ofNat_toNat, BitVec.setWidth_eq, grayInv_gray hc]

/-- Each bit of the group has either value at some tone (R227). -/
theorem exists_gbit_eq {k : Nat} (hk : k < 3) (b : Bool) : ∃ j < 8, gbit c j k = b := by
  cases b with
  | false => exact ⟨_, BitVec.isLt _, (gbit_gray hc 0#3 k).trans BitVec.getMsbD_zero⟩
  | true =>
    have hbit : (BitVec.allOnes 3).getMsbD k = true :=
      BitVec.getMsbD_allOnes.trans (decide_eq_true hk)
    exact ⟨_, BitVec.isLt _, (gbit_gray hc _ k).trans hbit⟩

/-- The strongest tone with a given bit is one of the tones with that bit, and no other such tone
exceeds it (R228). -/
theorem exists_strongest (e : List (List Half)) (d : Nat) {k : Nat} (hk : k < 3) (b : Bool) :
    ∃ j < 8, gbit c j k = b ∧ strongest c e d k b = c.norm e d j ∧
      ∀ j' < 8, gbit c j' k = b → c.norm e d j' ≤ c.norm e d j := by
  obtain ⟨i, hi, hib⟩ := exists_gbit_eq hc hk b
  have hne : ((List.range 8).filter fun j => gbit c j k == b).map (fun j => c.norm e d j) ≠ [] :=
    List.ne_nil_of_mem (List.mem_map_of_mem (a := i) (by simpa using ⟨hi, hib⟩))
  obtain ⟨hmem, hle⟩ := isGreatest_maxOf hne
  obtain ⟨j, hj, heq⟩ := List.mem_map.1 hmem
  obtain ⟨hj8, hjb⟩ : j < 8 ∧ gbit c j k = b := by simpa using hj
  refine ⟨j, hj8, hjb, heq.symm, fun j' hj' hb' => heq ▸ hle (List.mem_map_of_mem ?_)⟩
  simpa using ⟨hj', hb'⟩

/-- The bound on NUM.norm bounds the LLR: both terms are normalised tones (R226, R228). -/
theorem natAbs_norm_sub_norm_le (e : List (List Half)) {d j0 j1 : Nat} (hd : d < 58) (h0 : j0 < 8)
    (h1 : j1 < 8) : (c.norm e d j0 - c.norm e d j1).natAbs ≤ 2 ^ 31 - 2 := by
  have b0 := hc.normBound e d hd j0 h0
  have b1 := hc.normBound e d hd j1 h1
  omega

/-- Where one tone is strictly the strongest, the bit it carries has the greater of the two
strongest tones (R230). -/
theorem strongest_not_gbit_lt {e : List (List Half)} {d j k : Nat} (hj : j < 8)
    (hclean : ∀ j' < 8, j' ≠ j → c.norm e d j' < c.norm e d j) (hk : k < 3) :
    strongest c e d k (!gbit c j k) < strongest c e d k (gbit c j k) := by
  obtain ⟨w, hw, hwbit, hweq, -⟩ := exists_strongest hc e d hk (!gbit c j k)
  obtain ⟨r, -, -, hreq, hrmax⟩ := exists_strongest hc e d hk (gbit c j k)
  have hwj : w ≠ j := by rintro rfl; exact (Bool.eq_not_self _).1 hwbit
  calc strongest c e d k (!gbit c j k) = c.norm e d w := hweq
    _ < c.norm e d j := hclean w hw hwj
    _ ≤ c.norm e d r := hrmax j hj rfl
    _ = strongest c e d k (gbit c j k) := hreq.symm

end Lawful

/-- Settles O53: the carried bit's strongest tone wins, and which of the two terms of the LLR it is
decides the sign. -/
theorem cleanSymbolDecidesRight : Obligations.CleanSymbolDecidesRight := by
  intro c hc e d j hj hclean k hk
  have hlt := strongest_not_gbit_lt hc hj hclean hk
  cases hbit : gbit c j k with
  | false =>
    rw [hbit] at hlt
    exact sub_pos.2 hlt
  | true =>
    rw [hbit] at hlt
    exact sub_neg.2 hlt

/-! ### The command -/

section Command

variable {s : State} {cidx : Nat}

/-- A spectrogram and a candidate of that index pass DEM.DEMOD's checks (R229). -/
theorem demDemodCheck_eq_none (hspec : s.isValid .spec = true) (hcand : s.isValid .cand = true)
    (hidx : cidx < s.ncand.toNat) : demDemodCheck cidx s = none := by
  have hsrc : s.firstInvalid [.spec, .cand] = none :=
    (s.firstInvalid_eq_none _).2 (by simpa using ⟨hspec, hcand⟩)
  rw [demDemodCheck, hsrc]
  exact if_neg hidx.not_ge

/-- DEM.DEMOD stores the LLR vector of the candidate record in LLR (R229). -/
theorem exec_demDemod (hs : s.ready = true) (hspec : s.isValid .spec = true)
    (hcand : s.isValid .cand = true) (hidx : cidx < s.ncand.toNat) :
    exec (.demDemod cidx) s = .next
      (((s.putLlr Config.block (s.candidate cidx)).setValid .llr true).completed .ok) :=
  congrArg Host.Outcome.next (runUnit_of_ready hs (demDemodCheck_eq_none hspec hcand hidx))

end Command

/-- Settles O33: the one internal step writes LLR, and LLR reads back as the candidate's vector. -/
theorem demodCompletes : Obligations.DemodCompletes := by
  intro s cidx hs hspec hcand hidx
  exact ⟨_, exec_demDemod hs hspec hcand hidx,
    fun d hd k hk => State.putLlr_rd Config.block (s.candidate cidx) s hd hk, rfl⟩

/-- Settles O52: the two strongest tones are attained, and their difference fits the element. -/
theorem llrIsDifferenceOfStrongest : Obligations.LlrIsDifferenceOfStrongest := by
  intro s t cidx d k hs hspec hcand hidx ht hd hk tone
  have hc := Config.block_lawful
  let e := toneMagnitudes Config.block s (s.candidate cidx)
  obtain ⟨j0, hj0, hbit0, heq0, hmax0⟩ := exists_strongest hc e d hk false
  obtain ⟨j1, hj1, hbit1, heq1, hmax1⟩ := exists_strongest hc e d hk true
  have hbound : (tone j0 - tone j1).natAbs ≤ 2 ^ 31 - 2 := natAbs_norm_sub_norm_le hc e hd hj0 hj1
  have hllr : llrValue Config.block e d k = tone j0 - tone j1 := by rw [llrValue, heq0, heq1]
  have hstored : t.llr.rd (3 * d + k) = BitVec.ofInt 32 (tone j0 - tone j1) := by
    rw [exec_demDemod hs hspec hcand hidx, Host.Outcome.next.injEq] at ht
    rw [← hllr, ← ht]
    exact State.putLlr_rd Config.block (s.candidate cidx) s hd hk
  refine ⟨j0, j1, hj0, hj1, hbit0, hbit1, hmax0, hmax1, ?_, hbound⟩
  rw [hstored]
  exact BitVec.toInt_ofInt_eq_self (by decide) (by omega) (by omega)

end Sys2Proof.Machine
end

section
/-!
PROOFS. The system commands, a faulted block's drop of every other command, and the step on a command
word (47_sequencer.md rules R236, R256 and R257).
-/

namespace Sys2Proof.Machine

/-- A faulted block drops every command but SYS.SRST (R236, R98). -/
theorem exec_of_fault {i : Instr} {s : State} (hf : s.fault = true) (hi : i ≠ .sysSrst) :
    exec i s = .next s := by
  rw [exec_eq_meaning]
  by_cases hn : i = .sysNop
  · subst hn
    exact congrArg Host.Outcome.next (if_pos hf)
  · rw [meaning_eq_runCommand _ _ hn hi, runCommand_of_fault hf]

/-- Settles O36: the two commands complete at their acceptance, and a faulted block's drop comes before
anything else. -/
theorem systemCommandsComplete : Obligations.SystemCommandsComplete := by
  refine ⟨fun s hb hf => ?_, fun s hb => ?_, fun i s => exec_of_fault⟩
  · have hnop : sysNop s = (s.accept .sysNop .idle).complete .ok := by simp [sysNop, hb, hf]
    exact congrArg Host.Outcome.next hnop
  · have hsrst : sysSrst s = s.resetBlock := by simp [sysSrst, hb]
    exact congrArg Host.Outcome.next hsrst

/-- The issue of a legal word is its command, also on a faulted block: what `issue` drops there, `exec`
drops (R236). -/
theorem issue_exec_of_decode {w : Word} {i : Instr} (s : State) (hd : decode w = .ok i) :
    issue exec w s = exec i s := by
  cases hf : s.fault with
  | false => exact issue_of_decode hf hd
  | true =>
    rw [issue, if_pos hf]
    split
    · rename_i hw
      rw [hw, decode_srst, Except.ok.injEq] at hd
      rw [hd]
    · rename_i hw
      have hi : i ≠ .sysSrst := by
        rintro rfl
        exact hw ((decodeInvertsEncode w .sysSrst).1 hd).2
      exact (exec_of_fault hf hi).symm

/-- Settles O3: the write to CMD is the word's issue. -/
theorem stepRunsDecodedCommand : Obligations.StepRunsDecodedCommand := by
  intro s w i l rest hb hp hd
  rw [step_of_event hp (.inl hb)]
  exact (hostWr_cmd (s := { s with port := rest }) w hb).trans (issue_exec_of_decode _ hd)

end Sys2Proof.Machine
end

section
/-!
PROOFS. Every command ends: each internal step completes its command or leaves fewer steps to make, and
`fuelOf` bounds them (47_sequencer.md section 6; the spec's own inference R262).
-/

namespace Sys2Proof.Machine

/-! ### A run to its end -/

/-- A run on which nothing lands reaches `Q`, when each internal step from `P` ends in `Q` or goes on
in `P` with less work left. -/
theorem drain_reaches {P Q : State → Prop} {work : State → Nat} {tick : State → State}
    (running : ∀ u, P u → u.busy = true ∧ u.quiet = true) (ended : ∀ u, Q u → u.busy = false)
    (counted : ∀ u k, P u →
      P { u with ticks := k } ∧ work ({ u with ticks := k } : State) = work u)
    (advance : ∀ u, P u → Q (tick u) ∨ (P (tick u) ∧ work (tick u) < work u)) (n : Nat) (s : State)
    (hs : P s) (hn : work s < n) : Q (drain tick n s) := by
  induction n generalizing s with
  | zero => exact absurd hn (Nat.not_lt_zero _)
  | succ n ih =>
    obtain ⟨hb, hq⟩ := running s hs
    obtain ⟨hs', hw⟩ := counted s (s.ticks + 1) hs
    rw [drain_succ n hb hq]
    rcases advance _ hs' with h | ⟨h, hlt⟩
    · rw [drain_of_idle n (ended _ h)]
      exact h
    · exact ih _ h (by omega)

/-! ### The work of SEQ.DECBUF -/

/-- The internal steps that candidate CIDX can still take (R247). -/
def candidateWork (s : State) : Nat :=
  match s.phase with
  | .demod => s.cfg.maxIter.toNat + 5
  | .fecdec => s.cfg.maxIter.toNat - s.iterT + 4
  | .xtr => 3
  | .cksvfy => 2
  | .unpack => 1
  | _ => 0

/-- The internal steps that `n` whole candidates can take. -/
def candidatesWork (s : State) (n : Nat) : Nat := n * (s.cfg.maxIter.toNat + 5)

/-- The internal steps SEQ.DECBUF can take before its COLLECT (R245, R247). -/
def decbufWork (c : Config) (s : State) : Nat :=
  match s.phase with
  | .cfgchk => candidatesWork s c.maxCand + 3
  | .build => candidatesWork s c.maxCand + 2
  | .search => candidatesWork s c.maxCand + 1
  | .collect => 0
  | _ => candidatesWork s (s.ncand.toNat - (s.cidx + 1)) + candidateWork s

/-- What the processing of candidates reads or leaves alone: the session, CFG, and the registers that
say what runs and what the host has asked for. -/
def State.session (s : State) :=
  (s.spec, s.cand, s.ncand, s.cfg, s.port, s.abortReq, s.busy, s.run)

theorem State.session_eq_iff {s t : State} : t.session = s.session ↔
    t.spec = s.spec ∧ t.cand = s.cand ∧ t.ncand = s.ncand ∧ t.cfg = s.cfg ∧ t.port = s.port ∧
      t.abortReq = s.abortReq ∧ t.busy = s.busy ∧ t.run = s.run := by
  simp only [State.session, Prod.mk.injEq]

section Decbuf

variable {c : Config} {u v : State}

theorem candidateWork_pos (h : u.phase.ofCandidate) : 0 < candidateWork u := by
  rcases h with h | h | h | h | h <;> simp [candidateWork, h]

theorem decbufWork_of_candidate (h : u.phase.ofCandidate) :
    decbufWork c u = candidatesWork u (u.ncand.toNat - (u.cidx + 1)) + candidateWork u := by
  rcases h with h | h | h | h | h <;> simp [decbufWork, h]

theorem decbufWork_of_collect (h : u.phase = .collect) : decbufWork c u = 0 := by
  simp [decbufWork, h]

/-- A candidate boundary before a candidate, or COLLECT when there is none (R245). -/
theorem State.toBoundary_cases (u : State) :
    (u.cidx < u.ncand.toNat ∧ u.toBoundary.phase = .demod) ∨
      (u.ncand.toNat ≤ u.cidx ∧ u.toBoundary.phase = .collect) := by
  by_cases h : u.cidx < u.ncand.toNat
  · exact .inl ⟨h, by simp [State.toBoundary, h]⟩
  · exact .inr ⟨Nat.le_of_not_lt h, by simp [State.toBoundary, h]⟩

@[simp] theorem State.toBoundary_session : u.toBoundary.session = u.session := by
  simp [State.session]

/-- At a boundary only whole candidates are left to process. -/
theorem decbufWork_toBoundary (c : Config) (u : State) :
    decbufWork c u.toBoundary ≤ candidatesWork u (u.ncand.toNat - u.cidx) := by
  rcases u.toBoundary_cases with ⟨hlt, hp⟩ | ⟨-, hp⟩
  · obtain ⟨k, hk⟩ : ∃ k, u.ncand.toNat - u.cidx = k + 1 :=
      Nat.exists_eq_succ_of_ne_zero (by omega)
    have hk' : u.ncand.toNat - (u.cidx + 1) = k := by omega
    rw [decbufWork_of_candidate (.inl hp), hk]
    simp [candidatesWork, candidateWork, hp, hk', Nat.succ_mul]
  · rw [decbufWork_of_collect hp]
    exact Nat.zero_le _

/-- A candidate that is finished leaves less work. -/
theorem decbufWork_nextCandidate (hu : u.phase.ofCandidate) (hc : v.cidx = u.cidx)
    (h : v.session = u.session) : decbufWork c v.nextCandidate < decbufWork c u := by
  obtain ⟨-, -, hncand, hcfg, -⟩ := State.session_eq_iff.1 h
  calc decbufWork c v.nextCandidate
    _ ≤ candidatesWork v (v.ncand.toNat - (v.cidx + 1)) := decbufWork_toBoundary c _
    _ = candidatesWork u (u.ncand.toNat - (u.cidx + 1)) := by rw [candidatesWork, hncand, hc, hcfg]; rfl
    _ < decbufWork c u := by
      rw [decbufWork_of_candidate hu]
      exact Nat.lt_add_of_pos_right (candidateWork_pos hu)

/-- What an internal step does while a candidate is processed: it ends the processing on an abort
request, at a boundary only; it goes on with the candidate; or it finishes it (R247, R248). -/
theorem decbufTick_of_candidate (c : Config) (hp : u.phase.ofCandidate) :
    (u.phase = .demod ∧ u.abortReq = true ∧ decbufTick c u = { u with phase := .collect }) ∨
    ((decbufTick c u).phase.ofCandidate ∧ (decbufTick c u).phase ≠ .demod ∧
      (decbufTick c u).cidx = u.cidx ∧ (decbufTick c u).session = u.session ∧
      candidateWork (decbufTick c u) < candidateWork u) ∨
    ∃ v : State, decbufTick c u = v.nextCandidate ∧ v.cidx = u.cidx ∧ v.session = u.session := by
  rcases hp with hp | hp | hp | hp | hp
  · cases ha : u.abortReq with
    | true => exact .inl ⟨hp, rfl, by simp [decbufTick, hp, ha]⟩
    | false =>
      have e : decbufTick c u =
          { (u.putLlr c (u.candidate u.cidx)).startBp c with phase := .fecdec } := by
        simp [decbufTick, hp, ha]
      rw [e]
      refine .inr (.inl ⟨.inr (.inl rfl), by simp, rfl, rfl, ?_⟩)
      simp [candidateWork, hp]
  · have e : decbufTick c u =
        if isCodeword c (hardDecision (u.iterateBp c).bp) then
          { u.iterateBp c with cw := hardDecision (u.iterateBp c).bp, phase := .xtr }
        else if u.cfg.maxIter.toNat ≤ u.iterT + 1 then (u.iterateBp c).nextCandidate
        else u.iterateBp c := by
      simp only [decbufTick, hp]
      rfl
    rw [e]
    split
    · refine .inr (.inl ⟨.inr (.inr (.inl rfl)), by simp, rfl, rfl, ?_⟩)
      simp [candidateWork, hp]
    · split
      · exact .inr (.inr ⟨_, rfl, rfl, rfl⟩)
      · refine .inr (.inl ⟨.inr (.inl hp), by simp [hp], rfl, rfl, ?_⟩)
        simp only [candidateWork, State.iterateBp_phase, State.iterateBp_cfg,
          State.iterateBp_iterT, hp]
        omega
  · have e : decbufTick c u = { u.splitCodeword with phase := .cksvfy } := by
      simp [decbufTick, hp]
    rw [e]
    refine .inr (.inl ⟨.inr (.inr (.inr (.inl rfl))), by simp, rfl, rfl, ?_⟩)
    simp [candidateWork, hp]
  · have e : decbufTick c u = if crc14 c u.pay = u.crc then { u with phase := .unpack }
        else u.nextCandidate := by
      simp [decbufTick, hp]
    rw [e]
    split
    · refine .inr (.inl ⟨.inr (.inr (.inr (.inr rfl))), by simp, rfl, rfl, ?_⟩)
      simp [candidateWork, hp]
    · exact .inr (.inr ⟨u, rfl, rfl, rfl⟩)
  · cases hu : c.packFmt.unpack u.pay with
    | none => exact .inr (.inr ⟨u, by simp [decbufTick, hp, hu], rfl, rfl⟩)
    | some m =>
      exact .inr (.inr ⟨{ u.putMessage c m with acc := u.acc ++ [u.acceptedEntry m] },
        by simp [decbufTick, hp, hu], rfl, rfl⟩)

theorem decbufTick_of_cfgchk (hp : u.phase = .cfgchk) : decbufTick c u =
    if decbufCfgBad c u.cfg then decbufConfig u else { u with phase := .build } := by
  simp only [decbufTick, hp]

theorem decbufTick_of_build {n : Nat} (hp : u.phase = .build) (hn : sps c u.cfg.fs = some n) :
    decbufTick c u = { u.dropSession.buildSpec c n with phase := .search } := by
  simp only [decbufTick, hp, hn]

theorem decbufTick_of_build_config (hp : u.phase = .build) (hn : sps c u.cfg.fs = none) :
    decbufTick c u = decbufConfig u := by
  simp only [decbufTick, hp, hn]

/-- The search has stored its candidates, and none of them is processed yet (R245). -/
def State.searched (c : Config) (s : State) : State :=
  { s.putCandidates (searchResult c s) with cidx := 0, acc := [] }

theorem decbufTick_of_search (hp : u.phase = .search) :
    decbufTick c u = (u.searched c).toBoundary := by
  simp only [decbufTick, hp, State.searched]

theorem decbufTick_of_collect (hp : u.phase = .collect) : decbufTick c u = decbufCollect c u := by
  simp only [decbufTick, hp]

end Decbuf

/-! ### The work of every command -/

/-- The internal steps SEQ.ENCMSG can take before its last one (R240). -/
def encmsgWork (s : State) : Nat :=
  match s.phase with
  | .cfgchk => 5
  | .pack => 4
  | .cksgen => 3
  | .fecenc => 2
  | .map => 1
  | _ => 0

/-- The internal steps the running command `i` can take before its last one; a unit command's first one
is its last. -/
def workLeft (c : Config) (i : Instr) (s : State) : Nat :=
  match i with
  | .bpdDecode => s.cfg.maxIter.toNat - s.iterT
  | .seqEncmsg => encmsgWork s
  | .seqDecbuf => decbufWork c s
  | _ => 0

section Commands

variable {c : Config} {i : Instr} {s u : State}

theorem encmsgWork_lt (s : State) : encmsgWork s < encmsgFuel := by
  unfold encmsgWork
  split <;> decide

theorem candidatesWork_mono {m n : Nat} (s : State) (h : m ≤ n) :
    candidatesWork s m ≤ candidatesWork s n := Nat.mul_le_mul_right _ h

theorem candidateWork_le (s : State) : candidateWork s ≤ s.cfg.maxIter.toNat + 5 := by
  unfold candidateWork
  split <;> omega

theorem decbufWork_lt (c : Config) (s : State) : decbufWork c s < decbufFuel c s := by
  have hfuel : candidatesWork s (max c.maxCand s.ncand.toNat + 1) + 8 ≤ decbufFuel c s :=
    Nat.add_le_add_right (Nat.mul_le_mul_left _ (Nat.le_succ _)) 8
  have hsucc : candidatesWork s (max c.maxCand s.ncand.toNat + 1) =
      candidatesWork s (max c.maxCand s.ncand.toNat) + (s.cfg.maxIter.toNat + 5) :=
    Nat.succ_mul _ _
  have hcap := candidatesWork_mono s (Nat.le_max_left c.maxCand s.ncand.toNat)
  have hrest : candidatesWork s (s.ncand.toNat - (s.cidx + 1)) ≤
      candidatesWork s (max c.maxCand s.ncand.toNat) := candidatesWork_mono s (by omega)
  have hone := candidateWork_le s
  unfold decbufWork
  split <;> omega

/-- The bound of the model is one (R262). -/
theorem workLeft_lt_fuelOf (c : Config) (i : Instr) (s : State) :
    workLeft c i s < fuelOf c i s := by
  cases i with
  | bpdDecode => exact Nat.lt_succ_of_le (Nat.sub_le _ _)
  | seqEncmsg => exact encmsgWork_lt s
  | seqDecbuf => exact decbufWork_lt c s
  | _ => exact Nat.one_pos

/-- The block has completed its command (R236). -/
def State.ended (t : State) : Prop := t.busy = false ∧ t.done = true

@[simp] theorem State.ended_complete (s : State) (o : Code) : (s.complete o).ended := ⟨rfl, rfl⟩

/-- Command `i` goes on in one of its phases. -/
def State.runs (i : Instr) (s : State) : Prop := s.busy = true ∧ s.phase ∈ phasesOf i

/-- A unit command completes in its one internal step (R84). -/
theorem unitTick_ended (hi : i ∉ [.bpdDecode, .seqEncmsg, .seqDecbuf, .sysSrst]) :
    (tickOf c i u).ended := by
  cases i with
  | cksVfy =>
    change (cksVfyBody c u).ended
    unfold cksVfyBody
    split <;> simp
  | pckUnpack =>
    change (pckUnpackBody c u).ended
    unfold pckUnpackBody
    split <;> simp
  | modSynth =>
    change (modSynthBody c u).ended
    unfold modSynthBody
    split <;> simp
  | synBuild =>
    change (synBuildBody c u).ended
    unfold synBuildBody
    split <;> simp
  | synSearch =>
    change (synSearchBody c u).ended
    unfold synSearchBody
    split <;> simp
  | bpdDecode | seqEncmsg | seqDecbuf | sysSrst => simp at hi
  | _ => exact State.ended_complete _ _

theorem bpdTick_advances (h : u.runs .bpdDecode) : (bpdTick c u).ended ∨
    ((bpdTick c u).runs .bpdDecode ∧ workLeft c .bpdDecode (bpdTick c u) <
      workLeft c .bpdDecode u) := by
  unfold bpdTick
  split
  · exact .inl (State.ended_complete _ _)
  · dsimp only
    split
    · exact .inl (State.ended_complete _ _)
    · split
      · exact .inl (State.ended_complete _ _)
      · rename_i hlt
        simp only [State.iterateBp_cfg, State.iterateBp_iterT] at hlt
        refine .inr ⟨h, ?_⟩
        simp only [workLeft, State.iterateBp_cfg, State.iterateBp_iterT]
        omega

theorem encmsgTick_advances (h : u.runs .seqEncmsg) : (encmsgTick c u).ended ∨
    ((encmsgTick c u).runs .seqEncmsg ∧ workLeft c .seqEncmsg (encmsgTick c u) <
      workLeft c .seqEncmsg u) := by
  obtain ⟨hb, hp⟩ := h
  have on (t : State) (ht : t.busy = true) (hp : t.phase ∈ phasesOf .seqEncmsg)
      (hw : encmsgWork t < encmsgWork u) : t.ended ∨
      (t.runs .seqEncmsg ∧ workLeft c .seqEncmsg t < workLeft c .seqEncmsg u) :=
    .inr ⟨⟨ht, hp⟩, hw⟩
  unfold encmsgTick
  split
  · -- CFGCHK
    rename_i hu
    split
    · exact .inl (State.ended_complete _ _)
    · exact on _ hb (by simp [phasesOf]) (by simp [encmsgWork, hu])
  · -- PACK
    rename_i hu
    exact on _ hb (by simp [phasesOf]) (by simp [encmsgWork, hu])
  · -- CKSGEN
    rename_i hu
    exact on _ hb (by simp [phasesOf]) (by simp [encmsgWork, hu])
  · -- FECENC
    rename_i hu
    exact on _ hb (by simp [phasesOf]) (by simp [encmsgWork, hu])
  · -- MAP
    rename_i hu
    exact on _ hb (by simp [phasesOf]) (by simp [encmsgWork, hu])
  · -- SYNTH
    split <;> exact .inl (State.ended_complete _ _)
  · -- no phase of this command
    simp_all [phasesOf]

/-- The search stores at most MAX_CAND candidates (R216). -/
theorem State.searched_ncand_le (c : Config) (s : State) :
    (s.searched c).ncand.toNat ≤ c.maxCand :=
  calc (BitVec.ofNat 32 (searchResult c s).length).toNat
    _ ≤ (searchResult c s).length := by rw [BitVec.toNat_ofNat]; exact Nat.mod_le _ _
    _ ≤ c.maxCand := searchResult_length_le c s

theorem decbufWork_searched (hp : u.phase = .search) :
    decbufWork c (u.searched c).toBoundary < decbufWork c u :=
  calc decbufWork c (u.searched c).toBoundary
    _ ≤ candidatesWork u (u.searched c).ncand.toNat := decbufWork_toBoundary c (u.searched c)
    _ ≤ candidatesWork u c.maxCand := candidatesWork_mono u (u.searched_ncand_le c)
    _ < decbufWork c u := by simp [decbufWork, hp]

theorem mem_phasesOf_seqDecbuf {p : Phase} : p ∈ phasesOf .seqDecbuf ↔
    p = .cfgchk ∨ p = .build ∨ p = .search ∨ p.ofCandidate ∨ p = .collect := by
  simp only [phasesOf, Phase.ofCandidate, List.mem_cons, List.not_mem_nil, or_false, or_assoc]

theorem mem_phasesOf_toBoundary (s : State) : s.toBoundary.phase ∈ phasesOf .seqDecbuf := by
  rcases s.toBoundary_cases with ⟨-, hp⟩ | ⟨-, hp⟩ <;> rw [hp] <;> decide

theorem decbufTick_advances (h : u.runs .seqDecbuf) : (decbufTick c u).ended ∨
    ((decbufTick c u).runs .seqDecbuf ∧ decbufWork c (decbufTick c u) < decbufWork c u) := by
  obtain ⟨hb, hp⟩ := h
  rcases mem_phasesOf_seqDecbuf.1 hp with hp | hp | hp | hp | hp
  · rw [decbufTick_of_cfgchk hp]
    split
    · exact .inl (State.ended_complete _ _)
    · exact .inr ⟨⟨hb, by simp [phasesOf]⟩, by simp [decbufWork, hp, candidatesWork]⟩
  · cases hn : sps c u.cfg.fs with
    | none =>
      rw [decbufTick_of_build_config hp hn]
      exact .inl (State.ended_complete _ _)
    | some n =>
      rw [decbufTick_of_build hp hn]
      refine .inr ⟨⟨by simpa [State.dropSession] using hb, by simp [phasesOf]⟩, ?_⟩
      simp [decbufWork, hp, candidatesWork, State.dropSession]
  · rw [decbufTick_of_search hp]
    exact .inr ⟨⟨by simpa [State.searched] using hb, mem_phasesOf_toBoundary _⟩,
      decbufWork_searched hp⟩
  · rcases decbufTick_of_candidate c hp with ⟨-, -, e⟩ | ⟨hp', -, hc, hs, hw⟩ | ⟨v, e, hc, hs⟩
    · rw [e, decbufWork_of_candidate hp]
      exact .inr ⟨⟨hb, by simp [phasesOf]⟩, Nat.add_pos_right _ (candidateWork_pos hp)⟩
    · obtain ⟨-, -, hn, hm, -, -, hbusy, -⟩ := State.session_eq_iff.1 hs
      refine .inr ⟨⟨hbusy.trans hb, mem_phasesOf_seqDecbuf.2 (.inr (.inr (.inr (.inl hp'))))⟩, ?_⟩
      rw [decbufWork_of_candidate hp, decbufWork_of_candidate hp', candidatesWork, hn, hc, hm]
      exact Nat.add_lt_add_left hw _
    · obtain ⟨-, -, -, -, -, -, hbusy, -⟩ := State.session_eq_iff.1 hs
      rw [e]
      exact .inr ⟨⟨by simpa using hbusy.trans hb, mem_phasesOf_toBoundary _⟩,
        decbufWork_nextCandidate hp hc hs⟩
  · rw [decbufTick_of_collect hp]
    exact .inl (State.ended_complete _ _)

/-- An internal step completes its command or leaves fewer steps to make. -/
theorem tickOf_advances (h : u.runs i) : (tickOf c i u).ended ∨
    ((tickOf c i u).runs i ∧ workLeft c i (tickOf c i u) < workLeft c i u) := by
  cases i with
  | bpdDecode => exact bpdTick_advances h
  | seqEncmsg => exact encmsgTick_advances h
  | seqDecbuf => exact decbufTick_advances h
  | sysSrst => exact absurd h.2 List.not_mem_nil
  | _ => exact .inl (unitTick_ended (by simp))

/-! ### What every internal step leaves alone -/

/-- STATUS.FAULT, FAULTINFO and ABORT_REQ, which only outside events and resets change while a command
runs (R43, R48). -/
def State.requests (s : State) := (s.fault, s.faultInfo, s.abortReq)

theorem decbufTick_requests (c : Config) (u : State) :
    (decbufTick c u).requests = u.requests := by
  unfold decbufTick
  split
  · split
    · simp [State.requests, decbufConfig, State.discardDecode]
    · rfl
  · split
    · simp [State.requests, decbufConfig, State.discardDecode]
    · simp [State.requests, State.dropSession]
  · simp [State.requests]
  · split <;> rfl
  · dsimp only
    split
    · rfl
    · split <;> simp [State.requests]
  · rfl
  · split <;> simp [State.requests]
  · split <;> simp [State.requests]
  · simp [State.requests, decbufCollect, State.discardDecode]
  · rfl

theorem encmsgTick_requests (c : Config) (u : State) :
    (encmsgTick c u).requests = u.requests := by
  unfold encmsgTick
  split
  · split
    · simp [State.requests, encmsgConfig, State.discardEncode]
    · rfl
  · rfl
  · rfl
  · rfl
  · rfl
  · split
    · simp [State.requests, encmsgConfig, State.discardEncode]
    · simp [State.requests, State.discardEncode]
  · rfl

theorem tickOf_requests (hi : i ≠ .sysSrst) : (tickOf c i u).requests = u.requests := by
  cases i with
  | sysSrst => exact absurd rfl hi
  | seqEncmsg => exact encmsgTick_requests c u
  | seqDecbuf => exact decbufTick_requests c u
  | bpdDecode =>
    change (bpdTick c u).requests = _
    unfold bpdTick
    split
    · simp [State.requests, bpdConfig]
    · dsimp only
      split
      · simp [State.requests, bpdConverged]
      · split
        · simp [State.requests, bpdExhausted]
        · rfl
  | cksVfy =>
    change (cksVfyBody c u).requests = _
    unfold cksVfyBody
    split <;> simp [State.requests]
  | pckUnpack =>
    change (pckUnpackBody c u).requests = _
    unfold pckUnpackBody
    split <;> simp [State.requests]
  | modSynth =>
    change (modSynthBody c u).requests = _
    unfold modSynthBody
    split <;> simp [State.requests]
  | synBuild =>
    change (synBuildBody c u).requests = _
    unfold synBuildBody
    split <;> simp [State.requests, State.dropSession]
  | synSearch =>
    change (synSearchBody c u).requests = _
    unfold synSearchBody
    split <;> simp [State.requests]
  | _ =>
    simp [State.requests, tickOf, cksGenBody, pckPackBody, encEncodeBody, encXtrBody, modMapBody,
      demDemodBody]

theorem State.fault_of_requests {s t : State} (h : t.requests = s.requests) :
    t.fault = s.fault := congrArg Prod.fst h

/-! ### The two statements -/

theorem ne_of_mem_phasesOf {p : Phase} (h : p ∈ phasesOf i) : i ≠ .sysNop ∧ i ≠ .sysSrst := by
  constructor <;> rintro rfl <;> exact List.not_mem_nil h

/-- A running command on which nothing lands completes within the bound, and raises no fault (R262). -/
theorem drain_ended (hb : s.busy = true) (hq : s.quiet = true) (hp : s.phase ∈ phasesOf i) :
    (drain (tickOf c i) (fuelOf c i s) s).ended ∧
      (drain (tickOf c i) (fuelOf c i s) s).fault = s.fault := by
  have hi := (ne_of_mem_phasesOf hp).2
  refine drain_reaches (P := fun u => u.runs i ∧ u.quiet = true ∧ u.fault = s.fault)
    (Q := fun u => u.ended ∧ u.fault = s.fault) (work := workLeft c i)
    (fun u ⟨hr, hq, _⟩ => ⟨hr.1, hq⟩) (fun u ⟨he, _⟩ => he.1)
    (fun u k hu => ⟨hu, by cases i <;> rfl⟩) (fun u ⟨hr, hq, hf⟩ => ?_) _ s
    ⟨⟨hb, hp⟩, hq, rfl⟩ (workLeft_lt_fuelOf c i s)
  have hf' := (State.fault_of_requests (tickOf_requests (c := c) (u := u) hi)).trans hf
  have hq' := (State.quiet_congr (tickOf_framed (c := c) hi (.refl _ u)).port).trans hq
  exact (tickOf_advances hr).imp (fun he => ⟨he, hf'⟩) fun ⟨hr, hw⟩ => ⟨⟨hr, hq', hf'⟩, hw⟩

end Commands

/-- The start of a command changes nothing that its bound or its run depends on. -/
theorem startOf_runs (c : Config) {i : Instr} (s : State) (hn : i ≠ .sysNop) (hi : i ≠ .sysSrst) :
    (startOf c i (s.accept i (firstPhase i))).runs i ∧
      fuelOf c i (startOf c i (s.accept i (firstPhase i))) = fuelOf c i s := by
  have hp := firstPhase_mem hn hi
  rcases startOf_eq c i (s.accept i (firstPhase i)) with e | e <;> rw [e]
  · exact ⟨⟨rfl, hp⟩, by cases i <;> rfl⟩
  · exact ⟨⟨rfl, hp⟩, by cases i <;> rfl⟩

/-- Settles O15: a command that faults or is a system command ends at once, and any other runs within its
bound. -/
theorem issuedCommandsTerminate : Obligations.IssuedCommandsTerminate := by
  intro i s hs
  obtain ⟨hb, hf, hq⟩ := (State.ready_iff s).1 hs
  by_cases hn : i = .sysNop
  · subst hn
    exact ⟨_, systemCommandsComplete.1 s hb hf, rfl⟩
  by_cases hi : i = .sysSrst
  · subst hi
    exact ⟨_, systemCommandsComplete.2.1 s hb, rfl⟩
  rw [exec_eq_meaning, meaning_eq_runCommand _ _ hn hi]
  refine ⟨_, rfl, ?_⟩
  cases hc : checkOf Config.block i s with
  | some p =>
    rw [runCommand_of_precond hf hb hc]
    rfl
  | none =>
    obtain ⟨⟨hbusy, hp⟩, hfuel⟩ := startOf_runs Config.block s hn hi
    have hport := (startOf_framed (c := Config.block) i
      (.refl [] (s.accept i (firstPhase i)))).port
    rw [runCommand_of_accept hf hb hc, ← hfuel]
    exact (drain_ended hbusy ((State.quiet_congr hport).trans hq) hp).1.1

/-- Settles O16: the step is the run of the command, within its bound. -/
theorem runningCommandsComplete : Obligations.RunningCommandsComplete := by
  intro s hs _ hb hq
  obtain ⟨i, hr, hp⟩ := hs.running.1 hb
  obtain ⟨⟨hbusy, hdone⟩, hfault⟩ := drain_ended (c := Config.block) hb hq hp
  exact ⟨_, step_of_running hb hr (State.landing_of_quiet hq), hbusy, hdone,
    hfault.trans (hs.fault_of_busy hb)⟩

end Sys2Proof.Machine
end

section
/-!
PROOFS. SEQ.ENCMSG (47_sequencer.md section 3): its internal steps are the five unit commands' one after
the other on the working buffers, and its waveform is the one they leave.
-/

namespace Sys2Proof.Machine

/-! ### The internal steps -/

/-- SEQ.ENCMSG in phase `ph` and after `k` internal steps, with what its working buffers hold. -/
def State.working (s : State) (ph : Phase) (k : Nat) (p : BitVec 77) (q : BitVec 14)
    (x : BitVec 174) : State :=
  { s with pay := p, crc := q, cw := x, phase := ph, ticks := k }

/-- The working buffers hold what the message is packed, checked, encoded and mapped to, and the sixth
internal step is to synthesize it (R240). -/
def State.encoded (c : Config) (s : State) : State :=
  let p := c.packFmt.pack (s.message c)
  (s.working .synth 6 p (crc14 c p) (fecEncode c (p ++ crc14 c p))).mapSymbols c

/-- SYM holds the symbols of the message (R195, R240). -/
theorem State.symbols_encoded (c : Config) (s : State) :
    (s.encoded c).symbols = messageSymbols c (s.message c) :=
  State.symbols_mapSymbols c _

section Ticks

variable {c : Config} {s : State} (k : Nat) (p : BitVec 77) (q : BitVec 14) (x : BitVec 174)

theorem encmsgTick_of_cfgchk_config (hp : s.phase = .cfgchk)
    (h : waveLength c s.cfg.fs = none) : encmsgTick c s = encmsgConfig s := by
  simp only [encmsgTick, hp, h]

theorem encmsgTick_of_cfgchk {n : Nat} (hp : s.phase = .cfgchk)
    (h : waveLength c s.cfg.fs = some n) :
    encmsgTick c s = s.working .pack s.ticks s.pay s.crc s.cw := by
  simp only [encmsgTick, hp, h, State.working]

theorem encmsgTick_pack : encmsgTick c (s.working .pack k p q x) =
    s.working .cksgen k (c.packFmt.pack (s.message c)) q x := rfl

theorem encmsgTick_cksgen : encmsgTick c (s.working .cksgen k p q x) =
    s.working .fecenc k p (crc14 c p) x := rfl

theorem encmsgTick_fecenc : encmsgTick c (s.working .fecenc k p q x) =
    s.working .map k p q (fecEncode c (p ++ q)) := rfl

theorem encmsgTick_map : encmsgTick c (s.working .map k p q x) =
    (s.working .synth k p q x).mapSymbols c := rfl

theorem encmsgTick_of_synth {n : Nat} (hp : s.phase = .synth)
    (h : waveLength c s.cfg.fs = some n) :
    encmsgTick c s = ((s.putWave c n).discardEncode).complete .ok := by
  simp only [encmsgTick, hp, h]

/-- One internal step of SEQ.ENCMSG between two of its phases. -/
theorem drain_working {n : Nat} {ph : Phase} {t : State} (hb : s.busy = true)
    (hq : s.quiet = true) (h : encmsgTick c (s.working ph (k + 1) p q x) = t) :
    drain (encmsgTick c) (n + 1) (s.working ph k p q x) = drain (encmsgTick c) n t :=
  (drain_succ (s := s.working ph k p q x) n hb hq).trans (congrArg _ h)

/-- With an unusable sample rate SEQ.ENCMSG ends at its first internal step (R240). -/
theorem drain_encmsgTick_config (n : Nat) (hb : s.busy = true) (hq : s.quiet = true)
    (hp : s.phase = .cfgchk) (h : waveLength c s.cfg.fs = none) :
    drain (encmsgTick c) (n + 1) s = encmsgConfig { s with ticks := s.ticks + 1 } := by
  rw [drain_succ n hb hq, encmsgTick_of_cfgchk_config (s := { s with ticks := s.ticks + 1 }) hp h]
  exact drain_of_idle n rfl

/-- With a usable one it passes through its six phases and ends with the waveform (R240, R243). -/
theorem drain_encmsgTick {n : Nat} (hb : s.busy = true) (hq : s.quiet = true)
    (hp : s.phase = .cfgchk) (hk : s.ticks = 0) (h : waveLength c s.cfg.fs = some n) :
    drain (encmsgTick c) encmsgFuel s =
      (((s.encoded c).putWave c n).discardEncode).complete .ok := by
  have hcfgchk := encmsgTick_of_cfgchk (s := { s with ticks := s.ticks + 1 }) hp h
  rw [encmsgFuel, drain_succ 5 hb hq, hcfgchk, hk, State.encoded]
  generalize hpay : c.packFmt.pack (s.message c) = pay
  dsimp only
  generalize hcrc : crc14 c pay = crc
  generalize hcw : fecEncode c (pay ++ crc) = cw
  calc _ = drain (encmsgTick c) 5 (s.working .pack 1 s.pay s.crc s.cw) := rfl
    _ = drain (encmsgTick c) 4 (s.working .cksgen 2 pay s.crc s.cw) :=
      drain_working _ _ _ _ hb hq (hpay ▸ encmsgTick_pack ..)
    _ = drain (encmsgTick c) 3 (s.working .fecenc 3 pay crc s.cw) :=
      drain_working _ _ _ _ hb hq (hcrc ▸ encmsgTick_cksgen ..)
    _ = drain (encmsgTick c) 2 (s.working .map 4 pay crc cw) :=
      drain_working _ _ _ _ hb hq (hcw ▸ encmsgTick_fecenc ..)
    _ = drain (encmsgTick c) 1 ((s.working .synth 5 pay crc cw).mapSymbols c) :=
      drain_working _ _ _ _ hb hq (encmsgTick_map ..)
    _ = encmsgTick c ((s.working .synth 6 pay crc cw).mapSymbols c) :=
      drain_succ (s := (s.working .synth 5 pay crc cw).mapSymbols c) 0 hb hq
    _ = _ := encmsgTick_of_synth rfl h

end Ticks

/-! ### The command -/

/-- What SEQ.ENCMSG neither writes nor discards of the registers that no buffer goes with. -/
def State.carried (s : State) :=
  (s.fault, s.aborted, s.abortReq, s.faultInfo, s.bp, s.cidx, s.iterT)

section Command

variable {s : State} (hs : s.ready = true) (hv : s.isValid .msg = true)
  (hm : Config.block.packFmt.validMsg (s.message Config.block) = true)
include hs hv hm

/-- SEQ.ENCMSG on a ready block with a well-formed message is accepted and runs (R236, R240). -/
theorem exec_seqEncmsg_eq_drain : exec .seqEncmsg s = .next
    (drain (encmsgTick Config.block) encmsgFuel (s.accept .seqEncmsg .cfgchk)) := by
  obtain ⟨hb, hf, -⟩ := (State.ready_iff s).1 hs
  exact congrArg Host.Outcome.next (runCommand_of_accept hf hb (messageCheck_eq_none hv hm))

/-- SEQ.ENCMSG discards WAVE where the sample rate gives no waveform that fits (R240, R243). -/
theorem exec_seqEncmsg_config (h : waveLength Config.block s.cfg.fs = none) :
    exec .seqEncmsg s = .next (encmsgConfig (s.started .seqEncmsg .cfgchk)) := by
  obtain ⟨-, -, hq⟩ := (State.ready_iff s).1 hs
  rw [exec_seqEncmsg_eq_drain hs hv hm]
  exact congrArg Host.Outcome.next
    (drain_encmsgTick_config 5 (s := s.accept .seqEncmsg .cfgchk) rfl hq rfl h)

/-- SEQ.ENCMSG stores the waveform of the message's symbols in WAVE (R240, R243). -/
theorem exec_seqEncmsg_waveform {n : Nat} (h : waveLength Config.block s.cfg.fs = some n) :
    exec .seqEncmsg s = .next (((((s.accept .seqEncmsg .cfgchk).encoded Config.block).putWave
      Config.block n).discardEncode).complete .ok) := by
  obtain ⟨-, -, hq⟩ := (State.ready_iff s).1 hs
  rw [exec_seqEncmsg_eq_drain hs hv hm,
    drain_encmsgTick (s := s.accept .seqEncmsg .cfgchk) rfl hq rfl rfl h]

/-- SEQ.ENCMSG ends in its discard and its completion, and what it carries keeps its value (R236,
R243). -/
theorem exec_seqEncmsg_ends : ∃ (u : State) (o : Code),
    exec .seqEncmsg s = .next (u.discardEncode.complete o) ∧
      (u.discardEncode.complete o).carried =
        (false, false, false, s.faultInfo, s.bp, s.cidx, s.iterT) := by
  obtain ⟨-, hf, -⟩ := (State.ready_iff s).1 hs
  cases h : waveLength Config.block s.cfg.fs with
  | none =>
    refine ⟨_, _, exec_seqEncmsg_config hs hv hm h, ?_⟩
    simp [State.carried, State.discardEncode, hf]
  | some n =>
    refine ⟨_, _, exec_seqEncmsg_waveform hs hv hm h, ?_⟩
    simp [State.carried, State.discardEncode, State.encoded, State.working, hf]

variable {t : State} (ht : exec .seqEncmsg s = .next t)
include ht

/-- With an unusable sample rate SEQ.ENCMSG leaves no waveform (R240). -/
theorem exec_seqEncmsg_wave_none (h : waveLength Config.block s.cfg.fs = none) :
    t.lastErr = 2#8 ∧ t.isValid .wave = false ∧ t.nwave = 0#32 := by
  obtain rfl := Host.Outcome.next.inj ((exec_seqEncmsg_config hs hv hm h).symm.trans ht)
  refine ⟨rfl, ?_, ?_⟩
  · exact (State.isValid_discardAll _ _ _).trans (by simp [State.isValid_discard])
  · simp [encmsgConfig, State.discardEncode, State.discardAll_nwave_of_not_mem, State.discard,
      State.scramble]

/-- With a usable one it leaves the waveform of the message's symbols (R240). -/
theorem exec_seqEncmsg_wave_some {n : Nat} (h : waveLength Config.block s.cfg.fs = some n) :
    t.lastErr = 0#8 ∧ t.isValid .wave = true ∧ t.nwave = BitVec.ofNat 32 n ∧
      ∀ i < n, t.wave.rd i = Config.block.synth
        (messageSymbols Config.block (s.message Config.block)) s.cfg.fs s.cfg.base i := by
  obtain rfl := Host.Outcome.next.inj ((exec_seqEncmsg_waveform hs hv hm h).symm.trans ht)
  refine ⟨rfl, ?_, ?_, fun i hi => ?_⟩
  · exact (State.isValid_discardAll _ _ _).trans (by simp [State.putWave])
  · simp [State.discardEncode, State.discardAll_nwave_of_not_mem]
  · rw [State.complete_wave, State.discardEncode, State.clearFlags_wave,
      State.discardAll_wave_of_not_mem _ _ (by decide), State.putWave_rd _ _ _ hi,
      State.symbols_encoded]
    rfl

end Command

theorem State.isValid_discardAll_of_mem (s : State) {l : List Space} {b : Space} (h : b ∈ l) :
    (s.discardAll l).isValid b = false := by
  rw [State.isValid_discardAll, List.contains_iff_mem.2 h]
  exact Bool.and_false _

@[simp] theorem State.flagsWord_clearFlags (s : State) : s.clearFlags.flagsWord = 0#32 := by
  simp [State.flagsWord]

/-- The discard at the end of an encode, and completion (R236, R243). -/
theorem discardEncode_complete (u : State) (o : Code) :
    (∀ b ∈ [Space.pay, .crc, .cw, .sym], (u.discardEncode.complete o).isValid b = false) ∧
      (u.discardEncode.complete o).flagsWord = 0#32 ∧ (u.discardEncode.complete o).iter = 0#32 ∧
      (u.discardEncode.complete o).conf = 0#32 := by
  have hflags := State.flagsWord_clearFlags (u.discardAll [.pay, .crc, .cw, .sym])
  exact ⟨fun b hb => State.isValid_discardAll_of_mem u hb, hflags, rfl, rfl⟩

/-- Settles O34: the end is that of the last internal step, and what it leaves alone, a command of its row
leaves alone. -/
theorem encmsgCompletes : Obligations.EncmsgCompletes := by
  intro s hs hv hm
  obtain ⟨u, o, ht, hu⟩ := exec_seqEncmsg_ends hs hv hm
  simp only [State.carried, Prod.mk.injEq] at hu
  obtain ⟨hf, hab, hreq, hinfo, hbp, hcidx, hiter⟩ := hu
  obtain ⟨hdisc, hflags, hit, hconf⟩ := discardEncode_complete u o
  obtain ⟨hb, -, -⟩ := (State.ready_iff s).1 hs
  have hne : Instr.seqEncmsg ≠ .sysSrst := by decide
  have hframe := exec_framed hb hne ht
  have hcount (b : Space) (hm : b ∉ touched .seqEncmsg) := exec_counterOf hb hne ht hm
  have hrow : ∀ b ∈ [Space.msg, .llr, .samp, .spec, .cand, .res], b ∉ touched .seqEncmsg := by
    decide
  refine ⟨_, ht, rfl, rfl, hf, hab, rfl, hdisc, hflags, hit, hconf, fun b hb => ?_,
    Option.some.inj (hcount .cand (by decide)), Option.some.inj (hcount .res (by decide)),
    Option.some.inj (hcount .spec (by decide)), hframe.cfg, hframe.port, hreq, hinfo, hbp, hcidx,
    hiter, ?_⟩
  · obtain ⟨hsame, hvalid, -⟩ := hframe.buffers b (hrow b hb)
    exact ⟨hsame, hvalid⟩
  cases h : waveLength Config.block s.cfg.fs with
  | none => exact exec_seqEncmsg_wave_none hs hv hm ht h
  | some n =>
    obtain ⟨herr, hwv, hnw, hrd⟩ := exec_seqEncmsg_wave_some hs hv hm ht h
    exact ⟨herr, hwv, hnw ▸ waveLength_toNat Config.block_lawful h, hrd⟩

/-! ### The unit sequence -/

section Units

variable {s : State} (hs : s.ready = true)
include hs

theorem exec_pckPack_leaves (hv : s.isValid .msg = true)
    (hm : Config.block.packFmt.validMsg (s.message Config.block) = true) :
    ∃ t, exec .pckPack s = .next t ∧ t.ready = true ∧ t.isValid .pay = true ∧ t.cfg = s.cfg ∧
      t.pay = Config.block.packFmt.pack (s.message Config.block) := by
  obtain ⟨hready, hpay⟩ := State.ready_of_written
    (s := { s with pay := Config.block.packFmt.pack (s.message Config.block) }) hs .pay .ok
  exact ⟨_, exec_pckPack hs hv hm, hready, hpay, rfl, rfl⟩

theorem exec_cksGen_leaves (hp : s.isValid .pay = true) :
    ∃ t, exec .cksGen s = .next t ∧ t.ready = true ∧ t.isValid .pay = true ∧
      t.isValid .crc = true ∧ t.cfg = s.cfg ∧ t.pay = s.pay ∧
      t.crc = crc14 Config.block s.pay := by
  obtain ⟨hready, hcrc⟩ := State.ready_of_written
    (s := { s with crc := crc14 Config.block s.pay }) hs .crc .ok
  refine ⟨_, exec_cksGen hs hp, hready, ?_, hcrc, rfl, rfl, by simp⟩
  rw [State.isValid_completed, State.isValid_setValid, if_neg (by decide)]
  exact hp

theorem exec_encEncode_leaves (hp : s.isValid .pay = true) (hv : s.isValid .crc = true) :
    ∃ t, exec .encEncode s = .next t ∧ t.ready = true ∧ t.isValid .cw = true ∧ t.cfg = s.cfg ∧
      t.cw = fecEncode Config.block (s.pay ++ s.crc) := by
  obtain ⟨hready, hcw⟩ := State.ready_of_written
    (s := { s with cw := fecEncode Config.block (s.pay ++ s.crc) }) hs .cw .ok
  exact ⟨_, exec_encEncode hs hp hv, hready, hcw, rfl, rfl⟩

theorem exec_modMap_leaves (hv : s.isValid .cw = true) :
    ∃ t, exec .modMap s = .next t ∧ t.ready = true ∧ t.isValid .sym = true ∧ t.cfg = s.cfg ∧
      t.symbols = (List.range 79).map (symbolAt Config.block s.cw) := by
  obtain ⟨hready, hsym⟩ := State.ready_of_written (s := s.mapSymbols Config.block) hs .sym .ok
  exact ⟨_, exec_modMap hs hv, hready, hsym, rfl, State.symbols_mapSymbols Config.block s⟩

/-- PCK.PACK, CKS.GEN, ENC.ENCODE and MOD.MAP, issued one after the other, leave a ready block with the
message's symbols in SYM (R241). -/
theorem exec_units_to_symbols (hv : s.isValid .msg = true)
    (hm : Config.block.packFmt.validMsg (s.message Config.block) = true) :
    ∃ t1 t2 t3 t4, exec .pckPack s = .next t1 ∧ exec .cksGen t1 = .next t2 ∧
      exec .encEncode t2 = .next t3 ∧ exec .modMap t3 = .next t4 ∧ t4.ready = true ∧
      t4.isValid .sym = true ∧ t4.cfg = s.cfg ∧
      t4.symbols = messageSymbols Config.block (s.message Config.block) := by
  obtain ⟨t1, e1, r1, v1, c1, hpay⟩ := exec_pckPack_leaves hs hv hm
  obtain ⟨t2, e2, r2, p2, v2, c2, hpay2, hcrc⟩ := exec_cksGen_leaves r1 v1
  obtain ⟨t3, e3, r3, v3, c3, hcw⟩ := exec_encEncode_leaves r2 p2 v2
  obtain ⟨t4, e4, r4, v4, c4, hsym⟩ := exec_modMap_leaves r3 v3
  refine ⟨t1, t2, t3, t4, e1, e2, e3, e4, r4, v4, c4.trans (c3.trans (c2.trans c1)), ?_⟩
  rw [hsym, hcw, hcrc, hpay2, hpay]
  rfl

end Units

/-- Settles O56: MOD.SYNTH makes of the symbols what SEQ.ENCMSG's last step makes of them. -/
theorem encmsgEqualsUnitSequence : Obligations.EncmsgEqualsUnitSequence := by
  intro s hs hv hm
  obtain ⟨u, o, ht, -⟩ := exec_seqEncmsg_ends hs hv hm
  obtain ⟨t1, t2, t3, t4, e1, e2, e3, e4, hr, hsym, hcfg, hsymbols⟩ :=
    exec_units_to_symbols hs hv hm
  cases h : waveLength Config.block s.cfg.fs with
  | none =>
    have h4 : waveLength Config.block t4.cfg.fs = none := hcfg ▸ h
    obtain ⟨-, hvalid, hnwave⟩ := exec_seqEncmsg_wave_none hs hv hm ht h
    refine ⟨_, t1, t2, t3, t4, _, ht, e1, e2, e3, e4, exec_modSynth_config hr hsym h4, hnwave,
      hvalid.trans ?_, fun i hi => ?_⟩
    · rw [State.isValid_completed, State.isValid_discard, if_pos rfl]
    · rw [hnwave] at hi
      exact absurd hi (Nat.not_lt_zero i)
  | some n =>
    have h4 : waveLength Config.block t4.cfg.fs = some n := hcfg ▸ h
    obtain ⟨-, hvalid, hnwave, hrd⟩ := exec_seqEncmsg_wave_some hs hv hm ht h
    refine ⟨_, t1, t2, t3, t4, _, ht, e1, e2, e3, e4, exec_modSynth_waveform hr hsym h4, hnwave,
      hvalid.trans ?_, fun i hi => ?_⟩
    · exact (State.isValid_setValid_self ..).symm
    · rw [hnwave, waveLength_toNat Config.block_lawful h] at hi
      rw [hrd i hi, State.completed_wave, State.putWave_rd _ _ _ hi, hsymbols, hcfg]

end Sys2Proof.Machine
end

section
/-!
PROOFS. COLLECT (47_sequencer.md rules R245, R251 and R252): the results are the ranked list of the
accepted messages, of which a greedy walk keeps the first of equal ones.
-/

namespace Sys2Proof.Machine

section Collect

variable {c : Config} {l : List Accepted} {x y z : Accepted}

/-- Before, or level with, in result order (R252). -/
def Accepted.before (x y : Accepted) : Prop :=
  y.conf < x.conf ∨ (x.conf = y.conf ∧ (y.score < x.score ∨ (x.score = y.score ∧
    (x.t < y.t ∨ (x.t = y.t ∧ x.f ≤ y.f)))))

theorem resultBefore_iff : resultBefore x y = true ↔ x.before y := decide_eq_true_iff

theorem Accepted.before_refl (x : Accepted) : x.before x := by
  simp [Accepted.before]

theorem Accepted.before_total (x y : Accepted) : x.before y ∨ y.before x := by
  unfold Accepted.before
  bv_omega

theorem Accepted.before_trans (hxy : x.before y) (hyz : y.before z) : x.before z := by
  unfold Accepted.before at *
  bv_omega

/-- The accepted messages in result order (R252). -/
def rankedResults (l : List Accepted) : List Accepted :=
  l.insertionSort fun x y => resultBefore x y = true

theorem rankedResults_pairwise (l : List Accepted) :
    (rankedResults l).Pairwise Accepted.before := by
  have : Std.Total fun x y : Accepted => resultBefore x y = true :=
    ⟨fun x y => by simpa only [resultBefore_iff] using x.before_total y⟩
  have : IsTrans Accepted fun x y => resultBefore x y = true :=
    ⟨fun x y z => by simpa only [resultBefore_iff] using Accepted.before_trans⟩
  exact (List.pairwise_insertionSort _ l).imp resultBefore_iff.1

theorem mem_rankedResults : x ∈ rankedResults l ↔ x ∈ l := List.mem_insertionSort _

/-- Two entries are duplicates when their messages are equal (R251). -/
def sameMessage (x y : Accepted) : Bool := y.msg == x.msg

theorem sameMessage_iff : sameMessage x y = true ↔ y.msg = x.msg := beq_iff_eq

/-- The ranked entries without duplicates, before the limit (R251). -/
def distinctResults (l : List Accepted) : List Accepted :=
  greedyKeep sameMessage (rankedResults l)

theorem collect_eq_take (c : Config) (l : List Accepted) :
    collect c l = (distinctResults l).take c.maxRes := rfl

theorem distinctResults_pairwise (l : List Accepted) :
    (distinctResults l).Pairwise fun x y => x.before y ∧ x.msg ≠ y.msg := by
  refine (((rankedResults_pairwise l).sublist (greedyKeep_sublist _ _)).and
    (greedyKeep_pairwise _ _)).imp fun ⟨hbefore, hdup⟩ => ⟨hbefore, fun hmsg => ?_⟩
  exact Bool.false_ne_true (hdup.symm.trans (sameMessage_iff.2 hmsg))

theorem mem_of_mem_distinctResults (hx : x ∈ distinctResults l) : x ∈ l :=
  mem_rankedResults.1 ((greedyKeep_sublist _ _).subset hx)

/-- Of each set of duplicates an entry is kept that none of the others comes before (R251). -/
theorem exists_mem_distinctResults (hy : y ∈ l) :
    ∃ x ∈ distinctResults l, x.msg = y.msg ∧ x.before y := by
  obtain ⟨x, hx, h⟩ := exists_mem_greedyKeep (dup := sameMessage) (rankedResults_pairwise l)
    (mem_rankedResults.2 hy)
  refine ⟨x, hx, ?_⟩
  rcases h with rfl | ⟨hbefore, hdup⟩
  · exact ⟨rfl, x.before_refl⟩
  · exact ⟨sameMessage_iff.1 hdup, hbefore⟩

/-- No two entries are kept with equal messages (R251). -/
theorem eq_of_mem_distinctResults (hx : x ∈ distinctResults l) (hy : y ∈ distinctResults l)
    (h : x.msg = y.msg) : x = y := by
  by_contra hne
  have : Std.Symm fun x y : Accepted => x.msg ≠ y.msg := ⟨fun _ _ => Ne.symm⟩
  exact ((distinctResults_pairwise l).imp And.right).forall hx hy hne h

end Collect

/-- Settles O57: the greedy walk over the ranked list keeps the first of equal messages, and the limit
cuts off what comes last. -/
theorem resultsAreRankedAndDistinct : Obligations.ResultsAreRankedAndDistinct := by
  intro c l before
  have hkept := distinctResults_pairwise l
  rw [collect_eq_take]
  refine ⟨hkept.sublist (List.take_sublist _ _), List.length_take_le _ _,
    fun a ha => mem_of_mem_distinctResults (List.mem_of_mem_take ha), fun a ha b hb hmsg => ?_,
    fun b hb => ?_⟩
  · obtain ⟨x, hx, hxmsg, hbefore⟩ := exists_mem_distinctResults hb
    rwa [eq_of_mem_distinctResults hx (List.mem_of_mem_take ha) (hxmsg.trans hmsg)] at hbefore
  · obtain ⟨x, hx, hxmsg, hbefore⟩ := exists_mem_distinctResults hb
    rcases mem_take_or_forall_mem_take hkept hx c.maxRes with hmem | ⟨hfull, hall⟩
    · exact .inl ⟨x, hmem, hxmsg⟩
    · refine .inr ⟨hfull, fun a ha => ?_⟩
      obtain ⟨hax, -⟩ := hall a ha
      exact Accepted.before_trans hax hbefore

end Sys2Proof.Machine
end

section
/-!
PROOFS. One candidate of SEQ.DECBUF by the unit commands DEM.DEMOD, BPD.DECODE, ENC.XTR, CKS.VFY and
PCK.UNPACK (47_sequencer.md rule R247 and section 4).
-/

namespace Sys2Proof.Machine

/-! ### What the unit commands leave for one another -/

section Units

variable {s : State} (hs : s.ready = true)
include hs

theorem exec_demDemod_leaves {i : Nat} (hspec : s.isValid .spec = true)
    (hcand : s.isValid .cand = true) (hi : i < s.ncand.toNat) :
    ∃ t, exec (.demDemod i) s = .next t ∧ t.ready = true ∧ t.isValid .llr = true ∧
      t.cfg = s.cfg ∧ t.llrAt = (s.putLlr Config.block (s.candidate i)).llrAt := by
  obtain ⟨hready, hllr⟩ := State.ready_of_written
    (s := s.putLlr Config.block (s.candidate i)) hs .llr .ok
  exact ⟨_, exec_demDemod hs hspec hcand hi, hready, hllr, rfl, rfl⟩

theorem exec_bpdDecode_leaves (hv : s.isValid .llr = true) (hm : s.cfg.maxIter ≠ 0#32) :
    ∃ t, exec .bpdDecode s = .next t ∧ t.ready = true ∧
      match bpDecode Config.block s.llrAt s.cfg.maxIter.toNat with
      | none => t.conv = false
      | some (hard, n) => t.conv = true ∧ t.isValid .cw = true ∧ t.cw = hard ∧
          t.conf = confidence s.cfg.maxIter n := by
  obtain ⟨hb, -, hq⟩ := (State.ready_iff s).1 hs
  have ht := exec_bpdDecode hs hv hm
  have hport := (exec_framed hb (by decide) ht).port
  obtain ⟨hbusy, -, hfault, -⟩ := exec_bpdDecode_status hs hv ht
  refine ⟨_, ht, (State.ready_iff _).2 ⟨hbusy, hfault, (State.quiet_congr hport).trans hq⟩, ?_⟩
  cases h : bpDecode Config.block s.llrAt s.cfg.maxIter.toNat with
  | none =>
    rw [h] at ht
    obtain ⟨-, -, hconv, -⟩ := exec_bpdDecode_exhausted hs hv ht hm h
    exact hconv
  | some r =>
    rw [h] at ht
    obtain ⟨-, hcw, heq, hconv, -, hconf⟩ := exec_bpdDecode_converged hs hv ht hm h
    exact ⟨hconv, hcw, heq, hconf⟩

theorem exec_encXtr_leaves (hv : s.isValid .cw = true) :
    ∃ t, exec .encXtr s = .next t ∧ t.ready = true ∧ t.isValid .pay = true ∧
      t.isValid .crc = true ∧ t.conf = s.conf ∧ t.pay = slice s.cw 0 77 ∧
      t.crc = slice s.cw 77 14 := by
  obtain ⟨hready, hcrc⟩ := State.ready_of_written
    (s := s.splitCodeword.setValid .pay true) hs .crc .ok
  refine ⟨_, exec_encXtr hs hv, hready, ?_, hcrc, rfl, rfl, rfl⟩
  rw [State.isValid_completed, State.isValid_setValid, if_neg (by decide),
    State.isValid_setValid_self]

theorem exec_cksVfy_leaves (hp : s.isValid .pay = true) (hv : s.isValid .crc = true) :
    ∃ t, exec .cksVfy s = .next t ∧ t.ready = true ∧ t.isValid .pay = true ∧ t.conf = s.conf ∧
      t.pay = s.pay ∧ t.crcOk = decide (crc14 Config.block s.pay = s.crc) := by
  obtain ⟨-, hf, hq⟩ := (State.ready_iff s).1 hs
  have ht := exec_cksVfy hs hp hv
  by_cases h : crc14 Config.block s.pay = s.crc
  · rw [if_pos h] at ht
    exact ⟨_, ht, State.ready_completed _ hf hq, hp, rfl, rfl, (decide_eq_true h).symm⟩
  · rw [if_neg h] at ht
    exact ⟨_, ht, State.ready_completed _ hf hq, hp, rfl, rfl, (decide_eq_false h).symm⟩

theorem exec_pckUnpack_leaves (hp : s.isValid .pay = true) :
    ∃ t, exec .pckUnpack s = .next t ∧
      match Config.block.packFmt.unpack s.pay with
      | none => t.malf = true
      | some m => t.malf = false ∧ t.message Config.block = m ∧ t.conf = s.conf := by
  cases h : Config.block.packFmt.unpack s.pay with
  | none => exact ⟨_, exec_pckUnpack_malformed hs hp h, by simp⟩
  | some m => exact ⟨_, exec_pckUnpack_message hs hp h, rfl, message_of_unpack s h, rfl⟩

end Units

/-! ### The outcome -/

section Outcome

variable {c : Config} {s : State} {k : Candidate} {hard : BitVec 174} {n : Nat}

theorem candidateOutcome_of_exhausted
    (h : bpDecode c (s.putLlr c k).llrAt s.cfg.maxIter.toNat = none) :
    candidateOutcome c s k = none := by
  rw [candidateOutcome, h]

theorem candidateOutcome_of_mismatch
    (h : bpDecode c (s.putLlr c k).llrAt s.cfg.maxIter.toNat = some (hard, n))
    (hne : crc14 c (slice hard 0 77) ≠ slice hard 77 14) : candidateOutcome c s k = none := by
  rw [candidateOutcome, h]
  exact if_neg hne

theorem candidateOutcome_of_match
    (h : bpDecode c (s.putLlr c k).llrAt s.cfg.maxIter.toNat = some (hard, n))
    (heq : crc14 c (slice hard 0 77) = slice hard 77 14) :
    candidateOutcome c s k = (c.packFmt.unpack (slice hard 0 77)).map fun m =>
      ⟨confidence s.cfg.maxIter n, BitVec.ofNat 32 k.score, BitVec.ofNat 32 k.t,
        BitVec.ofNat 32 k.f, m⟩ := by
  rw [candidateOutcome, h]
  exact if_pos heq

end Outcome

/-- Settles O58: the outcome's three tests are those of BPD.DECODE, CKS.VFY and PCK.UNPACK. -/
theorem candidateOutcomeByUnitCommands : Obligations.CandidateOutcomeByUnitCommands := by
  intro s i hs hspec hcand hi hm
  obtain ⟨t1, e1, r1, v1, hcfg, hllr⟩ := exec_demDemod_leaves hs hspec hcand hi
  obtain ⟨t2, e2, r2, hdec⟩ := exec_bpdDecode_leaves r1 v1 (hcfg ▸ hm)
  rw [hllr, hcfg] at hdec
  refine ⟨t1, t2, e1, e2, ?_⟩
  cases h : bpDecode Config.block (s.putLlr Config.block (s.candidate i)).llrAt
      s.cfg.maxIter.toNat with
  | none =>
    rw [h] at hdec
    exact ⟨fun _ => candidateOutcome_of_exhausted h, fun hconv => by simp [hdec] at hconv⟩
  | some r =>
    obtain ⟨hard, n⟩ := r
    rw [h] at hdec
    obtain ⟨hconv, v2, hcw, hconf⟩ := hdec
    refine ⟨fun hnot => by simp [hconv] at hnot, fun _ => ?_⟩
    obtain ⟨t3, e3, r3, p3, v3, hconf3, hpay, hcrc⟩ := exec_encXtr_leaves r2 v2
    obtain ⟨t4, e4, r4, p4, hconf4, hpay4, hok⟩ := exec_cksVfy_leaves r3 p3 v3
    rw [hpay, hcrc, hcw] at hok
    refine ⟨t3, t4, e3, e4, fun hno => ?_, fun hyes => ?_⟩
    · exact candidateOutcome_of_mismatch h (of_decide_eq_false (hok.symm.trans hno))
    · have hout := candidateOutcome_of_match h (of_decide_eq_true (hok.symm.trans hyes))
      obtain ⟨t5, e5, hmsg⟩ := exec_pckUnpack_leaves r4 p4
      rw [hpay4, hpay, hcw] at hmsg
      refine ⟨t5, e5, ?_⟩
      cases hu : Config.block.packFmt.unpack (slice hard 0 77) with
      | none =>
        rw [hu] at hmsg hout
        exact ⟨fun _ => hout, fun hnot => by simp [hmsg] at hnot⟩
      | some m =>
        rw [hu] at hmsg hout
        obtain ⟨hmalf, hm5, hconf5⟩ := hmsg
        refine ⟨fun hnot => by simp [hmalf] at hnot, fun _ => ?_⟩
        rw [hout, hm5, hconf5, hconf4, hconf3, hconf]
        simp [State.candidate]

end Sys2Proof.Machine
end

section
/-!
PROOFS. SEQ.DECBUF past its search: every candidate left is processed, and the run ends in COLLECT with
the results of all of them (47_sequencer.md rules R245 to R248 and R251 to R254).
-/

namespace Sys2Proof.Machine

/-! ### The end of the run -/

section Ends

variable {c : Config} {s : State}

/-- The discard at the end of a decode, and completion (R236, R254). -/
theorem discardDecode_complete (u : State) (o : Code) :
    (∀ b ∈ [Space.spec, .cand, .llr, .cw, .pay, .crc, .msg],
      (u.discardDecode.complete o).isValid b = false) ∧
      (u.discardDecode.complete o).nt = 0#32 ∧ (u.discardDecode.complete o).ncand = 0#32 ∧
      (u.discardDecode.complete o).flagsWord = 0#32 ∧ (u.discardDecode.complete o).iter = 0#32 ∧
      (u.discardDecode.complete o).conf = 0#32 := by
  have hflags := State.flagsWord_clearFlags
    (u.discardAll [.spec, .cand, .llr, .cw, .pay, .crc, .msg])
  exact ⟨fun b hb => State.isValid_discardAll_of_mem u hb, rfl, rfl, hflags, rfl, rfl⟩

/-- RES, NRES, VALID.RES and STATUS.ABORTED are not the session's. -/
theorem discardDecode_res (u : State) (o : Code) :
    (u.discardDecode.complete o).res = u.res ∧ (u.discardDecode.complete o).nres = u.nres ∧
      (u.discardDecode.complete o).isValid .res = u.isValid .res ∧
      (u.discardDecode.complete o).aborted = u.aborted := by
  refine ⟨State.discardAll_res_of_not_mem u _ (by decide),
    State.discardAll_nres_of_not_mem u _ (by decide), ?_, by simp [State.discardDecode]⟩
  exact (State.isValid_discardAll u _ _).trans (Bool.and_true _)

theorem decbufConfig_res (u : State) :
    (decbufConfig u).isValid .res = false ∧ (decbufConfig u).nres = 0#32 ∧
      (decbufConfig u).aborted = u.aborted := by
  obtain ⟨-, hnres, hvalid, haborted⟩ := discardDecode_res (u.discard .res) .config
  refine ⟨hvalid.trans ?_, hnres, haborted.trans (State.discard_aborted _ _)⟩
  rw [State.isValid_discard, if_pos rfl]

/-- COLLECT stores the ranked and distinct list of what was accepted (R245, R251, R105). -/
theorem decbufCollect_holdsResults (hc : c.Lawful) (u : State) :
    (decbufCollect c u).holdsResults c (collect c u.acc) := by
  let l := collect c u.acc
  let v := ({ u with aborted := decide (u.cidx < u.ncand.toNat) } : State).putResults c l
  obtain ⟨hres, hnres, hvalid, -⟩ := discardDecode_res v .ok
  have hlen : l.length < 2 ^ 32 := by
    have hcap := hc.resCap.2
    have hle := collect_length_le c u.acc
    have hmax : c.maxRes ≤ (8 + c.msgWords) * c.maxRes := Nat.le_mul_of_pos_left _ (by omega)
    exact lt_of_le_of_lt hle (by omega)
  refine ⟨hvalid.trans (State.isValid_setValid_self ..), ?_, fun i hi j hj => ?_⟩
  · exact (congrArg BitVec.toNat hnres).trans ((BitVec.toNat_ofNat _ _).trans (Nat.mod_eq_of_lt hlen))
  · exact (congrArg (fun m => Mem.rd m (i * resStride c + j)) hres).trans
      (State.putResults_rd c l _ hi hj)

/-- STATUS.ABORTED says whether candidates are left (R248, R282). -/
theorem decbufCollect_aborted (c : Config) (u : State) :
    (decbufCollect c u).aborted = decide (u.cidx < u.ncand.toNat) :=
  (discardDecode_res (({ u with aborted := decide (u.cidx < u.ncand.toNat) } : State).putResults c
    (collect c u.acc)) .ok).2.2.2

end Ends

/-! ### The candidates left -/

/-- SEQ.DECBUF runs in `u` on the session of `s`, its search behind it, and finds no abort request at
the boundaries to come: there is none, or there is no such boundary. -/
structure State.finishing (c : Config) (s u : State) : Prop where
  session : u.session = s.session
  phase : (u.phase.ofCandidate ∧ u.cidx < u.ncand.toNat) ∨
    (u.phase = .collect ∧ u.cidx = u.ncand.toNat)
  request : u.abortReq = true → u.phase ≠ .demod ∧ u.ncand.toNat ≤ u.cidx + 1
  progress : u.decbufOk c

section Finishing

variable {c : Config} {s u v : State}

/-- The count of internal steps is not SEQ.DECBUF's progress. -/
theorem State.decbufOk.withTicks (h : u.decbufOk c) (k : Nat) :
    ({ u with ticks := k } : State).decbufOk c :=
  have hp := h.progress
  ⟨⟨hp.accepted, hp.budget, hp.decoding, hp.decoded, hp.extracted, hp.verified⟩, h.iterating,
    h.start⟩

theorem State.finishing.withTicks (h : s.finishing c u) (k : Nat) :
    s.finishing c { u with ticks := k } :=
  ⟨h.session, h.phase, h.request, h.progress.withTicks k⟩

/-- A boundary, or COLLECT: no candidate is left there. -/
theorem State.finishing.of_toBoundary (hs : v.session = s.session)
    (hle : v.cidx ≤ v.ncand.toNat) (hreq : v.abortReq = true → v.ncand.toNat ≤ v.cidx)
    (h : v.toBoundary.decbufOk c) : s.finishing c v.toBoundary := by
  refine ⟨State.toBoundary_session.trans hs, ?_, fun ha => ?_, h⟩
  · rw [State.toBoundary_cidx, State.toBoundary_ncand]
    exact v.toBoundary_cases.imp (fun ⟨hlt, hp⟩ => ⟨.inl hp, hlt⟩) fun ⟨hge, hp⟩ =>
      ⟨hp, Nat.le_antisymm hle hge⟩
  · rw [State.toBoundary_abortReq] at ha
    rw [State.toBoundary_cidx, State.toBoundary_ncand]
    have hge := hreq ha
    rcases v.toBoundary_cases with ⟨hlt, -⟩ | ⟨-, hp⟩
    · omega
    · exact ⟨by simp [hp], by omega⟩

/-- An internal step on a candidate leaves the run finishing, with less work (R247). -/
theorem State.finishing.tick (hr : s.run = some .seqDecbuf) (h : s.finishing c u)
    (hp : u.phase.ofCandidate) :
    s.finishing c (decbufTick c u) ∧ decbufWork c (decbufTick c u) < decbufWork c u := by
  have hsession := h.session
  have hlt : u.cidx < u.ncand.toNat := by
    rcases h.phase with ⟨-, hlt⟩ | ⟨hcol, -⟩
    · exact hlt
    · simp [hcol, Phase.ofCandidate] at hp
  obtain ⟨-, -, -, -, -, -, -, hrun⟩ := State.session_eq_iff.1 hsession
  have hok := decbufTick_ok c u (hrun.trans hr) h.progress
  rcases decbufTick_of_candidate c hp with ⟨hd, ha, -⟩ | ⟨hp', hnd, hc, hs, hw⟩ | ⟨v, e, hc, hs⟩
  · exact absurd hd (h.request ha).1
  · obtain ⟨-, -, hn, hm, -, ha, -⟩ := State.session_eq_iff.1 hs
    refine ⟨⟨hs.trans hsession, .inl ⟨hp', by rwa [hc, hn]⟩, fun ha' => ?_, hok⟩, ?_⟩
    · rw [hc, hn]
      exact ⟨hnd, (h.request (ha.symm.trans ha')).2⟩
    · rw [decbufWork_of_candidate hp, decbufWork_of_candidate hp', candidatesWork, hn, hc, hm]
      exact Nat.add_lt_add_left hw _
  · obtain ⟨-, -, hn, -, -, ha, -⟩ := State.session_eq_iff.1 hs
    rw [e] at hok ⊢
    refine ⟨State.finishing.of_toBoundary (hs.trans hsession) ?_ (fun ha' => ?_) hok,
      decbufWork_nextCandidate hp hc hs⟩
    · show v.cidx + 1 ≤ v.ncand.toNat
      rw [hc, hn]
      exact hlt
    · show v.ncand.toNat ≤ v.cidx + 1
      rw [hc, hn]
      exact (h.request (ha.symm.trans ha')).2

/-- The run ends in COLLECT, with the outcomes of all candidates in the list A. -/
theorem drain_finishing {n : Nat} (hb : s.busy = true) (hq : s.quiet = true)
    (hr : s.run = some .seqDecbuf) (h : s.finishing c u) (hn : decbufWork c u < n) :
    ∃ v, drain (decbufTick c) n u = decbufCollect c v ∧ v.cidx = v.ncand.toNat ∧
      v.acc = s.outcomes c s.ncand.toNat := by
  refine drain_reaches (P := s.finishing c) (Q := fun t => ∃ v, t = decbufCollect c v ∧
    v.cidx = v.ncand.toNat ∧ v.acc = s.outcomes c s.ncand.toNat) (work := decbufWork c)
    (fun u hu => ?_) (fun t ⟨v, e, _⟩ => e ▸ rfl) (fun u k hu => ⟨hu.withTicks k, rfl⟩)
    (fun u hu => ?_) n u h hn
  · obtain ⟨-, -, -, -, hport, -, hbusy, -⟩ := State.session_eq_iff.1 hu.session
    exact ⟨hbusy.trans hb, (State.quiet_congr hport).trans hq⟩
  · rcases hu.phase with ⟨hp, -⟩ | ⟨hp, hall⟩
    · exact .inr (hu.tick hr hp)
    · obtain ⟨hspec, hcand, hncand, hcfg, -, -, -, hrun⟩ := State.session_eq_iff.1 hu.session
      refine .inl ⟨u, decbufTick_of_collect hp, hall, ?_⟩
      rw [hu.progress.progress.accepted (hrun.trans hr), hall, hncand,
        outcomes_congr hspec hcand hcfg]

end Finishing

end Sys2Proof.Machine
end

section
/-!
PROOFS. SEQ.DECBUF on a ready block (47_sequencer.md section 4): the configuration error, or the
session, the search and then all of its candidates; and that it can be issued again.
-/

namespace Sys2Proof.Machine

/-! ### What the session depends on -/

section Session

variable {c : Config} {s t : State} {n : Nat}

/-- The spectrogram of a session is made of the samples and CFG (R208). -/
theorem sessionState_congr (hsamp : t.samp = s.samp) (hcfg : t.cfg = s.cfg) :
    (sessionState c n t).spec = (sessionState c n s).spec ∧
      (sessionState c n t).nt = (sessionState c n s).nt ∧
      (sessionState c n t).cfg = (sessionState c n s).cfg := by
  have hdrop (u : State) : u.dropSession.cfg = u.cfg ∧ u.dropSession.samp = u.samp :=
    ⟨State.discardAll_cfg u _, State.discardAll_samp_of_not_mem u _ (by decide)⟩
  obtain ⟨hct, hst⟩ := hdrop t
  obtain ⟨hcs, hss⟩ := hdrop s
  simp only [sessionState, State.buildSpec, State.setValid, State.samples, hct, hst, hcs, hss, hsamp,
    hcfg, and_self]

/-- The search reads SPEC, NT and CFG (R217). -/
theorem searchResult_congr (hspec : t.spec = s.spec) (hnt : t.nt = s.nt) (hcfg : t.cfg = s.cfg) :
    searchResult c t = searchResult c s := by
  simp only [searchResult, aboveThreshold, syncScore, State.specAt, hspec, hnt, hcfg]

/-- A candidate's outcome depends on SPEC and CFG (R249). -/
theorem candidateOutcome_congr (hspec : t.spec = s.spec) (hcfg : t.cfg = s.cfg) :
    candidateOutcome c t = candidateOutcome c s := by
  have hllr (k : Candidate) : (t.putLlr c k).llrAt = (s.putLlr c k).llrAt := by
    funext i
    simp only [State.llrAt, State.putLlr, toneMagnitudes, State.specAt, hspec]
  funext k
  simp only [candidateOutcome, hllr, hcfg]

/-- The results depend on the samples and CFG (R87). -/
theorem decodeResults_congr (hsamp : t.samp = s.samp) (hcfg : t.cfg = s.cfg) :
    decodeResults c n t = decodeResults c n s := by
  obtain ⟨hspec, hnt, hsc⟩ := sessionState_congr (c := c) (n := n) hsamp hcfg
  rw [decodeResults, decodeResults, searchResult_congr hspec hnt hsc,
    candidateOutcome_congr hspec hsc]

/-- The candidates stored are those of the search, so their outcomes are those of its list (R104). -/
theorem outcomes_searched (hc : c.Lawful) (s : State) :
    (s.searched c).outcomes c (s.searched c).ncand.toNat =
      (searchResult c s).filterMap (candidateOutcome c s) := by
  have hncand : (s.searched c).ncand.toNat = (searchResult c s).length :=
    toNat_ncand_searchResult hc s
  have hlist : (List.range (searchResult c s).length).map (s.searched c).candidate =
      searchResult c s := by
    refine List.ext_getElem (by simp) fun i hi hi' => ?_
    rw [List.getElem_map, List.getElem_range]
    exact candidate_searchResult s hi'
  rw [State.outcomes, hncand, hlist, candidateOutcome_congr (t := s.searched c) (s := s) rfl rfl]

/-- After the search no candidate is accepted yet (R245). -/
theorem searched_decbufOk (hm : s.cfg.maxIter ≠ 0#32) :
    (s.searched c).toBoundary.decbufOk c := by
  have hphase : (s.searched c).toBoundary.phase = .demod ∨
      (s.searched c).toBoundary.phase = .collect :=
    (s.searched c).toBoundary_cases.imp And.right And.right
  refine ⟨⟨fun _ => ?_, fun _ _ => ?_, ?_, ?_, ?_, ?_⟩, ?_, ?_⟩
  · simp [State.searched, State.outcomes]
  · simpa [State.searched] using hm
  all_goals
    intro _ h
    rcases hphase with hp | hp <;> simp [hp] at h

end Session

/-! ### The command -/

theorem decbufCfgBad_of_none {c : Config} {r : CfgRegs} (h : sps c r.fs = none) :
    decbufCfgBad c r = true := by
  rw [decbufCfgBad, h]

theorem decbufCfgBad_iff {c : Config} {r : CfgRegs} {n : Nat} (h : sps c r.fs = some n) :
    decbufCfgBad c r = true ↔
      r.maxIter = 0#32 ∨ searchCfgBad c r (r.nsamp.toNat / n) = true := by
  rw [decbufCfgBad, h]
  simp

section Ticks

variable {c : Config} {s : State}

/-- With a malformed configuration SEQ.DECBUF ends at its first internal step (R246). -/
theorem drain_decbufTick_config (m : Nat) (hb : s.busy = true) (hq : s.quiet = true)
    (hp : s.phase = .cfgchk) (h : decbufCfgBad c s.cfg = true) :
    drain (decbufTick c) (m + 1) s = decbufConfig { s with ticks := s.ticks + 1 } := by
  rw [drain_succ m hb hq, decbufTick_of_cfgchk (u := { s with ticks := s.ticks + 1 }) hp, if_pos h]
  exact drain_of_idle m rfl

/-- SEQ.DECBUF with its session begun, in phase SEARCH after two internal steps (R245). -/
def State.toSearch (c : Config) (n : Nat) (s : State) : State :=
  { sessionState c n { s with phase := .build, ticks := s.ticks + 2 } with phase := .search }

/-- With a good one it builds the spectrogram and comes to its search (R245). -/
theorem drain_decbufTick_toSearch {n : Nat} (m : Nat) (hb : s.busy = true) (hq : s.quiet = true)
    (hp : s.phase = .cfgchk) (h : decbufCfgBad c s.cfg = false) (hn : sps c s.cfg.fs = some n) :
    drain (decbufTick c) (m + 2) s = drain (decbufTick c) m (s.toSearch c n) := by
  rw [drain_succ _ hb hq, decbufTick_of_cfgchk (u := { s with ticks := s.ticks + 1 }) hp,
    if_neg (by simp [h]),
    drain_succ (s := { s with phase := .build, ticks := s.ticks + 1 }) m hb hq,
    decbufTick_of_build (u := { s with phase := .build, ticks := s.ticks + 2 }) rfl hn]
  rfl

/-- What the search reads is the session's. -/
theorem toSearch_inputs (c : Config) (n : Nat) (s : State) :
    (s.toSearch c n).spec = (sessionState c n s).spec ∧
      (s.toSearch c n).nt = (sessionState c n s).nt ∧
      (s.toSearch c n).cfg = (sessionState c n s).cfg :=
  sessionState_congr (t := { s with phase := .build, ticks := s.ticks + 2 }) rfl rfl

theorem sessionState_cfg (c : Config) (n : Nat) (s : State) : (sessionState c n s).cfg = s.cfg :=
  State.discardAll_cfg s _

/-- Beginning the session leaves the run and the host's requests alone. -/
theorem toSearch_control (c : Config) (n : Nat) (s : State) :
    (s.toSearch c n).busy = s.busy ∧ (s.toSearch c n).port = s.port ∧
      (s.toSearch c n).run = s.run ∧ (s.toSearch c n).abortReq = s.abortReq := by
  simp [State.toSearch, sessionState, State.dropSession]

/-- After its search it processes all of the candidates when no abort is requested (R245, R248). -/
theorem drain_decbufTick_of_search {m : Nat} (hc : c.Lawful) (hb : s.busy = true)
    (hq : s.quiet = true) (hr : s.run = some .seqDecbuf) (hp : s.phase = .search)
    (ha : s.abortReq = false) (hm : s.cfg.maxIter ≠ 0#32) (hw : decbufWork c s ≤ m) :
    ∃ v, drain (decbufTick c) (m + 1) s = decbufCollect c v ∧ v.cidx = v.ncand.toNat ∧
      v.acc = (searchResult c s).filterMap (candidateOutcome c s) := by
  let u : State := { s with ticks := s.ticks + 1 }
  let b := (u.searched c).toBoundary
  have hstep : drain (decbufTick c) (m + 1) s = drain (decbufTick c) m b := by
    rw [drain_succ m hb hq, decbufTick_of_search (u := u) hp]
  have hsession : b.session = (u.searched c).session := State.toBoundary_session
  obtain ⟨hspec, hcand, hncand, hcfg, hport, hreq, hbusy, hrun⟩ := State.session_eq_iff.1 hsession
  have hb' : b.busy = true := hbusy.trans hb
  have hfin : b.finishing c b := .of_toBoundary hsession.symm (Nat.zero_le _)
    (fun h => absurd (h.symm.trans ha) (by decide)) (searched_decbufOk hm)
  have hwork : decbufWork c b < m :=
    lt_of_lt_of_le (decbufWork_searched (u := u) hp) hw
  obtain ⟨v, e, hall, hacc⟩ := drain_finishing hb' ((State.quiet_congr hport).trans hq)
    (hrun.trans hr) hfin hwork
  refine ⟨v, hstep.trans e, hall, ?_⟩
  rw [hacc, hncand, outcomes_congr hspec hcand hcfg, outcomes_searched hc]
  rfl

/-- From its acceptance SEQ.DECBUF with a good configuration comes to the results of all candidates
when no abort is requested (R245). -/
theorem drain_decbufTick_results {m n : Nat} (hc : c.Lawful) (hb : s.busy = true)
    (hq : s.quiet = true) (hr : s.run = some .seqDecbuf) (hp : s.phase = .cfgchk)
    (ha : s.abortReq = false) (h : decbufCfgBad c s.cfg = false) (hn : sps c s.cfg.fs = some n)
    (hw : decbufWork c s < m + 3) :
    ∃ v, drain (decbufTick c) (m + 3) s = decbufCollect c v ∧ v.cidx = v.ncand.toNat ∧
      collect c v.acc = decodeResults c n s := by
  obtain ⟨hspec, hnt, hcfg⟩ := toSearch_inputs c n s
  obtain ⟨hbusy, hport, hrun, hreq⟩ := toSearch_control c n s
  have hcfg' : (s.toSearch c n).cfg = s.cfg := hcfg.trans (sessionState_cfg c n s)
  have hm : s.cfg.maxIter ≠ 0#32 := fun hm => by
    simp [(decbufCfgBad_iff hn).2 (.inl hm)] at h
  have hwork : decbufWork c (s.toSearch c n) ≤ m := by
    have e1 : decbufWork c (s.toSearch c n) = candidatesWork (s.toSearch c n) c.maxCand + 1 := rfl
    have e2 : decbufWork c s = candidatesWork s c.maxCand + 3 := by simp only [decbufWork, hp]
    rw [candidatesWork, hcfg'] at e1
    rw [candidatesWork] at e2
    omega
  obtain ⟨v, e, hall, hacc⟩ := drain_decbufTick_of_search hc (hbusy.trans hb)
    ((State.quiet_congr hport).trans hq) (hrun.trans hr) rfl (hreq.trans ha)
    (by rw [hcfg']; exact hm) hwork
  refine ⟨v, (drain_decbufTick_toSearch (m + 1) hb hq hp h hn).trans e, hall, ?_⟩
  rw [hacc, decodeResults, searchResult_congr hspec hnt hcfg, candidateOutcome_congr hspec hcfg]

end Ticks

section Command

variable {s : State} (hs : s.ready = true) (hv : s.isValid .samp = true)
  (h1 : 1 ≤ s.cfg.nsamp.toNat) (hmax : s.cfg.nsamp.toNat ≤ Config.block.maxSamples)
include hs hv h1 hmax

/-- SEQ.DECBUF on a ready block with samples is accepted and runs (R236, R245). -/
theorem exec_seqDecbuf_eq_drain : exec .seqDecbuf s = .next
    (drain (decbufTick Config.block) (decbufFuel Config.block s)
      (s.accept .seqDecbuf .cfgchk)) := by
  obtain ⟨hb, hf, -⟩ := (State.ready_iff s).1 hs
  exact congrArg Host.Outcome.next (runCommand_of_accept hf hb (samplesCheck_eq_none hv h1 hmax))

/-- SEQ.DECBUF discards RES where the configuration is malformed (R245, R246). -/
theorem exec_seqDecbuf_config (h : decbufCfgBad Config.block s.cfg = true) :
    exec .seqDecbuf s = .next (decbufConfig (s.started .seqDecbuf .cfgchk)) := by
  obtain ⟨-, -, hq⟩ := (State.ready_iff s).1 hs
  rw [exec_seqDecbuf_eq_drain hs hv h1 hmax]
  exact congrArg Host.Outcome.next
    (drain_decbufTick_config _ (s := s.accept .seqDecbuf .cfgchk) rfl hq rfl h)

/-- SEQ.DECBUF on which no abort request lands collects the results of all candidates (R245). -/
theorem exec_seqDecbuf_results {n : Nat} (hn : sps Config.block s.cfg.fs = some n)
    (h : decbufCfgBad Config.block s.cfg = false) :
    ∃ v, exec .seqDecbuf s = .next (decbufCollect Config.block v) ∧ v.cidx = v.ncand.toNat ∧
      collect Config.block v.acc = decodeResults Config.block n s := by
  obtain ⟨-, -, hq⟩ := (State.ready_iff s).1 hs
  obtain ⟨m, hm⟩ : ∃ m, decbufFuel Config.block s = m + 3 := ⟨_, rfl⟩
  have hw : decbufWork Config.block (s.accept .seqDecbuf .cfgchk) < decbufFuel Config.block s :=
    decbufWork_lt Config.block (s.accept .seqDecbuf .cfgchk)
  rw [exec_seqDecbuf_eq_drain hs hv h1 hmax]
  rw [hm] at hw ⊢
  obtain ⟨v, e, hall, hacc⟩ := drain_decbufTick_results (s := s.accept .seqDecbuf .cfgchk)
    Config.block_lawful rfl hq rfl rfl rfl h hn hw
  exact ⟨v, congrArg Host.Outcome.next e, hall, hacc.trans (decodeResults_congr rfl rfl)⟩

/-- SEQ.DECBUF on a ready block with samples completes without a fault, and the host's requests and
FAULTINFO keep their values (R236, R262). -/
theorem exec_seqDecbuf_status {t : State} (ht : exec .seqDecbuf s = .next t) :
    t.busy = false ∧ t.done = true ∧ t.fault = false ∧ t.faultInfo = s.faultInfo ∧
      t.abortReq = false := by
  obtain ⟨-, hf, hq⟩ := (State.ready_iff s).1 hs
  have hdrain := Host.Outcome.next.inj ((exec_seqDecbuf_eq_drain hs hv h1 hmax).symm.trans ht)
  obtain ⟨⟨hbusy, hdone⟩, -⟩ := drain_ended (c := Config.block) (i := .seqDecbuf)
    (s := s.accept .seqDecbuf .cfgchk) rfl hq (by simp [phasesOf])
  have hreq := drain_induct (P := fun u => u.requests = (s.accept .seqDecbuf .cfgchk).requests)
    (fun u _ hu => (decbufTick_requests Config.block { u with ticks := u.ticks + 1 }).trans hu)
    (decbufFuel Config.block s) _ rfl
  rw [hdrain] at hreq
  simp only [State.requests, Prod.mk.injEq] at hreq
  obtain ⟨hfault, hinfo, habort⟩ := hreq
  exact ⟨hdrain ▸ hbusy, hdrain ▸ hdone, hfault.trans hf, hinfo, habort⟩

/-- SEQ.DECBUF ends in its discard and its completion, and no candidate is abandoned (R236, R248,
R254). -/
theorem exec_seqDecbuf_ends : ∃ (u : State) (o : Code),
    exec .seqDecbuf s = .next (u.discardDecode.complete o) ∧
      (u.discardDecode.complete o).aborted = false := by
  cases hbad : decbufCfgBad Config.block s.cfg with
  | true =>
    obtain ⟨-, -, haborted⟩ := decbufConfig_res (s.started .seqDecbuf .cfgchk)
    exact ⟨_, _, exec_seqDecbuf_config hs hv h1 hmax hbad, haborted⟩
  | false =>
    cases hn : sps Config.block s.cfg.fs with
    | none => simp [decbufCfgBad_of_none hn] at hbad
    | some n =>
      obtain ⟨v, ht, hall, -⟩ := exec_seqDecbuf_results hs hv h1 hmax hn hbad
      have haborted := decbufCollect_aborted Config.block v
      rw [hall, decide_eq_false (Nat.lt_irrefl _)] at haborted
      exact ⟨_, _, ht, haborted⟩

variable {t : State} (ht : exec .seqDecbuf s = .next t)
include ht

/-- With a malformed configuration SEQ.DECBUF leaves no results (R245, R246). -/
theorem exec_seqDecbuf_no_results (h : decbufCfgBad Config.block s.cfg = true) :
    t.lastErr = 2#8 ∧ t.isValid .res = false ∧ t.nres = 0#32 := by
  obtain rfl := Host.Outcome.next.inj ((exec_seqDecbuf_config hs hv h1 hmax h).symm.trans ht)
  obtain ⟨hvalid, hnres, -⟩ := decbufConfig_res (s.started .seqDecbuf .cfgchk)
  exact ⟨rfl, hvalid, hnres⟩

/-- With a good one it leaves the results of all candidates (R245). -/
theorem exec_seqDecbuf_holdsResults {n : Nat} (hn : sps Config.block s.cfg.fs = some n)
    (h : decbufCfgBad Config.block s.cfg = false) :
    t.lastErr = 0#8 ∧ t.holdsResults Config.block (decodeResults Config.block n s) := by
  obtain ⟨v, e, -, hres⟩ := exec_seqDecbuf_results hs hv h1 hmax hn h
  obtain rfl := Host.Outcome.next.inj (e.symm.trans ht)
  exact ⟨rfl, hres ▸ decbufCollect_holdsResults Config.block_lawful v⟩

end Command

/-- Settles O35: the two ends are the configuration error's and COLLECT's, and what they leave alone, a
command of its row leaves alone. -/
theorem decbufCompletes : Obligations.DecbufCompletes := by
  intro s hs hv h1 hmax
  obtain ⟨u, o, ht, haborted⟩ := exec_seqDecbuf_ends hs hv h1 hmax
  obtain ⟨hbusy, hdone, hfault, hinfo, hreq⟩ := exec_seqDecbuf_status hs hv h1 hmax ht
  obtain ⟨hdisc, hnt, hncand, hflags, hiter, hconf⟩ := discardDecode_complete u o
  obtain ⟨hb, -, -⟩ := (State.ready_iff s).1 hs
  have hne : Instr.seqDecbuf ≠ .sysSrst := by decide
  have hframe := exec_framed hb hne ht
  have hrow : ∀ b ∈ [Space.sym, .samp, .wave], b ∉ touched .seqDecbuf := by decide
  have hnwave := Option.some.inj (exec_counterOf hb hne ht (b := .wave) (by decide))
  refine ⟨_, ht, hbusy, hdone, hfault, haborted, rfl, rfl, rfl, hdisc, hnt, hncand, hflags, hiter,
    hconf, fun b hb => ?_, hnwave, hframe.cfg, hframe.port, hreq, hinfo, ?_⟩
  · obtain ⟨hsame, hvalid, -⟩ := hframe.buffers b (hrow b hb)
    exact ⟨hsame, hvalid⟩
  cases hn : sps Config.block s.cfg.fs with
  | none => exact exec_seqDecbuf_no_results hs hv h1 hmax ht (decbufCfgBad_of_none hn)
  | some n =>
    dsimp only
    split
    next hbad => exact exec_seqDecbuf_no_results hs hv h1 hmax ht ((decbufCfgBad_iff hn).2 hbad)
    next hgood =>
      exact exec_seqDecbuf_holdsResults hs hv h1 hmax ht hn
        (Bool.eq_false_iff.2 fun hbad => hgood ((decbufCfgBad_iff hn).1 hbad))

/-! ### Issued again -/

/-- What RES holds as a list, it holds word by word (R105). -/
theorem State.holdsResults.unique {c : Config} {l : List Accepted} {t u : State}
    (ht : t.holdsResults c l) (hu : u.holdsResults c l) : u.isValid .res = t.isValid .res ∧
      u.nres = t.nres ∧ ∀ i < t.nres.toNat * (8 + c.msgWords), u.res.rd i = t.res.rd i := by
  obtain ⟨tvalid, tlen, twords⟩ := ht
  obtain ⟨uvalid, ulen, uwords⟩ := hu
  refine ⟨uvalid.trans tvalid.symm, BitVec.eq_of_toNat_eq (ulen.trans tlen.symm), fun i hi => ?_⟩
  rw [tlen] at hi
  have hrec : i / (8 + c.msgWords) < l.length := Nat.div_lt_of_lt_mul (by rwa [Nat.mul_comm])
  have hword : i % (8 + c.msgWords) < 8 + c.msgWords := Nat.mod_lt _ (by omega)
  rw [← Nat.div_add_mod' i (8 + c.msgWords), uwords _ hrec _ hword, twords _ hrec _ hword]

/-- Settles O59: SEQ.DECBUF leaves a ready block with the samples and CFG it began with, and nothing
else says what its results are. -/
theorem decbufIsRestartable : Obligations.DecbufIsRestartable := by
  intro s hs hv h1 hmax
  obtain ⟨a, o, ht, -⟩ := exec_seqDecbuf_ends hs hv h1 hmax
  generalize a.discardDecode.complete o = t at ht
  obtain ⟨hbusy, -, hfault, -⟩ := exec_seqDecbuf_status hs hv h1 hmax ht
  obtain ⟨hb, -, hq⟩ := (State.ready_iff s).1 hs
  have hframe := exec_framed hb (by decide) ht
  have hcfg := hframe.cfg
  obtain ⟨hsamp, hvalid, -⟩ := hframe.buffers .samp (by decide)
  have hsamp : t.samp = s.samp := hsamp
  have ht' : t.ready = true :=
    (State.ready_iff t).2 ⟨hbusy, hfault, (State.quiet_congr hframe.port).trans hq⟩
  have hv' := hvalid.trans hv
  have h1' : 1 ≤ t.cfg.nsamp.toNat := by rwa [hcfg]
  have hmax' : t.cfg.nsamp.toNat ≤ Config.block.maxSamples := by rwa [hcfg]
  obtain ⟨a', o', hu, -⟩ := exec_seqDecbuf_ends ht' hv' h1' hmax'
  generalize a'.discardDecode.complete o' = u at hu
  obtain ⟨-, -, hfault', -⟩ := exec_seqDecbuf_status ht' hv' h1' hmax' hu
  refine ⟨t, u, ht, hu, hsamp, hv', hcfg, hfault, hfault', ?_⟩
  cases hbad : decbufCfgBad Config.block s.cfg with
  | true =>
    obtain ⟨-, tvalid, tnres⟩ := exec_seqDecbuf_no_results hs hv h1 hmax ht hbad
    obtain ⟨-, uvalid, unres⟩ := exec_seqDecbuf_no_results ht' hv' h1' hmax' hu (by rwa [hcfg])
    refine ⟨uvalid.trans tvalid.symm, unres.trans tnres.symm, fun i hi => ?_⟩
    simp [tnres] at hi
  | false =>
    cases hn : sps Config.block s.cfg.fs with
    | none => simp [decbufCfgBad_of_none hn] at hbad
    | some n =>
      obtain ⟨-, tres⟩ := exec_seqDecbuf_holdsResults hs hv h1 hmax ht hn hbad
      obtain ⟨-, ures⟩ := exec_seqDecbuf_holdsResults ht' hv' h1' hmax' hu (n := n)
        (by rwa [hcfg]) (by rwa [hcfg])
      rw [decodeResults_congr hsamp hcfg] at ures
      exact tres.unique ures

end Sys2Proof.Machine
end

section
/-!
PROOFS. The abort request (47_sequencer.md rule R248): no internal step but the one at a candidate
boundary reads it or changes it.
-/

namespace Sys2Proof.Machine

section Request

variable {c : Config} {s t u v : State} {b : Bool} {i : Instr}

/-! ### The state's operations -/

/-- A branch on what is not the request. -/
theorem ite_withAbortReq {p q : Prop} [Decidable p] [Decidable q] (hpq : q = p)
    (ht : u = s.withAbortReq b) (hf : v = t.withAbortReq b) :
    (if q then u else v) = (if p then s else t).withAbortReq b := by
  rw [apply_ite (State.withAbortReq b)]
  exact ite_congr hpq (fun _ => ht) fun _ => hf

theorem State.withAbortReq_discard (d : Space) :
    (s.withAbortReq b).discard d = (s.discard d).withAbortReq b := by
  cases d <;> rfl

theorem State.withAbortReq_discardAll (l : List Space) :
    (s.withAbortReq b).discardAll l = (s.discardAll l).withAbortReq b := by
  induction l generalizing s with
  | nil => rfl
  | cons d l ih =>
    calc (s.withAbortReq b).discardAll (d :: l)
      _ = ((s.withAbortReq b).discard d).discardAll l := rfl
      _ = ((s.discard d).withAbortReq b).discardAll l := by rw [State.withAbortReq_discard]
      _ = (s.discardAll (d :: l)).withAbortReq b := ih

theorem State.withAbortReq_discardEncode :
    (s.withAbortReq b).discardEncode = s.discardEncode.withAbortReq b :=
  congrArg State.clearFlags (State.withAbortReq_discardAll _)

theorem State.withAbortReq_toBoundary :
    (s.withAbortReq b).toBoundary = s.toBoundary.withAbortReq b :=
  ite_withAbortReq rfl rfl rfl

theorem State.withAbortReq_nextCandidate :
    (s.withAbortReq b).nextCandidate = s.nextCandidate.withAbortReq b :=
  ite_withAbortReq rfl rfl rfl

theorem State.withAbortReq_discardDecode :
    (s.withAbortReq b).discardDecode = s.discardDecode.withAbortReq b :=
  congrArg (fun u : State => { u.clearFlags.scrambleBp with cidx := 0, iterT := 0, acc := [] })
    (State.withAbortReq_discardAll _)

/-! ### The ends of the commands -/

theorem encmsgConfig_withAbortReq :
    encmsgConfig (s.withAbortReq b) = (encmsgConfig s).withAbortReq b := by
  rw [encmsgConfig, State.withAbortReq_discard, State.withAbortReq_discardEncode]
  rfl

theorem decbufConfig_withAbortReq :
    decbufConfig (s.withAbortReq b) = (decbufConfig s).withAbortReq b := by
  rw [decbufConfig, State.withAbortReq_discard, State.withAbortReq_discardDecode]
  rfl

theorem decbufCollect_withAbortReq :
    decbufCollect c (s.withAbortReq b) = (decbufCollect c s).withAbortReq b :=
  congrArg (State.complete .ok) (State.withAbortReq_discardDecode (s :=
    ({ s with aborted := decide (s.cidx < s.ncand.toNat) } : State).putResults c (collect c s.acc)))

/-! ### The internal steps -/

theorem bpdTick_withAbortReq : bpdTick c (s.withAbortReq b) = (bpdTick c s).withAbortReq b :=
  ite_withAbortReq rfl rfl (ite_withAbortReq rfl rfl (ite_withAbortReq rfl rfl rfl))

theorem encmsgTick_withAbortReq :
    encmsgTick c (s.withAbortReq b) = (encmsgTick c s).withAbortReq b := by
  cases hp : s.phase with
  | cfgchk =>
    cases hn : waveLength c s.cfg.fs with
    | none => simp only [encmsgTick, State.withAbortReq_phase, State.withAbortReq_cfg, hp, hn,
        encmsgConfig_withAbortReq]
    | some n =>
      simp only [encmsgTick, State.withAbortReq_phase, State.withAbortReq_cfg, hp, hn]
      rfl
  | synth =>
    cases hn : waveLength c s.cfg.fs with
    | none => simp only [encmsgTick, State.withAbortReq_phase, State.withAbortReq_cfg, hp, hn,
        encmsgConfig_withAbortReq]
    | some n =>
      simp only [encmsgTick, State.withAbortReq_phase, State.withAbortReq_cfg, hp, hn]
      exact congrArg (State.complete .ok) (State.withAbortReq_discardEncode (s := s.putWave c n))
  | pack | map =>
    simp only [encmsgTick, State.withAbortReq_phase, hp]
    rfl
  | cksgen =>
    simp only [encmsgTick, State.withAbortReq_phase, hp, State.withAbortReq_pay]
    generalize crc14 c s.pay = x
    rfl
  | fecenc =>
    have e : (s.withAbortReq b).fecInput = s.fecInput := rfl
    simp only [encmsgTick, State.withAbortReq_phase, hp, e]
    generalize fecEncode c s.fecInput = x
    rfl
  | _ => simp only [encmsgTick, State.withAbortReq_phase, hp]

/-- Between two candidate boundaries SEQ.DECBUF does not look at the request (R248). -/
theorem decbufTick_withAbortReq (hd : s.phase ≠ .demod) :
    decbufTick c (s.withAbortReq b) = (decbufTick c s).withAbortReq b := by
  cases hp : s.phase with
  | cfgchk =>
    rw [decbufTick_of_cfgchk hp, decbufTick_of_cfgchk (u := s.withAbortReq b) hp]
    exact ite_withAbortReq rfl decbufConfig_withAbortReq rfl
  | build =>
    cases hn : sps c s.cfg.fs with
    | none =>
      rw [decbufTick_of_build_config hp hn,
        decbufTick_of_build_config (u := s.withAbortReq b) hp hn, decbufConfig_withAbortReq]
    | some n =>
      rw [decbufTick_of_build hp hn, decbufTick_of_build (u := s.withAbortReq b) hp hn]
      exact congrArg (fun u : State => { u.buildSpec c n with phase := .search })
        (State.withAbortReq_discardAll _)
  | search =>
    rw [decbufTick_of_search hp, decbufTick_of_search (u := s.withAbortReq b) hp]
    exact State.withAbortReq_toBoundary (s := s.searched c)
  | demod => exact absurd hp hd
  | fecdec =>
    simp only [decbufTick, State.withAbortReq_phase, hp]
    exact ite_withAbortReq rfl rfl (ite_withAbortReq rfl
      (State.withAbortReq_nextCandidate (s := s.iterateBp c)) rfl)
  | xtr =>
    simp only [decbufTick, State.withAbortReq_phase, hp]
    rfl
  | cksvfy =>
    simp only [decbufTick, State.withAbortReq_phase, hp]
    exact ite_withAbortReq rfl rfl State.withAbortReq_nextCandidate
  | unpack =>
    cases hm : c.packFmt.unpack s.pay with
    | none => simp only [decbufTick, State.withAbortReq_phase, State.withAbortReq_pay, hp, hm,
        State.withAbortReq_nextCandidate]
    | some m =>
      simp only [decbufTick, State.withAbortReq_phase, State.withAbortReq_pay, hp, hm]
      exact State.withAbortReq_nextCandidate
        (s := { s.putMessage c m with acc := s.acc ++ [s.acceptedEntry m] })
  | collect =>
    rw [decbufTick_of_collect hp, decbufTick_of_collect (u := s.withAbortReq b) hp,
      decbufCollect_withAbortReq]
  | _ => simp only [decbufTick, State.withAbortReq_phase, hp]

theorem pckUnpackBody_withAbortReq :
    pckUnpackBody c (s.withAbortReq b) = (pckUnpackBody c s).withAbortReq b := by
  cases hm : c.packFmt.unpack s.pay <;>
    simp only [pckUnpackBody, State.withAbortReq_pay, hm] <;> rfl

theorem modSynthBody_withAbortReq :
    modSynthBody c (s.withAbortReq b) = (modSynthBody c s).withAbortReq b := by
  cases hn : waveLength c s.cfg.fs <;>
    simp only [modSynthBody, State.withAbortReq_cfg, hn] <;> rfl

theorem synBuildBody_withAbortReq :
    synBuildBody c (s.withAbortReq b) = (synBuildBody c s).withAbortReq b := by
  have hdrop : (s.withAbortReq b).dropSession = s.dropSession.withAbortReq b :=
    State.withAbortReq_discardAll _
  cases hn : sps c s.cfg.fs <;>
    simp only [synBuildBody, State.withAbortReq_cfg, hn, hdrop] <;> rfl

/-- No internal step but the one at a candidate boundary reads ABORT_REQ or writes it (R248). -/
theorem tickOf_withAbortReq (hi : i ≠ .sysSrst) (hd : ¬(i = .seqDecbuf ∧ s.phase = .demod)) :
    tickOf c i (s.withAbortReq b) = (tickOf c i s).withAbortReq b := by
  cases i with
  | cksGen =>
    change cksGenBody c (s.withAbortReq b) = (cksGenBody c s).withAbortReq b
    simp only [cksGenBody, State.withAbortReq_pay]
    generalize crc14 c s.pay = x
    rfl
  | cksVfy => exact ite_withAbortReq rfl rfl rfl
  | pckUnpack => exact pckUnpackBody_withAbortReq
  | encEncode =>
    have e : (s.withAbortReq b).fecInput = s.fecInput := rfl
    change encEncodeBody c (s.withAbortReq b) = (encEncodeBody c s).withAbortReq b
    simp only [encEncodeBody, e]
    generalize fecEncode c s.fecInput = x
    rfl
  | bpdDecode => exact bpdTick_withAbortReq
  | modSynth => exact modSynthBody_withAbortReq
  | synBuild => exact synBuildBody_withAbortReq
  | synSearch => exact ite_withAbortReq rfl rfl rfl
  | seqEncmsg => exact encmsgTick_withAbortReq
  | seqDecbuf => exact decbufTick_withAbortReq fun hp => hd ⟨rfl, hp⟩
  | sysSrst => exact absurd rfl hi
  | _ => rfl

end Request

end Sys2Proof.Machine
end

section
/-!
PROOFS. The list A of the running SEQ.DECBUF holds the outcomes of the candidates before CIDX
(47_sequencer.md rules R245, R247): every step keeps `State.progressOk`.
-/

namespace Sys2Proof.Machine

section Progress

variable {c : Config} {s t : State} {i : Instr}

/-- Only SEQ.DECBUF makes this progress. -/
theorem State.progressOk_of_run_ne (h : s.run ≠ some .seqDecbuf) : s.progressOk c :=
  ⟨fun hr => absurd hr h, fun hr => absurd hr h, fun hr => absurd hr h, fun hr => absurd hr h,
    fun hr => absurd hr h, fun hr => absurd hr h⟩

theorem State.restingOk.progressOk (h : s.restingOk c) : s.progressOk c :=
  State.progressOk_of_run_ne (by simp [h.run])

theorem State.runningOk.progressOk (h : s.runningOk c i) (hi : i ≠ .seqDecbuf) :
    s.progressOk c :=
  State.progressOk_of_run_ne (by simp [h.run, hi])

/-- Neither the port and ABORT_REQ nor the count of internal steps is SEQ.DECBUF's progress. -/
theorem State.progressOk.withHost (h : s.progressOk c) (p : List PortEvent) (r : Word) (a : Bool)
    (k : Nat) : ({ s with port := p, rdata := r, abortReq := a, ticks := k } : State).progressOk c :=
  ⟨h.accepted, h.budget, h.decoding, h.decoded, h.extracted, h.verified⟩

/-- A freshly accepted SEQ.DECBUF has the list A empty (R245). -/
theorem State.runningOk.progressOk_of_cfgchk (h : s.runningOk c .seqDecbuf)
    (hp : s.phase = .cfgchk) : s.progressOk c := by
  obtain ⟨h0, ha⟩ := h.start (.inr (.inl hp))
  exact
    { accepted := fun _ => by simp [h0, ha, State.outcomes]
      budget := fun _ hne => absurd hp hne
      decoding := by simp [hp]
      decoded := by simp [hp]
      extracted := by simp [hp]
      verified := by simp [hp] }

/-- What the internal steps of SEQ.DECBUF keep, the invariants of its run hold. -/
theorem State.runningOk.decbufOk (h : s.runningOk c .seqDecbuf) (hp : s.progressOk c) :
    s.decbufOk c where
  progress := hp
  iterating hr hphase :=
    (h.iterating hphase).resolve_right (hp.budget hr (by simp [hphase]))
  start _ hphase := h.start (.inr hphase)

theorem tickOf_progressOk (h : s.runningOk c i) (hp : s.progressOk c) :
    (tickOf c i s).progressOk c := by
  by_cases hi : i = .seqDecbuf
  · subst hi
    exact (decbufTick_ok c s h.run (h.decbufOk hp)).progress
  · rcases tickOf_modes h with ht | ht
    · exact ht.progressOk
    · exact ht.progressOk hi

/-- A command that runs for a while keeps it. -/
theorem drain_progressOk (h : s.runningOk c i) (hp : s.progressOk c) (n : Nat) :
    (drain (tickOf c i) n s).progressOk c := by
  have key := drain_induct (P := fun u => (u.restingOk c ∨ u.runningOk c i) ∧ u.progressOk c)
    (tick := tickOf c i) (fun u hb ⟨hu, hup⟩ => ?_) n s ⟨.inr h, hp⟩
  · exact key.2
  · have hrun : u.runningOk c i := hu.resolve_left fun hu => by simp [hu.busy] at hb
    have hrun' := hrun.withHost u.port u.rdata u.abortReq (u.ticks + 1)
    exact ⟨tickOf_modes hrun',
      tickOf_progressOk hrun' (hup.withHost u.port u.rdata u.abortReq (u.ticks + 1))⟩

end Progress

/-! ### Steps -/

section Steps

variable {s t : State}

/-- Every command keeps it: a command that is accepted starts afresh. -/
theorem exec_progressOk {i : Instr} (hs : s.consistent Config.block) (h : exec i s = .next t) :
    t.progressOk Config.block := by
  by_cases hi : i = .sysSrst
  · subst hi
    rw [← Host.Outcome.next.inj h]
    unfold sysSrst
    split
    · exact (hs.raise _).progressOk
    · exact (State.resetBlock_restingOk _ s).progressOk
  rcases exec_cases hi h with ⟨p, rfl⟩ | ⟨hf, hb, ⟨rfl, rfl⟩ | ⟨hn, n, rfl⟩⟩
  · exact (hs.raise p).progressOk
  · exact State.progressOk_of_run_ne (by simp)
  · have hrun := accept_runningOk (hs.resting hb) hf hn hi
    refine drain_progressOk hrun ?_ n
    by_cases hd : i = .seqDecbuf
    · subst hd
      exact hrun.progressOk_of_cfgchk rfl
    · exact hrun.progressOk hd

theorem issue_progressOk {w : Word} (hs : s.consistent Config.block)
    (hp : s.progressOk Config.block) (h : issue exec w s = .next t) :
    t.progressOk Config.block := by
  unfold issue at h
  split at h
  · split at h
    · exact exec_progressOk hs h
    · rwa [← Host.Outcome.next.inj h]
  · split at h
    · rw [← Host.Outcome.next.inj h]
      exact (hs.raise _).progressOk
    · rw [← Host.Outcome.next.inj h]
      exact (hs.raise _).progressOk
    · exact exec_progressOk hs h

theorem hostWr_progressOk {space : BitVec 4} {index : BitVec 28} {v : Word}
    (hs : s.consistent Config.block) (hp : s.progressOk Config.block)
    (h : hostWr Config.block exec space index v s = .next t) : t.progressOk Config.block := by
  have idle (u : State) (hb : s.busy = false) (hu : u.run = s.run) : u.progressOk Config.block :=
    State.progressOk_of_run_ne (by simp [hu, (hs.resting hb).run])
  rcases hostWr_cases Config.block exec space index v s with ⟨p, e⟩ | ⟨-, -, -, e⟩ |
    ⟨hb, -, r, e, -⟩ | ⟨-, -, -, e⟩ | ⟨hb, -, -, e⟩ | ⟨hb, -, b, -, -, e⟩ | ⟨-, e⟩
  · obtain rfl := Host.Outcome.next.inj (e.symm.trans h)
    exact (hs.raise p).progressOk
  · exact issue_progressOk hs hp (e.symm.trans h)
  · obtain rfl := Host.Outcome.next.inj (e.symm.trans h)
    exact idle _ hb rfl
  · obtain rfl := Host.Outcome.next.inj (e.symm.trans h)
    exact hp.withHost s.port s.rdata _ s.ticks
  · obtain rfl := Host.Outcome.next.inj (e.symm.trans h)
    exact idle _ hb rfl
  · obtain rfl := Host.Outcome.next.inj (e.symm.trans h)
    exact (writeElem_restingOk (hs.resting hb) b _ v).progressOk
  · obtain rfl := Host.Outcome.next.inj (e.symm.trans h)
    exact hp

theorem hostRd_progressOk {c : Config} (hs : s.consistent c) (hp : s.progressOk c)
    (space : BitVec 4) (index : BitVec 28) : (hostRd c space index s).progressOk c := by
  rcases hostRd_cases c space index s with ⟨p, e⟩ | ⟨-, e⟩ <;> rw [e]
  · have hr := (hs.raise p).progressOk
    exact hr.withHost (s.raise p).port 0#32 (s.raise p).abortReq (s.raise p).ticks
  · exact hp.withHost s.port _ s.abortReq s.ticks

theorem transact_progressOk {x : Txn} (hs : s.consistent Config.block)
    (hp : s.progressOk Config.block) (h : transact Config.block exec x s = .next t) :
    t.progressOk Config.block := by
  cases x with
  | rd space index =>
    rw [← Host.Outcome.next.inj h]
    exact hostRd_progressOk hs hp space index
  | wr space index v => exact hostWr_progressOk hs hp h
  | reset =>
    rw [← Host.Outcome.next.inj h]
    exact (State.resetBlock_restingOk _ s).progressOk

/-- Every step keeps it. -/
theorem step_progressOk (hs : s.consistent Config.block) (hp : s.progressOk Config.block)
    (h : step s = .next t) : t.progressOk Config.block := by
  rcases step_cases h with rfl | ⟨i, hb, hr, rfl⟩ | ⟨e, rest, -, h⟩
  · exact hp
  · exact drain_progressOk (hs.running hb hr) hp _
  · exact transact_progressOk (hs.withHost rest s.rdata s.abortReq s.ticks)
      (hp.withHost rest s.rdata s.abortReq s.ticks) h

end Steps

end Sys2Proof.Machine
end

section
/-!
PROOFS. What an abort request does to SEQ.DECBUF: it ends the processing of candidates at the next
boundary, and COLLECT follows with the results so far (47_sequencer.md rule R248, 60_exceptions.md rule
R282).
-/

namespace Sys2Proof.Machine

section Abort

variable {c : Config} {s : State}

/-- In COLLECT one internal step is left (R245). -/
theorem drain_decbufTick_of_collect (m : Nat) (hb : s.busy = true) (hq : s.quiet = true)
    (hp : s.phase = .collect) :
    drain (decbufTick c) (m + 1) s = decbufCollect c { s with ticks := s.ticks + 1 } := by
  rw [drain_succ m hb hq, decbufTick_of_collect (u := { s with ticks := s.ticks + 1 }) hp]
  exact drain_of_idle m rfl

/-- At a candidate boundary a request leaves the candidates from CIDX on, and COLLECT follows (R248). -/
theorem drain_decbufTick_of_request (m : Nat) (hb : s.busy = true) (hq : s.quiet = true)
    (hp : s.phase = .demod) (ha : s.abortReq = true) :
    drain (decbufTick c) (m + 2) s =
      decbufCollect c { s with phase := .collect, ticks := s.ticks + 2 } := by
  have htick : decbufTick c { s with ticks := s.ticks + 1 } =
      { s with phase := .collect, ticks := s.ticks + 1 } := by
    simp only [decbufTick, hp, ha, if_true]
  rw [drain_succ _ hb hq, htick]
  exact drain_decbufTick_of_collect m (s := { s with phase := .collect, ticks := s.ticks + 1 })
    hb hq rfl

/-- A search that finds nothing is followed by COLLECT (R245). -/
theorem drain_decbufTick_of_silence (hc : c.Lawful) (m : Nat) (hb : s.busy = true)
    (hq : s.quiet = true) (hp : s.phase = .search) (h : searchResult c s = []) :
    ∃ v, drain (decbufTick c) (m + 2) s = decbufCollect c v ∧ v.cidx = v.ncand.toNat ∧
      v.acc = [] := by
  let u : State := { s with ticks := s.ticks + 1 }
  have hncand : (u.searched c).ncand.toNat = 0 :=
    (toNat_ncand_searchResult hc u).trans (congrArg List.length h)
  obtain ⟨-, -, -, -, hport, -, hbusy, -⟩ :=
    State.session_eq_iff.1 (State.toBoundary_session (u := u.searched c))
  have hphase : (u.searched c).toBoundary.phase = .collect := by
    rcases (u.searched c).toBoundary_cases with ⟨hlt, -⟩ | ⟨-, hcol⟩
    · rw [hncand] at hlt
      exact absurd hlt (Nat.not_lt_zero _)
    · exact hcol
  refine ⟨{ (u.searched c).toBoundary with ticks := (u.searched c).toBoundary.ticks + 1 },
    ?_, ?_, ?_⟩
  · rw [drain_succ _ hb hq, decbufTick_of_search (u := u) hp]
    exact drain_decbufTick_of_collect m (hbusy.trans hb) ((State.quiet_congr hport).trans hq) hphase
  · show (u.searched c).toBoundary.cidx = (u.searched c).toBoundary.ncand.toNat
    rw [State.toBoundary_cidx, State.toBoundary_ncand, hncand]
    rfl
  · exact (u.searched c).toBoundary_acc

theorem collect_nil (c : Config) : collect c [] = [] := by simp [collect, keepFirst]

/-- SEQ.DECBUF in the last candidate past its boundary, or in COLLECT: there is no boundary to come. -/
theorem State.finishing_of_last (h : s.decbufOk c)
    (hlast : (s.phase.ofCandidate ∧ s.phase ≠ .demod ∧ s.cidx + 1 = s.ncand.toNat) ∨
      (s.phase = .collect ∧ s.cidx = s.ncand.toNat)) : s.finishing c s where
  session := rfl
  phase := hlast.imp_left fun ⟨hp, _, hl⟩ => ⟨hp, by omega⟩
  request _ := by
    rcases hlast with ⟨-, hne, hl⟩ | ⟨hp, hl⟩
    · exact ⟨hne, by omega⟩
    · exact ⟨by simp [hp], by omega⟩
  progress := h

/-- A step in which the running SEQ.DECBUF comes to its COLLECT (R245, R248). -/
theorem step_of_collects {v : State} {a : Bool} {l : List Accepted} (hb : s.busy = true)
    (hr : s.run = some .seqDecbuf) (hq : s.quiet = true)
    (hd : drain (decbufTick Config.block) (decbufFuel Config.block s) s =
      decbufCollect Config.block v)
    (ha : decide (v.cidx < v.ncand.toNat) = a) (hl : v.acc = l) :
    ∃ t, step s = .next t ∧ t.busy = false ∧ t.done = true ∧ t.aborted = a ∧ t.lastErr = 0#8 ∧
      t.holdsResults Config.block (collect Config.block l) := by
  refine ⟨_, (step_of_running hb hr (State.landing_of_quiet hq)).trans
    (congrArg Host.Outcome.next hd), rfl, rfl, ?_, rfl, ?_⟩
  · exact (decbufCollect_aborted Config.block v).trans ha
  · exact hl ▸ decbufCollect_holdsResults Config.block_lawful v

end Abort

/-- Settles O60: the list A by the invariant of every step; the request by the internal steps, which
read it at a boundary only; and the ends by what the run comes to from there. -/
theorem abortEndsAtCandidateBoundary : Obligations.AbortEndsAtCandidateBoundary := by
  refine ⟨State.progressOk_of_run_ne (by simp [State.reset, State.resetFrom]),
    fun s t hs hc hp h => step_progressOk (State.consistent_iff.2 ⟨hs, hc⟩) hp h,
    fun c i s b => tickOf_withAbortReq, fun s hs hc hp hb hr hq => ?_⟩
  have hrun := (State.consistent_iff.2 ⟨hs, hc⟩).running hb hr
  obtain ⟨m, hm⟩ : ∃ m, decbufFuel Config.block s = m + 2 := ⟨_, rfl⟩
  refine ⟨fun hphase ha => ?_, fun hlast => ?_, fun hphase hnone => ?_⟩
  · have hlt := hrun.candidate rfl (.inl hphase)
    refine step_of_collects hb hr hq (hm ▸ drain_decbufTick_of_request m hb hq hphase ha) ?_ ?_
    · exact decide_eq_true hlt
    · exact hp.accepted hr
  · obtain ⟨v, e, hall, hacc⟩ := drain_finishing hb hq hr
      (State.finishing_of_last (hrun.decbufOk hp) hlast) (decbufWork_lt Config.block s)
    exact step_of_collects hb hr hq e (decide_eq_false (by omega)) hacc
  · obtain ⟨v, e, hall, hacc⟩ := drain_decbufTick_of_silence Config.block_lawful m hb hq hphase hnone
    obtain ⟨t, ht, hbusy, hdone, haborted, herr, hvalid, hlen, -⟩ :=
      step_of_collects hb hr hq (hm ▸ e) (decide_eq_false (by omega)) hacc
    have hnres : t.nres = 0#32 := BitVec.eq_of_toNat_eq (by simp [hlen, collect_nil])
    exact ⟨t, ht, hbusy, hdone, haborted, herr, hvalid, hnres⟩

end Sys2Proof.Machine
end

section
/-!
PROOFS. The memories stay in their canonical form: every operation of the state keeps it, so every
internal step does, every host transaction and every step (log entry 2).
-/

namespace Sys2Proof.Machine

/-! ### The state's operations -/

/-- The memories that have a canonical form. -/
def State.memories (s : State) :=
  (s.msg, s.sym, s.llr, s.samp, s.wave, s.spec, s.cand, s.res)

namespace State.memoriesOk

variable {s t : State}

/-- Whatever is no memory may change. -/
theorem congr (h : s.memoriesOk) (e : t.memories = s.memories) : t.memoriesOk := by
  simp only [State.memories, Prod.mk.injEq] at e
  obtain ⟨e1, e2, e3, e4, e5, e6, e7, e8⟩ := e
  exact ⟨e1 ▸ h.msg, e2 ▸ h.sym, e3 ▸ h.llr, e4 ▸ h.samp, e5 ▸ h.wave, e6 ▸ h.spec, e7 ▸ h.cand,
    e8 ▸ h.res⟩

theorem setValid (h : s.memoriesOk) (b : Space) (v : Bool) : (s.setValid b v).memoriesOk :=
  h.congr rfl

theorem complete (h : s.memoriesOk) (o : Code) : (s.complete o).memoriesOk := h.congr rfl

theorem scramble (h : s.memoriesOk) (b : Space) : (s.scramble b).memoriesOk := by
  cases b with
  | msg => exact { h with msg := Mem.wf_any _ _ }
  | sym => exact { h with sym := Mem.wf_any _ _ }
  | llr => exact { h with llr := Mem.wf_any _ _ }
  | samp => exact { h with samp := Mem.wf_any _ _ }
  | wave => exact { h with wave := Mem.wf_any _ _ }
  | spec => exact { h with spec := Mem.wf_any _ _ }
  | cand => exact { h with cand := Mem.wf_any _ _ }
  | res => exact { h with res := Mem.wf_any _ _ }
  | pay | crc | cw => exact h.congr rfl

theorem discard (h : s.memoriesOk) (b : Space) : (s.discard b).memoriesOk :=
  (h.setValid b false).scramble b

theorem discardAll (h : s.memoriesOk) (l : List Space) : (s.discardAll l).memoriesOk :=
  State.discardAll_induct (fun _ b hs => hs.discard b) l s h

theorem discardEncode (h : s.memoriesOk) : s.discardEncode.memoriesOk :=
  (h.discardAll _).congr rfl

theorem discardDecode (h : s.memoriesOk) : s.discardDecode.memoriesOk :=
  (h.discardAll _).congr rfl

theorem putMessage (h : s.memoriesOk) (c : Config) (m : List Word) : (s.putMessage c m).memoriesOk :=
  { h with msg := Mem.wf_ofFn _ _ }

theorem mapSymbols (h : s.memoriesOk) (c : Config) : (s.mapSymbols c).memoriesOk :=
  { h with sym := Mem.wf_ofFn _ _ }

theorem putLlr (h : s.memoriesOk) (c : Config) (k : Candidate) : (s.putLlr c k).memoriesOk :=
  { h with llr := Mem.wf_ofFn _ _ }

theorem putWave (h : s.memoriesOk) (c : Config) (n : Nat) : (s.putWave c n).memoriesOk :=
  { h with wave := Mem.wf_prefixOf _ _ _ }

theorem buildSpec (h : s.memoriesOk) (c : Config) (n : Nat) : (s.buildSpec c n).memoriesOk :=
  { h with spec := Mem.wf_ofFn _ _ }

theorem putCandidates (h : s.memoriesOk) (l : List Candidate) : (s.putCandidates l).memoriesOk :=
  { h with cand := Mem.wf_prefixOf _ _ _ }

theorem putResults (h : s.memoriesOk) (c : Config) (l : List Accepted) :
    (s.putResults c l).memoriesOk :=
  { h with res := Mem.wf_prefixOf _ _ _ }

theorem toBoundary (h : s.memoriesOk) : s.toBoundary.memoriesOk :=
  h.congr (by simp [State.memories])

theorem nextCandidate (h : s.memoriesOk) : s.nextCandidate.memoriesOk :=
  h.congr (by simp [State.memories])

theorem writeElem (h : s.memoriesOk) (b : Space) (i : Nat) (v : Word) :
    (s.writeElem b i v).memoriesOk := by
  cases b with
  | msg => exact { h with msg := Mem.wf_wr i _ h.msg }
  | sym => exact { h with sym := Mem.wf_wr i _ h.sym }
  | llr => exact { h with llr := Mem.wf_wr i _ h.llr }
  | samp => exact { h with samp := Mem.wf_wr i _ h.samp }
  | pay | crc | cw | wave | spec | cand | res => exact h.congr rfl

theorem raise (h : s.memoriesOk) (p : Precond) : (s.raise p).memoriesOk := by
  rcases s.raise_cases p with ⟨-, e⟩ | ⟨-, -, e⟩ | ⟨-, -, i, -, e⟩ <;> rw [e]
  · exact h
  · exact h.congr rfl
  · exact (h.discardAll (touched i)).congr rfl

end State.memoriesOk

/-- No memory has a listed element after a reset (R51). -/
theorem State.memoriesOk_resetBlock (s : State) : s.resetBlock.memoriesOk :=
  ⟨rfl, rfl, rfl, rfl, rfl, rfl, rfl, rfl⟩

/-! ### The internal steps -/

section Ticks

variable {c : Config} {s : State}

theorem bpdTick_memoriesOk (h : s.memoriesOk) : (bpdTick c s).memoriesOk := by
  have hit : (s.iterateBp c).memoriesOk := h.congr rfl
  unfold bpdTick
  split
  · have hw : (s.withConv false).memoriesOk := h.congr rfl
    unfold bpdConfig
    exact (hw.discard .cw).congr rfl
  · dsimp only
    split
    · exact hit.congr rfl
    · split
      · have hw : ((s.iterateBp c).withConv false).scrambleBp.memoriesOk := hit.congr rfl
        unfold bpdExhausted
        exact (hw.discard .cw).congr rfl
      · exact hit

theorem encmsgConfig_memoriesOk (h : s.memoriesOk) : (encmsgConfig s).memoriesOk :=
  (h.discard .wave).discardEncode.complete .config

theorem encmsgTick_memoriesOk (h : s.memoriesOk) : (encmsgTick c s).memoriesOk := by
  unfold encmsgTick
  split
  · -- CFGCHK
    split
    · exact encmsgConfig_memoriesOk h
    · exact h.congr rfl
  · -- PACK
    exact h.congr rfl
  · -- CKSGEN
    exact h.congr rfl
  · -- FECENC
    exact h.congr rfl
  · -- MAP
    exact (h.mapSymbols c).congr rfl
  · -- SYNTH
    split
    · exact encmsgConfig_memoriesOk h
    · exact (h.putWave c _).discardEncode.complete .ok
  · -- no phase of this command
    exact h

theorem decbufConfig_memoriesOk (h : s.memoriesOk) : (decbufConfig s).memoriesOk :=
  (h.discard .res).discardDecode.complete .config

theorem decbufCollect_memoriesOk (h : s.memoriesOk) : (decbufCollect c s).memoriesOk :=
  have ha : ({ s with aborted := decide (s.cidx < s.ncand.toNat) } : State).memoriesOk := h.congr rfl
  (ha.putResults c _).discardDecode.complete .ok

theorem decbufTick_memoriesOk (h : s.memoriesOk) : (decbufTick c s).memoriesOk := by
  have hit : (s.iterateBp c).memoriesOk := h.congr rfl
  unfold decbufTick
  split
  · -- CFGCHK
    split
    · exact decbufConfig_memoriesOk h
    · exact h.congr rfl
  · -- BUILD
    split
    · exact decbufConfig_memoriesOk h
    · have hd : s.dropSession.memoriesOk := h.discardAll _
      exact (hd.buildSpec c _).congr rfl
  · -- SEARCH
    exact State.memoriesOk.toBoundary ((h.putCandidates (searchResult c s)).congr rfl)
  · -- DEMOD: the candidate boundary
    split
    · exact h.congr rfl
    · exact (h.putLlr c (s.candidate s.cidx)).congr rfl
  · -- FECDEC: one iteration
    dsimp only
    split
    · exact hit.congr rfl
    · split
      · exact hit.nextCandidate
      · exact hit
  · -- XTR
    exact h.congr rfl
  · -- CKSVFY
    split
    · exact h.congr rfl
    · exact h.nextCandidate
  · -- UNPACK
    split
    · exact h.nextCandidate
    · exact State.memoriesOk.nextCandidate ((h.putMessage c _).congr rfl)
  · -- COLLECT
    exact decbufCollect_memoriesOk h
  · -- no phase of this command
    exact h

/-- An internal step stores into memories by the state's operations only. -/
theorem tickOf_memoriesOk (c : Config) (i : Instr) (h : s.memoriesOk) :
    (tickOf c i s).memoriesOk := by
  cases i with
  | cksGen | pckPack | encEncode | encXtr | sysNop => exact h.congr rfl
  | cksVfy =>
    change (cksVfyBody c s).memoriesOk
    unfold cksVfyBody
    split <;> exact h.congr rfl
  | pckUnpack =>
    change (pckUnpackBody c s).memoriesOk
    unfold pckUnpackBody
    split
    · have hm : (s.withMalf true).memoriesOk := h.congr rfl
      exact (hm.discard .msg).complete .malformedPayload
    · exact (h.putMessage c _).congr rfl
  | bpdDecode => exact bpdTick_memoriesOk h
  | modMap => exact ((h.mapSymbols c).setValid .sym true).complete .ok
  | modSynth =>
    change (modSynthBody c s).memoriesOk
    unfold modSynthBody
    split
    · exact (h.discard .wave).complete .config
    · exact (h.putWave c _).complete .ok
  | synBuild =>
    have hd : s.dropSession.memoriesOk := h.discardAll _
    change (synBuildBody c s).memoriesOk
    unfold synBuildBody
    split
    · exact hd.complete .config
    · exact (hd.buildSpec c _).complete .ok
  | synSearch =>
    change (synSearchBody c s).memoriesOk
    unfold synSearchBody
    split
    · exact (h.discard .cand).complete .config
    · exact (h.putCandidates _).complete .ok
  | demDemod k => exact ((h.putLlr c (s.candidate k)).setValid .llr true).complete .ok
  | seqEncmsg => exact encmsgTick_memoriesOk h
  | seqDecbuf => exact decbufTick_memoriesOk h
  | sysSrst => exact State.memoriesOk_resetBlock s

theorem startOf_memoriesOk (i : Instr) (h : s.memoriesOk) : (startOf c i s).memoriesOk := by
  rcases startOf_eq c i s with e | e <;> rw [e]
  · exact h
  · exact h.congr rfl

end Ticks

/-! ### Steps -/

section Steps

variable {s t : State}

/-- Every command keeps the form, cut short or not. -/
theorem exec_memoriesOk {i : Instr} (hs : s.memoriesOk) (h : exec i s = .next t) :
    t.memoriesOk := by
  by_cases hi : i = .sysSrst
  · subst hi
    rw [← Host.Outcome.next.inj h]
    unfold sysSrst
    split
    · exact hs.raise _
    · exact State.memoriesOk_resetBlock s
  · exact exec_induct hi h hs.raise (startOf_memoriesOk i (hs.congr rfl))
      fun u hu => tickOf_memoriesOk Config.block i (hu.congr rfl)

theorem issue_memoriesOk {w : Word} (hs : s.memoriesOk) (h : issue exec w s = .next t) :
    t.memoriesOk := by
  unfold issue at h
  split at h
  · split at h
    · exact exec_memoriesOk hs h
    · rwa [← Host.Outcome.next.inj h]
  · split at h
    · rw [← Host.Outcome.next.inj h]
      exact hs.raise _
    · rw [← Host.Outcome.next.inj h]
      exact hs.raise _
    · exact exec_memoriesOk hs h

theorem hostWr_memoriesOk {space : BitVec 4} {index : BitVec 28} {v : Word} (hs : s.memoriesOk)
    (h : hostWr Config.block exec space index v s = .next t) : t.memoriesOk := by
  rcases hostWr_cases Config.block exec space index v s with ⟨p, e⟩ | ⟨-, -, -, e⟩ |
    ⟨-, -, r, e, -⟩ | ⟨-, -, -, e⟩ | ⟨-, -, -, e⟩ | ⟨-, -, b, -, -, e⟩ | ⟨-, e⟩ <;> rw [e] at h
  · exact Host.Outcome.next.inj h ▸ hs.raise p
  · exact issue_memoriesOk hs h
  · exact Host.Outcome.next.inj h ▸ hs.congr rfl
  · exact Host.Outcome.next.inj h ▸ hs.congr rfl
  · exact Host.Outcome.next.inj h ▸ hs.congr rfl
  · exact Host.Outcome.next.inj h ▸ hs.writeElem b _ v
  · exact Host.Outcome.next.inj h ▸ hs

theorem hostRd_memoriesOk (c : Config) (space : BitVec 4) (index : BitVec 28) (hs : s.memoriesOk) :
    (hostRd c space index s).memoriesOk := by
  rcases hostRd_cases c space index s with ⟨p, e⟩ | ⟨-, e⟩ <;> rw [e]
  · exact (hs.raise p).congr rfl
  · exact hs.congr rfl

theorem transact_memoriesOk {x : Txn} (hs : s.memoriesOk)
    (h : transact Config.block exec x s = .next t) : t.memoriesOk := by
  cases x with
  | rd space index => exact Host.Outcome.next.inj h ▸ hostRd_memoriesOk _ space index hs
  | wr space index v => exact hostWr_memoriesOk hs h
  | reset => exact Host.Outcome.next.inj h ▸ State.memoriesOk_resetBlock s

end Steps

/-- Settles O12: a step is a run of internal steps or an outside event, and each keeps the form. -/
theorem memoriesStayCanonical : Obligations.MemoriesStayCanonical := by
  intro s t hs h
  rcases step_cases h with rfl | ⟨i, -, -, rfl⟩ | ⟨e, rest, -, h⟩
  · exact hs
  · exact drain_induct (fun u _ hu => tickOf_memoriesOk Config.block i (hu.congr rfl)) _ s hs
  · exact transact_memoriesOk (s := { s with port := rest }) (hs.congr rfl) h

end Sys2Proof.Machine
end

section
/-!
PROOFS. The fatal fault: the preconditions beside the operand check, and BUSY_ACCESS, which abandons
the running command; that every fault is a next state; and the reset, the way out of it
(60_exceptions.md rules R270, R271 and R273, 70_reset_and_hazards.md rule R296).
-/

namespace Sys2Proof.Machine

/-! ### Reset -/

/-- Settles O5: the event and the command are both `State.resetBlock`. -/
theorem resetAndSoftResetAgree : Obligations.ResetAndSoftResetAgree := by
  refine ⟨fun s e rest hp ht hl => ?_, fun s h => ?_⟩
  · rw [step_of_event hp hl, ht]
    rfl
  · have hsrst : sysSrst s = s.resetBlock := by
      rw [sysSrst, if_neg]
      rcases h with h | h <;> simp [h]
    exact congrArg Host.Outcome.next hsrst

/-! ### Preconditions -/

/-- A command with valid operands whose other check fails takes that fault (R236, R237). -/
theorem exec_of_extraCheck {i : Instr} {s : State} {p : Precond} (hb : s.busy = false)
    (hf : s.fault = false) (hv : ∀ b ∈ sources i, s.isValid b = true)
    (hc : extraCheck Config.block i s = some p) : exec i s = .next (s.faulted p) := by
  have hn : i ≠ .sysNop := by rintro rfl; cases hc
  have hs : i ≠ .sysSrst := by rintro rfl; cases hc
  have hcheck : checkOf Config.block i s = some p := by
    rw [checkOf, (s.firstInvalid_eq_none _).2 hv, Option.none_or, hc]
  rw [exec_eq_meaning, meaning_eq_runCommand _ _ hn hs, runCommand_of_precond hf hb hcheck]

/-- Settles O8: each of the five commands has one check beside its operands'. -/
theorem otherPreconditionsFault : Obligations.OtherPreconditionsFault := by
  refine ⟨fun i s hb hf hi hv hm => ?_, fun i s hb hf hi hv hn => ?_,
    fun cidx s hb hf hspec hcand hn => ?_⟩
  · rcases hi with rfl | rfl <;>
      exact exec_of_extraCheck hb hf (by simpa [sources] using hv) (if_neg (by simp [hm]))
  · rcases hi with rfl | rfl <;>
      exact exec_of_extraCheck hb hf (by simpa [sources] using hv) (if_pos hn)
  · exact exec_of_extraCheck hb hf (by simp [sources, hspec, hcand]) (if_pos hn)

/-! ### Every step has a next state -/

theorem exec_eq_next (i : Instr) (s : State) : ∃ t, exec i s = .next t := by
  cases i <;> exact ⟨_, rfl⟩

theorem issue_eq_next (w : Word) (s : State) : ∃ t, issue exec w s = .next t := by
  unfold issue
  split
  · split
    · exact exec_eq_next _ s
    · exact ⟨_, rfl⟩
  · split
    · exact ⟨_, rfl⟩
    · exact ⟨_, rfl⟩
    · exact exec_eq_next _ s

/-- Every outside event has a next state: the faults are states of the block (R270). -/
theorem transact_eq_next (c : Config) (x : Txn) (s : State) :
    ∃ t, transact c exec x s = .next t := by
  cases x with
  | rd space index => exact ⟨_, rfl⟩
  | wr space index v =>
    rcases hostWr_cases c exec space index v s with ⟨p, e⟩ | ⟨-, -, -, e⟩ | ⟨-, -, r, e, -⟩ |
      ⟨-, -, -, e⟩ | ⟨-, -, -, e⟩ | ⟨-, -, b, -, -, e⟩ | ⟨-, e⟩
    · exact ⟨_, e⟩
    · obtain ⟨t, ht⟩ := issue_eq_next v s
      exact ⟨t, e.trans ht⟩
    all_goals exact ⟨_, e⟩
  | reset => exact ⟨_, rfl⟩

/-- Settles O14: what a busy block goes on with is a recorded command. -/
theorem noStepStopsTheModel : Obligations.NoStepStopsTheModel := by
  intro s hs
  by_cases hl : s.busy = false ∨ s.landing = true
  · cases hp : s.port with
    | nil =>
      have hb : s.busy = false := hl.resolve_right (by simp [State.landing, hp])
      exact ⟨s, step_of_nothing hb hp⟩
    | cons e rest =>
      rw [step_of_event hp hl]
      exact transact_eq_next ..
  · simp only [not_or, Bool.not_eq_false, Bool.not_eq_true] at hl
    obtain ⟨hb, hland⟩ := hl
    obtain ⟨i, hr, -⟩ := hs.running.1 hb
    exact ⟨_, step_of_running hb hr hland⟩

/-! ### What an abandoned command leaves -/

section Abandon

variable {s t : State} {b : Space} {i : Instr}

/-- Buffer `b` is unspecified from one of the draws from `d` on, and its counter, if it has one, 0. -/
def State.blank (d : Nat) (b : Space) (s : State) : Prop :=
  (∃ k, d ≤ k ∧ s.unspecified b k) ∧ ∀ n, s.counterOf b = some n → n = 0#32

theorem State.unspecified_congr {d : Nat} (h : sameBuffer b s t) (hs : s.unspecified b d) :
    t.unspecified b d := by
  cases b <;> exact Eq.trans h hs

theorem State.blank_discard (s : State) (b : Space) : (s.discard b).blank s.draws b := by
  refine ⟨⟨s.draws, le_rfl, ?_⟩, fun n hn => ?_⟩
  · cases b <;> rfl
  · cases b <;> cases hn <;> rfl

/-- Of several buffers discarded each is left blank (R35, R45). -/
theorem State.blank_discardAll {l : List Space} (hb : b ∈ l) : (s.discardAll l).blank s.draws b := by
  induction l generalizing s with
  | nil => cases hb
  | cons a l ih =>
    rw [State.discardAll_cons]
    by_cases hm : b ∈ l
    · obtain ⟨⟨k, hk, hu⟩, hn⟩ := ih (s := s.discard a) hm
      rw [State.discard_draws] at hk
      exact ⟨⟨k, Nat.le_of_succ_le hk, hu⟩, hn⟩
    · obtain rfl : b = a := (List.mem_cons.1 hb).resolve_right hm
      obtain ⟨hsame, -, hcount⟩ :=
        ((State.framed.refl l (s.discard b)).discardAll (List.Subset.refl l)).buffers b hm
      obtain ⟨⟨k, hk, hu⟩, hn⟩ := s.blank_discard b
      exact ⟨⟨k, hk, State.unspecified_congr hsame hu⟩, hcount ▸ hn⟩

/-- What becomes of the buffers, CFG and the port where a command is abandoned (R273). -/
theorem State.abandon_framed (s : State) (i : Instr) : s.framed (touched i) (s.abandon i) :=
  ((State.framed.refl _ s).discardAll (List.Subset.refl _)).congr rfl

theorem State.isValid_abandon (hb : b ∈ touched i) : (s.abandon i).isValid b = false := by
  have h : (s.abandon i).isValid b = (s.discardAll (touched i)).isValid b := rfl
  rw [h, State.isValid_discardAll]
  simp [hb]

theorem State.blank_abandon (hb : b ∈ touched i) : (s.abandon i).blank s.draws b := by
  have h : (s.discardAll (touched i)).blank s.draws b := State.blank_discardAll hb
  cases b <;> exact h

/-- FLAGS, ITER and CONF keep their values where a command is abandoned (R273). -/
theorem State.abandon_flagRegs (s : State) (i : Instr) : (s.abandon i).flagRegs = s.flagRegs := by
  simp [State.abandon, State.flagRegs]

end Abandon

/-! ### BUSY_ACCESS -/

section BusyAccess

variable {s : State} {i : Instr} {space : BitVec 4} {index : BitVec 28}

/-- A read of a running block, other than of STATUS (R66, R270). -/
theorem hostRd_of_busy (c : Config) (hb : s.busy = true) (hf : s.fault = false)
    (hr : s.run = some i) (hne : ¬(space = 0#4 ∧ index = 0x01#28)) :
    hostRd c space index s =
      { (s.abandon i).faulted ⟨.busyAccess, space.setWidth 16⟩ with rdata := 0#32 } := by
  rw [hostRd, if_pos (by simpa [hb] using not_and_or.1 hne), State.raise_of_busy _ hf hb hr]

/-- A write to a running block, other than to ABORT (R67, R270). -/
theorem hostWr_of_busy (c : Config) (run : Commands) (v : Word) (hb : s.busy = true)
    (hf : s.fault = false) (hr : s.run = some i) (hne : ¬(space = 0#4 ∧ index = 0x0C#28)) :
    hostWr c run space index v s =
      .next ((s.abandon i).faulted ⟨.busyAccess, space.setWidth 16⟩) := by
  rw [hostWr, if_pos (by simpa [hb] using not_and_or.1 hne), State.raise_of_busy _ hf hb hr]


/-- The step in which the transaction lands is its fault entry, and a read returns 0 besides. -/
theorem step_of_busyAccess {e : PortEvent} {rest : List PortEvent} (hb : s.busy = true)
    (hf : s.fault = false) (hr : s.run = some i) (hp : s.port = e :: rest)
    (hl : s.landing = true)
    (hx : (∃ index, e.txn = .rd space index ∧ ¬(space = 0#4 ∧ index = 0x01#28)) ∨
      ∃ index v, e.txn = .wr space index v ∧ ¬(space = 0#4 ∧ index = 0x0C#28)) :
    ∃ r : Word, step s = .next
        { (State.abandon i { s with port := rest }).faulted ⟨.busyAccess, space.setWidth 16⟩ with
          rdata := r } ∧
      ((∃ index, e.txn = .rd space index) → r = 0#32) ∧
      ((∃ index v, e.txn = .wr space index v) → r = s.rdata) := by
  rw [step_of_event hp (.inr hl)]
  rcases hx with ⟨index, he, hne⟩ | ⟨index, v, he, hne⟩ <;> rw [he]
  · exact ⟨0#32, congrArg Host.Outcome.next
      (hostRd_of_busy (s := { s with port := rest }) _ hb hf hr hne), fun _ => rfl, by simp⟩
  · exact ⟨_, hostWr_of_busy (s := { s with port := rest }) _ _ v hb hf hr hne, by simp,
      fun _ => (State.abandon_framed { s with port := rest } i).rdata⟩

end BusyAccess

/-- Settles O10: the fault entry abandons the command, which leaves its buffers blank and everything
else alone. -/
theorem busyAccessAbandonsCommand : Obligations.BusyAccessAbandonsCommand := by
  intro s i e rest space hb hf hr hp hl hx
  obtain ⟨r, ht, hrd, hwr⟩ := step_of_busyAccess hb hf hr hp hl hx
  let u : State := { s with port := rest }
  have hframe := u.abandon_framed i
  have hblank := fun b (hm : b ∈ touched i) => State.blank_abandon (s := u) hm
  have hflags := u.abandon_flagRegs i
  simp only [State.flagRegs, Prod.mk.injEq] at hflags
  obtain ⟨hcrc, hconv, hmalf, hiter, hconf⟩ := hflags
  have hword : (u.abandon i).flagsWord = s.flagsWord := by
    rw [State.flagsWord, hcrc, hconv, hmalf]
    rfl
  refine ⟨_, ht, rfl, rfl, rfl, rfl, fun b hm => ⟨State.isValid_abandon hm, ?_⟩,
    fun b hm => ?_, fun b hm => ?_, hword, hiter, hconf, ?_, ?_, rfl, rfl, rfl, rfl, hframe.cfg,
    hframe.port, hrd, hwr⟩
  · obtain ⟨hdraw, -⟩ := hblank b hm
    cases b <;> exact hdraw
  · obtain ⟨-, hcount⟩ := hblank b hm
    cases b <;> exact hcount
  · obtain ⟨hsame, hvalid, hcount⟩ := hframe.buffers b hm
    cases b <;> exact ⟨hvalid, hsame, hcount⟩
  · simp [State.abandon]
  · simp [State.abandon]

end Sys2Proof.Machine
end
